-- ==== Sys2Proof/Word.lean ====
section
/-! DEFINITION. Word: the machine's word types. A Talvin register holds 64 bits, device memory is
addressed by bytes, and an instruction stream is a sequence of 64-bit doublewords (R4, R161). -/

namespace Sys2Proof

/-- A 64-bit register value, address or instruction doubleword. -/
abbrev Word := BitVec 64

/-- The smallest addressable unit of every path. -/
abbrev Byte := BitVec 8

/-- A sparse map with natural-number keys: the listed pairs, keys strictly rising, no listed value
equal to what an unlisted key reads as (Machine/Store.lean holds its operations). -/
abbrev Cells (α : Type) := List (Nat × α)

end Sys2Proof
end

