-- ==== Sys2Proof/Config.lean ====
section
/-! DEFINITION. Config: what one module has fixed and the specification leaves to it (fused values, firmware,
cryptography), and the free values. An opaque constant has no body: a statement about it holds for every
value. Every one is named in a row of notes/assumptions. -/

namespace Sys2Proof.Config

/-- Free value n, a doubleword: what nothing constrains (log 2). -/
opaque freeWord : Nat → Word

/-- Free byte n (log 2). -/
opaque freeByte : Nat → Byte

/-- Byte n of what a peer module answers to a read of its G path (R123, R252, log 15): peer fabric address,
peer job, offset, and a count that tells reads apart. -/
opaque peerByte : Word → Nat → Word → Nat → Byte

/-- Whether the bytes that a peer module returns for a remote read are poisoned (R107, R240, R353; log 15). -/
opaque peerPoison : Word → Nat → Word → Nat → Bool

/-- Kiln firmware version (R225, SYSC service 0; log 8). -/
opaque firmwareVersion : Word

/-- Nanoseconds since the module started, at a cycle (R225, SYSC service 1; log 8). -/
opaque nanoseconds : Nat → Word

/-- Device serial (R362). -/
opaque serial : Word

/-- The fused minimum firmware version (R365). -/
opaque fusedMinVersion : Nat

/-- The hash in a fused key slot 0 to 3, if it is in use and not revoked (R365). -/
opaque fusedKeyHash : Nat → Option (BitVec 384)

/-- SHA-384 (R365, R366; log 9). -/
opaque sha384 : List Byte → BitVec 384

/-- ECDSA P-384 verification: key, digest, signature (R365; log 9). -/
opaque ecdsaVerify : List Byte → BitVec 384 → List Byte → Bool

/-- The fused secret F of 48 bytes (R367). -/
opaque fusedSecret : List Byte

/-- The counter byte from which the derivation of a scalar starts, which R367 does not give (log 9). -/
opaque firstCounter : Byte

/-- The uncompressed point of a P-384 scalar times the base point, 97 bytes (R367; log 9). -/
opaque p384Public : Nat → List Byte

/-- ECDH on P-384: the x-coordinate, 48 bytes, of a scalar times a point of 97 bytes; none for an invalid point (R369;
log 9). -/
opaque ecdhX : Nat → List Byte → Option (List Byte)

/-- ECDSA P-384 signature of a digest under a scalar, r then s (R368; log 9). -/
opaque ecdsaSign : Nat → BitVec 384 → List Byte

end Sys2Proof.Config
end

