-- ==== Sys2Proof/Syntax.lean ====
section
/-! DEFINITION. Syntax: every operation of the opcode table, one constructor of Instr per row. An
instruction of a stream carries its guard and sync field (R162-R164) and, where it is a double, its
semaphore fields (R165). An element operation carries its register codes (R180). The events of hosts,
Kiln, dispatchers and units carry what they act on. -/

namespace Sys2Proof

/-- The four sequencers of a core, in index order (R21). -/
inductive Seq where
  | k | l | c | s
  deriving DecidableEq, Repr, Inhabited

/-- The type codes 0x00 to 0x12 of R65. -/
inductive Ty where
  | i8 | i16 | i32 | i64 | n8 | n16 | n32 | n64 | f16 | bf16 | f32 | f64 | c64
  | e4m3 | e5m2 | e3m2 | e2m3 | e2m1 | mxi8
  deriving DecidableEq, Repr, Inhabited

/-- Rounding modes of R73. -/
inductive RMode where
  | rne | rtz | rup | rdn | sr
  deriving DecidableEq, Repr, Inhabited

/-- Scopes of R127. -/
inductive Scope where
  | seq | core | clu | die | dev | sys
  deriving DecidableEq, Repr, Inhabited

/-- Fence kinds of R132. -/
inductive FenceKind where
  | ll | ls | ss | sl | full
  deriving DecidableEq, Repr, Inhabited

/-- Conditions of R175. -/
inductive Cond where
  | eq | ne | lt | le | gt | ge | ltn | len | gtn | gen
  deriving DecidableEq, Repr, Inhabited

/-- Compare conditions of the element operation FCMP (R301). -/
inductive FCond where
  | eq | ne | lt | le | gt | ge | uo | ord
  deriving DecidableEq, Repr, Inhabited

/-- Atomic operations of R315 that both AMO and AMRED accept. -/
inductive AmOp where
  | add | and | or | xor | min | max | minn | maxn | fadd
  deriving DecidableEq, Repr, Inhabited

/-- Operations of AMO: those of AMRED and swap (R315). -/
inductive AmoOp where
  | plain (op : AmOp) | swap
  deriving DecidableEq, Repr, Inhabited

/-- The ordering of an atomic (R177). -/
inductive AmOrd where
  | none | acq (sc : Scope) | rel (sc : Scope)
  deriving DecidableEq, Repr, Inhabited

/-- The special registers of R206. -/
inductive SReg where
  | coreid | argbase | argptr | entry | stage | jobid | launchid | cont | linkbase | tframe | hvec
  | cycle | freeze | epoch | xvtab | xvpool | coretemp | coredroop | coreproc | dietemp
  deriving DecidableEq, Repr, Inhabited

/-- The eight ports, in the order of their codes (R170). -/
inductive Port where
  | ma | md | ri | ro | pi | po | ci | co
  deriving DecidableEq, Repr, Inhabited

/-- Width code of LD, ST, LDA and STA (R176): log2 of the bytes, and whether a load zero-extends. -/
structure MWidth where
  zext : Bool
  log2 : BitVec 2
  deriving DecidableEq, Repr, Inhabited

/-- Guard and sync field of an instruction (R162-R164). -/
structure Hdr where
  guard : BitVec 5
  gneg : Bool
  pop : BitVec 3
  push : BitVec 3
  deriving DecidableEq, Repr, Inhabited

/-- Semaphore fields of a double (R165). -/
structure Sem where
  waitsem : BitVec 8
  thresh : BitVec 16
  sigsem : BitVec 8
  inc : BitVec 8
  deriving DecidableEq, Repr, Inhabited

/-- A field of an instruction's first doubleword that a wheel may rotate (R168). -/
inductive RotFld where
  | a | b | c
  deriving DecidableEq, Repr, Inhabited

/-- A rotation descriptor of R168; len and pos hold the encoded values, one less than what they mean. -/
structure Rot where
  lenM1 : BitVec 4
  fld : RotFld
  posM1 : BitVec 6
  deriving DecidableEq, Repr, Inhabited

/-- The trip source of a WHEEL (R168). -/
inductive Trip where
  | imm (n : BitVec 18) | reg (r : BitVec 5) | token
  deriving DecidableEq, Repr, Inhabited

/-- Dequantise target of the load half-chain (R241). -/
inductive Dq where
  | none | f32 | bf16 | f16
  deriving DecidableEq, Repr, Inhabited

/-- Destination of TLD (R178). -/
inductive TDst where
  | q (n : BitVec 3) | w (n : BitVec 1)
  deriving DecidableEq, Repr, Inhabited

/-- Options of a load half (R241). tr holds the two transposed levels when the transpose is on. -/
structure LoadHalf where
  conj : Bool
  tr : Option (BitVec 3 × BitVec 3)
  sc : BitVec 5
  dq : Dq
  deriving DecidableEq, Repr, Inhabited

/-- Reduce stage of a store half (R244). -/
inductive Red where
  | none | add | max | min
  deriving DecidableEq, Repr, Inhabited

/-- Options of a store half (R244). -/
structure StoreHalf where
  sc : BitVec 5
  seed : BitVec 5
  ovf : Bool
  mode : RMode
  inTy : Ty
  red : Red
  deriving DecidableEq, Repr, Inhabited

/-- The half that eng[63] of TCPY selects (R248). -/
inductive CpyHalf where
  | load (h : LoadHalf) | store (h : StoreHalf)
  deriving DecidableEq, Repr, Inhabited

/-- An accumulator range as encoded: first line, and line count less one (R170). -/
structure ZRange where
  first : BitVec 11
  cntM1 : BitVec 11
  deriving DecidableEq, Repr, Inhabited

/-- Operation of TRED (R274). -/
inductive RedOp where
  | add | max | min | chain
  deriving DecidableEq, Repr, Inhabited

/-- Lines field of MDRAIN (R265). -/
inductive Lines where
  | f32 | f64 | c64
  deriving DecidableEq, Repr, Inhabited

/-- Target of FCVT (R304). -/
inductive CvtTy where
  | i32 | n32 | f16 | bf16 | f32
  deriving DecidableEq, Repr, Inhabited

/-- Rounding mode of FCVT: those of R73 without the stochastic one (R304). -/
inductive CvtMode where
  | rne | rtz | rup | rdn
  deriving DecidableEq, Repr, Inhabited

/-- Delivery modes of the transport (R350). -/
inductive Delivery where
  | rod | rud | rudi | uud
  deriving DecidableEq, Repr, Inhabited

/-- What every transport operation carries: its port, initiator, 24-bit job identifier, delivery mode, and
its place among the operations of its initiator, identifier and port (R144, R351). -/
structure Xfer where
  port : Fin 12
  initiator : Word
  ident : BitVec 24
  mode : Delivery
  tseq : Nat
  deriving DecidableEq, Repr, Inhabited

/-- Operation of a transport atomic: the set of R315, compare-and-swap, or another that the transport can name
(R355). -/
inductive TAtom where
  | amo (op : AmoOp) | cas (expected : Word) | other
  deriving DecidableEq, Repr, Inhabited

/-- A management request as SEND delivered it: its transport operation, header fields and body (R357). -/
structure Req where
  xfer : Xfer
  opcode : Byte
  tag : BitVec 32
  job : BitVec 32
  reservedZero : Bool
  lenField : BitVec 32
  body : List Byte
  deriving DecidableEq, Repr, Inhabited

/-- Where the patrol scrub works (R370): device memory by physical address, a scratchpad or accumulator
word of a core, or sync engine storage of a die. -/
inductive ScrubLoc where
  | mem (pa : Nat) | scratch (core : Fin 448) (word : Nat) | acc (core : Fin 448) (word : Nat) | sync (die : Fin 8)
  deriving DecidableEq, Repr, Inhabited

/-- Units of a core that execute commands (R23, R237). mac is the macro sequencer. -/
inductive CUnit where
  | mat | red | pass | copy | load | store | mac
  deriving DecidableEq, Repr, Inhabited

/-- Every operation of the opcode table. -/
inductive Instr where
  -- start, ports and transport
  | powerGood
  | pushWindowWrite (t : Xfer) (off : Nat) (data : List Byte)
  | bootctlGo (t : Xfer) (value : Word)
  | firmwareCheckEnd
  | bringupRegisterWrite (t : Xfer) (off : Nat) (data : List Byte)
  | dieMemoryJoin (die : Fin 8)
  | portUp
  | remoteWrite (t : Xfer) (va : Word) (data : List Byte)
  | oiWrite (t : Xfer) (va : Word) (data : List Byte)
  | oiWriteVisible (n : Nat)
  | remoteRead (t : Xfer) (va : Word) (len : Nat)
  | transportAtomic (t : Xfer) (va : Word) (op : TAtom) (width : Nat) (operand : Word) (fetch : Bool)
  | send (t : Xfer) (msg : List Byte)
  -- management
  | attest (r : Req)
  | keyload (r : Req)
  | keyclear (r : Req)
  | jobnew (r : Req)
  | jobend (r : Req)
  | jobendDone (job : Nat)
  | ptset (r : Req)
  | pageTableChangeComplete
  | qset (r : Req)
  | peerset (r : Req)
  | kreg (r : Req)
  | swclear (r : Req)
  | mgrant (r : Req)
  | telem (r : Req)
  -- background activity
  | powerLimitTick (power : Word) (temps : List (BitVec 16))
  | thermalStop (die : Fin 8)
  | patrolScrub (loc : ScrubLoc) (uncorrectable : Bool)
  | memoryRetraining (die : Fin 8) (channel : Nat)
  | freezeEnd (core : Fin 448)
  -- packets and work
  | queuePollTick
  | packetReread (queue : Nat)
  | nopPacket (queue : Nat)
  | launchPacket (queue : Nat)
  | graphPacket (queue : Nat)
  | transformPacket (queue : Nat)
  | waitcnt (queue : Nat)
  | signalPacket (queue : Nat)
  | fencePacket (queue : Nat)
  | packetComplete (queue : Nat) (seq : BitVec 32)
  | launchStart (job launch : Nat)
  | initialEntryFill (job launch : Nat)
  | grantPass (die : Fin 8)
  | redivisionStep (die : Fin 8)
  | taskStart (core : Fin 448)
  | continuationStart (core : Fin 448)
  | taskEnd (core : Fin 448)
  | launchComplete (job launch : Nat)
  | nodeComplete (job phase graph node : Nat)
  | transformEngineStart (die : Fin 8)
  | transformComplete (die : Fin 8) (engine : Fin 4)
  | phaseBoundary (job : Nat)
  | probeWalk (job launch queue : Nat)
  | preemptionRequest (core : Fin 448)
  | drainTimeout (core : Fin 448)
  | contextSave (core : Fin 448)
  | taskResume (core : Fin 448)
  | watchdog (core : Fin 448)
  | commandRetire (core : Fin 448) (unit : CUnit)
  | latchTake (core : Fin 448) (w : Fin 2)
  | coilBlockRelease (n : Nat)
  | claim (queue : Nat)
  | speculativeDiscard (spec : Nat) (reason : Nat)
  | predictionTimeout (spec : Nat)
  -- common instructions (R173)
  | nop (h : Hdr)
  | br (h : Hdr) (off : BitVec 18)
  | jmp (h : Hdr) (off : BitVec 36)
  | endStream (h : Hdr)
  | tok (h : Hdr)
  | pushv (h : Hdr) (target : Seq) (src : BitVec 6)
  | popv (h : Hdr) (dst : BitVec 6) (source : Seq)
  | swait (h : Hdr) (sem : BitVec 8) (thresh : BitVec 16)
  | swaitReg (h : Hdr) (sem : BitVec 8) (reg : BitVec 6)
  | ssig (h : Hdr) (sem : BitVec 8) (inc : BitVec 8)
  | sset (h : Hdr) (sem : BitVec 8) (value : BitVec 16)
  | ssetReg (h : Hdr) (sem : BitVec 8) (reg : BitVec 6)
  | fence (h : Hdr) (kind : FenceKind) (scope : Scope)
  | mfs (h : Hdr) (dst : BitVec 6) (reg : SReg)
  | mts (h : Hdr) (reg : SReg) (src : BitVec 6)
  | brk (h : Hdr) (code : BitVec 16)
  | wheel (h : Hdr) (bodyM1 iiM1 : BitVec 6) (stagesM1 : BitVec 4) (trip : Trip) (rots : List Rot)
  -- integer instructions of K
  | add (h : Hdr) (d b c : BitVec 6)
  | sub (h : Hdr) (d b c : BitVec 6)
  | mul (h : Hdr) (d b c : BitVec 6)
  | mulh (h : Hdr) (d b c : BitVec 6)
  | mulhn (h : Hdr) (d b c : BitVec 6)
  | div (h : Hdr) (d b c : BitVec 6)
  | divn (h : Hdr) (d b c : BitVec 6)
  | rem (h : Hdr) (d b c : BitVec 6)
  | remn (h : Hdr) (d b c : BitVec 6)
  | and (h : Hdr) (d b c : BitVec 6)
  | or (h : Hdr) (d b c : BitVec 6)
  | xor (h : Hdr) (d b c : BitVec 6)
  | andn (h : Hdr) (d b c : BitVec 6)
  | orn (h : Hdr) (d b c : BitVec 6)
  | shl (h : Hdr) (d b c : BitVec 6)
  | shr (h : Hdr) (d b c : BitVec 6)
  | sar (h : Hdr) (d b c : BitVec 6)
  | rol (h : Hdr) (d b c : BitVec 6)
  | min (h : Hdr) (d b c : BitVec 6)
  | max (h : Hdr) (d b c : BitVec 6)
  | minn (h : Hdr) (d b c : BitVec 6)
  | maxn (h : Hdr) (d b c : BitVec 6)
  | addi (h : Hdr) (d b : BitVec 6) (imm : BitVec 18)
  | andi (h : Hdr) (d b : BitVec 6) (imm : BitVec 18)
  | ori (h : Hdr) (d b : BitVec 6) (imm : BitVec 18)
  | xori (h : Hdr) (d b : BitVec 6) (imm : BitVec 18)
  | shli (h : Hdr) (d b : BitVec 6) (sh : BitVec 6)
  | shri (h : Hdr) (d b : BitVec 6) (sh : BitVec 6)
  | sari (h : Hdr) (d b : BitVec 6) (sh : BitVec 6)
  | li (h : Hdr) (d : BitVec 6) (imm : BitVec 18)
  | lih (h : Hdr) (d : BitVec 6) (imm : BitVec 18)
  | clz (h : Hdr) (d b : BitVec 6)
  | ctz (h : Hdr) (d b : BitVec 6)
  | popc (h : Hdr) (d b : BitVec 6)
  | brev (h : Hdr) (d b : BitVec 6)
  | bswap (h : Hdr) (d b : BitVec 6)
  | ext (h : Hdr) (d b : BitVec 6) (lo widthM1 : BitVec 6)
  | ins (h : Hdr) (d b : BitVec 6) (lo widthM1 : BitVec 6)
  | cmp (h : Hdr) (cond : Cond) (pd : BitVec 5) (b c : BitVec 6)
  | cmpi (h : Hdr) (cond : Cond) (pd : BitVec 5) (b : BitVec 6) (imm : BitVec 18)
  | sel (h : Hdr) (d b c : BitVec 6) (pn : BitVec 5)
  | pand (h : Hdr) (pd pa pb : BitVec 5)
  | por (h : Hdr) (pd pa pb : BitVec 5)
  | pxor (h : Hdr) (pd pa pb : BitVec 5)
  | pandn (h : Hdr) (pd pa pb : BitVec 5)
  | pnot (h : Hdr) (pd pa : BitVec 5)
  | pmov (h : Hdr) (pd pa : BitVec 5)
  | call (h : Hdr) (d : BitVec 6) (off : BitVec 18)
  | callr (h : Hdr) (d b : BitVec 6)
  | ret (h : Hdr) (b : BitVec 6)
  | jmpr (h : Hdr) (b : BitVec 6)
  | ld (h : Hdr) (acq : Option Scope) (w : MWidth) (d b : BitVec 6) (disp : BitVec 18)
  | st (h : Hdr) (rel : Option Scope) (w : MWidth) (src b : BitVec 6) (disp : BitVec 18)
  | stCoil (h : Hdr) (w : MWidth) (src b c : BitVec 6) (off : BitVec 18)
  | ldm (h : Hdr) (acq : Option Scope) (zext : Bool) (f b cntM1 : BitVec 6) (disp : BitVec 18)
  | stm (h : Hdr) (rel : Option Scope) (zext : Bool) (f b cntM1 : BitVec 6) (disp : BitVec 18)
  | trap (h : Hdr) (code : BitVec 8)
  | hset (h : Hdr) (b : BitVec 6) (classes : BitVec 3)
  | resume (h : Hdr)
  | sysc (h : Hdr) (d b : BitVec 6) (service : BitVec 12)
  -- synchronisation, coil and work instructions of K
  | amo (h : Hdr) (op : AmoOp) (ord : AmOrd) (w4 : Bool) (d b c : BitVec 6)
  | amoc (h : Hdr) (ord : AmOrd) (w4 : Bool) (a b c : BitVec 6)
  | amred (h : Hdr) (op : AmOp) (rel : Option Scope) (w4 : Bool) (b c : BitVec 6)
  | avec (h : Hdr) (isAdd bits : Bool) (rel : Option Scope) (cntM1 : BitVec 6) (b c : BitVec 6)
  | waita (h : Hdr) (cond : Cond) (w4 : Bool) (a b c : BitVec 6)
  | siga (h : Hdr) (b : BitVec 6)
  | bari (h : Hdr) (b c : BitVec 6)
  | bara (h : Hdr) (b : BitVec 6)
  | bard (h : Hdr) (b : BitVec 6)
  | barw (h : Hdr) (b c : BitVec 6)
  | afence (h : Hdr) (b c : BitVec 6)
  | cnew (h : Hdr) (d : BitVec 6) (size : BitVec 4)
  | cres (h : Hdr) (d b c : BitVec 6)
  | caddr (h : Hdr) (d b c : BitVec 6)
  | ccommit (h : Hdr) (a b c : BitVec 6)
  | clen (h : Hdr) (d b : BitVec 6)
  | cfork (h : Hdr) (d b c : BitVec 6)
  | cdrop (h : Hdr) (b : BitVec 6)
  | cinfo (h : Hdr) (d b : BitVec 6) (word : BitVec 4)
  | sqpush (h : Hdr) (b c : BitVec 6) (queue : BitVec 4)
  | yield (h : Hdr)
  | launch (h : Hdr) (b c : BitVec 6)
  | cancel (h : Hdr) (b : BitVec 6) (level : BitVec 2)
  | ccnt (h : Hdr) (d b : BitVec 6) (level : BitVec 2)
  | plan (h : Hdr) (a b c : BitVec 6)
  | phint (h : Hdr) (b : BitVec 6) (policy : BitVec 2)
  -- L and S
  | aadd (h : Hdr) (d b c : BitVec 5)
  | asub (h : Hdr) (d b c : BitVec 5)
  | amul (h : Hdr) (d b c : BitVec 5)
  | amadd (h : Hdr) (d b c : BitVec 5)
  | amov (h : Hdr) (d b : BitVec 5)
  | aaddi (h : Hdr) (d b : BitVec 5) (imm : BitVec 18)
  | ashli (h : Hdr) (d b : BitVec 5) (sh : BitVec 6)
  | ali (h : Hdr) (d : BitVec 5) (imm : BitVec 18)
  | alih (h : Hdr) (d : BitVec 5) (imm : BitVec 18)
  | acmp (h : Hdr) (cond : Cond) (pd b c : BitVec 5)
  | acmpi (h : Hdr) (cond : Cond) (pd b : BitVec 5) (imm : BitVec 18)
  | lda (h : Hdr) (w : MWidth) (d b : BitVec 5) (disp : BitVec 18)
  | sta (h : Hdr) (w : MWidth) (src b : BitVec 5) (disp : BitVec 18)
  | mapset (h : Hdr) (m : BitVec 4) (payload : BitVec 192)
  | mapofs (h : Hdr) (m : BitVec 4) (b : BitVec 5)
  | tld (h : Hdr) (f : Sem) (ty : Ty) (dst : TDst) (m : BitVec 4) (c : BitVec 5) (disp : BitVec 18) (o : LoadHalf)
  | tst (h : Hdr) (f : Sem) (ty : Ty) (o : BitVec 3) (m : BitVec 4) (c : BitVec 5) (disp : BitVec 18) (sh : StoreHalf)
  | tstCoil (h : Hdr) (f : Sem) (ty : Ty) (o : BitVec 3) (m : BitVec 4) (c : BitVec 5) (slot : BitVec 5) (sh : StoreHalf)
  | tcpy (h : Hdr) (f : Sem) (ty : Ty) (d : BitVec 5) (m : BitVec 4) (c : BitVec 5) (ci co : BitVec 6) (half : CpyHalf)
  | tgth (h : Hdr) (f : Sem) (ty : Ty) (q : BitVec 3) (m : BitVec 4) (c : BitVec 5) (disp : BitVec 18) (lvl : BitVec 3) (idx : BitVec 5)
  | tsct (h : Hdr) (f : Sem) (ty : Ty) (o : BitVec 3) (m : BitVec 4) (c : BitVec 5) (disp : BitVec 18) (lvl : BitVec 3) (idx : BitVec 5)
  | tzero (h : Hdr) (f : Sem) (ty : Ty) (m : BitVec 4) (c : BitVec 5) (disp : BitVec 18)
  | tprf (h : Hdr) (ty : Ty) (m : BitVec 4) (c : BitVec 5) (disp : BitVec 18)
  | rcpyWr (h : Hdr) (f : Sem) (r : BitVec 5) (m : BitVec 4) (c : BitVec 5) (log2 : BitVec 2)
  | rcpyRd (h : Hdr) (f : Sem) (r : BitVec 5) (m : BitVec 4) (c : BitVec 5) (log2 : BitVec 2)
  | rsig (h : Hdr) (b c : BitVec 5)
  | caddrLs (h : Hdr) (d b c : BitVec 5)
  -- C
  | mlw (h : Hdr) (f : Sem) (ty : Ty) (w : BitVec 1) (q : BitVec 3)
  | mma (h : Hdr) (f : Sem) (ty : Ty) (ow : Bool) (w : BitVec 1) (q : BitVec 3) (slot : BitVec 6) (z : ZRange)
  | mmac (h : Hdr) (f : Sem) (ty : Ty) (ow : Bool) (w : BitVec 1) (slot : BitVec 6) (z : ZRange) (src : BitVec 11)
  | mzero (h : Hdr) (f : Sem) (ty : Ty) (z : ZRange)
  | mdrain (h : Hdr) (f : Sem) (ty : Ty) (o : BitVec 3) (slot : BitVec 6) (z : ZRange) (lines : Lines)
  | mdrainx (h : Hdr) (f : Sem) (ty : Ty) (mem : BitVec 3) (slot : BitVec 6) (z : ZRange) (peer : BitVec 11)
  | mfact (h : Hdr) (f : Sem) (ty : Ty) (z : ZRange) (piv : BitVec 11)
  | mstat (h : Hdr) (code : BitVec 3)
  | tred (h : Hdr) (f : Sem) (ty : Ty) (o q : BitVec 3) (ri ro : BitVec 6) (op : RedOp) (levels : BitVec 3)
  | tpass (h : Hdr) (f : Sem) (ty : Ty) (o q : BitVec 3) (pi po : BitVec 6)
  | attn (h : Hdr) (f : Sem) (blk : BitVec 13)
  | attnm (h : Hdr) (f : Sem) (blk : BitVec 13)
  | pbind (h : Hdr) (slot : BitVec 6) (rec : BitVec 18)
  | pbindTable (h : Hdr) (table : BitVec 2) (rec : BitVec 18)
  | pstate (h : Hdr) (port : BitVec 3) (k : BitVec 3)
  -- element operations (R181)
  | fadd (d a b : BitVec 4)
  | fsub (d a b : BitVec 4)
  | fmul (d a b : BitVec 4)
  | ffma (d a b c : BitVec 4)
  | fmax (d a b : BitVec 4)
  | fmin (d a b : BitVec 4)
  | fabs (d a : BitVec 4)
  | fneg (d a : BitVec 4)
  | fcmp (d a b : BitVec 4) (cond : FCond)
  | fsel (d a b c : BitVec 4)
  | frcp (d a : BitVec 4)
  | frsq (d a : BitVec 4)
  | fexp2 (d a : BitVec 4)
  | flog2 (d a : BitVec 4)
  | fcvt (d a : BitVec 4) (t : CvtTy) (r : CvtMode)
  | tbl (d a : BitVec 4) (t : BitVec 2)
  | iadd (d a b : BitVec 4)
  | isub (d a b : BitVec 4)
  | imul (d a b : BitVec 4)
  | iand (d a b : BitVec 4)
  | ior (d a b : BitVec 4)
  | ixor (d a b : BitVec 4)
  | ishl (d a b : BitVec 4)
  | ishr (d a b : BitVec 4)
  | kld (d a : BitVec 4)
  | kst (d a : BitVec 4)
  | lag (d a : BitVec 4) (dist : BitVec 2)
  | emit (a : BitVec 4)
  | emitLast (a : BitVec 4)
  | tap (a : BitVec 4) (q : BitVec 3)
  | drop (a : BitVec 4)
  | eflt (a : BitVec 4) (code : BitVec 7)
  | efltFp (mask : BitVec 5)
  deriving DecidableEq, Repr, Inhabited

end Sys2Proof
end

