-- ==== Sys2Proof/Machine/TypeCodes.lean ====
section
/-! DEFINITION. Machine/TypeCodes: the codes of the enumerations that instruction fields hold, and the
facts of the type table R65. A decoder reads a code with ofCode, which answers none for an unassigned
code; an encoder writes it with code. -/

namespace Sys2Proof

/-- Type codes of R65. -/
def Ty.code : Ty → BitVec 5
  | .i8 => 0x00 | .i16 => 0x01 | .i32 => 0x02 | .i64 => 0x03
  | .n8 => 0x04 | .n16 => 0x05 | .n32 => 0x06 | .n64 => 0x07
  | .f16 => 0x08 | .bf16 => 0x09 | .f32 => 0x0A | .f64 => 0x0B | .c64 => 0x0C
  | .e4m3 => 0x0D | .e5m2 => 0x0E | .e3m2 => 0x0F | .e2m3 => 0x10 | .e2m1 => 0x11 | .mxi8 => 0x12

/-- Codes 0x13 to 0x1F select no type (R65). -/
def Ty.fromNat : Nat → Option Ty
  | 0 => some .i8 | 1 => some .i16 | 2 => some .i32 | 3 => some .i64
  | 4 => some .n8 | 5 => some .n16 | 6 => some .n32 | 7 => some .n64
  | 8 => some .f16 | 9 => some .bf16 | 10 => some .f32 | 11 => some .f64 | 12 => some .c64
  | 13 => some .e4m3 | 14 => some .e5m2 | 15 => some .e3m2 | 16 => some .e2m3 | 17 => some .e2m1
  | 18 => some .mxi8 | _ => none

def Ty.ofCode (c : BitVec 5) : Option Ty := Ty.fromNat c.toNat

/-- Width in bits of one element (R65). -/
def Ty.bits : Ty → Nat
  | .i8 | .n8 | .e4m3 | .e5m2 | .mxi8 => 8
  | .i16 | .n16 | .f16 | .bf16 => 16
  | .i32 | .n32 | .f32 => 32
  | .i64 | .n64 | .f64 => 64
  | .c64 => 128
  | .e3m2 | .e2m3 => 6
  | .e2m1 => 4

/-- The MX element types: those that travel in blocks with an E8M0 scale (R72). -/
def Ty.isMx : Ty → Bool
  | .e4m3 | .e5m2 | .e3m2 | .e2m3 | .e2m1 | .mxi8 => true
  | .i8 | .i16 | .i32 | .i64 | .n8 | .n16 | .n32 | .n64 | .f16 | .bf16 | .f32 | .f64 | .c64 => false

/-- Weight formats of R24, which are also the activation formats of R82. -/
def Ty.isWeight : Ty → Bool
  | .f16 | .bf16 | .f32 | .f64 | .c64 | .e4m3 | .e5m2 | .e3m2 | .e2m3 | .e2m1 | .mxi8 => true
  | .i8 | .i16 | .i32 | .i64 | .n8 | .n16 | .n32 | .n64 => false

/-- Element types that a port program accepts (R257). -/
def Ty.portOk : Ty → Bool
  | .f16 | .bf16 | .f32 | .i32 | .n32 => true
  | .i8 | .i16 | .i64 | .n8 | .n16 | .n64 | .f64 | .c64 | .e4m3 | .e5m2 | .e3m2 | .e2m3 | .e2m1 | .mxi8 => false

/-- Rounding modes of R73; codes 5 to 7 are refused. -/
def RMode.code : RMode → BitVec 3
  | .rne => 0 | .rtz => 1 | .rup => 2 | .rdn => 3 | .sr => 4

def RMode.ofCode (c : BitVec 3) : Option RMode :=
  match c.toNat with
  | 0 => some .rne | 1 => some .rtz | 2 => some .rup | 3 => some .rdn | 4 => some .sr | _ => none

/-- Scopes of R127; codes 6 and 7 are refused. -/
def Scope.code : Scope → BitVec 3
  | .seq => 0 | .core => 1 | .clu => 2 | .die => 3 | .dev => 4 | .sys => 5

def Scope.ofCode (c : BitVec 3) : Option Scope :=
  match c.toNat with
  | 0 => some .seq | 1 => some .core | 2 => some .clu | 3 => some .die | 4 => some .dev | 5 => some .sys
  | _ => none

/-- Fence kinds of R132; codes 5 to 7 are refused. -/
def FenceKind.code : FenceKind → BitVec 3
  | .ll => 0 | .ls => 1 | .ss => 2 | .sl => 3 | .full => 4

def FenceKind.ofCode (c : BitVec 3) : Option FenceKind :=
  match c.toNat with
  | 0 => some .ll | 1 => some .ls | 2 => some .ss | 3 => some .sl | 4 => some .full | _ => none

/-- Condition minors of R175; codes 0x0A to 0xFF are unassigned. -/
def Cond.code : Cond → BitVec 8
  | .eq => 0 | .ne => 1 | .lt => 2 | .le => 3 | .gt => 4 | .ge => 5
  | .ltn => 6 | .len => 7 | .gtn => 8 | .gen => 9

def Cond.ofCode (c : BitVec 8) : Option Cond :=
  match c.toNat with
  | 0 => some .eq | 1 => some .ne | 2 => some .lt | 3 => some .le | 4 => some .gt | 5 => some .ge
  | 6 => some .ltn | 7 => some .len | 8 => some .gtn | 9 => some .gen | _ => none

/-- Conditions of FCMP (R181): all eight codes are assigned. -/
def FCond.code : FCond → BitVec 3
  | .eq => 0 | .ne => 1 | .lt => 2 | .le => 3 | .gt => 4 | .ge => 5 | .uo => 6 | .ord => 7

def FCond.ofCode (c : BitVec 3) : FCond :=
  match c.toNat with
  | 0 => .eq | 1 => .ne | 2 => .lt | 3 => .le | 4 => .gt | 5 => .ge | 6 => .uo | _ => .ord

/-- Operations of AMRED (R177): code 8 and codes 10 to 15 are unassigned. -/
def AmOp.code : AmOp → BitVec 4
  | .add => 0 | .and => 1 | .or => 2 | .xor => 3 | .min => 4 | .max => 5 | .minn => 6 | .maxn => 7
  | .fadd => 9

def AmOp.ofCode (c : BitVec 4) : Option AmOp :=
  match c.toNat with
  | 0 => some .add | 1 => some .and | 2 => some .or | 3 => some .xor | 4 => some .min | 5 => some .max
  | 6 => some .minn | 7 => some .maxn | 9 => some .fadd | _ => none

/-- Operations of AMO (R177): codes 10 to 15 are unassigned. -/
def AmoOp.code : AmoOp → BitVec 4
  | .plain op => op.code
  | .swap => 8

def AmoOp.ofCode (c : BitVec 4) : Option AmoOp :=
  if c = 8 then some .swap else (AmOp.ofCode c).map .plain

/-- The ordering field minor[5:4] and its scope (R177). -/
def AmOrd.code : AmOrd → BitVec 2
  | .none => 0 | .acq _ => 1 | .rel _ => 2

def AmOrd.scopeCode : AmOrd → BitVec 3
  | .none => 0 | .acq s => s.code | .rel s => s.code

/-- Special register numbers of R206. -/
def SReg.code : SReg → BitVec 12
  | .coreid => 0x000 | .argbase => 0x001 | .argptr => 0x002 | .entry => 0x003 | .stage => 0x004
  | .jobid => 0x005 | .launchid => 0x006 | .cont => 0x007 | .linkbase => 0x008 | .tframe => 0x009
  | .hvec => 0x00A | .cycle => 0x010 | .freeze => 0x011 | .epoch => 0x012
  | .xvtab => 0x018 | .xvpool => 0x019
  | .coretemp => 0x020 | .coredroop => 0x021 | .coreproc => 0x022 | .dietemp => 0x023

def SReg.fromNat : Nat → Option SReg
  | 0x000 => some .coreid | 0x001 => some .argbase | 0x002 => some .argptr | 0x003 => some .entry
  | 0x004 => some .stage | 0x005 => some .jobid | 0x006 => some .launchid | 0x007 => some .cont
  | 0x008 => some .linkbase | 0x009 => some .tframe | 0x00A => some .hvec
  | 0x010 => some .cycle | 0x011 => some .freeze | 0x012 => some .epoch
  | 0x018 => some .xvtab | 0x019 => some .xvpool
  | 0x020 => some .coretemp | 0x021 => some .coredroop | 0x022 => some .coreproc | 0x023 => some .dietemp
  | _ => none

/-- Sequencer indices of R21. -/
def Seq.idx : Seq → Nat
  | .k => 0 | .l => 1 | .c => 2 | .s => 3

def Seq.fromNat : Nat → Option Seq
  | 0 => some .k | 1 => some .l | 2 => some .c | 3 => some .s | _ => none

/-- The neighbour that bit j of a pop or push field names (R163). -/
def Seq.neighbour : Seq → Nat → Option Seq
  | .k, 0 => some .l | .k, 1 => some .c | .k, 2 => some .s
  | .l, 0 => some .k | .l, 1 => some .c | .l, 2 => some .s
  | .c, 0 => some .k | .c, 1 => some .l | .c, 2 => some .s
  | .s, 0 => some .k | .s, 1 => some .l | .s, 2 => some .c
  | _, _ => none

/-- The bit of a pop or push field that names a neighbour (R163). -/
def Seq.bitOf : Seq → Seq → Option Nat
  | .k, .l => some 0 | .k, .c => some 1 | .k, .s => some 2
  | .l, .k => some 0 | .l, .c => some 1 | .l, .s => some 2
  | .c, .k => some 0 | .c, .l => some 1 | .c, .s => some 2
  | .s, .k => some 0 | .s, .l => some 1 | .s, .c => some 2
  | .k, .k => none | .l, .l => none | .c, .c => none | .s, .s => none

/-- Port codes of R170. -/
def Port.idx : Port → Nat
  | .ma => 0 | .md => 1 | .ri => 2 | .ro => 3 | .pi => 4 | .po => 5 | .ci => 6 | .co => 7

def Port.fromNat : Nat → Option Port
  | 0 => some .ma | 1 => some .md | 2 => some .ri | 3 => some .ro
  | 4 => some .pi | 5 => some .po | 6 => some .ci | 7 => some .co | _ => none

/-- Dequantise targets of R241. -/
def Dq.code : Dq → BitVec 3
  | .none => 0 | .f32 => 1 | .bf16 => 2 | .f16 => 3

def Dq.ofCode (c : BitVec 3) : Option Dq :=
  match c.toNat with
  | 0 => some .none | 1 => some .f32 | 2 => some .bf16 | 3 => some .f16 | _ => Option.none

/-- Reduce field of R244. -/
def Red.code : Red → BitVec 2
  | .none => 0 | .add => 1 | .max => 2 | .min => 3

def Red.ofCode (c : BitVec 2) : Red :=
  match c.toNat with
  | 0 => .none | 1 => .add | 2 => .max | _ => .min

/-- Operation field of TRED (R274). -/
def RedOp.code : RedOp → BitVec 2
  | .add => 0 | .max => 1 | .min => 2 | .chain => 3

def RedOp.ofCode (c : BitVec 2) : RedOp :=
  match c.toNat with
  | 0 => .add | 1 => .max | 2 => .min | _ => .chain

/-- Lines field of MDRAIN (R265); 3 is refused. -/
def Lines.code : Lines → BitVec 2
  | .f32 => 0 | .f64 => 1 | .c64 => 2

def Lines.ofCode (c : BitVec 2) : Option Lines :=
  match c.toNat with
  | 0 => some .f32 | 1 => some .f64 | 2 => some .c64 | _ => none

/-- The pairs of lines and result type that MDRAIN permits (R265). -/
def Lines.permits : Lines → Ty → Bool
  | .f32, .f32 | .f32, .bf16 | .f32, .f16 => true
  | .f64, .f64 | .f64, .f32 => true
  | .c64, .c64 => true
  | _, _ => false

/-- Targets of FCVT, as type codes (R304). -/
def CvtTy.code : CvtTy → BitVec 5
  | .i32 => 0x02 | .n32 => 0x06 | .f16 => 0x08 | .bf16 => 0x09 | .f32 => 0x0A

def CvtTy.ofCode (c : BitVec 5) : Option CvtTy :=
  match c.toNat with
  | 2 => some .i32 | 6 => some .n32 | 8 => some .f16 | 9 => some .bf16 | 10 => some .f32 | _ => none

/-- Rounding modes FCVT accepts (R304). -/
def CvtMode.code : CvtMode → BitVec 3
  | .rne => 0 | .rtz => 1 | .rup => 2 | .rdn => 3

def CvtMode.ofCode (c : BitVec 3) : Option CvtMode :=
  match c.toNat with
  | 0 => some .rne | 1 => some .rtz | 2 => some .rup | 3 => some .rdn | _ => none

/-- Rotated field codes of R168; 3 is refused. -/
def RotFld.code : RotFld → BitVec 2
  | .a => 0 | .b => 1 | .c => 2

def RotFld.ofCode (c : BitVec 2) : Option RotFld :=
  match c.toNat with
  | 0 => some .a | 1 => some .b | 2 => some .c | _ => none

/-- Number of accumulator lines a range names, from 1 (R170). -/
def ZRange.count (z : ZRange) : Nat := z.cntM1.toNat + 1

/-- Two line ranges of one length share a line. -/
def linesOverlap (a b n : Nat) : Bool := a < b + n && b < a + n

/-- Alignment in lines of a row of an accumulator type: four for the FP32 line mode, one otherwise
(R120). -/
def Ty.rowLines : Ty → Nat
  | .f64 | .c64 => 1
  | .i8 | .i16 | .i32 | .i64 | .n8 | .n16 | .n32 | .n64 | .f16 | .bf16 | .f32
  | .e4m3 | .e5m2 | .e3m2 | .e2m3 | .e2m1 | .mxi8 => 4

/-- A range from a first line with a line count stays within the store and keeps the row alignment of
R120 and R256. -/
def rangeOk (first count rowLines : Nat) : Bool :=
  first + count ≤ 2048 && first % rowLines == 0 && count % rowLines == 0

end Sys2Proof
end

