-- ==== Sys2Proof/Machine/State.lean ====
section
/-! DEFINITION. Machine/State: everything the specification gives the machine, as plain data, and the
machine before power-good. A sparse map (Cells) lists only what differs from the value its comment gives
for an unlisted key; Machine/Store.lean holds the operations that keep that form. Reset values are those
of INVENTORY.md. -/

namespace Sys2Proof.Machine

/-! ## Ordering -/

/-- A sequencer's local vector, or the copy of one that a token or semaphore carries (R149). -/
structure LVec where
  k : BitVec 23 := 0
  l : BitVec 23 := 0
  c : BitVec 23 := 0
  s : BitVec 23 := 0
  deriving DecidableEq, Repr, Inhabited

/-- A frontier vector of 464 epochs (R149), by frontier index; an unlisted entry is 0. -/
abbrev Frontier := Cells (BitVec 23)

/-- Stamp and tag of a granule (R147), and the job whose access wrote it (the model's own record of what
R156 and R157 clear). Stamp 0 is "never written". -/
structure Stamp where
  agent : BitVec 9 := 0
  epoch : BitVec 23 := 0
  tag : BitVec 2 := 0
  job : Nat := 0
  deriving DecidableEq, Repr, Inhabited

/-! ## Tokens, semaphores, maps, queues, latches -/

/-- An entry of a token FIFO (R29): plain, or a value token, with the vector copy of R149. -/
structure Tok where
  val : Option Word := none
  copy : LVec := {}
  deriving DecidableEq, Repr, Inhabited

/-- A counting semaphore (R34) with its vector copy (R149). -/
structure Sema where
  val : BitVec 16 := 0
  copy : LVec := {}
  deriving DecidableEq, Repr, Inhabited

/-- A map register: its payload (R167) and ring start (R233). -/
structure MapReg where
  payload : BitVec 192 := 0
  start : BitVec 14 := 0
  deriving DecidableEq, Repr, Inhabited

/-- The five indices of an element (R234, R255). -/
structure Idx where
  i0 : BitVec 16 := 0
  i1 : BitVec 16 := 0
  i2 : BitVec 16 := 0
  i3 : BitVec 16 := 0
  i4 : BitVec 16 := 0
  deriving DecidableEq, Repr, Inhabited

/-- An element of an operand or result queue (R237, R255). scale is the E8M0 byte of its MX block. -/
structure QElem where
  ty : Ty
  bits : BitVec 128
  scale : Byte := 127
  poison : Bool := false
  idx : Idx := {}
  last : Bool := false
  deriving DecidableEq, Repr, Inhabited

/-- A queue: its elements, head first, and the head's offset in the 16 KiB store (R413). -/
structure Queue where
  elems : List QElem := []
  head : BitVec 17 := 0   -- in bits, modulo 131,072
  deriving DecidableEq, Repr, Inhabited

/-- A latched weight value with its block scale and poison bit (R240, R260). -/
structure TileElem where
  bits : BitVec 128
  scale : Byte := 127
  poison : Bool := false
  deriving DecidableEq, Repr, Inhabited

/-- A weight tile: element n is W[n mod K][n div K] (R243, R260). -/
structure Tile where
  fmt : Ty
  vals : List TileElem
  deriving DecidableEq, Repr, Inhabited

/-- A weight latch: the tile in use, and a loaded tile that waits to be taken (R243). -/
structure Latch where
  cur : Option Tile := none
  pending : Option Tile := none
  deriving DecidableEq, Repr, Inhabited

/-! ## Port programs -/

/-- A 32-bit register of a port program with its poison bit (R292). -/
structure PReg where
  bits : BitVec 32 := 0
  poison : Bool := false
  deriving DecidableEq, Repr, Inhabited

/-- A bound program record (R186). -/
structure Program where
  carry : Nat
  kinit : List (BitVec 32)
  words : List (BitVec 32)
  deriving DecidableEq, Repr, Inhabited

/-- An instance of a program for one command at one port (R291, R294). -/
structure PortInst where
  slot : Nat
  prog : Program
  tables : Cells (List (BitVec 32))   -- the tables bound at issue
  ks : List PReg                      -- k0 to k7
  hist : Cells (List PReg) := []      -- LAG histories by program position, newest first
  chain : Nat := 0                    -- number of the current chain
  count : Nat := 0                    -- elements that have entered
  prev : Option Idx := none           -- indices of the last element that entered
  skip : List (Nat × Nat) := []       -- elements at the port with the operations that they pass over (R406)
  deriving DecidableEq, Repr, Inhabited

/-- The element pass in progress at a port, which the element operations act on (R292, R293). -/
structure Pass where
  port : Port
  inst : PortInst
  es : List PReg                -- e0 to e7
  cond : BitVec 5 := 0          -- condition record
  drop : Bool := false
  elem : QElem                  -- the entering element
  lastOfChain : Bool := false   -- it is the last element of its chain
  lastOfCmd : Bool := false     -- it is the command's last element at the port
  tapOwn : Option Nat := none   -- the command's own result queue, which TAP may not name (R297)
  tapOk : Bool := false         -- the command lets TAP act (MDRAIN on MD)
  pos : Nat := 1                -- position of the next operation
  emits : List (QElem) := []    -- EMIT outputs so far
  taps : List (Nat × QElem) := []   -- TAP outputs so far
  core : Nat := 0               -- the core whose statistics record conditions
  deriving DecidableEq, Repr, Inhabited

/-! ## Commands and units -/

/-- Per-row state of ATTN and ATTNM between steps (R283). -/
structure RowState where
  m : PReg := {}
  l : PReg := {}
  c : PReg := {}
  deriving DecidableEq, Repr, Inhabited

/-- State of a macro operation between steps (R283). -/
structure MacState where
  block : List Byte := []         -- the 256-byte request block
  ck : Nat := 0                   -- committed length of the K coil; MFACT: 1 once it has recorded a zero pivot
  cv : Nat := 0                   -- committed length of the V coil
  rows : List RowState := []
  piv : List Nat := []            -- MFACT: piv[0] to piv[j-1]
  deriving DecidableEq, Repr, Inhabited

/-- Elements that a TPASS or TRED has popped and not completed: one of a TPASS, a reduced set of a TRED, with
what a cut at the first of them restores and what their outputs are so far (R258, R294, R310). -/
structure Win where
  els : List QElem
  before : Option PortInst              -- the input port's instance before the first of them
  beforeB : Option PortInst := none     -- the output port's instance before their first element entered it
  entered : Bool := false               -- an element of theirs has entered the output port
  left : Nat := 0                       -- elements of theirs that wait at the output port
  prim : List QElem := []
  taps : List (Nat × QElem) := []
  closed : Bool := false                -- no element will join
  deriving DecidableEq, Repr, Inhabited

/-- The kinds of access of R100. -/
inductive AKind where
  | fetch | read | write | coil
  deriving DecidableEq, Repr, Inhabited

/-- A translation that a stream of a tile command made as it entered a 64 KiB region of virtual addresses (R103): the
physical address of the region's first byte, the key slot and chk. -/
structure Xlat where
  region : Nat
  kind : AKind
  pa : Nat
  slot : Nat
  chk : Bool
  deriving DecidableEq, Repr, Inhabited

/-- A tile of the XV path that a command has begun to write (R115): its first element, what a cut there restores, and
the bytes so far, each with its poison bit and the element that wrote it. -/
structure XvTile where
  first : Nat
  rng : BitVec 32 := 0
  pa : Option PortInst := none
  pb : Option PortInst := none
  bytes : Cells (Byte × Bool × Nat) := []
  deriving DecidableEq, Repr, Inhabited

/-- A slot that a coil store has entered: its number, its address and the coil's slot size (R336). -/
structure CoilSlot where
  num : Word
  addr : Word
  size : Nat
  deriving DecidableEq, Repr, Inhabited

/-- A command from its issue to its retirement (R23, R237). -/
structure Cmd where
  inst : Instr
  seq : Seq
  ipc : Word
  num : Nat                        -- place among its sequencer's commands
  map : MapReg := {}
  src : Word := 0                  -- source or only base, displacement added; a coil store's handle
  dst : Word := 0                  -- destination base; a coil store's first slot
  sbase : Word := 0                -- scale base
  idxBase : Word := 0              -- index list base
  rng : BitVec 32 := 0             -- stochastic register (R76)
  pa : Option PortInst := none     -- MA, MD, RI, PI or CI
  pb : Option PortInst := none     -- RO, PO or CO
  cursor : Nat := 0                -- resume cursor
  begun : Bool := false            -- the checks at its start have passed
  done : Bool := false             -- nothing is left but to retire
  fl : BitVec 5 := 0               -- conditions of a half-chain, recorded when it retires (R272)
  staged : List TileElem := []     -- MLW or TLD into a latch: the new tile so far, newest first
  read : Nat := 0                  -- elements read, for a command that may read ahead of its cursor
  atEnd : Bool := false             -- the element with the last mark has been read
  popped : List QElem := []        -- elements of a store that wait in open tiles of the XV path (R115)
  wins : List Win := []            -- elements popped and not complete, oldest first
  held : List QElem := []          -- elements that wait at the output port, oldest first (R294)
  tapped : Nat := 0                -- popped elements whose taps at the input port have gone out (R310)
  out : Option QElem := none       -- the last output so far, held back for the last mark (R273)
  gave : Option QElem := none      -- the output that an input fault has let go without the mark (R310)
  pend : List (Nat × QElem) := []  -- outputs on their way to result queues
  acc : Option (BitVec 64 × Bool) := none   -- the reduced set's value so far (R274)
  first : Option Idx := none       -- indices of the reduced set's first element
  slot : Option CoilSlot := none   -- the slot whose check has passed (R336)
  xvtab : Word := 0                -- xvtab and xvpool as they govern it (R207); xvpool follows its allocations
  xvpool : Word := 0
  regions : List Nat := []         -- 64 KiB regions that its streams are in (R103)
  trans : List Xlat := []          -- the translations made as they entered them
  scaleAt : Option (Word × Byte × Bool) := none   -- the scale byte of the block that its loads are in (R239)
  entryAt : Option (Nat × Nat) := none   -- the index entry that its walk read last (R239, R249)
  cover : Cells (BitVec 64) := []  -- bytes written without poison, of units not yet wholly written (R107, R111)
  id : Nat := 0                    -- its name among the writers of memory's words (R160); 0: it has none yet
  words : List Nat := []           -- words in which it stands among them
  xv : Cells XvTile := []          -- open tiles of the XV path
  scales : List (Nat × Int × Byte × Bool) := []   -- scale bytes of blocks that wait there: element, block, byte, poison
  mac : MacState := {}
  deriving DecidableEq, Repr, Inhabited

/-! ## Sequencers -/

/-- What a sequencer does: no task; runs; has issued END (R197); has ended. -/
inductive SeqCond where
  | idle | run | ending | ended
  deriving DecidableEq, Repr, Inhabited

/-- A WHEEL in progress (R286-R288). -/
structure Wheel where
  active : Bool := false
  pc : Word := 0              -- the quad's address
  body : List (Word × Instr) := []   -- the decoded body with its addresses
  stages : Nat := 1
  rots : List Rot := []
  trip : Nat := 0             -- T
  i0 : Nat := 0               -- resumption point
  step : Nat := 0             -- t
  pos : Nat := 0              -- next body position, from 0
  drain : Option Nat := none  -- t0, the first step not started when a drain began
  stepStart : Nat := 0        -- cycle at which the step started
  ii : Nat := 1
  drained : Bool := false     -- a drained wheel is saved at its WHEEL (R288)
  deriving DecidableEq, Repr, Inhabited

/-- A signal that waits for the earlier commands of its sequencer to retire (R202). -/
structure PendSig where
  upto : Nat
  sem : BitVec 8
  inc : Nat
  pop : BitVec 3
  push : BitVec 3
  ipc : Word
  deriving DecidableEq, Repr, Inhabited

/-- The state of one sequencer. -/
structure SeqSt where
  cond : SeqCond := .idle
  pc : Word := 0
  preds : BitVec 32 := 1        -- p0 true (R46)
  wheel : Wheel := {}
  lvec : LVec := {}
  issued : Nat := 0             -- commands issued since the task started
  live : List Nat := []         -- numbers of the commands not retired
  sigs : List PendSig := []
  endPush : BitVec 3 := 0       -- pushes of an END that has issued and not retired, and the pops that it took
  endPop : BitVec 3 := 0
  endPc : Word := 0
  specPark : Bool := false      -- parked at a non-speculable operation (R392)
  stalled : Bool := false       -- its last turn ended in a stall at issue (R409)
  relWait : Option (List (Seq × Nat)) := none   -- writing commands a stalled release still waits for (R133)
  pushPark : Bool := false      -- K's SQPUSH has found its queue full and waits for L, C and S to be parked (R57, R341)
  deriving DecidableEq, Repr, Inhabited

/-- What the frame shows of an instruction that has signalled, and does not show when the signal traps (R192, R396): the
pops that it took, the pushes that it made, where its sequencer stood, and the command that left its unit. -/
structure Undo where
  pop : BitVec 3 := 0
  push : BitVec 3 := 0
  seq : Option (Word × Wheel) := none
  cmd : Option (CUnit × Cmd) := none
  deriving DecidableEq, Repr, Inhabited

/-- An increment that reached a semaphore in the current cycle (R35). -/
structure SemAdd where
  sem : BitVec 8
  inc : Nat
  by_ : Seq            -- contributing sequencer of this core, C for its own MDRAINX
  remote : Option Nat  -- the issuing core of a peer's MDRAINX
  ipc : Word
  copy : LVec := {}    -- the vector copy of R150
  place : Nat := 0     -- its place among the issues of by_ (R35): 2n + 1 for command n, 2n for an SSIG before command n
  undo : Undo := {}
  deriving DecidableEq, Repr, Inhabited

/-! ## Traps -/

/-- What a trap records (R400, R401). -/
structure Trap where
  cause : Nat
  reason : Nat := 0
  code : Nat := 0
  origin : Nat := 0
  addr : Word := 0
  ipc : Word := 0
  cursor : Nat := 0
  elem : Nat := 0
  idx : Idx := {}
  port : Nat := 0xFF
  slot : Nat := 0
  pos : Nat := 0
  chain : Nat := 0
  stamp : BitVec 32 := 0
  tag : BitVec 2 := 0
  front : BitVec 24 := 0
  rowbase : Nat := 0
  rowpoison : BitVec 512 := 0
  straddle : Bool := false
  deriving DecidableEq, Repr, Inhabited

/-- The cut that a running handler will resume (R405, R406). -/
structure Cut where
  trap : Trap
  kpc : Word
  kcond : SeqCond := .run       -- what K did at the cut: a handler's K runs in any case
  kendPush : BitVec 3 := 0
  kendPop : BitVec 3 := 0
  kendPc : Word := 0
  unit : Option CUnit := none   -- the unit that raised it
  at_ : Nat := 0                -- the cycle of the cut (R398)
  deriving DecidableEq, Repr, Inhabited

/-- Where a pre-emption of a core stands (R410): requested; it has reached the core, whose wheels drain; or the
drains have been cut off. -/
inductive Preempt where
  | none | requested | stopped | timedOut
  deriving DecidableEq, Repr, Inhabited

/-! ## Cores -/

/-- The task placed on a core (R42, R46, R206). -/
structure Task where
  job : Nat
  phase : Nat
  graph : Nat
  launch : Nat                -- key of the launch in its job
  stage : Nat
  entry : BitVec 32
  kind : Nat := 0             -- 0 for a new task, or the kind of R58
  args : List Byte := []      -- the entry's 64 bytes
  since : Nat := 0            -- cycle at which it was placed or resumed, or last yielded (R55)
  placed : Nat := 0           -- cycle at which it was placed or resumed (R54)
  own : Bool := false         -- its argument block is the packet's inline block (R41)
  spec : Bool := false        -- runs on prediction
  reserve : Option Nat := none    -- stage queue whose reserve entry is granted to it (R62)
  deriving DecidableEq, Repr, Inhabited

/-- The special registers of R206 that a core holds. coreid is the core's number, epoch stands with the
job and cycle and dietemp with the module. -/
structure Special where
  argbase : Word := 0
  argptr : Word := 0
  entry : Word := 0
  stage : Word := 0
  jobid : Word := 0
  launchid : Word := 0
  cont : Word := 0
  linkbase : Word := 0
  tframe : Word := 0
  hvec : Word := 0
  freeze : Word := 0
  xvtab : Word := 0
  xvpool : Word := 0
  coretemp : BitVec 16 := 0
  coredroop : BitVec 16 := 0
  coreproc : BitVec 16 := 0
  deriving DecidableEq, Repr, Inhabited

/-- Registers and sequencers of a core. -/
structure Regs where
  x : Cells Word := []           -- x1 to x63; unlisted is 0
  al : Cells Word := []          -- a registers of L
  as_ : Cells Word := []         -- a registers of S
  ml : Cells MapReg := []        -- map registers of L
  ms : Cells MapReg := []        -- map registers of S
  k : SeqSt := {}
  l : SeqSt := {}
  c : SeqSt := {}
  s : SeqSt := {}
  sp : Special := {}
  deriving DecidableEq, Repr, Inhabited

/-- What couples the sequencers (R28-R35), and the queues. -/
structure Couple where
  sems : Cells Sema := []        -- unlisted: value 0, copy 0
  fifos : Cells (List Tok) := [] -- unlisted: empty
  queues : Cells Queue := []     -- 0-7: q0-q7, 8-15: o0-o7; unlisted: empty
  pushed : Cells (BitVec 32) := []   -- the 32 words of R400
  popped : Cells (BitVec 32) := []
  deriving DecidableEq, Repr, Inhabited

/-- The stores of a core. -/
structure Stores where
  sp : Cells Byte := []          -- scratchpad; unlisted byte is 0 (R109)
  spPoison : Cells Bool := []    -- by 8-byte word
  spStamp : Cells Stamp := []    -- by granule
  acc : Cells (BitVec 32) := []  -- accumulator: 64 x line + i; unlisted is 0
  accPoison : Cells Bool := []   -- same keys
  slots : Cells Program := []    -- bound port-program slots; unlisted is unbound
  tables : Cells (List (BitVec 32)) := []   -- bound lookup tables
  lastK : Cells (List PReg) := []    -- k0-k7 of the last chain at a port (R285)
  w0 : Latch := {}
  w1 : Latch := {}
  stats : Cells Word := []       -- statistics 0-7 (R272)
  kcache : Cells (List Byte) := []   -- K's scalar cache: 128-byte lines, by 64 x physical line + key slot
  deriving DecidableEq, Repr, Inhabited

/-- The command queues of a core's units, the command in execution first. -/
structure Units where
  mat : List Cmd := []
  red : List Cmd := []
  pass : List Cmd := []
  copy : List Cmd := []
  load : List Cmd := []
  store : List Cmd := []
  mac : List Cmd := []
  deriving DecidableEq, Repr, Inhabited

/-- One core. -/
structure CoreSt where
  task : Option Task := none
  owner : Option Nat := none     -- scratchpad owner (R109)
  regs : Regs := {}
  couple : Couple := {}
  stores : Stores := {}
  units : Units := {}
  frontier : Frontier := []      -- core frontier (R149)
  arrival : Option (Word × BitVec 16) := none   -- arrival record (R326)
  handler : Bool := false        -- handler-running state (R405)
  cut : Option Cut := none
  preempt : Preempt := .none
  preemptAt : Nat := 0           -- cycle in which a pre-emption request reached the core
  preemptFor : Option (Nat × Nat × Nat) := none   -- the stage that a dispatcher stops it for (R55)
  frozen : Nat := 0              -- cycle in which a freeze ends; 0: no freeze (R417)
  freezeNext : Bool := false     -- an error found during a freeze
  errAt : Option Nat := none     -- cycle of the last error found (errors of one cycle share a freeze)
  progress : Nat := 0            -- cycle of the last progress (R409)
  yielded : Bool := false        -- K stands behind a YIELD at which its task is pre-empted (R342)
  deriving DecidableEq, Repr, Inhabited

/-! ## Launches, graphs, phases -/

/-- An entry of a stage queue (R40, R43). -/
structure SEntry where
  idx : BitVec 32
  bytes : List Byte
  own : Bool := false            -- an initial entry, which holds the packet's inline block (R41)
  deriving DecidableEq, Repr, Inhabited

/-- A stage queue (R40, R43, R61). -/
structure SQueue where
  cap : Nat
  consumer : Nat
  producers : BitVec 8
  entries : List SEntry := []
  next : BitVec 32 := 0          -- number of the next entry appended
  reserveUsed : Bool := false
  deriving DecidableEq, Repr, Inhabited

/-- A stage (R40). -/
structure Stage where
  ord : Nat                      -- task ordinal
  input : Nat
  min : Nat
  max : Nat
  deriving DecidableEq, Repr, Inhabited

/-- Where a continuation stands: registered with a sync engine, ready, or blocked on a full queue. -/
inductive ContState where
  | waiting | ready | blocked (queue : Nat)
  deriving DecidableEq, Repr, Inhabited

/-- A continuation record (R58) with its task's argument block. -/
structure Cont where
  id : Nat                       -- the model's own name for it
  kpc : Word
  lpc : Word
  cpc : Word
  spc : Word
  live : Word
  stage : Nat
  kind : Nat
  origin : Nat
  entry : BitVec 32
  seq : BitVec 32                -- enqueue sequence number
  xs : List Word                 -- live registers, ascending
  args : List Byte
  state : ContState
  acq : Frontier := []           -- what readied it, acquired at its start
  reserve : Option Nat := none
  own : Bool := false
  deriving DecidableEq, Repr, Inhabited

/-- A pre-empted task: its image slot and the saved core (R411-R413). -/
structure Image where
  slot : Nat
  core : Nat
  epoch : BitVec 23
  pending : Bool
  saved : CoreSt
  deriving DecidableEq, Repr, Inhabited

/-- One 128-byte sagger granule of a speculative launch: shadow bytes, and who wrote it last (R155, R391). -/
structure Shadow where
  bytes : Cells Byte := []       -- by offset in the granule
  core : Nat := 0
  tag : BitVec 2 := 0
  chk : Bool := false
  poison : BitVec 2 := 0         -- by 64-byte half
  deriving DecidableEq, Repr, Inhabited

/-- A tile command among the writers of a word of unchecked device memory, and the bytes of the word that a later one has
written since (R160). -/
structure Part where
  cmd : Nat
  lost : BitVec 8 := 0
  deriving DecidableEq, Repr, Inhabited

/-- What a speculative launch adds (R390-R394). -/
structure Spec where
  queue : Nat
  body : List Byte               -- predicted bytes [63:8] and the rest
  started : Nat                  -- cycle
  shadow : Cells Shadow := []    -- by physical granule (pa div 128)
  parts : Cells (List Part) := []    -- by 8-byte word: its tile commands that may write the shadowed word again (R160)
  readSet : Cells Nat := []      -- physical 64 KiB page, with its generation
  coilSet : Cells Nat := []      -- handle, with the committed length
  vpages : Cells Bool := []      -- 64 KiB pages of the job's virtual range that it read or wrote (R394)
  real : Option Nat := none      -- sequence number of the accepted real packet
  dead : Option Nat := none      -- the reason of the discard that is due (R394)
  ran : List Nat := []           -- cores that have run a task of it and nothing since
  deriving DecidableEq, Repr, Inhabited

/-- A launch (R40-R44, R379). -/
structure Launch where
  num : Nat                      -- launch number
  phase : Nat
  graph : Nat
  node : Nat
  queue : Nat                    -- work queue that carried it
  pkt : BitVec 32                -- its packet's sequence number
  kernel : Nat
  stages : List Stage
  queues : Cells SQueue          -- declared stage queues
  argptr : Word
  tokens : BitVec 48
  hints : BitVec 16
  cls : Nat
  cores : Bool                   -- co-resident
  args : List Byte               -- inline argument block
  body : List Byte := []         -- packet bytes [63:8]
  smask : BitVec 16 := 0
  count : Nat                    -- initial entries (R41)
  left : Nat                     -- initial entries not yet placed
  started : Bool := false
  dieSet : List Nat := []
  vector : Frontier := []        -- launch vector
  counter : BitVec 32 := 0
  complete : Bool := false
  cancelled : Bool := false
  home : List Nat := []          -- cores that a co-resident launch was granted (R44)
  conts : List Cont := []
  images : List Image := []
  enq : BitVec 32 := 0           -- next enqueue sequence number
  spec : Option Spec := none
  deriving DecidableEq, Repr, Inhabited

/-- What a node of a graph runs (R383). -/
inductive NodeKind where
  | launch (num : Nat)
  | transform (body : List Byte)
  deriving DecidableEq, Repr, Inhabited

/-- A node of a graph. -/
structure Node where
  kind : NodeKind
  succs : List Nat
  deps : Nat
  dispatched : Bool := false
  done : Bool := false
  vector : Frontier := []        -- what the nodes before it pass on (R150)
  deriving DecidableEq, Repr, Inhabited

/-- A graph (R36, R383, R384); barrier says that it waits for the earlier packets of its queue. -/
structure Graph where
  nodes : List Node
  queue : Nat
  pkt : BitVec 32
  barrier : Bool := false
  lone : Bool := false           -- the graph of a LAUNCH packet
  started : Bool := false
  reported : Bool := false       -- its packet has completed
  counter : BitVec 32 := 0
  complete : Bool := false
  cancelled : Bool := false
  deriving DecidableEq, Repr, Inhabited

/-- A phase (R36, R37). -/
structure Phase where
  closed : Bool := false
  complete : Bool := false
  cancelled : Bool := false
  counter : BitVec 32 := 0
  graphs : Cells Graph := []
  ready : Bool := false          -- the steps of R156 before it are done
  deriving DecidableEq, Repr, Inhabited

/-- A registered kernel (R183-R189). entries: for each task ordinal, the text address of each stream. -/
structure Kernel where
  base : Word                    -- G address of the object
  size : Nat
  flags : BitVec 16
  tasks : List (List (Option Word))   -- K, L, C, S text per task ordinal
  pp : List Nat                  -- record offsets in the .pp section, in order
  ppBytes : List Byte
  sync : List (Nat × Nat × Nat × Nat)  -- task ordinal or 0xFFFF_FFFF, FIFO, kind, count
  globals : List (List Byte × Word) := []   -- global symbols: name and placed value (R188)
  link : Option Word             -- address of .link
  deriving DecidableEq, Repr, Inhabited

/-- A coil pool's buddy allocator (R332): free blocks and allocated blocks, both by base address. -/
structure Pool where
  free : Cells Nat := []         -- base, order
  used : Cells (Nat × Nat) := [] -- base, (order, reference count)
  deriving DecidableEq, Repr, Inhabited

/-- What a capability of Kiln is for (R374). -/
inductive CapKind where
  | record | ring | stages | nodes | images
  deriving DecidableEq, Repr, Inhabited

/-- A capability of Kiln (R374): base, length in bytes, permissions and kind, with its hidden tag; and the translation
of its whole range that it was derived from: physical address, key slot, chk and bytes of each part (log 38). -/
structure Cap where
  base : Word := 0
  len : Nat := 0
  rd : Bool := false
  wr : Bool := false
  kind : CapKind := .record
  tag : Bool := false
  spans : List (Nat × Nat × Bool × Nat) := []
  deriving DecidableEq, Repr, Inhabited

/-- A job (R36, R38, R359, R360). -/
structure Job where
  ident : BitVec 24
  keySlot : Nat
  root : Nat
  poolLog2 : Nat
  poolBase : Word
  framePa : Nat
  frameVa : Word
  imagePa : Nat
  imageSlots : Nat
  imageCap : Cap := {}               -- for its image area (R374)
  peers : Cells (Nat × Word) := []   -- peer job identifier, fabric address
  epochs : Cells (BitVec 23) := []   -- by frontier index; unlisted is 1
  pending : Cells Bool := []         -- pending-advance flags
  phases : Cells Phase := []
  openPhase : Nat := 0
  counter : BitVec 32 := 0           -- phases completed
  complete : Bool := false
  cancelled : Bool := false
  nextGraph : Nat := 0               -- next graph number of the open phase
  nextLaunch : Nat := 1
  launches : Cells Launch := []
  kernels : Cells Kernel := []
  nextKernel : Nat := 1
  pool : Pool := {}
  ending : Option Req := none        -- the JOBEND that waits
  contIds : Nat := 0
  deriving DecidableEq, Repr, Inhabited

/-! ## Sync engines -/

/-- What a registered continuation waits for (R321, R327). -/
inductive Waits where
  | cond (c : Cond) (w4 : Bool) (value : Word)
  | phase (t : BitVec 16)
  deriving DecidableEq, Repr, Inhabited

/-- A registered waiter (R321, R327). place is the word's physical byte, read under the key slot of the page that it
was registered through, or its sync-window byte. -/
structure Waiter where
  sw : Bool
  place : Nat
  slot : Nat
  va : Word
  waits : Waits
  job : Nat
  launch : Nat
  cont : Nat
  fixed : Option Word := none   -- the word, where it lies in an argument page, which nothing writes (R128, R206)
  deriving DecidableEq, Repr, Inhabited

/-- An extent of a coil (R331). -/
structure Extent where
  base : Word
  slots : Nat
  stride : Nat
  block : Nat                    -- base of its block
  shared : Bool := false
  deriving DecidableEq, Repr, Inhabited

/-- A coil descriptor in use (R331). -/
structure Coil where
  job : Nat
  log2 : Nat                     -- log2 of the slot size
  r : Nat := 0
  c : Nat := 0
  extents : List Extent := []
  parent : Word := 0
  f : Nat := 0
  bitmap : BitVec 1024 := 0
  vector : Frontier := []
  deriving DecidableEq, Repr, Inhabited

/-- Blocks of a dropped descriptor that await release (R339). -/
structure Dropped where
  id : Nat
  handle : Word
  job : Nat
  blocks : List Nat
  deriving DecidableEq, Repr, Inhabited

/-! ## Work queues and the predictor -/

/-- A work queue record (R373) and the front end's state for it (R376, R382). -/
structure WQ where
  host : List Byte               -- the 64-byte host part
  job : Nat
  ring : Word
  order : Nat
  flags : Byte
  event : Word
  self : Word
  next : BitVec 32
  prod : BitVec 32
  state : Nat := 1
  code : Nat := 0
  detail : Nat := 0
  errseq : BitVec 32 := 0
  errlaunch : Word := 0
  accepted : Nat := 0
  predicted : Nat := 0
  claimed : Nat := 0
  discarded : Cells Nat := []    -- by reason
  recCap : Cap := {}             -- capabilities for the record and the ring (R374)
  ringCap : Cap := {}
  rereads : Nat := 0             -- number of the re-read of the head slot that is due; 0: none
  taken : Option (List Byte) := none   -- the head packet as the first matching read returned it (R376)
  hold : Option (Nat × List Byte) := none   -- the WAITCNT or FENCE that holds up acceptance, with its phase
  signals : List (Nat × List Byte) := []    -- accepted SIGNALs that wait, with their phases
  live : List (BitVec 32) := []  -- accepted packets that are not complete
  events : List (BitVec 32) := []    -- those of them with the event flag
  vector : Frontier := []        -- what its WAITCNTs have acquired (R381; log 86)
  policy : Nat := 0              -- of PHINT
  history : List (List Byte) := []   -- the last accepted LAUNCH bodies, oldest first
  deriving DecidableEq, Repr, Inhabited

/-! ## Dispatchers and transform engines -/

/-- A core's assignment (R51). -/
structure Assign where
  job : Nat
  launch : Nat
  stage : Nat
  marked : Bool := false
  deriving DecidableEq, Repr, Inhabited

/-- A probe as it was sent: launch, starting queue, and cycle (R61, R64). -/
structure Probe where
  job : Nat
  launch : Nat
  queue : Nat
  at_ : Nat
  deriving DecidableEq, Repr, Inhabited

/-- A cycle report that a dispatcher has acted on: the queues, ascending, and when its probe was sent (R64). -/
structure Report where
  job : Nat
  launch : Nat
  at_ : Nat
  queues : List Nat
  deriving DecidableEq, Repr, Inhabited

/-- A dispatcher (R51-R55). -/
structure Disp where
  assigned : Cells Assign := []          -- by core; unlisted is free
  deficits : List ((Nat × Nat) × Int) := []   -- by (job, launch)
  ring : List (Nat × Nat) := []          -- launches on the die, in order of arrival
  last : Option (Nat × Nat) := none      -- launch last granted a core, whatever its class (DESIGN CHOICE, log 90)
  busy : List ((Nat × Nat) × Nat) := []  -- core-cycles occupied since the last step
  lastStep : Nat := 0
  passDue : Bool := false                -- a grant pass is due (R51)
  probes : List Probe := []              -- probes sent and not yet handled
  reports : List Report := []            -- reports acted on, while a probe of the same cycle may repeat them
  deriving DecidableEq, Repr, Inhabited

/-- A transform that an engine runs, or that waits (R385). -/
structure Xform where
  job : Nat
  phase : Nat
  graph : Nat
  node : Nat
  body : List Byte
  cmd : Cmd                      -- its TCPY in progress
  deriving DecidableEq, Repr, Inhabited

/-! ## The module -/

/-- Boot state (R361-R366, R371). -/
structure Boot where
  powered : Bool := false
  stage : Nat := 0
  ports : BitVec 12 := 0
  dies : BitVec 8 := 0
  fails : BitVec 16 := 0
  lastfail : BitVec 4 := 0
  keyslot : BitVec 4 := 0
  lock : Bool := false
  checking : Option Word := none       -- initiator and port whose bootctl write started the check
  checkPort : Nat := 0
  m : Cells (BitVec 384) := []         -- M0 to M7
  mgmt : List (Word × Nat) := []       -- management list
  deriving DecidableEq, Repr, Inhabited

/-- Monitors and counters (R371, R372). -/
structure Monitors where
  power : Word := 0
  coolIn : BitVec 16 := 0
  coolOut : BitVec 16 := 0
  dietemp : Cells (BitVec 16) := []
  issueLimit : Nat := 0                -- sixteenths withheld
  limitSteps : Word := 0
  memCorr : Cells (BitVec 32) := []    -- by die
  memUncorr : Cells (BitVec 32) := []
  sramCorr : Cells (BitVec 32) := []   -- by die: scratchpad, accumulator and sync engine SRAM (R370)
  sramUncorr : Cells (BitVec 32) := []
  refused : Cells Word := []           -- by port
  linkErr : Cells Word := []
  deriving DecidableEq, Repr, Inhabited

/-- A transport flow (R144, R351): what it delivered next in sequence, and beyond. -/
structure Flow where
  port : Nat
  initiator : Word
  ident : BitVec 24
  next : Nat := 0
  extra : List Nat := []
  deriving DecidableEq, Repr, Inhabited

/-- A held OI write (R354), translated when it was accepted. -/
structure OiHold where
  id : Nat
  xfer : Xfer
  job : Nat
  off : Word
  pa : Nat
  slot : Nat
  chk : Bool
  data : List Byte
  deriving DecidableEq, Repr, Inhabited

/-- A reply of the management endpoint, or a completion of a transport operation: what leaves the module. -/
inductive Output where
  | reply (port : Nat) (initiator : Word) (message : List Byte)
  | completion (port : Nat) (initiator : Word) (ok : Bool) (reason : Nat) (data : List Byte)
  | poisoned (port : Nat) (initiator : Word) (data : List Byte)
  | peerWrite (fabric : Word) (ident : Nat) (offset : Word) (data : List Byte) (poison : Bool)
  | peerAdd (fabric : Word) (ident : Nat) (offset : Word) (value : Word)
  deriving DecidableEq, Repr, Inhabited

/-- An error record (R62, R222, R378): the job, the cause, the code, and the continuation records that Kiln has copied
into it (R58). -/
structure ErrRecord where
  job : Nat
  cause : Nat
  code : Nat
  launch : Nat
  queue : Nat
  info : Word := 0
  conts : List (List Byte) := []
  deriving DecidableEq, Repr, Inhabited

/-- Memory behind the sync engines and controllers. -/
structure Mem where
  mem : List Host.Cell := []           -- device memory by physical address; unlisted byte reads 0
  memKey : Cells (BitVec 512) := []    -- by 128-byte unit: the key it was written under; unlisted: none
  poison : Cells Bool := []            -- by 64-byte unit
  stamps : Cells Stamp := []           -- by 128-byte granule
  gens : Cells Nat := []               -- write generation by 64 KiB page
  parts : Cells (List Part) := []      -- by 8-byte word: tile commands that may write it again, the first comer first (R160)
  nextCmd : Nat := 1                   -- the name of the next such command
  ptPending : List (Nat × Word × Req) := []   -- entries changed and not yet reported: place, old entry (R101)
  sw : Cells Byte := []                -- sync window: die x 2^25 + offset
  swVec : Cells Frontier := []         -- checked variables: die x 2048 + v
  swJob : Cells Nat := []              -- job that last raised such a vector
  waiters : List Waiter := []          -- in registration order
  coils : Cells Coil := []             -- die x 131072 + index; unlisted is free
  coilGen : Cells (BitVec 20) := []    -- unlisted: 0, and 1 for descriptor 0 of die 0
  dropped : List Dropped := []
  nextDrop : Nat := 0
  peerFault : Cells Byte := []         -- answers of peer modules: PR addresses they refuse, with the reason
  deriving DecidableEq, Repr, Inhabited

/-- What moves at a step (log 1). -/
inductive Act where
  | seq (core : Fin 448) (q : Seq)
  | unit (core : Fin 448) (u : CUnit)
  | port
  | event (e : Instr)
  | todo
  | evict (core : Fin 448) (line : Nat)
  | tick (cycles : Nat)
  | xform (die : Fin 8) (engine : Fin 4)
  | measure (i : Fin 7) (d : BitVec 384)
  deriving DecidableEq, Repr, Inhabited

/-- What the streams of the unit that is moving go by: the translations that they have made (R103), and its command's
xvtab and xvpool (R207). -/
structure Streams where
  trans : List Xlat := []
  xvtab : Word := 0
  xvpool : Word := 0
  deriving DecidableEq, Repr, Inhabited

/-- One entry of the schedule: what moves, and whether in the same cycle as the step before (R35). -/
structure Slot where
  same : Bool
  act : Act
  deriving DecidableEq, Repr, Inhabited

/-- The machine. -/
structure State where
  sched : List Slot := []              -- the model's own: which agent moves next (log 1)
  cur : Fin 448 × Seq := (0, .k)       -- the model's own: the agent that is moving
  todo : List Instr := []              -- the model's own: events that are due
  fresh : Nat := 0                     -- the model's own: names the next free value
  ppass : Option Pass := none          -- the element pass that an element operation acts on
  cycle : Nat := 0                     -- cycles of the arithmetic clock (R206)
  semAdds : List (Nat × SemAdd) := []  -- by core: increments of the current cycle (R35), newest first
  semBase : List (Nat × BitVec 8 × BitVec 16) := []   -- by core: a semaphore's value without them
  semSets : List (Nat × BitVec 8 × Seq) := []   -- by core: SSETs of the current cycle (R203)
  semOld : List (Nat × BitVec 8 × Sema) := []   -- by core: semaphores that the cycle changed, as it found them (R203)
  endLog : List (Nat × Seq × BitVec 3) := []    -- by core: ENDs that retired in the current cycle, with their pushes (R197)
  lastAct : Option (Nat × Nat × Nat) := none    -- the model's own: who acted last in the cycle (log 1)
  mtsLog : List (Nat × SReg × Seq) := []        -- by core: MTS of the current cycle (R207)
  cores : Cells CoreSt := []           -- by core number; an unlisted core is CoreSt with its defaults
  memory : Mem := {}
  keys : Cells (BitVec 512) := []      -- key slots; unlisted is empty
  jobs : Cells Job := []
  queues : Cells WQ := []              -- work queues
  recent : List Nat := []              -- queues with a history, least recently active first (R388)
  disp : Cells Disp := []              -- by die
  engines : Cells Xform := []          -- 4 x die + engine; unlisted is free
  xwait : List (Nat × Xform) := []     -- transforms that wait for an engine of a die
  boot : Boot := {}
  mon : Monitors := {}
  flows : List Flow := []
  held : List OiHold := []
  xlat : Option Streams := none        -- the model's own: what the streams of the unit that is moving go by
  reqs : List Req := []                -- management requests that have reached Kiln and wait, oldest first (R358)
  outputs : List Output := []          -- the model's own: what left the module, newest first
  errors : List ErrRecord := []        -- error records, newest first
  deriving DecidableEq, Repr, Inhabited

/-- Why a step ends in a fault. -/
inductive Fault where
  /-- Raised by an element operation when no element pass is in progress at a port (R293): the element
  operations have no meaning outside one. Safe: the machine stops where the specification gives no effect. -/
  | noElement
  deriving DecidableEq, Repr, Inhabited

/-- Why a step is refused. -/
inductive Refusal where
  /-- Raised by the dispatch table for an operation that has no meaning in this model yet. Safe: nothing
  is claimed of it. -/
  | notModelled (mnemonic : String)
  deriving DecidableEq, Repr, Inhabited

/-- The module before power-good: nothing has run, every store is zero, no job, queue or key exists
(R361, R363, R366; DESIGN CHOICE log 3, and log 5 for the registers). -/
def State.reset : State := {}

end Sys2Proof.Machine
end

