-- ==== Sys2Proof/Machine/Store.lean ====
section
/-! DEFINITION. Machine/Store: operations on sparse maps. cfind reads a partial map, cget a total map
whose unlisted keys read a given value; cput and cerase list and unlist a key; cset writes a total map and
keeps its canonical form (keys strictly rising, no entry equal to the unlisted value). -/

namespace Sys2Proof.Machine

/-- The value listed at a key. -/
def cfind {α : Type} : Cells α → Nat → Option α
  | [], _ => none
  | (a, v) :: r, k => if a = k then some v else cfind r k

/-- The value at a key, d where none is listed. -/
def cget {α : Type} (d : α) (m : Cells α) (k : Nat) : α := (cfind m k).getD d

/-- List a value at a key, in the place that keeps rising keys rising. -/
def cput {α : Type} : Cells α → Nat → α → Cells α
  | [], k, v => [(k, v)]
  | (a, w) :: r, k, v =>
    if k < a then (k, v) :: (a, w) :: r
    else if a = k then (k, v) :: r
    else (a, w) :: cput r k v

/-- Unlist a key. -/
def cerase {α : Type} (m : Cells α) (k : Nat) : Cells α := m.filter fun p => p.1 != k

/-- Write a total map whose unlisted keys read d. -/
def cset {α : Type} [DecidableEq α] (d : α) (m : Cells α) (k : Nat) (v : α) : Cells α :=
  if v = d then cerase m k else cput m k v

/-- Change the listed values. -/
def cmap {α β : Type} (m : Cells α) (f : Nat → α → β) : Cells β := m.map fun p => (p.1, f p.1 p.2)

/-- Keep the listed entries that a test selects. -/
def ckeep {α : Type} (m : Cells α) (f : Nat → α → Bool) : Cells α := m.filter fun p => f p.1 p.2

/-- Keys from a bound up strictly rise. -/
def crising {α : Type} : Nat → Cells α → Bool
  | _, [] => true
  | n, (a, _) :: r => decide (n ≤ a) && crising (a + 1) r

/-- The canonical form of a total map. -/
def cwf {α : Type} [DecidableEq α] (d : α) (m : Cells α) : Bool :=
  crising 0 m && m.all fun p => decide (p.2 ≠ d)

/-- The canonical form of device memory: an unlisted byte reads 0 (log 4). -/
abbrev Memory.wf (m : List Host.Cell) : Bool := cwf (0 : Byte) m

/-- A byte of a byte map: 0 where none is listed. -/
def byteAt (m : Cells Byte) (a : Nat) : Byte := cget 0 m a

/-- Write one byte. -/
def setByte (m : Cells Byte) (a : Nat) (v : Byte) : Cells Byte := cset 0 m a v

/-- n bytes from an address up, lowest address first. -/
def bytesAt (m : Cells Byte) (a : Nat) : Nat → List Byte
  | 0 => []
  | n + 1 => byteAt m a :: bytesAt m (a + 1) n

/-- Write a list of bytes, lowest address first. -/
def setBytes (m : Cells Byte) (a : Nat) : List Byte → Cells Byte
  | [] => m
  | b :: bs => setBytes (setByte m a b) (a + 1) bs

/-- The number that bytes hold, least significant first (R4). -/
def leNat : List Byte → Nat
  | [] => 0
  | b :: bs => b.toNat + 256 * leNat bs

/-- The low n bytes of a number, least significant first (R4). -/
def leBytes : Nat → Nat → List Byte
  | 0, _ => []
  | n + 1, v => BitVec.ofNat 8 v :: leBytes n (v / 256)

/-- The first index of a list at which a test holds. -/
def firstIdx {α : Type} (p : α → Bool) : Nat → List α → Option Nat
  | _, [] => none
  | i, a :: r => if p a then some i else firstIdx p (i + 1) r

/-- Natural numbers lo, lo + 1, …, n of them. -/
def upFrom (lo : Nat) : Nat → List Nat
  | 0 => []
  | n + 1 => lo :: upFrom (lo + 1) n

/-- The least power of two that is at least n, as its exponent; fuel bounds the search. -/
def log2Up (fuel n : Nat) : Nat :=
  match fuel with
  | 0 => 0
  | f + 1 => if n ≤ 1 then 0 else 1 + log2Up f ((n + 1) / 2)

end Sys2Proof.Machine
end

