-- ==== Sys2Proof/Machine/Aes.lean ====
section
/-! DEFINITION. Machine/Aes: AES-256 (FIPS 197), its XTS mode over the data unit of device memory (R105, IEEE 1619) and
the unwrapping of a wrapped key (R369, NIST SP 800-38F). A block is 16 bytes, and its columns follow one another. -/

namespace Sys2Proof.Machine

/-! ## Bytes as elements of GF(2^8) -/

/-- Times x, modulo x^8 + x^4 + x^3 + x + 1. -/
def xtime (b : Byte) : Byte := (b <<< 1) ^^^ (if b.getLsbD 7 then 0x1B else 0)

/-- The product. -/
def gmul (a b : Byte) : Byte :=
  ((upFrom 0 8).foldl (fun (p : Byte × Byte) i => (if b.getLsbD i then p.1 ^^^ p.2 else p.1, xtime p.2)) (0, a)).1

/-- The inverse, a^254; that of 0 is 0. -/
def ginv (a : Byte) : Byte :=
  ((upFrom 0 7).foldl (fun (p : Byte × Byte) _ =>
    let y := gmul p.2 p.2
    (gmul p.1 y, y)) (1, a)).1

/-- The substitution of a byte, and its inverse. -/
def sbox (a : Byte) : Byte :=
  let b := ginv a
  b ^^^ b.rotateLeft 1 ^^^ b.rotateLeft 2 ^^^ b.rotateLeft 3 ^^^ b.rotateLeft 4 ^^^ 0x63

def sboxInv (a : Byte) : Byte := ginv (a.rotateLeft 1 ^^^ a.rotateLeft 3 ^^^ a.rotateLeft 6 ^^^ 0x05)

/-! ## The block cipher -/

def xorBytes (a b : List Byte) : List Byte := List.zipWith (· ^^^ ·) a b

/-- Row r of a block moves r columns to the left. -/
def shiftRows (s : List Byte) : List Byte := (upFrom 0 16).map fun i => s.getD ((i + 4 * (i % 4)) % 16) 0

def shiftRowsInv (s : List Byte) : List Byte := (upFrom 0 16).map fun i => s.getD ((i + 12 * (i % 4)) % 16) 0

/-- Every column times a circulant matrix, whose first row m gives. -/
def mixColumns (m : List Byte) (s : List Byte) : List Byte :=
  (upFrom 0 16).map fun i =>
    (upFrom 0 4).foldl (fun x j => x ^^^ gmul (m.getD ((j + 4 - i % 4) % 4) 0) (s.getD (i / 4 * 4 + j) 0)) 0

/-- The round constant of key word 8 n. -/
def rcon (n : Nat) : Byte := (upFrom 1 (n - 1)).foldl (fun b _ => xtime b) 1

/-- Key word i, behind the words before it. -/
def nextWord (w : List (List Byte)) (i : Nat) : List Byte :=
  let t := w.getD (i - 1) []
  let t := if i % 8 = 0 then xorBytes ((t.drop 1 ++ t.take 1).map sbox) [rcon (i / 8), 0, 0, 0]
    else if i % 8 = 4 then t.map sbox
    else t
  xorBytes (w.getD (i - 8) []) t

/-- The 15 round keys of a key of 32 bytes. -/
def roundKeys (key : List Byte) : List (List Byte) :=
  let w0 := (upFrom 0 8).map fun i => (key.drop (4 * i)).take 4
  let w := (upFrom 8 52).foldl (fun w i => w ++ [nextWord w i]) w0
  (upFrom 0 15).map fun i => ((w.drop (4 * i)).take 4).flatten

/-- AES-256 encryption of a block under round keys. -/
def aesEnc (ks : List (List Byte)) (b : List Byte) : List Byte :=
  let s := (upFrom 1 13).foldl
    (fun s i => xorBytes (mixColumns [2, 3, 1, 1] (shiftRows (s.map sbox))) (ks.getD i [])) (xorBytes b (ks.getD 0 []))
  xorBytes (shiftRows (s.map sbox)) (ks.getD 14 [])

/-- AES-256 decryption of a block under round keys. -/
def aesDec (ks : List (List Byte)) (b : List Byte) : List Byte :=
  let s := (upFrom 1 13).foldl
    (fun s i => mixColumns [14, 11, 13, 9] (xorBytes ((shiftRowsInv s).map sboxInv) (ks.getD (14 - i) [])))
    (xorBytes b (ks.getD 14 []))
  xorBytes ((shiftRowsInv s).map sboxInv) (ks.getD 0 [])

/-! ## Device memory (R105) -/

/-- The next tweak of a unit's blocks: times x in GF(2^128), as a little-endian number. -/
def nextTweak (t : BitVec 128) : BitVec 128 := (t <<< 1) ^^^ (if t.getLsbD 127 then 0x87 else 0)

/-- n blocks, each masked with its tweak before and after the cipher. -/
def xtsBlocks (f : List Byte → List Byte) : Nat → BitVec 128 → List Byte → List Byte
  | 0, _, _ => []
  | n + 1, t, bs =>
    let m := leBytes 16 t.toNat
    xorBytes (f (xorBytes (bs.take 16) m)) m ++ xtsBlocks f n (nextTweak t) (bs.drop 16)

/-- The round keys of a key slot's data key, bytes [31:0], and of its tweak key, bytes [63:32] (R369). -/
def dataKeys (key : BitVec 512) : List (List Byte) := roundKeys (leBytes 32 key.toNat)

def tweakKeys (key : BitVec 512) : List (List Byte) := roundKeys (leBytes 32 (key.toNat / 2 ^ 256))

/-- The first tweak of the data unit of a number: physical address bits [38:7], encrypted under the tweak key. -/
def unitTweak (key : BitVec 512) (unit : Nat) : BitVec 128 :=
  BitVec.ofNat 128 (leNat (aesEnc (tweakKeys key) (leBytes 16 (unit % 2 ^ 32))))

/-- AES-256-XTS of the 128 bytes of a data unit, and its inverse. -/
def xtsEnc (key : BitVec 512) (unit : Nat) (bs : List Byte) : List Byte :=
  xtsBlocks (aesEnc (dataKeys key)) 8 (unitTweak key unit) bs

def xtsDec (key : BitVec 512) (unit : Nat) (bs : List Byte) : List Byte :=
  xtsBlocks (aesDec (dataKeys key)) 8 (unitTweak key unit) bs

/-- A byte of a data unit as a read under one key sees it, which a write under another left: the unit's plaintext,
encrypted under the key of the write and decrypted under that of the read. -/
def otherKeyByte (written key : BitVec 512) (pa : Nat) (plain : List Byte) : Byte :=
  (xtsDec key (pa / 128) (xtsEnc written (pa / 128) plain)).getD (pa % 128) 0

/-! ## Wrapped keys (R369) -/

/-- Bytes of a number, the most significant first. -/
def beBytes (n v : Nat) : List Byte := (leBytes n v).reverse

/-- The steps t, t − 1, …, 1 of the unwrapping: the integrity register and the semiblocks. -/
def unwrapSteps (ks : List (List Byte)) : Nat → List Byte → List (List Byte) → List Byte × List (List Byte)
  | 0, a, rs => (a, rs)
  | t + 1, a, rs =>
    let b := aesDec ks (xorBytes a (beBytes 8 (t + 1)) ++ rs.getLastD [])
    unwrapSteps ks t (b.take 8) (b.drop 8 :: rs.dropLast)

/-- AES-256 key unwrap (KW) of n + 1 semiblocks under a key of 32 bytes; none where the integrity check fails. -/
def kwUnwrap (n : Nat) (kek wrapped : List Byte) : Option (List Byte) :=
  let rs := (upFrom 1 n).map fun i => (wrapped.drop (8 * i)).take 8
  let (a, rs) := unwrapSteps (roundKeys kek) (6 * n) (wrapped.take 8) rs
  if a = List.replicate 8 0xA6 then some rs.flatten else none

end Sys2Proof.Machine
end

