-- ==== Sys2Proof/Machine/Base.lean ====
section
/-! DEFINITION. Machine/Base: reading and writing one register, sequencer, core, job or launch of the
state, and the step monad. A step that stops short (a trap, a stall) leaves the state it began with
(R192); what the stop then does is decided once, where an instruction is run. -/

namespace Sys2Proof.Machine

/-! ## Cores and their registers -/

def State.core (s : State) (n : Nat) : CoreSt := cget {} s.cores n

def State.setCore (s : State) (n : Nat) (c : CoreSt) : State := { s with cores := cset {} s.cores n c }

def State.modCore (s : State) (n : Nat) (f : CoreSt → CoreSt) : State := s.setCore n (f (s.core n))

def CoreSt.seq (c : CoreSt) : Seq → SeqSt
  | .k => c.regs.k | .l => c.regs.l | .c => c.regs.c | .s => c.regs.s

def CoreSt.setSeq (c : CoreSt) (q : Seq) (v : SeqSt) : CoreSt :=
  match q with
  | .k => { c with regs := { c.regs with k := v } }
  | .l => { c with regs := { c.regs with l := v } }
  | .c => { c with regs := { c.regs with c := v } }
  | .s => { c with regs := { c.regs with s := v } }

/-- x register r: x0 reads 0 (R191). -/
def CoreSt.x (c : CoreSt) (r : BitVec 6) : Word := if r = 0 then 0 else cget 0 c.regs.x r.toNat

/-- A write to x0 is discarded (R169). -/
def CoreSt.setX (c : CoreSt) (r : BitVec 6) (v : Word) : CoreSt :=
  if r = 0 then c else { c with regs := { c.regs with x := cset 0 c.regs.x r.toNat v } }

/-- a register r of L or S (R227); the other sequencers have none. -/
def CoreSt.a (c : CoreSt) (q : Seq) (r : BitVec 5) : Word :=
  match q with
  | .l => cget 0 c.regs.al r.toNat
  | .s => cget 0 c.regs.as_ r.toNat
  | .k | .c => 0

def CoreSt.setA (c : CoreSt) (q : Seq) (r : BitVec 5) (v : Word) : CoreSt :=
  match q with
  | .l => { c with regs := { c.regs with al := cset 0 c.regs.al r.toNat v } }
  | .s => { c with regs := { c.regs with as_ := cset 0 c.regs.as_ r.toNat v } }
  | .k | .c => c

/-- Src(n) of R191: an x register on K, an a register on L and S. -/
def CoreSt.src (c : CoreSt) (q : Seq) (r : BitVec 6) : Word :=
  match q with
  | .k => c.x r
  | .l | .s => c.a q (r.setWidth 5)
  | .c => 0

def CoreSt.setSrc (c : CoreSt) (q : Seq) (r : BitVec 6) (v : Word) : CoreSt :=
  match q with
  | .k => c.setX r v
  | .l | .s => c.setA q (r.setWidth 5) v
  | .c => c

def CoreSt.map (c : CoreSt) (q : Seq) (m : BitVec 4) : MapReg :=
  match q with
  | .l => cget {} c.regs.ml m.toNat
  | .s => cget {} c.regs.ms m.toNat
  | .k | .c => {}

def CoreSt.setMap (c : CoreSt) (q : Seq) (m : BitVec 4) (v : MapReg) : CoreSt :=
  match q with
  | .l => { c with regs := { c.regs with ml := cset {} c.regs.ml m.toNat v } }
  | .s => { c with regs := { c.regs with ms := cset {} c.regs.ms m.toNat v } }
  | .k | .c => c

/-- Predicate p of a sequencer; p0 reads true (R191). -/
def CoreSt.pred (c : CoreSt) (q : Seq) (p : BitVec 5) : Bool :=
  p == 0 || (c.seq q).preds.getLsbD p.toNat

/-- One bit of a value replaced. -/
def setBit {w : Nat} (v : BitVec w) (i : Nat) (b : Bool) : BitVec w :=
  if b then v ||| (BitVec.twoPow w i) else v &&& ~~~(BitVec.twoPow w i)

def CoreSt.setPred (c : CoreSt) (q : Seq) (p : BitVec 5) (b : Bool) : CoreSt :=
  if p = 0 then c
  else c.setSeq q { c.seq q with preds := setBit (c.seq q).preds p.toNat b }

/-! ## Units and queues -/

def CoreSt.unit (c : CoreSt) : CUnit → List Cmd
  | .mat => c.units.mat | .red => c.units.red | .pass => c.units.pass | .copy => c.units.copy
  | .load => c.units.load | .store => c.units.store | .mac => c.units.mac

def CoreSt.setUnit (c : CoreSt) (u : CUnit) (v : List Cmd) : CoreSt :=
  match u with
  | .mat => { c with units := { c.units with mat := v } }
  | .red => { c with units := { c.units with red := v } }
  | .pass => { c with units := { c.units with pass := v } }
  | .copy => { c with units := { c.units with copy := v } }
  | .load => { c with units := { c.units with load := v } }
  | .store => { c with units := { c.units with store := v } }
  | .mac => { c with units := { c.units with mac := v } }

def CoreSt.queue (c : CoreSt) (i : Nat) : Queue := cget {} c.couple.queues i

def CoreSt.setQueue (c : CoreSt) (i : Nat) (q : Queue) : CoreSt :=
  { c with couple := { c.couple with queues := cset {} c.couple.queues i q } }

def CoreSt.fifo (c : CoreSt) (i : Nat) : List Tok := cget [] c.couple.fifos i

def CoreSt.setFifo (c : CoreSt) (i : Nat) (v : List Tok) : CoreSt :=
  { c with couple := { c.couple with fifos := cset [] c.couple.fifos i v } }

def CoreSt.sema (c : CoreSt) (i : Nat) : Sema := cget {} c.couple.sems i

def CoreSt.setSema (c : CoreSt) (i : Nat) (v : Sema) : CoreSt :=
  { c with couple := { c.couple with sems := cset {} c.couple.sems i v } }

/-- Add to one of the 32 words of entries pushed (R400): FIFOs 0-11, q, o, command queues from 28. -/
def CoreSt.countPush (c : CoreSt) (i : Nat) : CoreSt :=
  { c with couple := { c.couple with pushed := cset 0 c.couple.pushed i (cget 0 c.couple.pushed i + 1) } }

def CoreSt.countPop (c : CoreSt) (i : Nat) : CoreSt :=
  { c with couple := { c.couple with popped := cset 0 c.couple.popped i (cget 0 c.couple.popped i + 1) } }

/-- Put an entry back: it no longer counts as popped. -/
def CoreSt.uncountPop (c : CoreSt) (i : Nat) : CoreSt :=
  { c with couple := { c.couple with popped := cset 0 c.couple.popped i (cget 0 c.couple.popped i - 1) } }

/-- Take a push back: it no longer counts. -/
def CoreSt.uncountPush (c : CoreSt) (i : Nat) : CoreSt :=
  { c with couple := { c.couple with pushed := cset 0 c.couple.pushed i (cget 0 c.couple.pushed i - 1) } }

/-- Statistic i (R272); counts saturate at 2^64 − 1 (R271). -/
def CoreSt.addStat (c : CoreSt) (i n : Nat) : CoreSt :=
  let v := min ((cget 0 c.stores.stats i).toNat + n) (2 ^ 64 - 1)
  { c with stores := { c.stores with stats := cset 0 c.stores.stats i (BitVec.ofNat 64 v) } }

/-- OR a condition mask into statistic 0, 1 or 2 (R272). -/
def CoreSt.orStat (c : CoreSt) (i : Nat) (fl : BitVec 5) : CoreSt :=
  { c with stores := { c.stores with
      stats := cset 0 c.stores.stats i (cget 0 c.stores.stats i ||| fl.setWidth 64) } }

def CoreSt.setStat (c : CoreSt) (i : Nat) (v : Word) : CoreSt :=
  { c with stores := { c.stores with stats := cset 0 c.stores.stats i v } }

/-! ## Places -/

/-- Compute die of a core (R17). -/
def dieOf (core : Nat) : Nat := core / 56

/-! ## Jobs and launches -/

def State.job? (s : State) (j : Nat) : Option Job := cfind s.jobs j

def State.setJob (s : State) (j : Nat) (v : Job) : State := { s with jobs := cput s.jobs j v }

def State.modJob (s : State) (j : Nat) (f : Job → Job) : State :=
  match s.job? j with
  | some v => s.setJob j (f v)
  | none => s

def State.launch? (s : State) (j l : Nat) : Option Launch := (s.job? j).bind fun v => cfind v.launches l

def State.setLaunch (s : State) (j l : Nat) (v : Launch) : State :=
  s.modJob j fun w => { w with launches := cput w.launches l v }

def State.modLaunch (s : State) (j l : Nat) (f : Launch → Launch) : State :=
  match s.launch? j l with
  | some v => s.setLaunch j l (f v)
  | none => s

def Job.phase (j : Job) (p : Nat) : Phase := cget {} j.phases p

def State.graph? (s : State) (j p g : Nat) : Option Graph :=
  (s.job? j).bind fun v => cfind (v.phase p).graphs g

def State.setGraph (s : State) (j p g : Nat) (v : Graph) : State :=
  s.modJob j fun w =>
    let ph := w.phase p
    { w with phases := cput w.phases p { ph with graphs := cput ph.graphs g v } }

def State.queue? (s : State) (q : Nat) : Option WQ := cfind s.queues q

def State.setWq (s : State) (q : Nat) (v : WQ) : State := { s with queues := cput s.queues q v }

/-- Add an event that is due. -/
def State.due (s : State) (e : Instr) : State := { s with todo := s.todo ++ [e] }

def State.output (s : State) (o : Output) : State := { s with outputs := o :: s.outputs }

def State.record (s : State) (e : ErrRecord) : State := { s with errors := e :: s.errors }

/-- The launch that a speculative launch's key names, with its job: keys of speculative launches are
unique in the module and lie above every launch number. -/
def State.findSpec (s : State) (key : Nat) : Option (Nat × Launch) :=
  s.jobs.findSome? fun p => (cfind p.2.launches key).map fun l => (p.1, l)

/-- Speculative launches that a test selects, by key. -/
def State.specKeys (s : State) (p : Nat → Launch → Spec → Bool) : List Nat :=
  s.jobs.flatMap fun j => j.2.launches.filterMap fun l =>
    match l.2.spec with
    | some x => if p j.1 l.2 x then some l.1 else none
    | none => none

/-- A launch that is due for a discard; the first reason stands (R394). -/
def Launch.doom (l : Launch) (reason : Nat) : Launch :=
  { l with spec := l.spec.map fun x => { x with dead := match x.dead with | some r => some r | none => some reason } }

/-- The launches of a job that keys name are due for a discard. -/
def Job.doom (j : Job) (keys : List Nat) (reason : Nat) : Job :=
  let ls := cmap j.launches fun k l => if keys.contains k then l.doom reason else l
  { j with launches := ls }

/-- The discards that are then due: of each named launch, with the reason that stands. -/
def Job.doomed (j : Job) (keys : List Nat) : List Instr :=
  j.launches.filterMap fun l =>
    if keys.contains l.1 then l.2.spec.bind fun x => x.dead.map fun r => .speculativeDiscard l.1 r else none

/-- Discards of speculative launches are due (R394). -/
def State.discardAll (s : State) (keys : List Nat) (reason : Nat) : State :=
  if keys.isEmpty then s
  else
    let jobs := cmap s.jobs fun _ j => j.doom keys reason
    { s with jobs := jobs, todo := s.todo ++ jobs.flatMap fun j => j.2.doomed keys }

/-! ## The step monad -/

/-- Why an operation stops short. -/
inductive Stop where
  | trap (t : Trap)          -- a trap of the core that runs it
  | stall                    -- it cannot go on yet
  | held (l : List (Seq × Nat))   -- a release waits for writing commands (R133)
  | park                     -- an SQPUSH waits for L, C and S to be parked (R57)
  | spec                     -- a speculative task parks (R392)
  | discard (reason : Nat)   -- a speculative launch is discarded (R391, R394)
  | fault (f : Fault)
  deriving DecidableEq, Repr

abbrev M (α : Type) := StateT State (Except Stop) α

def stop {α : Type} (e : Stop) : M α := fun _ => .error e

def stall {α : Type} : M α := stop .stall

/-- Stall unless a condition holds. -/
def waitFor (b : Bool) : M Unit := if b then pure () else stall

def trapWith {α : Type} (t : Trap) : M α := stop (.trap t)

/-- The operand-limit trap, cause 0x03. -/
def limitTrap {α : Type} : M α := trapWith { cause := 3 }

/-- Trap(0x03) when a condition holds. -/
def limitIf (b : Bool) : M Unit := if b then limitTrap else pure ()

/-- The misalignment trap of an instruction, cause 0x04, unless va is a multiple of n. It has no fault address (R400). -/
def aligned (va : Word) (n : Nat) : M Unit := if va.toNat % n = 0 then pure () else trapWith { cause := 4 }

/-- The misalignment trap of an element of a walk, whose fault address is the element's (R239, R400). -/
def alignedAt (va : Word) (n : Nat) : M Unit := if va.toNat % n = 0 then pure () else trapWith { cause := 4, addr := va }

/-- What an operation would answer, without its effects; none where it stops. -/
def peekM {α : Type} (m : M α) : M (Option α) := fun s =>
  match m.run s with
  | .ok (a, _) => .ok (some a, s)
  | .error _ => .ok (none, s)

/-- The core that is moving. -/
def me : M Nat := do return (← get).cur.1.val

/-- The sequencer that is moving. -/
def mySeq : M Seq := do return (← get).cur.2

def myCore : M CoreSt := do let s ← get; return s.core s.cur.1.val

def modMe (f : CoreSt → CoreSt) : M Unit := modify fun s => s.modCore s.cur.1.val f

/-- A free value that nothing constrains; each has its own name (log 2). -/
def freeWord : M Word := do
  let s ← get
  set { s with fresh := s.fresh + 1 }
  return Config.freeWord s.fresh

end Sys2Proof.Machine
end

