-- ==== Sys2Proof/Machine/Keys.lean ====
section
/-! DEFINITION. Machine/Keys: the keys of the module (R367) and the unwrapping of a key (R369), over SHA-384 and
P-384, which are constants of Config (log 9). -/

namespace Sys2Proof.Machine

/-- The 48 bytes of a digest. -/
def digest (d : BitVec 384) : List Byte := leBytes 48 d.toNat

/-- SHA-384 as bytes. -/
def sha384Bytes (m : List Byte) : List Byte := digest (Config.sha384 m)

/-- A key of HMAC filled up to the block of SHA-384, 128 bytes, under a pad. -/
def hmacPad (key : List Byte) (pad : Byte) : List Byte :=
  (key ++ List.replicate (128 - key.length) 0).map (· ^^^ pad)

/-- HMAC-SHA-384 under a key of at most 128 bytes. -/
def hmac384 (key m : List Byte) : List Byte :=
  sha384Bytes (hmacPad key 0x5C ++ sha384Bytes (hmacPad key 0x36 ++ m))

/-- HKDF-SHA-384: n bytes, at most the 48 of one block. -/
def hkdf384 (salt secret info : List Byte) (n : Nat) : List Byte :=
  (hmac384 (hmac384 salt secret) (info ++ [1])).take n

/-- Bytes as a number, the first the most significant. -/
def beNat (l : List Byte) : Nat := l.foldl (fun n b => 256 * n + b.toNat) 0

/-- The order of the P-384 group. -/
def p384Order : Nat :=
  0xFFFFFFFFFFFFFFFFFFFFFFFFFFFFFFFFFFFFFFFFFFFFFFFFC7634D81F4372DDF581A0DB248B0A77AECEC196ACCC52973

/-- A scalar derived from the fused secret (R367), from a counter byte on; fuel bounds the repetitions. -/
def deriveScalar (salt info : List Byte) : Nat → Byte → Nat
  | 0, _ => 0
  | f + 1, c =>
    let k := beNat (hkdf384 salt Config.fusedSecret (info ++ [c]) 48) % p384Order
    if k = 0 then deriveScalar salt info f (c + 1) else k

/-- "HZ8 DK", "HZ8 KA" and "HZ8 wrap". -/
def saltDk : List Byte := [0x48, 0x5A, 0x38, 0x20, 0x44, 0x4B]
def saltKa : List Byte := [0x48, 0x5A, 0x38, 0x20, 0x4B, 0x41]
def infoWrap : List Byte := [0x48, 0x5A, 0x38, 0x20, 0x77, 0x72, 0x61, 0x70]

/-- DK (R367). -/
def dkScalar : Nat := deriveScalar saltDk [] 256 Config.firstCounter

/-- KA under a value of M0 (R367). -/
def kaScalar (m0 : BitVec 384) : Nat := deriveScalar saltKa (digest m0) 256 Config.firstCounter

def dkPublic : List Byte := Config.p384Public dkScalar
def kaPublic (m0 : BitVec 384) : List Byte := Config.p384Public (kaScalar m0)

/-- The key that a KEYLOAD carries (R369): KA's shared secret with the host's key, KEK from it, and the unwrapping; none
for an invalid point or a failed integrity check. -/
def unwrapKey (m0 : BitVec 384) (slot : Nat) (host wrapped : List Byte) : Option (BitVec 512) := do
  let z ← Config.ecdhX (kaScalar m0) host
  let kek := hkdf384 (List.replicate 48 0) z (infoWrap ++ leBytes 1 slot ++ digest m0) 32
  let k ← kwUnwrap 8 kek wrapped
  return BitVec.ofNat 512 (leNat k)

end Sys2Proof.Machine
end

