-- ==== Sys2Proof/WellFormed.lean ====
section
/-! DEFINITION. WellFormed: which terms of Instr an instruction stream of a given sequencer can hold.
A well-formed instruction has an encoding (Decode.lean), and the decoder of that sequencer reads it back.
Every check is one that R161 to R182 or R419 make at decode. -/

namespace Sys2Proof

/-- R164: guard 0 with gneg set is a reserved combination. -/
def Hdr.wf (h : Hdr) : Bool := !(h.guard == 0 && h.gneg)

/-- R165: with inc = 0 the signal semaphore is 0. -/
def Sem.wf (f : Sem) : Bool := !(f.inc == 0 && f.sigsem != 0)

/-- A register field on a sequencer: x registers on K, a registers on L and S (R169). -/
def regOk (q : Seq) (r : BitVec 6) : Bool := q == .k || r.toNat < 32

/-- A destination predicate is not p0 (R169). -/
def pdOk (p : BitVec 5) : Bool := p != 0

/-- Load half fields that decode refuses (R241): a transposed level above 4, and sc off an MX type. -/
def LoadHalf.wf (ty : Ty) (o : LoadHalf) : Bool :=
  (match o.tr with
    | none => true
    | some (x, y) => x.toNat ≤ 4 && y.toNat ≤ 4) &&
  (ty.isMx || o.sc == 0)

/-- Store half fields that decode refuses (R244): sc off an MX type, and seed off the stochastic mode. -/
def StoreHalf.wf (ty : Ty) (o : StoreHalf) : Bool :=
  (ty.isMx || o.sc == 0) && (o.mode == .sr || o.seed == 0)

def CpyHalf.wf (ty : Ty) : CpyHalf → Bool
  | .load h => h.wf ty
  | .store h => h.wf ty

/-- Two rotation descriptors name one field of one instruction (R168). -/
def Rot.clash (r t : Rot) : Bool := r.fld == t.fld && r.posM1 == t.posM1

def rotsDistinct : List Rot → Bool
  | [] => true
  | r :: rs => !(rs.any r.clash) && rotsDistinct rs

/-- The WHEEL limits of R168. -/
def wheelOk (q : Seq) (bodyM1 : BitVec 6) (trip : Trip) (rots : List Rot) : Bool :=
  q != .k && decide (rots.length ≤ 16) && rots.all (fun r => r.posM1 ≤ bodyM1) && rotsDistinct rots &&
  (match trip with
    | .reg _ => q != .c
    | .imm _ | .token => true)

/-- MMA and MMAC: an activation format of R82, and a program only where R257 accepts the type. -/
def mmaOk (ty : Ty) (slot : BitVec 6) : Bool := ty.isWeight && (slot == 63 || ty.portOk)

/-- A range stays within the accumulator store (R170). -/
def ZRange.fits (z : ZRange) : Bool := z.first.toNat + z.count ≤ 2048

/-- Instr is a term that the given sequencer's stream can hold. -/
def wf (q : Seq) : Instr → Bool
  | .nop h => h.wf && h.pop == 0 && h.push == 0
  | .br h _ | .jmp h _ | .endStream h | .tok h => h.wf
  | .pushv h t src => h.wf && q != .c && t != q && regOk q src &&
      (match q.bitOf t with | some j => !(h.push.getLsbD j) | none => false)
  | .popv h dst t => h.wf && q != .c && t != q && regOk q dst &&
      (match q.bitOf t with | some j => !(h.pop.getLsbD j) | none => false)
  | .swait h _ _ | .sset h _ _ => h.wf
  | .swaitReg h _ r | .ssetReg h _ r => h.wf && q != .c && regOk q r
  | .ssig h _ inc => h.wf && inc != 0
  | .fence h _ _ | .brk h _ => h.wf
  | .mfs h r _ | .mts h _ r => h.wf && q != .c && regOk q r
  | .wheel h bodyM1 _ _ trip rots => h.guard == 0 && !h.gneg && wheelOk q bodyM1 trip rots
  | .add h _ _ _ | .sub h _ _ _ | .mul h _ _ _ | .mulh h _ _ _ | .mulhn h _ _ _ | .div h _ _ _
  | .divn h _ _ _ | .rem h _ _ _ | .remn h _ _ _ | .and h _ _ _ | .or h _ _ _ | .xor h _ _ _
  | .andn h _ _ _ | .orn h _ _ _ | .shl h _ _ _ | .shr h _ _ _ | .sar h _ _ _ | .rol h _ _ _
  | .min h _ _ _ | .max h _ _ _ | .minn h _ _ _ | .maxn h _ _ _ => q == .k && h.wf
  | .addi h _ _ _ | .andi h _ _ _ | .ori h _ _ _ | .xori h _ _ _ | .shli h _ _ _ | .shri h _ _ _
  | .sari h _ _ _ | .li h _ _ | .lih h _ _ => q == .k && h.wf
  | .clz h _ _ | .ctz h _ _ | .popc h _ _ | .brev h _ _ | .bswap h _ _ => q == .k && h.wf
  | .ext h _ _ lo w | .ins h _ _ lo w => q == .k && h.wf && lo.toNat + w.toNat + 1 ≤ 64
  | .cmp h _ pd _ _ | .cmpi h _ pd _ _ => q == .k && h.wf && pdOk pd
  | .sel h _ _ _ _ => q == .k && h.wf
  | .pand h pd _ _ | .por h pd _ _ | .pxor h pd _ _ | .pandn h pd _ _ => q == .k && h.wf && pdOk pd
  | .pnot h pd _ | .pmov h pd _ => q == .k && h.wf && pdOk pd
  | .call h _ _ | .callr h _ _ | .ret h _ | .jmpr h _ => q == .k && h.wf
  | .ld h _ _ _ _ _ | .st h _ _ _ _ _ | .stCoil h _ _ _ _ _ => q == .k && h.wf
  | .ldm h _ _ f _ c _ | .stm h _ _ f _ c _ => q == .k && h.wf && f.toNat + c.toNat ≤ 63
  | .trap h _ | .hset h _ _ | .resume h | .sysc h _ _ _ => q == .k && h.wf
  | .amo h op _ w4 _ _ _ => q == .k && h.wf && (op != .plain .fadd || w4)
  | .amoc h _ _ _ _ _ => q == .k && h.wf
  | .amred h op _ w4 _ _ => q == .k && h.wf && (op != .fadd || w4)
  | .avec h _ _ _ _ _ _ | .waita h _ _ _ _ _ | .siga h _ | .bari h _ _ | .bara h _ | .bard h _
  | .barw h _ _ | .afence h _ _ => q == .k && h.wf
  | .cnew h _ size => q == .k && h.wf && size.toNat ≤ 10
  | .cres h _ _ _ | .caddr h _ _ _ | .ccommit h _ _ _ | .clen h _ _ | .cfork h _ _ _ | .cdrop h _
  | .cinfo h _ _ _ | .sqpush h _ _ _ | .yield h | .launch h _ _ | .cancel h _ _ | .ccnt h _ _ _
  | .plan h _ _ _ => q == .k && h.wf
  | .phint h _ policy => q == .k && h.wf && policy != 3
  | .aadd h _ _ _ | .asub h _ _ _ | .amul h _ _ _ | .amadd h _ _ _ | .amov h _ _ | .aaddi h _ _ _
  | .ashli h _ _ _ | .ali h _ _ | .alih h _ _ => (q == .l || q == .s) && h.wf
  | .acmp h _ pd _ _ | .acmpi h _ pd _ _ => (q == .l || q == .s) && h.wf && pdOk pd
  | .lda h _ _ _ _ | .sta h _ _ _ _ => (q == .l || q == .s) && h.wf
  | .mapset h _ p => (q == .l || q == .s) && h.wf &&
      (let lvl := p.extractLsb' 175 3
       lvl.toNat ≤ 4 || (lvl == 7 && p.extractLsb' 178 14 == 0))
  | .mapofs h _ _ => (q == .l || q == .s) && h.wf
  | .tld h f ty _ _ _ _ o => q == .l && h.wf && f.wf && o.wf ty
  | .tst h f ty _ _ _ _ o | .tstCoil h f ty _ _ _ _ o => q == .s && h.wf && f.wf && o.wf ty
  | .tcpy h f ty _ _ _ _ _ half => (q == .l || q == .s) && h.wf && f.wf && half.wf ty
  | .tgth h f _ _ _ _ _ lvl _ => q == .l && h.wf && f.wf && lvl.toNat ≤ 4
  | .tsct h f _ _ _ _ _ lvl _ => q == .s && h.wf && f.wf && lvl.toNat ≤ 4
  | .tzero h f ty _ _ _ => (q == .l || q == .s) && h.wf && f.wf && !ty.isMx
  | .tprf h _ _ _ _ => (q == .l || q == .s) && h.wf
  | .rcpyWr h f _ _ _ _ | .rcpyRd h f _ _ _ _ => (q == .l || q == .s) && h.wf && f.wf
  | .rsig h _ _ | .caddrLs h _ _ _ => (q == .l || q == .s) && h.wf
  | .mlw h f ty _ _ => q == .c && h.wf && f.wf && ty.isWeight
  | .mma h f ty _ _ _ slot z => q == .c && h.wf && f.wf && mmaOk ty slot && z.fits
  | .mmac h f ty _ _ slot z src => q == .c && h.wf && f.wf && mmaOk ty slot && z.fits &&
      src.toNat + z.count ≤ 2048 &&
      (src == z.first || !linesOverlap src.toNat z.first.toNat z.count)
  | .mzero h f ty z => q == .c && h.wf && f.wf && (ty == .f32 || ty == .f64 || ty == .c64) &&
      rangeOk z.first.toNat z.count ty.rowLines
  | .mdrain h f ty _ slot z lines => q == .c && h.wf && f.wf && lines.permits ty &&
      (slot == 63 || lines == .f32) && rangeOk z.first.toNat z.count (if lines == .f32 then 4 else 1)
  | .mdrainx h f ty mem slot z peer => q == .c && h.wf && f.wf && (ty == .f32 || ty == .f64) &&
      mem.toNat ≤ 7 && (slot == 63 || ty == .f32) && rangeOk z.first.toNat z.count ty.rowLines &&
      rangeOk peer.toNat z.count ty.rowLines
  | .mfact h f ty z piv => q == .c && h.wf && f.wf &&
      ((ty == .f64 && z.count ≤ 32) || (ty == .c64 && z.count ≤ 16)) && z.fits &&
      !(z.first.toNat ≤ piv.toNat && piv.toNat < z.first.toNat + z.count)
  | .mstat h _ => q == .c && h.wf
  | .tred h f ty _ _ ri ro op levels => q == .c && h.wf && f.wf && (ty == .f32 || ty == .f64) &&
      1 ≤ levels.toNat && levels.toNat ≤ 5 && (ty == .f32 || (ri == 63 && ro == 63)) &&
      (op != .chain || ri != 63)
  | .tpass h f ty _ _ pi po => q == .c && h.wf && f.wf && (ty.portOk || (pi == 63 && po == 63))
  | .attn h f blk | .attnm h f blk => q == .c && h.wf && f.wf && blk.toNat ≤ 6143
  | .pbind h slot _ => q == .c && h.wf && slot != 63
  | .pbindTable h _ _ => q == .c && h.wf
  | .pstate h port _ => q == .c && h.wf && port.toNat ≤ 5
  | .powerGood | .pushWindowWrite .. | .bootctlGo .. | .firmwareCheckEnd | .bringupRegisterWrite ..
  | .dieMemoryJoin .. | .portUp | .remoteWrite .. | .oiWrite .. | .oiWriteVisible .. | .remoteRead ..
  | .transportAtomic .. | .send .. | .attest .. | .keyload .. | .keyclear .. | .jobnew .. | .jobend ..
  | .jobendDone .. | .ptset .. | .pageTableChangeComplete | .qset .. | .peerset .. | .kreg ..
  | .swclear .. | .mgrant .. | .telem .. | .powerLimitTick .. | .thermalStop .. | .patrolScrub ..
  | .memoryRetraining .. | .freezeEnd .. | .queuePollTick | .packetReread .. | .nopPacket ..
  | .launchPacket .. | .graphPacket .. | .transformPacket .. | .waitcnt .. | .signalPacket ..
  | .fencePacket .. | .packetComplete .. | .launchStart .. | .initialEntryFill .. | .grantPass ..
  | .redivisionStep .. | .taskStart .. | .continuationStart .. | .taskEnd .. | .launchComplete ..
  | .nodeComplete .. | .transformEngineStart .. | .transformComplete .. | .phaseBoundary ..
  | .probeWalk .. | .preemptionRequest .. | .drainTimeout .. | .contextSave .. | .taskResume ..
  | .watchdog .. | .commandRetire .. | .latchTake .. | .coilBlockRelease .. | .claim ..
  | .speculativeDiscard .. | .predictionTimeout .. => false
  | .fadd .. | .fsub .. | .fmul .. | .ffma .. | .fmax .. | .fmin .. | .fabs .. | .fneg .. | .fcmp ..
  | .fsel .. | .frcp .. | .frsq .. | .fexp2 .. | .flog2 .. | .fcvt .. | .tbl .. | .iadd .. | .isub ..
  | .imul .. | .iand .. | .ior .. | .ixor .. | .ishl .. | .ishr .. | .kld .. | .kst .. | .lag ..
  | .emit .. | .emitLast .. | .tap .. | .drop .. | .eflt .. | .efltFp .. => false

/-- A term that a port program can hold (R181, R292): destinations are e registers but for KST, the register
files of KLD and KST, a distance of LAG that is not 0, and a condition mask of EFLT.fp that is not 0. -/
def wfElem : Instr → Bool
  | .fadd d _ _ | .fsub d _ _ | .fmul d _ _ | .ffma d _ _ _ | .fmax d _ _ | .fmin d _ _ | .fabs d _
  | .fneg d _ | .fcmp d _ _ _ | .fsel d _ _ _ | .frcp d _ | .frsq d _ | .fexp2 d _ | .flog2 d _
  | .fcvt d _ _ _ | .tbl d _ _ | .iadd d _ _ | .isub d _ _ | .imul d _ _ | .iand d _ _ | .ior d _ _
  | .ixor d _ _ | .ishl d _ _ | .ishr d _ _ => d.toNat < 8
  | .kld d a => d.toNat < 8 && 8 ≤ a.toNat
  | .kst d a => 8 ≤ d.toNat && a.toNat < 8
  | .lag d _ dist => d.toNat < 8 && dist != 0
  | .emit .. | .emitLast .. | .tap .. | .drop .. | .eflt .. => true
  | .efltFp mask => mask != 0
  | _ => false

end Sys2Proof
end

