-- ==== Sys2Proof/Decode.lean ====
section
/-! DEFINITION. Decode: from the bits of an instruction stream to Instr, and back. The decoder of a
sequencer is total on any doublewords and makes the checks of R171 in the order of its steps: length
code, major, minor, length of the opcode (illegal, cause 0x01), reserved fields (cause 0x02), limits of
single fields and, for K, the common majors and C, of combinations (limit, cause 0x03, R419). The encoder
is written from the same tables R162 to R181. -/

namespace Sys2Proof

/-- Why a decode is refused: the causes 0x01, 0x02 and 0x03 of R171. -/
inductive DecErr where
  | illegal | reserved | limit
  deriving DecidableEq, Repr, Inhabited

/-- The cause number of a decode trap (R171). -/
def DecErr.cause : DecErr → Nat
  | .illegal => 1 | .reserved => 2 | .limit => 3

/-- The first doubleword of an instruction (R162). -/
structure Fields where
  len : BitVec 2 := 0
  major : BitVec 6
  pop : BitVec 3
  push : BitVec 3
  guard : BitVec 5
  gneg : BitVec 1
  a : BitVec 6 := 0
  b : BitVec 6 := 0
  c : BitVec 6 := 0
  minor : BitVec 8 := 0
  imm : BitVec 18 := 0
  deriving DecidableEq, Repr

def Fields.unpack (w : Word) : Fields where
  len := w.extractLsb' 0 2
  major := w.extractLsb' 2 6
  pop := w.extractLsb' 8 3
  push := w.extractLsb' 11 3
  guard := w.extractLsb' 14 5
  gneg := w.extractLsb' 19 1
  a := w.extractLsb' 20 6
  b := w.extractLsb' 26 6
  c := w.extractLsb' 32 6
  minor := w.extractLsb' 38 8
  imm := w.extractLsb' 46 18

def Fields.pack (f : Fields) : Word :=
  f.imm ++ f.minor ++ f.c ++ f.b ++ f.a ++ f.gneg ++ f.guard ++ f.push ++ f.pop ++ f.major ++ f.len

/-- The second doubleword of a double (R165): the eng field and the semaphore fields. -/
structure Second where
  eng : BitVec 24
  inc : BitVec 8
  sigsem : BitVec 8
  thresh : BitVec 16
  waitsem : BitVec 8
  deriving DecidableEq, Repr

def Second.unpack (w : Word) : Second where
  waitsem := w.extractLsb' 0 8
  thresh := w.extractLsb' 8 16
  sigsem := w.extractLsb' 24 8
  inc := w.extractLsb' 32 8
  eng := w.extractLsb' 40 24

def Second.pack (s : Second) : Word := s.eng ++ s.inc ++ s.sigsem ++ s.thresh ++ s.waitsem

def Second.sem (s : Second) : Sem := ⟨s.waitsem, s.thresh, s.sigsem, s.inc⟩

def Sem.second (f : Sem) (eng : BitVec 24) : Second := ⟨eng, f.inc, f.sigsem, f.thresh, f.waitsem⟩

def Fields.hdr (f : Fields) : Hdr := ⟨f.guard, f.gneg == 1, f.pop, f.push⟩

/-- An instruction's first doubleword from its header and operand fields. -/
def Hdr.fields (h : Hdr) (len : BitVec 2) (major : BitVec 6) (minor : BitVec 8) (a b c : BitVec 6)
    (imm : BitVec 18) : Fields where
  len := len
  major := major
  pop := h.pop
  push := h.push
  guard := h.guard
  gneg := BitVec.ofBool h.gneg
  a := a
  b := b
  c := c
  minor := minor
  imm := imm

/-- Steps 4, 5 and 6 of R171 for a single or a quad: the length of the opcode, its reserved fields (the
guard combination of R164 among them), its limits. -/
def Fields.finish (f : Fields) (len : BitVec 2) (reserved : Bool) (i : Option Instr) :
    Except DecErr Instr :=
  if f.len ≠ len then .error .illegal
  else if reserved || !f.hdr.wf then .error .reserved
  else match i with
    | some j => .ok j
    | none => .error .limit

/-- Steps 4, 5 and 6 of R171 for a double, whose sigsem is reserved when inc is 0 (R165). -/
def Fields.finishD (f : Fields) (s : Second) (reserved : Bool) (i : Option Instr) :
    Except DecErr Instr :=
  f.finish 1 (reserved || !s.sem.wf) i

/-- A 6-bit field that names one of 2^n things (R169). -/
def small (n : Nat) (v : BitVec 6) : Option (BitVec n) :=
  if v.toNat < 2 ^ n then some (v.setWidth n) else none

/-- A destination predicate: p1 to p31 (R169). -/
def pdest (v : BitVec 6) : Option (BitVec 5) :=
  if v == 0 then none else small 5 v

/-- A register field of the sequencer (R169). -/
def regField (q : Seq) (v : BitVec 6) : Option (BitVec 6) := if regOk q v then some v else none

/-- The unused operand fields of a form are 0: a, b, c in this order. -/
def Fields.zeroABC (f : Fields) (a b c : Bool) : Bool :=
  (a && f.a != 0) || (b && f.b != 0) || (c && f.c != 0)

/-- Bits of imm18 from n up are not 0. -/
def Fields.immAbove (f : Fields) (n : Nat) : Bool := f.imm.toNat / 2 ^ n != 0

/-! ## Field groups -/

/-- Width code of LD, ST, LDA and STA (R176). -/
def MWidth.code (w : MWidth) : BitVec 3 := BitVec.ofBool w.zext ++ w.log2

def MWidth.ofCode (c : BitVec 3) : MWidth := ⟨c.getLsbD 2, c.extractLsb' 0 2⟩

/-- The minor of LD, ST, LDM and STM (R176). -/
def memMinor (order : BitVec 2) (scope width : BitVec 3) : BitVec 8 := order ++ scope ++ width

def optScopeCode : Option Scope → BitVec 3
  | none => 0
  | some s => s.code

/-- eng bits of the load half (R241); bit 63 is the half selector and 62 to 56 are reserved. -/
def LoadHalf.eng (o : LoadHalf) : BitVec 24 :=
  0#8 ++ BitVec.ofBool o.conj ++
  (match o.tr with
    | none => 0#7
    | some (x, y) => y ++ x ++ 1#1) ++
  o.sc ++ o.dq.code

def LoadHalf.reserved (ty : Option Ty) (e : BitVec 24) : Bool :=
  e.extractLsb' 16 8 != 0 ||
  (e.extractLsb' 8 1 == 0 && e.extractLsb' 9 6 != 0) ||
  ((match ty with | some t => !t.isMx | none => true) && e.extractLsb' 3 5 != 0)

def LoadHalf.ofEng (e : BitVec 24) : Option LoadHalf := do
  let dq ← Dq.ofCode (e.extractLsb' 0 3)
  let x : BitVec 3 := e.extractLsb' 9 3
  let y : BitVec 3 := e.extractLsb' 12 3
  if e.extractLsb' 8 1 = 1#1 then
    if x.toNat ≤ 4 && y.toNat ≤ 4 then
      some ⟨e.getLsbD 15, some (x, y), e.extractLsb' 3 5, dq⟩
    else none
  else some ⟨e.getLsbD 15, none, e.extractLsb' 3 5, dq⟩

/-- eng bits of the store half (R244), with the selector bit given. -/
def StoreHalf.eng (sel : BitVec 1) (o : StoreHalf) : BitVec 24 :=
  sel ++ 0#2 ++ o.sc ++ o.seed ++ BitVec.ofBool o.ovf ++ o.mode.code ++ o.inTy.code ++ o.red.code

def StoreHalf.reserved (ty : Option Ty) (e : BitVec 24) : Bool :=
  e.extractLsb' 21 2 != 0 ||
  ((match ty with | some t => !t.isMx | none => true) && e.extractLsb' 16 5 != 0) ||
  (e.extractLsb' 7 3 != 4 && e.extractLsb' 11 5 != 0)

def StoreHalf.ofEng (e : BitVec 24) : Option StoreHalf := do
  let mode ← RMode.ofCode (e.extractLsb' 7 3)
  let inTy ← Ty.ofCode (e.extractLsb' 2 5)
  some ⟨e.extractLsb' 16 5, e.extractLsb' 11 5, e.getLsbD 10, mode, inTy, Red.ofCode (e.extractLsb' 0 2)⟩

def CpyHalf.eng : CpyHalf → BitVec 24
  | .load h => h.eng
  | .store h => h.eng 1#1

def CpyHalf.reserved (ty : Option Ty) (e : BitVec 24) : Bool :=
  if e.getLsbD 23 then StoreHalf.reserved ty e else LoadHalf.reserved ty e

def CpyHalf.ofEng (e : BitVec 24) : Option CpyHalf :=
  if e.getLsbD 23 then (StoreHalf.ofEng e).map .store else (LoadHalf.ofEng e).map .load

/-- eng bits of an accumulator range, with the two bits above it (R170). -/
def ZRange.eng (top : BitVec 2) (z : ZRange) : BitVec 24 := top ++ (z.cntM1 ++ z.first)

def ZRange.ofEng (e : BitVec 24) : ZRange := ⟨e.extractLsb' 0 11, e.extractLsb' 11 11⟩

/-- A rotation descriptor of 12 bits (R168). -/
def Rot.bits (r : Rot) : BitVec 12 := r.lenM1 ++ r.fld.code ++ r.posM1

def Rot.ofBits (v : BitVec 12) : Option Rot := do
  let fld ← RotFld.ofCode (v.extractLsb' 6 2)
  some ⟨v.extractLsb' 8 4, fld, v.extractLsb' 0 6⟩

/-- Descriptor j of a payload (R168). -/
def rotAt (p : BitVec 192) (j : Nat) : BitVec 12 := p.extractLsb' (12 * j) 12

/-- The first n descriptors of a payload, in order. -/
def rotsFrom (p : BitVec 192) : Nat → Nat → Option (List Rot)
  | _, 0 => some []
  | j, n + 1 => do
    let r ← Rot.ofBits (rotAt p j)
    let rs ← rotsFrom p (j + 1) n
    some (r :: rs)

/-- A payload that holds the descriptors in order, the rest 0. -/
def rotsPayload : List Rot → Nat
  | [] => 0
  | r :: rs => r.bits.toNat + 4096 * rotsPayload rs

/-- The trip source code and imm18 of a WHEEL (R168). -/
def Trip.code : Trip → BitVec 2
  | .imm _ => 0 | .reg _ => 1 | .token => 2

def Trip.imm18 : Trip → BitVec 18
  | .imm n => n
  | .reg r => r.setWidth 18
  | .token => 0

/-! ## Tables of minors -/

/-- The integer instructions of major 0x10, by minor (R174, R208). -/
def intOp (h : Hdr) (d b c : BitVec 6) : Nat → Option Instr
  | 0x00 => some (.add h d b c) | 0x01 => some (.sub h d b c) | 0x02 => some (.mul h d b c)
  | 0x03 => some (.mulh h d b c) | 0x04 => some (.mulhn h d b c) | 0x05 => some (.div h d b c)
  | 0x06 => some (.divn h d b c) | 0x07 => some (.rem h d b c) | 0x08 => some (.remn h d b c)
  | 0x09 => some (.and h d b c) | 0x0A => some (.or h d b c) | 0x0B => some (.xor h d b c)
  | 0x0C => some (.andn h d b c) | 0x0D => some (.orn h d b c) | 0x0E => some (.shl h d b c)
  | 0x0F => some (.shr h d b c) | 0x10 => some (.sar h d b c) | 0x11 => some (.rol h d b c)
  | 0x12 => some (.min h d b c) | 0x13 => some (.max h d b c) | 0x14 => some (.minn h d b c)
  | 0x15 => some (.maxn h d b c)
  | _ => none

/-- Condition minors of majors 0x14, 0x15, 0x24 (K) and 0x12, 0x13 (L, S). -/
def withCond (m : BitVec 8) (k : Cond → Except DecErr Instr) : Except DecErr Instr :=
  match Cond.ofCode m with
  | some c => k c
  | none => .error .illegal

/-! ## Decoding -/

/-- Major 0x00: NOP (R173, R196). -/
def common00 (f : Fields) : Except DecErr Instr :=
  let h := f.hdr
  if f.minor ≠ 0 then .error .illegal
  else f.finish 0 (f.zeroABC true true true || f.imm != 0 || f.pop != 0 || f.push != 0) (some (.nop h))

/-- Major 0x01: BR (R173, R198). -/
def common01 (f : Fields) : Except DecErr Instr :=
  let h := f.hdr
  if f.minor ≠ 0 then .error .illegal
  else f.finish 0 (f.zeroABC true true true) (some (.br h f.imm))

/-- Major 0x02: JMP (R173, R198). -/
def common02 (f : Fields) : Except DecErr Instr :=
  let h := f.hdr
  if f.minor ≠ 0 then .error .illegal
  else f.finish 0 false (some (.jmp h (f.c ++ f.b ++ f.a ++ f.imm)))

/-- Major 0x03: END (R173). -/
def common03 (f : Fields) : Except DecErr Instr :=
  let h := f.hdr
  if f.minor ≠ 0 then .error .illegal
  else f.finish 0 (f.zeroABC true true true || f.imm != 0) (some (.endStream h))

/-- Major 0x04: TOK (R173). -/
def common04 (f : Fields) : Except DecErr Instr :=
  let h := f.hdr
  if f.minor ≠ 0 then .error .illegal
  else f.finish 0 (f.zeroABC true true true || f.imm != 0) (some (.tok h))

/-- Major 0x05: PUSHV (R173, R199). -/
def common05 (q : Seq) (f : Fields) : Except DecErr Instr :=
  let h := f.hdr
  if q == .c || f.minor ≠ 0 then .error .illegal
  else f.finish 0 (f.zeroABC false false true || f.imm != 0) (do
    let t ← Seq.fromNat f.a.toNat
    let j ← q.bitOf t
    let src ← regField q f.b
    if f.push.getLsbD j then none else some (.pushv h t src))

/-- Major 0x06: POPV (R173, R200). -/
def common06 (q : Seq) (f : Fields) : Except DecErr Instr :=
  let h := f.hdr
  if q == .c || f.minor ≠ 0 then .error .illegal
  else f.finish 0 (f.zeroABC false false true || f.imm != 0) (do
    let dst ← regField q f.a
    let t ← Seq.fromNat f.b.toNat
    let j ← q.bitOf t
    if f.pop.getLsbD j then none else some (.popv h dst t))

/-- Major 0x07: SWAIT (R201). -/
def common07 (q : Seq) (f : Fields) : Except DecErr Instr :=
  let h := f.hdr
  if f.c = 0 then
    f.finish 0 (f.zeroABC true true false || f.immAbove 16) (some (.swait h f.minor (f.imm.setWidth 16)))
  else
    f.finish 0 (f.zeroABC true false false || f.c != 1 || f.imm != 0) (do
      let r ← regField q f.b
      if q == .c then none else some (.swaitReg h f.minor r))

/-- Major 0x08: SSIG (R201). -/
def common08 (f : Fields) : Except DecErr Instr :=
  let h := f.hdr
  f.finish 0 (f.zeroABC true true true || f.immAbove 8)
    (if f.imm.setWidth 8 = 0#8 then none else some (.ssig h f.minor (f.imm.setWidth 8)))

/-- Major 0x09: SSET (R201). -/
def common09 (q : Seq) (f : Fields) : Except DecErr Instr :=
  let h := f.hdr
  if f.c = 0 then
    f.finish 0 (f.zeroABC true true false || f.immAbove 16) (some (.sset h f.minor (f.imm.setWidth 16)))
  else
    f.finish 0 (f.zeroABC true false false || f.c != 1 || f.imm != 0) (do
      let r ← regField q f.b
      if q == .c then none else some (.ssetReg h f.minor r))

/-- Major 0x0A: FENCE (R204). -/
def common0A (f : Fields) : Except DecErr Instr :=
  let h := f.hdr
  if f.minor ≠ 0 then .error .illegal
  else f.finish 0 (f.zeroABC true true true || f.immAbove 6) (do
    let k ← FenceKind.ofCode (f.imm.extractLsb' 0 3)
    let s ← Scope.ofCode (f.imm.extractLsb' 3 3)
    some (.fence h k s))

/-- Major 0x0B: MFS (R205). -/
def common0B (q : Seq) (f : Fields) : Except DecErr Instr :=
  let h := f.hdr
  if q == .c || f.minor ≠ 0 then .error .illegal
  else f.finish 0 (f.zeroABC false true true || f.immAbove 12) (do
    let d ← regField q f.a
    let r ← SReg.fromNat (f.imm.setWidth 12).toNat
    some (.mfs h d r))

/-- Major 0x0C: MTS (R205). -/
def common0C (q : Seq) (f : Fields) : Except DecErr Instr :=
  let h := f.hdr
  if q == .c || f.minor ≠ 0 then .error .illegal
  else f.finish 0 (f.zeroABC true false true || f.immAbove 12) (do
    let r ← SReg.fromNat (f.imm.setWidth 12).toNat
    let s ← regField q f.b
    some (.mts h r s))

/-- Major 0x0D: BRK (R226). -/
def common0D (f : Fields) : Except DecErr Instr :=
  let h := f.hdr
  if f.minor ≠ 0 then .error .illegal
  else f.finish 0 (f.zeroABC true true true || f.immAbove 16) (some (.brk h (f.imm.setWidth 16)))

/-- Major 0x0E: WHEEL (R168). -/
def common0E (q : Seq) (f : Fields) (p : BitVec 192) : Except DecErr Instr :=
  let h := f.hdr
  if q == .k then .error .illegal
  else
    let n := (f.minor.extractLsb' 2 5).toNat
    let src : BitVec 2 := f.minor.extractLsb' 0 2
    f.finish 2
      (f.minor.getLsbD 7 || f.guard != 0 || f.gneg != 0 ||
        (src == 1 && f.immAbove 5) || (src == 2 && f.imm != 0) ||
        (n ≤ 16 && p.toNat / 2 ^ (12 * n) != 0))
      (do
        let rots ← if n ≤ 16 then rotsFrom p 0 n else none
        let trip ← match src.toNat with
          | 0 => some (Trip.imm f.imm)
          | 1 => some (Trip.reg (f.imm.setWidth 5))
          | 2 => some Trip.token
          | _ => none
        let stages ← small 4 f.c
        if wheelOk q f.a trip rots then some (.wheel h f.a f.b stages trip rots) else none)

/-- Majors 0x00 to 0x0E (R173). p is the payload of a quad. -/
def decodeCommon (q : Seq) (f : Fields) (p : BitVec 192) : Except DecErr Instr :=
  match f.major.toNat with
  | 0x00 => common00 f
  | 0x01 => common01 f
  | 0x02 => common02 f
  | 0x03 => common03 f
  | 0x04 => common04 f
  | 0x05 => common05 q f
  | 0x06 => common06 q f
  | 0x07 => common07 q f
  | 0x08 => common08 f
  | 0x09 => common09 q f
  | 0x0A => common0A f
  | 0x0B => common0B q f
  | 0x0C => common0C q f
  | 0x0D => common0D f
  | 0x0E => common0E q f p
  | _ => .error .illegal

/-- The ordering of an atomic from its code and scope (R177). -/
def decodeOrd (ord : BitVec 2) (sc : BitVec 3) : Option AmOrd :=
  match ord.toNat with
  | 0 => some .none
  | 1 => (Scope.ofCode sc).map .acq
  | 2 => (Scope.ofCode sc).map .rel
  | _ => none

/-- The form of LD, ST, LDM and STM: order bits that the instruction accepts, scope, and the rest. -/
def decodeOrder (f : Fields) (accept : Option (BitVec 2)) (reserved : Bool)
    (k : Option Scope → Option Instr) : Except DecErr Instr :=
  let order : BitVec 2 := f.minor.extractLsb' 6 2
  let scope : BitVec 3 := f.minor.extractLsb' 3 3
  if order = 0 then f.finish 0 (reserved || scope != 0) (k none)
  else if some order = accept then
    f.finish 0 reserved (do let s ← Scope.ofCode scope; k (some s))
  else .error .illegal

/-- Major 0x10: the integer group (R208). -/
def k10 (f : Fields) : Except DecErr Instr :=
  let h := f.hdr
  match intOp h f.a f.b f.c f.minor.toNat with
  | none => .error .illegal
  | some i => f.finish 0 (f.imm != 0) (some i)

/-- Major 0x11: the immediate group (R210). -/
def k11 (f : Fields) : Except DecErr Instr :=
  let h := f.hdr
  match f.minor.toNat with
  | 0 => f.finish 0 (f.zeroABC false false true) (some (.addi h f.a f.b f.imm))
  | 1 => f.finish 0 (f.zeroABC false false true) (some (.andi h f.a f.b f.imm))
  | 2 => f.finish 0 (f.zeroABC false false true) (some (.ori h f.a f.b f.imm))
  | 3 => f.finish 0 (f.zeroABC false false true) (some (.xori h f.a f.b f.imm))
  | 4 => f.finish 0 (f.zeroABC false false true || f.immAbove 6) (some (.shli h f.a f.b (f.imm.setWidth 6)))
  | 5 => f.finish 0 (f.zeroABC false false true || f.immAbove 6) (some (.shri h f.a f.b (f.imm.setWidth 6)))
  | 6 => f.finish 0 (f.zeroABC false false true || f.immAbove 6) (some (.sari h f.a f.b (f.imm.setWidth 6)))
  | 7 => f.finish 0 (f.zeroABC false true true) (some (.li h f.a f.imm))
  | 8 => f.finish 0 (f.zeroABC false true true) (some (.lih h f.a f.imm))
  | _ => .error .illegal

/-- Major 0x12: the bit-count group (R211). -/
def k12 (f : Fields) : Except DecErr Instr :=
  let h := f.hdr
  let r := f.zeroABC false false true || f.imm != 0
  match f.minor.toNat with
  | 0 => f.finish 0 r (some (.clz h f.a f.b))
  | 1 => f.finish 0 r (some (.ctz h f.a f.b))
  | 2 => f.finish 0 r (some (.popc h f.a f.b))
  | 3 => f.finish 0 r (some (.brev h f.a f.b))
  | 4 => f.finish 0 r (some (.bswap h f.a f.b))
  | _ => .error .illegal

/-- Major 0x13: EXT and INS (R212). -/
def k13 (f : Fields) : Except DecErr Instr :=
  let h := f.hdr
  let r := f.zeroABC false false true || f.immAbove 12
  let lo : BitVec 6 := f.imm.extractLsb' 0 6
  let w : BitVec 6 := f.imm.extractLsb' 6 6
  let ok := lo.toNat + w.toNat + 1 ≤ 64
  match f.minor.toNat with
  | 0 => f.finish 0 r (if ok then some (.ext h f.a f.b lo w) else none)
  | 1 => f.finish 0 r (if ok then some (.ins h f.a f.b lo w) else none)
  | _ => .error .illegal

/-- Major 0x14: CMP (R213). -/
def k14 (f : Fields) : Except DecErr Instr :=
  let h := f.hdr
  withCond f.minor fun cond =>
    f.finish 0 (f.imm != 0) ((pdest f.a).map fun pd => .cmp h cond pd f.b f.c)

/-- Major 0x15: CMPI (R213). -/
def k15 (f : Fields) : Except DecErr Instr :=
  let h := f.hdr
  withCond f.minor fun cond =>
    f.finish 0 (f.zeroABC false false true) ((pdest f.a).map fun pd => .cmpi h cond pd f.b f.imm)

/-- Major 0x16: SEL (R214). -/
def k16 (f : Fields) : Except DecErr Instr :=
  let h := f.hdr
  if f.minor ≠ 0 then .error .illegal
  else f.finish 0 (f.immAbove 5) (some (.sel h f.a f.b f.c (f.imm.setWidth 5)))

/-- Major 0x17: the predicate group (R215). -/
def k17 (f : Fields) : Except DecErr Instr :=
  let h := f.hdr
  let three (k : BitVec 5 → BitVec 5 → BitVec 5 → Instr) : Except DecErr Instr :=
    f.finish 0 (f.imm != 0) (do
      let pd ← pdest f.a
      let pa ← small 5 f.b
      let pb ← small 5 f.c
      some (k pd pa pb))
  let two (k : BitVec 5 → BitVec 5 → Instr) : Except DecErr Instr :=
    f.finish 0 (f.zeroABC false false true || f.imm != 0) (do
      let pd ← pdest f.a
      let pa ← small 5 f.b
      some (k pd pa))
  match f.minor.toNat with
  | 0 => three (.pand h)
  | 1 => three (.por h)
  | 2 => three (.pxor h)
  | 3 => three (.pandn h)
  | 4 => two (.pnot h)
  | 5 => two (.pmov h)
  | _ => .error .illegal

/-- Major 0x18: the call group (R216). -/
def k18 (f : Fields) : Except DecErr Instr :=
  let h := f.hdr
  match f.minor.toNat with
  | 0 => f.finish 0 (f.zeroABC false true true) (some (.call h f.a f.imm))
  | 1 => f.finish 0 (f.zeroABC false false true || f.imm != 0) (some (.callr h f.a f.b))
  | 2 => f.finish 0 (f.zeroABC true false true || f.imm != 0) (some (.ret h f.b))
  | 3 => f.finish 0 (f.zeroABC true false true || f.imm != 0) (some (.jmpr h f.b))
  | _ => .error .illegal

/-- Major 0x19: LD (R217). -/
def k19 (f : Fields) : Except DecErr Instr :=
  let h := f.hdr
  decodeOrder f (some 1) (f.zeroABC false false true) fun s =>
      some (.ld h s (MWidth.ofCode (f.minor.extractLsb' 0 3)) f.a f.b f.imm)

/-- Major 0x1A: ST (R217). -/
def k1A (f : Fields) : Except DecErr Instr :=
  let h := f.hdr
  if f.minor.extractLsb' 6 2 = 3#2 then
    f.finish 0 (f.minor.extractLsb' 3 3 != 0)
      (some (.stCoil h (MWidth.ofCode (f.minor.extractLsb' 0 3)) f.a f.b f.c f.imm))
  else decodeOrder f (some 2) (f.zeroABC false false true) fun s =>
    some (.st h s (MWidth.ofCode (f.minor.extractLsb' 0 3)) f.a f.b f.imm)

/-- Major 0x1B: LDM (R221). -/
def k1B (f : Fields) : Except DecErr Instr :=
  let h := f.hdr
  decodeOrder f (some 1) false fun s =>
      if f.minor.extractLsb' 0 2 = 3#2 && f.a.toNat + f.c.toNat ≤ 63 then
        some (.ldm h s (f.minor.getLsbD 2) f.a f.b f.c f.imm)
      else none

/-- Major 0x1C: STM (R221). -/
def k1C (f : Fields) : Except DecErr Instr :=
  let h := f.hdr
  decodeOrder f (some 2) false fun s =>
      if f.minor.extractLsb' 0 2 = 3#2 && f.a.toNat + f.c.toNat ≤ 63 then
        some (.stm h s (f.minor.getLsbD 2) f.a f.b f.c f.imm)
      else none

/-- Major 0x1D: the trap group (R222-R225). -/
def k1D (f : Fields) : Except DecErr Instr :=
  let h := f.hdr
  match f.minor.toNat with
  | 0 => f.finish 0 (f.zeroABC true true true || f.immAbove 8) (some (.trap h (f.imm.setWidth 8)))
  | 1 => f.finish 0 (f.zeroABC true false true || f.immAbove 3) (some (.hset h f.b (f.imm.setWidth 3)))
  | 2 => f.finish 0 (f.zeroABC true true true || f.imm != 0) (some (.resume h))
  | 3 => f.finish 0 (f.zeroABC false false true || f.immAbove 12) (some (.sysc h f.a f.b (f.imm.setWidth 12)))
  | _ => .error .illegal

/-- Major 0x20: AMO (R177, R315). -/
def k20 (f : Fields) : Except DecErr Instr :=
  let h := f.hdr
  match f.minor.extractLsb' 4 2, AmoOp.ofCode (f.minor.extractLsb' 0 4) with
  | 3#2, _ => .error .illegal
  | _, none => .error .illegal
  | ord, some op =>
    let sc : BitVec 3 := f.imm.extractLsb' 0 3
    f.finish 0 (f.minor.extractLsb' 6 2 != 0 || f.immAbove 4 || (ord == 0 && sc != 0)) (do
      let o ← decodeOrd ord sc
      if op == .plain .fadd && !f.imm.getLsbD 3 then none
      else some (.amo h op o (f.imm.getLsbD 3) f.a f.b f.c))

/-- Major 0x21: AMOC (R317). -/
def k21 (f : Fields) : Except DecErr Instr :=
  let h := f.hdr
  let ord : BitVec 2 := f.minor.extractLsb' 4 2
  if ord = 3 || f.minor.extractLsb' 0 4 ≠ 0#4 then .error .illegal
  else
    let sc : BitVec 3 := f.imm.extractLsb' 0 3
    f.finish 0 (f.minor.extractLsb' 6 2 != 0 || f.immAbove 4 || (ord == 0 && sc != 0)) (do
      let o ← decodeOrd ord sc
      some (.amoc h o (f.imm.getLsbD 3) f.a f.b f.c))

/-- Major 0x22: AVEC (R319). -/
def k22 (f : Fields) : Except DecErr Instr :=
  let h := f.hdr
  if 4 ≤ f.minor.toNat then .error .illegal
  else
    let sc : BitVec 3 := f.imm.extractLsb' 7 3
    let rel := f.imm.getLsbD 6
    f.finish 0 (f.zeroABC true false false || f.immAbove 10 || (!rel && sc != 0)) (do
      let r ← if rel then (Scope.ofCode sc).map some else some none
      some (.avec h (f.minor.getLsbD 0) (f.minor.getLsbD 1) r (f.imm.extractLsb' 0 6) f.b f.c))

/-- Major 0x23: AMRED (R177). -/
def k23 (f : Fields) : Except DecErr Instr :=
  let h := f.hdr
  match f.minor.extractLsb' 4 2, AmOp.ofCode (f.minor.extractLsb' 0 4) with
  | 3#2, _ => .error .illegal
  | 1#2, _ => .error .illegal
  | _, none => .error .illegal
  | ord, some op =>
    let sc : BitVec 3 := f.imm.extractLsb' 0 3
    f.finish 0 (f.zeroABC true false false || f.minor.extractLsb' 6 2 != 0 || f.immAbove 4 ||
        (ord == 0 && sc != 0)) (do
      let r ← if ord = 2 then (Scope.ofCode sc).map some else some none
      if op == .fadd && !f.imm.getLsbD 3 then none
      else some (.amred h op r (f.imm.getLsbD 3) f.b f.c))

/-- Major 0x24: WAITA (R321). -/
def k24 (f : Fields) : Except DecErr Instr :=
  let h := f.hdr
  withCond f.minor fun cond =>
    f.finish 0 (f.immAbove 1) (some (.waita h cond (f.imm.getLsbD 0) f.a f.b f.c))

/-- Major 0x25: SIGA (R323). -/
def k25 (f : Fields) : Except DecErr Instr :=
  let h := f.hdr
  if f.minor ≠ 0 then .error .illegal
  else f.finish 0 (f.zeroABC true false true || f.imm != 0) (some (.siga h f.b))

/-- Major 0x26: the barrier group (R325-R327). -/
def k26 (f : Fields) : Except DecErr Instr :=
  let h := f.hdr
  match f.minor.toNat with
  | 0 => f.finish 0 (f.zeroABC true false false || f.imm != 0) (some (.bari h f.b f.c))
  | 1 => f.finish 0 (f.zeroABC true false true || f.imm != 0) (some (.bara h f.b))
  | 2 => f.finish 0 (f.zeroABC true false true || f.imm != 0) (some (.bard h f.b))
  | 3 => f.finish 0 (f.zeroABC true false false || f.imm != 0) (some (.barw h f.b f.c))
  | _ => .error .illegal

/-- Major 0x27: AFENCE (R329). -/
def k27 (f : Fields) : Except DecErr Instr :=
  let h := f.hdr
  if f.minor ≠ 0 then .error .illegal
  else f.finish 0 (f.zeroABC true false false || f.imm != 0) (some (.afence h f.b f.c))

/-- Major 0x28: the coil group (R335). -/
def k28 (f : Fields) : Except DecErr Instr :=
  let h := f.hdr
  match f.minor.toNat with
  | 0 => f.finish 0 (f.zeroABC false true true || f.immAbove 4)
      (if (f.imm.setWidth 4).toNat ≤ 10 then some (.cnew h f.a (f.imm.setWidth 4)) else none)
  | 1 => f.finish 0 (f.imm != 0) (some (.cres h f.a f.b f.c))
  | 2 => f.finish 0 (f.imm != 0) (some (.caddr h f.a f.b f.c))
  | 3 => f.finish 0 (f.imm != 0) (some (.ccommit h f.a f.b f.c))
  | 4 => f.finish 0 (f.zeroABC false false true || f.imm != 0) (some (.clen h f.a f.b))
  | 5 => f.finish 0 (f.imm != 0) (some (.cfork h f.a f.b f.c))
  | 6 => f.finish 0 (f.zeroABC true false true || f.imm != 0) (some (.cdrop h f.b))
  | 7 => f.finish 0 (f.zeroABC false false true || f.immAbove 4) (some (.cinfo h f.a f.b (f.imm.setWidth 4)))
  | _ => .error .illegal

/-- Major 0x29: the work group (R341-R347). -/
def k29 (f : Fields) : Except DecErr Instr :=
  let h := f.hdr
  match f.minor.toNat with
  | 0 => f.finish 0 (f.zeroABC true false false || f.immAbove 4) (some (.sqpush h f.b f.c (f.imm.setWidth 4)))
  | 1 => f.finish 0 (f.zeroABC true true true || f.imm != 0) (some (.yield h))
  | 2 => f.finish 0 (f.zeroABC true false false || f.imm != 0) (some (.launch h f.b f.c))
  | 3 => f.finish 0 (f.zeroABC true false true || f.immAbove 2) (some (.cancel h f.b (f.imm.setWidth 2)))
  | 4 => f.finish 0 (f.zeroABC false false true || f.immAbove 2) (some (.ccnt h f.a f.b (f.imm.setWidth 2)))
  | 5 => f.finish 0 (f.imm != 0) (some (.plan h f.a f.b f.c))
  | 6 => f.finish 0 (f.zeroABC true false true || f.immAbove 2)
      (if f.imm.setWidth 2 = 3#2 then none else some (.phint h f.b (f.imm.setWidth 2)))
  | _ => .error .illegal

/-- K's majors 0x10 to 0x3F (R174 to R177). -/
def decodeK (f : Fields) : Except DecErr Instr :=
  match f.major.toNat with
  | 0x10 => k10 f
  | 0x11 => k11 f
  | 0x12 => k12 f
  | 0x13 => k13 f
  | 0x14 => k14 f
  | 0x15 => k15 f
  | 0x16 => k16 f
  | 0x17 => k17 f
  | 0x18 => k18 f
  | 0x19 => k19 f
  | 0x1A => k1A f
  | 0x1B => k1B f
  | 0x1C => k1C f
  | 0x1D => k1D f
  | 0x20 => k20 f
  | 0x21 => k21 f
  | 0x22 => k22 f
  | 0x23 => k23 f
  | 0x24 => k24 f
  | 0x25 => k25 f
  | 0x26 => k26 f
  | 0x27 => k27 f
  | 0x28 => k28 f
  | 0x29 => k29 f
  | _ => .error .illegal

/-- Major 0x10: the address group (R228). -/
def ls10 (f : Fields) : Except DecErr Instr :=
  let h := f.hdr
  let three (k : BitVec 5 → BitVec 5 → BitVec 5 → Instr) : Except DecErr Instr :=
    f.finish 0 (f.imm != 0) (do
      let d ← small 5 f.a
      let b ← small 5 f.b
      let c ← small 5 f.c
      some (k d b c))
  match f.minor.toNat with
  | 0 => three (.aadd h)
  | 1 => three (.asub h)
  | 2 => three (.amul h)
  | 3 => three (.amadd h)
  | 4 => f.finish 0 (f.zeroABC false false true || f.imm != 0) (do
      let d ← small 5 f.a
      let b ← small 5 f.b
      some (.amov h d b))
  | _ => .error .illegal

/-- Major 0x11: the address immediates (R229). -/
def ls11 (f : Fields) : Except DecErr Instr :=
  let h := f.hdr
  match f.minor.toNat with
  | 0 => f.finish 0 (f.zeroABC false false true) (do
      let d ← small 5 f.a
      let b ← small 5 f.b
      some (.aaddi h d b f.imm))
  | 1 => f.finish 0 (f.zeroABC false false true || f.immAbove 6) (do
      let d ← small 5 f.a
      let b ← small 5 f.b
      some (.ashli h d b (f.imm.setWidth 6)))
  | 2 => f.finish 0 (f.zeroABC false true true) ((small 5 f.a).map fun d => .ali h d f.imm)
  | 3 => f.finish 0 (f.zeroABC false true true) ((small 5 f.a).map fun d => .alih h d f.imm)
  | _ => .error .illegal

/-- Major 0x12: ACMP (R230). -/
def ls12 (f : Fields) : Except DecErr Instr :=
  let h := f.hdr
  let condForm (reserved : Bool) (k : BitVec 5 → BitVec 5 → Option Instr) : Except DecErr Instr :=
    f.finish 0 reserved (do
      let pd ← pdest f.a
      let b ← small 5 f.b
      k pd b)
  withCond f.minor fun cond =>
    condForm (f.imm != 0) fun pd b => (small 5 f.c).map fun c => .acmp h cond pd b c

/-- Major 0x13: ACMPI (R230). -/
def ls13 (f : Fields) : Except DecErr Instr :=
  let h := f.hdr
  let condForm (reserved : Bool) (k : BitVec 5 → BitVec 5 → Option Instr) : Except DecErr Instr :=
    f.finish 0 reserved (do
      let pd ← pdest f.a
      let b ← small 5 f.b
      k pd b)
  withCond f.minor fun cond =>
    condForm (f.zeroABC false false true) fun pd b => some (.acmpi h cond pd b f.imm)

/-- Major 0x14: MAPSET (R167, R232). -/
def ls14 (f : Fields) (p : BitVec 192) : Except DecErr Instr :=
  let h := f.hdr
  if f.minor ≠ 0 then .error .illegal
  else
    let lvl : BitVec 3 := p.extractLsb' 175 3
    f.finish 2 (f.zeroABC false true true || f.imm != 0 || (lvl == 7 && p.extractLsb' 178 14 != 0)) (do
      let m ← small 4 f.a
      if lvl = 5 || lvl = 6 then none else some (.mapset h m p))

/-- Major 0x15: MAPOFS (R233). -/
def ls15 (f : Fields) : Except DecErr Instr :=
  let h := f.hdr
  if f.minor ≠ 0 then .error .illegal
  else f.finish 0 (f.zeroABC false false true || f.imm != 0) (do
    let m ← small 4 f.a
    let b ← small 5 f.b
    some (.mapofs h m b))

/-- Major 0x16: TLD (R241). -/
def ls16 (q : Seq) (f : Fields) (s : Second) : Except DecErr Instr :=
  let h := f.hdr
  let ty := Ty.ofCode (f.minor.extractLsb' 0 5)
  let minorTop (n : Nat) : Bool := f.minor.toNat / 2 ^ n != 0
  f.finishD s (minorTop 5 || LoadHalf.reserved ty s.eng) (do
      let t ← ty
      let dst ← if f.a.toNat < 8 then some (TDst.q (f.a.setWidth 3))
        else if f.a.toNat < 10 then some (TDst.w (f.a.setWidth 1)) else none
      let m ← small 4 f.b
      let c ← small 5 f.c
      let o ← LoadHalf.ofEng s.eng
      if q == .l then some (.tld h s.sem t dst m c f.imm o) else none)

/-- Major 0x17: TST (R244). -/
def ls17 (q : Seq) (f : Fields) (s : Second) : Except DecErr Instr :=
  let h := f.hdr
  let ty := Ty.ofCode (f.minor.extractLsb' 0 5)
  let minorTop (n : Nat) : Bool := f.minor.toNat / 2 ^ n != 0
  let coil := f.minor.getLsbD 5
  f.finishD s (minorTop 6 || s.eng.getLsbD 23 || StoreHalf.reserved ty s.eng || (coil && f.immAbove 5)) (do
    let t ← ty
    let o ← small 3 f.a
    let m ← small 4 f.b
    let c ← small 5 f.c
    let half ← StoreHalf.ofEng s.eng
    if q == .s then
      if coil then some (.tstCoil h s.sem t o m c (f.imm.setWidth 5) half)
      else some (.tst h s.sem t o m c f.imm half)
    else none)

/-- Major 0x18: TCPY (R248). -/
def ls18 (f : Fields) (s : Second) : Except DecErr Instr :=
  let h := f.hdr
  let ty := Ty.ofCode (f.minor.extractLsb' 0 5)
  let minorTop (n : Nat) : Bool := f.minor.toNat / 2 ^ n != 0
  f.finishD s (minorTop 5 || f.immAbove 12 || CpyHalf.reserved ty s.eng) (do
      let t ← ty
      let d ← small 5 f.a
      let m ← small 4 f.b
      let c ← small 5 f.c
      let half ← CpyHalf.ofEng s.eng
      some (.tcpy h s.sem t d m c (f.imm.extractLsb' 0 6) (f.imm.extractLsb' 6 6) half))

/-- Major 0x19: TGTH (R249). -/
def ls19 (q : Seq) (f : Fields) (s : Second) : Except DecErr Instr :=
  let h := f.hdr
  let ty := Ty.ofCode (f.minor.extractLsb' 0 5)
  let minorTop (n : Nat) : Bool := f.minor.toNat / 2 ^ n != 0
  f.finishD s (minorTop 5 || s.eng.extractLsb' 8 16 != 0) (do
      let t ← ty
      let d ← small 3 f.a
      let m ← small 4 f.b
      let c ← small 5 f.c
      let lvl : BitVec 3 := s.eng.extractLsb' 5 3
      if lvl.toNat ≤ 4 && q == .l then
        some (.tgth h s.sem t d m c f.imm lvl (s.eng.extractLsb' 0 5)) else none)

/-- Major 0x1A: TSCT (R249). -/
def ls1A (q : Seq) (f : Fields) (s : Second) : Except DecErr Instr :=
  let h := f.hdr
  let ty := Ty.ofCode (f.minor.extractLsb' 0 5)
  let minorTop (n : Nat) : Bool := f.minor.toNat / 2 ^ n != 0
  f.finishD s (minorTop 5 || s.eng.extractLsb' 8 16 != 0) (do
      let t ← ty
      let o ← small 3 f.a
      let m ← small 4 f.b
      let c ← small 5 f.c
      let lvl : BitVec 3 := s.eng.extractLsb' 5 3
      if lvl.toNat ≤ 4 && q == .s then
        some (.tsct h s.sem t o m c f.imm lvl (s.eng.extractLsb' 0 5)) else none)

/-- Major 0x1B: TPRF (R251). -/
def ls1B (f : Fields) : Except DecErr Instr :=
  let h := f.hdr
  let ty := Ty.ofCode (f.minor.extractLsb' 0 5)
  let minorTop (n : Nat) : Bool := f.minor.toNat / 2 ^ n != 0
  f.finish 0 (minorTop 5 || f.zeroABC true false false) (do
      let t ← ty
      let m ← small 4 f.b
      let c ← small 5 f.c
      some (.tprf h t m c f.imm))

/-- Major 0x1C: TZERO (R250). -/
def ls1C (f : Fields) (s : Second) : Except DecErr Instr :=
  let h := f.hdr
  let ty := Ty.ofCode (f.minor.extractLsb' 0 5)
  let minorTop (n : Nat) : Bool := f.minor.toNat / 2 ^ n != 0
  f.finishD s (minorTop 5 || f.zeroABC true false false || s.eng != 0) (do
      let t ← ty
      let m ← small 4 f.b
      let c ← small 5 f.c
      if t.isMx then none else some (.tzero h s.sem t m c f.imm))

/-- Major 0x1D: LDA (R231). -/
def ls1D (f : Fields) : Except DecErr Instr :=
  let h := f.hdr
  let minorTop (n : Nat) : Bool := f.minor.toNat / 2 ^ n != 0
  if minorTop 3 then .error .illegal
  else f.finish 0 (f.zeroABC false false true) (do
    let d ← small 5 f.a
    let b ← small 5 f.b
    some (.lda h (MWidth.ofCode (f.minor.extractLsb' 0 3)) d b f.imm))

/-- Major 0x1E: STA (R231). -/
def ls1E (f : Fields) : Except DecErr Instr :=
  let h := f.hdr
  let minorTop (n : Nat) : Bool := f.minor.toNat / 2 ^ n != 0
  if minorTop 3 then .error .illegal
  else f.finish 0 (f.zeroABC false false true) (do
    let d ← small 5 f.a
    let b ← small 5 f.b
    some (.sta h (MWidth.ofCode (f.minor.extractLsb' 0 3)) d b f.imm))

/-- Major 0x1F: RCPY (R252). -/
def ls1F (f : Fields) (s : Second) : Except DecErr Instr :=
  let h := f.hdr
  let form (k : BitVec 5 → BitVec 4 → BitVec 5 → BitVec 2 → Instr) : Except DecErr Instr :=
    f.finishD s (f.imm != 0 || s.eng.extractLsb' 2 22 != 0) (do
      let r ← small 5 f.a
      let m ← small 4 f.b
      let c ← small 5 f.c
      some (k r m c (s.eng.extractLsb' 0 2)))
  match f.minor.toNat with
  | 0 => form (.rcpyWr h s.sem)
  | 1 => form (.rcpyRd h s.sem)
  | _ => .error .illegal

/-- Major 0x20: RSIG (R253). -/
def ls20 (f : Fields) : Except DecErr Instr :=
  let h := f.hdr
  if f.minor ≠ 0 then .error .illegal
  else f.finish 0 (f.zeroABC true false false || f.imm != 0) (do
    let b ← small 5 f.b
    let c ← small 5 f.c
    some (.rsig h b c))

/-- Major 0x21: CADDR (R254). -/
def ls21 (f : Fields) : Except DecErr Instr :=
  let h := f.hdr
  let three (k : BitVec 5 → BitVec 5 → BitVec 5 → Instr) : Except DecErr Instr :=
    f.finish 0 (f.imm != 0) (do
      let d ← small 5 f.a
      let b ← small 5 f.b
      let c ← small 5 f.c
      some (k d b c))
  if f.minor ≠ 0 then .error .illegal else three (.caddrLs h)

/-- Majors 0x10 to 0x21 of L and S (R178). q is l or s. -/
def decodeLS (q : Seq) (f : Fields) (s : Second) (p : BitVec 192) : Except DecErr Instr :=
  match f.major.toNat with
  | 0x10 => ls10 f
  | 0x11 => ls11 f
  | 0x12 => ls12 f
  | 0x13 => ls13 f
  | 0x14 => ls14 f p
  | 0x15 => ls15 f
  | 0x16 => ls16 q f s
  | 0x17 => ls17 q f s
  | 0x18 => ls18 f s
  | 0x19 => ls19 q f s
  | 0x1A => ls1A q f s
  | 0x1B => ls1B f
  | 0x1C => ls1C f s
  | 0x1D => ls1D f
  | 0x1E => ls1E f
  | 0x1F => ls1F f s
  | 0x20 => ls20 f
  | 0x21 => ls21 f
  | _ => .error .illegal

/-- Major 0x10: MLW (R260). -/
def c10 (f : Fields) (s : Second) : Except DecErr Instr :=
  let h := f.hdr
  let ty := Ty.ofCode (f.minor.extractLsb' 0 5)
  let minorTop (n : Nat) : Bool := f.minor.toNat / 2 ^ n != 0
  let keep (i : Instr) : Option Instr := if wf .c i then some i else none
  f.finishD s (minorTop 5 || f.zeroABC false false true || f.imm != 0 || s.eng != 0) (do
      let t ← ty
      let w ← small 1 f.a
      let q ← small 3 f.b
      keep (.mlw h s.sem t w q))

/-- Major 0x11: MMA (R261). -/
def c11 (f : Fields) (s : Second) : Except DecErr Instr :=
  let h := f.hdr
  let ty := Ty.ofCode (f.minor.extractLsb' 0 5)
  let minorTop (n : Nat) : Bool := f.minor.toNat / 2 ^ n != 0
  let z := ZRange.ofEng s.eng
  let top : BitVec 2 := s.eng.extractLsb' 22 2
  let keep (i : Instr) : Option Instr := if wf .c i then some i else none
  f.finishD s (minorTop 6 || f.imm != 0 || top != 0) (do
      let t ← ty
      let w ← small 1 f.a
      let q ← small 3 f.b
      keep (.mma h s.sem t (f.minor.getLsbD 5) w q f.c z))

/-- Major 0x12: MMAC (R262). -/
def c12 (f : Fields) (s : Second) : Except DecErr Instr :=
  let h := f.hdr
  let ty := Ty.ofCode (f.minor.extractLsb' 0 5)
  let minorTop (n : Nat) : Bool := f.minor.toNat / 2 ^ n != 0
  let z := ZRange.ofEng s.eng
  let top : BitVec 2 := s.eng.extractLsb' 22 2
  let keep (i : Instr) : Option Instr := if wf .c i then some i else none
  f.finishD s (minorTop 6 || f.zeroABC false true false || f.immAbove 11 || top != 0) (do
      let t ← ty
      let w ← small 1 f.a
      keep (.mmac h s.sem t (f.minor.getLsbD 5) w f.c z (f.imm.setWidth 11)))

/-- Major 0x13: MZERO (R264). -/
def c13 (f : Fields) (s : Second) : Except DecErr Instr :=
  let h := f.hdr
  let ty := Ty.ofCode (f.minor.extractLsb' 0 5)
  let minorTop (n : Nat) : Bool := f.minor.toNat / 2 ^ n != 0
  let z := ZRange.ofEng s.eng
  let top : BitVec 2 := s.eng.extractLsb' 22 2
  let keep (i : Instr) : Option Instr := if wf .c i then some i else none
  f.finishD s (minorTop 5 || f.zeroABC true true true || f.imm != 0 || top != 0) (do
      let t ← ty
      keep (.mzero h s.sem t z))

/-- Major 0x14: MDRAIN (R265). -/
def c14 (f : Fields) (s : Second) : Except DecErr Instr :=
  let h := f.hdr
  let ty := Ty.ofCode (f.minor.extractLsb' 0 5)
  let minorTop (n : Nat) : Bool := f.minor.toNat / 2 ^ n != 0
  let z := ZRange.ofEng s.eng
  let top : BitVec 2 := s.eng.extractLsb' 22 2
  let keep (i : Instr) : Option Instr := if wf .c i then some i else none
  f.finishD s (minorTop 5 || f.zeroABC false true false || f.imm != 0) (do
      let t ← ty
      let o ← small 3 f.a
      let lines ← Lines.ofCode top
      keep (.mdrain h s.sem t o f.c z lines))

/-- Major 0x15: MDRAINX (R266). -/
def c15 (f : Fields) (s : Second) : Except DecErr Instr :=
  let h := f.hdr
  let ty := Ty.ofCode (f.minor.extractLsb' 0 5)
  let minorTop (n : Nat) : Bool := f.minor.toNat / 2 ^ n != 0
  let z := ZRange.ofEng s.eng
  let top : BitVec 2 := s.eng.extractLsb' 22 2
  let keep (i : Instr) : Option Instr := if wf .c i then some i else none
  f.finishD s (minorTop 5 || f.zeroABC false true false || f.immAbove 11 || top != 0) (do
      let t ← ty
      let mem ← small 3 f.a
      keep (.mdrainx h s.sem t mem f.c z (f.imm.setWidth 11)))

/-- Major 0x16: MFACT (R269). -/
def c16 (f : Fields) (s : Second) : Except DecErr Instr :=
  let h := f.hdr
  let ty := Ty.ofCode (f.minor.extractLsb' 0 5)
  let minorTop (n : Nat) : Bool := f.minor.toNat / 2 ^ n != 0
  let z := ZRange.ofEng s.eng
  let top : BitVec 2 := s.eng.extractLsb' 22 2
  let keep (i : Instr) : Option Instr := if wf .c i then some i else none
  f.finishD s (minorTop 5 || f.zeroABC true true true || f.immAbove 11 || top != 0) (do
      let t ← ty
      keep (.mfact h s.sem t z (f.imm.setWidth 11)))

/-- Major 0x17: MSTAT (R271). -/
def c17 (f : Fields) : Except DecErr Instr :=
  let h := f.hdr
  if f.minor ≠ 0 then .error .illegal
  else f.finish 0 (f.zeroABC true true true || f.immAbove 4)
    (if f.imm.getLsbD 3 then none else some (.mstat h (f.imm.setWidth 3)))

/-- Major 0x18: TRED (R274). -/
def c18 (f : Fields) (s : Second) : Except DecErr Instr :=
  let h := f.hdr
  let ty := Ty.ofCode (f.minor.extractLsb' 0 5)
  let minorTop (n : Nat) : Bool := f.minor.toNat / 2 ^ n != 0
  let keep (i : Instr) : Option Instr := if wf .c i then some i else none
  f.finishD s (minorTop 5 || f.immAbove 6 || s.eng.extractLsb' 5 19 != 0) (do
      let t ← ty
      let o ← small 3 f.a
      let q ← small 3 f.b
      keep (.tred h s.sem t o q f.c (f.imm.setWidth 6) (RedOp.ofCode (s.eng.extractLsb' 3 2))
        (s.eng.extractLsb' 0 3)))

/-- Major 0x19: TPASS (R273). -/
def c19 (f : Fields) (s : Second) : Except DecErr Instr :=
  let h := f.hdr
  let ty := Ty.ofCode (f.minor.extractLsb' 0 5)
  let minorTop (n : Nat) : Bool := f.minor.toNat / 2 ^ n != 0
  let keep (i : Instr) : Option Instr := if wf .c i then some i else none
  f.finishD s (minorTop 5 || f.immAbove 6 || s.eng != 0) (do
      let t ← ty
      let o ← small 3 f.a
      let q ← small 3 f.b
      keep (.tpass h s.sem t o q f.c (f.imm.setWidth 6)))

/-- Major 0x1A: ATTN (R275). -/
def c1A (f : Fields) (s : Second) : Except DecErr Instr :=
  let h := f.hdr
  let keep (i : Instr) : Option Instr := if wf .c i then some i else none
  if f.minor ≠ 0 then .error .illegal
  else f.finishD s (f.zeroABC true true true || f.immAbove 13 || s.eng != 0)
    (keep (.attn h s.sem (f.imm.setWidth 13)))

/-- Major 0x1B: ATTNM (R275). -/
def c1B (f : Fields) (s : Second) : Except DecErr Instr :=
  let h := f.hdr
  let keep (i : Instr) : Option Instr := if wf .c i then some i else none
  if f.minor ≠ 0 then .error .illegal
  else f.finishD s (f.zeroABC true true true || f.immAbove 13 || s.eng != 0)
    (keep (.attnm h s.sem (f.imm.setWidth 13)))

/-- Major 0x1C: PBIND (R284). -/
def c1C (f : Fields) : Except DecErr Instr :=
  let h := f.hdr
  match f.minor.toNat with
  | 0 => f.finish 0 (f.zeroABC false true true) (if f.a = 63 then none else some (.pbind h f.a f.imm))
  | 1 => f.finish 0 (f.zeroABC false true true) ((small 2 f.a).map fun t => .pbindTable h t f.imm)
  | _ => .error .illegal

/-- Major 0x1D: PSTATE (R285). -/
def c1D (f : Fields) : Except DecErr Instr :=
  let h := f.hdr
  if f.minor ≠ 0 then .error .illegal
  else f.finish 0 (f.zeroABC true true true || f.immAbove 6)
    (if (f.imm.extractLsb' 0 3).toNat ≤ 5 then
      some (.pstate h (f.imm.extractLsb' 0 3) (f.imm.extractLsb' 3 3)) else none)

/-- Majors 0x10 to 0x1D of C (R179). -/
def decodeC (f : Fields) (s : Second) : Except DecErr Instr :=
  match f.major.toNat with
  | 0x10 => c10 f s
  | 0x11 => c11 f s
  | 0x12 => c12 f s
  | 0x13 => c13 f s
  | 0x14 => c14 f s
  | 0x15 => c15 f s
  | 0x16 => c16 f s
  | 0x17 => c17 f
  | 0x18 => c18 f s
  | 0x19 => c19 f s
  | 0x1A => c1A f s
  | 0x1B => c1B f s
  | 0x1C => c1C f
  | 0x1D => c1D f
  | _ => .error .illegal

/-- The payload of a quad from its three doublewords (R166). -/
def payloadOf (w1 w2 w3 : Word) : BitVec 192 := w3 ++ w2 ++ w1

/-- The decoder of sequencer q, on an instruction's doublewords. Doublewords beyond the length are not
read. -/
def decode (q : Seq) (w0 w1 w2 w3 : Word) : Except DecErr Instr :=
  let f := Fields.unpack w0
  if f.len = 3 then .error .illegal
  else if f.major.toNat < 16 then decodeCommon q f (payloadOf w1 w2 w3)
  else match q with
    | .k => decodeK f
    | .l => decodeLS .l f (Second.unpack w1) (payloadOf w1 w2 w3)
    | .s => decodeLS .s f (Second.unpack w1) (payloadOf w1 w2 w3)
    | .c => decodeC f (Second.unpack w1)

/-- Doublewords an instruction takes, from its first one (R161). -/
def lenWords (w0 : Word) : Nat :=
  match (w0.extractLsb' 0 2).toNat with
  | 1 => 2 | 2 => 4 | _ => 1

/-! ## Element operations (R180, R181) -/

/-- The fields of an element word. -/
structure EFields where
  op : BitVec 5
  d : BitVec 4 := 0
  a : BitVec 4 := 0
  b : BitVec 4 := 0
  c : BitVec 4 := 0
  mod : BitVec 8 := 0
  top : BitVec 3 := 0
  deriving DecidableEq, Repr

def EFields.unpack (w : BitVec 32) : EFields where
  op := w.extractLsb' 0 5
  d := w.extractLsb' 5 4
  a := w.extractLsb' 9 4
  b := w.extractLsb' 13 4
  c := w.extractLsb' 17 4
  mod := w.extractLsb' 21 8
  top := w.extractLsb' 29 3

def EFields.pack (f : EFields) : BitVec 32 := f.top ++ f.mod ++ f.c ++ f.b ++ f.a ++ f.d ++ f.op

/-- Steps 5 and 6 of R171 for an element word: the fields that the operation does not use are 0, and the
destination of every operation but KST is an e register (R292). -/
def EFields.finish (f : EFields) (d a b c : Bool) (modOk : Bool) (i : Option Instr) : Except DecErr Instr :=
  if f.top ≠ 0 || (!d && f.d != 0) || (!a && f.a != 0) || (!b && f.b != 0) || (!c && f.c != 0) || !modOk then
    .error .reserved
  else if d && f.op != 0x19 && f.d.getLsbD 3 then .error .limit
  else match i with
    | some j => .ok j
    | none => .error .limit

/-- The decoder of an element word (R181, R182). -/
def decodeElem (w : BitVec 32) : Except DecErr Instr :=
  let f := EFields.unpack w
  let dab := f.finish true true true false (f.mod == 0)
  let da := f.finish true true false false (f.mod == 0)
  match f.op.toNat with
  | 0x00 => dab (some (.fadd f.d f.a f.b))
  | 0x01 => dab (some (.fsub f.d f.a f.b))
  | 0x02 => dab (some (.fmul f.d f.a f.b))
  | 0x03 => f.finish true true true true (f.mod == 0) (some (.ffma f.d f.a f.b f.c))
  | 0x04 => dab (some (.fmax f.d f.a f.b))
  | 0x05 => dab (some (.fmin f.d f.a f.b))
  | 0x06 => da (some (.fabs f.d f.a))
  | 0x07 => da (some (.fneg f.d f.a))
  | 0x08 => f.finish true true true false (f.mod.extractLsb' 3 5 == 0)
      (some (.fcmp f.d f.a f.b (FCond.ofCode (f.mod.extractLsb' 0 3))))
  | 0x09 => f.finish true true true true (f.mod == 0) (some (.fsel f.d f.a f.b f.c))
  | 0x0A => da (some (.frcp f.d f.a))
  | 0x0B => da (some (.frsq f.d f.a))
  | 0x0C => da (some (.fexp2 f.d f.a))
  | 0x0D => da (some (.flog2 f.d f.a))
  | 0x0E => f.finish true true false false true (do
      let t ← CvtTy.ofCode (f.mod.extractLsb' 0 5)
      let r ← CvtMode.ofCode (f.mod.extractLsb' 5 3)
      some (.fcvt f.d f.a t r))
  | 0x0F => f.finish true true false false (f.mod.extractLsb' 2 6 == 0)
      (some (.tbl f.d f.a (f.mod.extractLsb' 0 2)))
  | 0x10 => dab (some (.iadd f.d f.a f.b))
  | 0x11 => dab (some (.isub f.d f.a f.b))
  | 0x12 => dab (some (.imul f.d f.a f.b))
  | 0x13 => dab (some (.iand f.d f.a f.b))
  | 0x14 => dab (some (.ior f.d f.a f.b))
  | 0x15 => dab (some (.ixor f.d f.a f.b))
  | 0x16 => dab (some (.ishl f.d f.a f.b))
  | 0x17 => dab (some (.ishr f.d f.a f.b))
  | 0x18 => da (if f.d.toNat < 8 && 8 ≤ f.a.toNat then some (.kld f.d f.a) else none)
  | 0x19 => da (if 8 ≤ f.d.toNat && f.a.toNat < 8 then some (.kst f.d f.a) else none)
  | 0x1A => f.finish true true false false (f.mod.extractLsb' 2 6 == 0)
      (if f.mod.extractLsb' 0 2 = 0#2 then none else some (.lag f.d f.a (f.mod.extractLsb' 0 2)))
  | 0x1B => f.finish false true false false (f.mod.extractLsb' 1 7 == 0)
      (some (if f.mod.getLsbD 0 then .emitLast f.a else .emit f.a))
  | 0x1C => f.finish false true false false (f.mod.extractLsb' 3 5 == 0)
      (some (.tap f.a (f.mod.extractLsb' 0 3)))
  | 0x1D => f.finish false true false false (f.mod == 0) (some (.drop f.a))
  | 0x1E =>
    if f.mod.getLsbD 7 then
      f.finish false false false false (f.mod.extractLsb' 5 2 == 0)
        (if f.mod.extractLsb' 0 5 = 0#5 then none else some (.efltFp (f.mod.extractLsb' 0 5)))
    else f.finish false true false false true (some (.eflt f.a (f.mod.extractLsb' 0 7)))
  | _ => .error .illegal

/-! ## Encoding -/

/-- A type minor: the type code with the three flag bits above it (R178). -/
def tyMinor (ty : Ty) (flags : BitVec 3 := 0) : BitVec 8 := flags ++ ty.code

def oneFlag (b : Bool) : BitVec 3 := 0#2 ++ BitVec.ofBool b

/-- A 6-bit field from a narrower register number. -/
def fld6 {n : Nat} (v : BitVec n) : BitVec 6 := v.setWidth 6

def imm18 {n : Nat} (v : BitVec n) : BitVec 18 := v.setWidth 18

def TDst.code : TDst → BitVec 6
  | .q n => n.setWidth 6
  | .w n => 8#6 + n.setWidth 6

def amoMinor (ord : BitVec 2) (op : BitVec 4) : BitVec 8 := 0#2 ++ ord ++ op

/-- imm18 of AMO, AMOC and AMRED (R177). -/
def amoImm (w4 : Bool) (scope : BitVec 3) : BitVec 18 := 0#14 ++ BitVec.ofBool w4 ++ scope

/-- A single: one doubleword. -/
def one (h : Hdr) (major : BitVec 6) (minor : BitVec 8) (a b c : BitVec 6) (imm : BitVec 18) : List Word :=
  [(h.fields 0 major minor a b c imm).pack]

/-- A double: two doublewords. -/
def two (h : Hdr) (f : Sem) (major : BitVec 6) (minor : BitVec 8) (a b c : BitVec 6) (imm : BitVec 18)
    (eng : BitVec 24) : List Word :=
  [(h.fields 1 major minor a b c imm).pack, (f.second eng).pack]

/-- A quad: a header and the three doublewords of the payload (R166). -/
def four (h : Hdr) (major : BitVec 6) (minor : BitVec 8) (a b c : BitVec 6) (imm : BitVec 18)
    (p : BitVec 192) : List Word :=
  [(h.fields 2 major minor a b c imm).pack, p.extractLsb' 0 64, p.extractLsb' 64 64, p.extractLsb' 128 64]

/-- The doublewords of an instruction. The events of hosts, Kiln, dispatchers and units have none, and the
element operations stand in port programs (encodeElem). -/
def encode : Instr → List Word
  | .nop h => one h 0x00 0 0 0 0 0
  | .br h off => one h 0x01 0 0 0 0 off
  | .jmp h off => one h 0x02 0 (off.extractLsb' 18 6) (off.extractLsb' 24 6) (off.extractLsb' 30 6)
      (off.extractLsb' 0 18)
  | .endStream h => one h 0x03 0 0 0 0 0
  | .tok h => one h 0x04 0 0 0 0 0
  | .pushv h t src => one h 0x05 0 (BitVec.ofNat 6 t.idx) src 0 0
  | .popv h dst t => one h 0x06 0 dst (BitVec.ofNat 6 t.idx) 0 0
  | .swait h sem t => one h 0x07 sem 0 0 0 (imm18 t)
  | .swaitReg h sem r => one h 0x07 sem 0 r 1 0
  | .ssig h sem inc => one h 0x08 sem 0 0 0 (imm18 inc)
  | .sset h sem v => one h 0x09 sem 0 0 0 (imm18 v)
  | .ssetReg h sem r => one h 0x09 sem 0 r 1 0
  | .fence h k s => one h 0x0A 0 0 0 0 (0#12 ++ s.code ++ k.code)
  | .mfs h d r => one h 0x0B 0 d 0 0 (imm18 r.code)
  | .mts h r s => one h 0x0C 0 0 s 0 (imm18 r.code)
  | .brk h code => one h 0x0D 0 0 0 0 (imm18 code)
  | .wheel h body ii st trip rots =>
      four h 0x0E (0#1 ++ BitVec.ofNat 5 rots.length ++ trip.code) body ii (fld6 st) trip.imm18
        (BitVec.ofNat 192 (rotsPayload rots))
  | .add h d b c => one h 0x10 0x00 d b c 0
  | .sub h d b c => one h 0x10 0x01 d b c 0
  | .mul h d b c => one h 0x10 0x02 d b c 0
  | .mulh h d b c => one h 0x10 0x03 d b c 0
  | .mulhn h d b c => one h 0x10 0x04 d b c 0
  | .div h d b c => one h 0x10 0x05 d b c 0
  | .divn h d b c => one h 0x10 0x06 d b c 0
  | .rem h d b c => one h 0x10 0x07 d b c 0
  | .remn h d b c => one h 0x10 0x08 d b c 0
  | .and h d b c => one h 0x10 0x09 d b c 0
  | .or h d b c => one h 0x10 0x0A d b c 0
  | .xor h d b c => one h 0x10 0x0B d b c 0
  | .andn h d b c => one h 0x10 0x0C d b c 0
  | .orn h d b c => one h 0x10 0x0D d b c 0
  | .shl h d b c => one h 0x10 0x0E d b c 0
  | .shr h d b c => one h 0x10 0x0F d b c 0
  | .sar h d b c => one h 0x10 0x10 d b c 0
  | .rol h d b c => one h 0x10 0x11 d b c 0
  | .min h d b c => one h 0x10 0x12 d b c 0
  | .max h d b c => one h 0x10 0x13 d b c 0
  | .minn h d b c => one h 0x10 0x14 d b c 0
  | .maxn h d b c => one h 0x10 0x15 d b c 0
  | .addi h d b imm => one h 0x11 0 d b 0 imm
  | .andi h d b imm => one h 0x11 1 d b 0 imm
  | .ori h d b imm => one h 0x11 2 d b 0 imm
  | .xori h d b imm => one h 0x11 3 d b 0 imm
  | .shli h d b sh => one h 0x11 4 d b 0 (imm18 sh)
  | .shri h d b sh => one h 0x11 5 d b 0 (imm18 sh)
  | .sari h d b sh => one h 0x11 6 d b 0 (imm18 sh)
  | .li h d imm => one h 0x11 7 d 0 0 imm
  | .lih h d imm => one h 0x11 8 d 0 0 imm
  | .clz h d b => one h 0x12 0 d b 0 0
  | .ctz h d b => one h 0x12 1 d b 0 0
  | .popc h d b => one h 0x12 2 d b 0 0
  | .brev h d b => one h 0x12 3 d b 0 0
  | .bswap h d b => one h 0x12 4 d b 0 0
  | .ext h d b lo w => one h 0x13 0 d b 0 (0#6 ++ w ++ lo)
  | .ins h d b lo w => one h 0x13 1 d b 0 (0#6 ++ w ++ lo)
  | .cmp h cond pd b c => one h 0x14 cond.code (fld6 pd) b c 0
  | .cmpi h cond pd b imm => one h 0x15 cond.code (fld6 pd) b 0 imm
  | .sel h d b c pn => one h 0x16 0 d b c (imm18 pn)
  | .pand h pd pa pb => one h 0x17 0 (fld6 pd) (fld6 pa) (fld6 pb) 0
  | .por h pd pa pb => one h 0x17 1 (fld6 pd) (fld6 pa) (fld6 pb) 0
  | .pxor h pd pa pb => one h 0x17 2 (fld6 pd) (fld6 pa) (fld6 pb) 0
  | .pandn h pd pa pb => one h 0x17 3 (fld6 pd) (fld6 pa) (fld6 pb) 0
  | .pnot h pd pa => one h 0x17 4 (fld6 pd) (fld6 pa) 0 0
  | .pmov h pd pa => one h 0x17 5 (fld6 pd) (fld6 pa) 0 0
  | .call h d off => one h 0x18 0 d 0 0 off
  | .callr h d b => one h 0x18 1 d b 0 0
  | .ret h b => one h 0x18 2 0 b 0 0
  | .jmpr h b => one h 0x18 3 0 b 0 0
  | .ld h acq w d b disp =>
      one h 0x19 (memMinor (if acq.isSome then 1 else 0) (optScopeCode acq) w.code) d b 0 disp
  | .st h rel w s b disp =>
      one h 0x1A (memMinor (if rel.isSome then 2 else 0) (optScopeCode rel) w.code) s b 0 disp
  | .stCoil h w s b c off => one h 0x1A (memMinor 3 0 w.code) s b c off
  | .ldm h acq z f b c disp =>
      one h 0x1B (memMinor (if acq.isSome then 1 else 0) (optScopeCode acq) (BitVec.ofBool z ++ 3#2)) f b c disp
  | .stm h rel z f b c disp =>
      one h 0x1C (memMinor (if rel.isSome then 2 else 0) (optScopeCode rel) (BitVec.ofBool z ++ 3#2)) f b c disp
  | .trap h code => one h 0x1D 0 0 0 0 (imm18 code)
  | .hset h b cls => one h 0x1D 1 0 b 0 (imm18 cls)
  | .resume h => one h 0x1D 2 0 0 0 0
  | .sysc h d b svc => one h 0x1D 3 d b 0 (imm18 svc)
  | .amo h op ord w4 d b c => one h 0x20 (amoMinor ord.code op.code) d b c (amoImm w4 ord.scopeCode)
  | .amoc h ord w4 a b c => one h 0x21 (amoMinor ord.code 0) a b c (amoImm w4 ord.scopeCode)
  | .amred h op rel w4 b c =>
      one h 0x23 (amoMinor (if rel.isSome then 2 else 0) op.code) 0 b c (amoImm w4 (optScopeCode rel))
  | .avec h isAdd bits rel cnt b c =>
      one h 0x22 (0#6 ++ BitVec.ofBool bits ++ BitVec.ofBool isAdd) 0 b c
        (0#8 ++ optScopeCode rel ++ BitVec.ofBool rel.isSome ++ cnt)
  | .waita h cond w4 a b c => one h 0x24 cond.code a b c (0#17 ++ BitVec.ofBool w4)
  | .siga h b => one h 0x25 0 0 b 0 0
  | .bari h b c => one h 0x26 0 0 b c 0
  | .bara h b => one h 0x26 1 0 b 0 0
  | .bard h b => one h 0x26 2 0 b 0 0
  | .barw h b c => one h 0x26 3 0 b c 0
  | .afence h b c => one h 0x27 0 0 b c 0
  | .cnew h d size => one h 0x28 0 d 0 0 (imm18 size)
  | .cres h d b c => one h 0x28 1 d b c 0
  | .caddr h d b c => one h 0x28 2 d b c 0
  | .ccommit h a b c => one h 0x28 3 a b c 0
  | .clen h d b => one h 0x28 4 d b 0 0
  | .cfork h d b c => one h 0x28 5 d b c 0
  | .cdrop h b => one h 0x28 6 0 b 0 0
  | .cinfo h d b word => one h 0x28 7 d b 0 (imm18 word)
  | .sqpush h b c queue => one h 0x29 0 0 b c (imm18 queue)
  | .yield h => one h 0x29 1 0 0 0 0
  | .launch h b c => one h 0x29 2 0 b c 0
  | .cancel h b level => one h 0x29 3 0 b 0 (imm18 level)
  | .ccnt h d b level => one h 0x29 4 d b 0 (imm18 level)
  | .plan h a b c => one h 0x29 5 a b c 0
  | .phint h b policy => one h 0x29 6 0 b 0 (imm18 policy)
  | .aadd h d b c => one h 0x10 0 (fld6 d) (fld6 b) (fld6 c) 0
  | .asub h d b c => one h 0x10 1 (fld6 d) (fld6 b) (fld6 c) 0
  | .amul h d b c => one h 0x10 2 (fld6 d) (fld6 b) (fld6 c) 0
  | .amadd h d b c => one h 0x10 3 (fld6 d) (fld6 b) (fld6 c) 0
  | .amov h d b => one h 0x10 4 (fld6 d) (fld6 b) 0 0
  | .aaddi h d b imm => one h 0x11 0 (fld6 d) (fld6 b) 0 imm
  | .ashli h d b sh => one h 0x11 1 (fld6 d) (fld6 b) 0 (imm18 sh)
  | .ali h d imm => one h 0x11 2 (fld6 d) 0 0 imm
  | .alih h d imm => one h 0x11 3 (fld6 d) 0 0 imm
  | .acmp h cond pd b c => one h 0x12 cond.code (fld6 pd) (fld6 b) (fld6 c) 0
  | .acmpi h cond pd b imm => one h 0x13 cond.code (fld6 pd) (fld6 b) 0 imm
  | .lda h w d b disp => one h 0x1D (w.code.setWidth 8) (fld6 d) (fld6 b) 0 disp
  | .sta h w s b disp => one h 0x1E (w.code.setWidth 8) (fld6 s) (fld6 b) 0 disp
  | .mapset h m p => four h 0x14 0 (fld6 m) 0 0 0 p
  | .mapofs h m b => one h 0x15 0 (fld6 m) (fld6 b) 0 0
  | .tld h f ty dst m c disp o => two h f 0x16 (tyMinor ty) dst.code (fld6 m) (fld6 c) disp o.eng
  | .tst h f ty o m c disp sh => two h f 0x17 (tyMinor ty) (fld6 o) (fld6 m) (fld6 c) disp (sh.eng 0)
  | .tstCoil h f ty o m c slot sh =>
      two h f 0x17 (tyMinor ty (oneFlag true)) (fld6 o) (fld6 m) (fld6 c) (imm18 slot) (sh.eng 0)
  | .tcpy h f ty d m c ci co half =>
      two h f 0x18 (tyMinor ty) (fld6 d) (fld6 m) (fld6 c) (0#6 ++ co ++ ci) half.eng
  | .tgth h f ty q m c disp lvl idx =>
      two h f 0x19 (tyMinor ty) (fld6 q) (fld6 m) (fld6 c) disp (0#16 ++ lvl ++ idx)
  | .tsct h f ty o m c disp lvl idx =>
      two h f 0x1A (tyMinor ty) (fld6 o) (fld6 m) (fld6 c) disp (0#16 ++ lvl ++ idx)
  | .tzero h f ty m c disp => two h f 0x1C (tyMinor ty) 0 (fld6 m) (fld6 c) disp 0
  | .tprf h ty m c disp => one h 0x1B (tyMinor ty) 0 (fld6 m) (fld6 c) disp
  | .rcpyWr h f r m c lg => two h f 0x1F 0 (fld6 r) (fld6 m) (fld6 c) 0 (lg.setWidth 24)
  | .rcpyRd h f r m c lg => two h f 0x1F 1 (fld6 r) (fld6 m) (fld6 c) 0 (lg.setWidth 24)
  | .rsig h b c => one h 0x20 0 0 (fld6 b) (fld6 c) 0
  | .caddrLs h d b c => one h 0x21 0 (fld6 d) (fld6 b) (fld6 c) 0
  | .mlw h f ty w q => two h f 0x10 (tyMinor ty) (fld6 w) (fld6 q) 0 0 0
  | .mma h f ty ow w q slot z =>
      two h f 0x11 (tyMinor ty (oneFlag ow)) (fld6 w) (fld6 q) slot 0 (z.eng 0)
  | .mmac h f ty ow w slot z src =>
      two h f 0x12 (tyMinor ty (oneFlag ow)) (fld6 w) 0 slot (imm18 src) (z.eng 0)
  | .mzero h f ty z => two h f 0x13 (tyMinor ty) 0 0 0 0 (z.eng 0)
  | .mdrain h f ty o slot z lines => two h f 0x14 (tyMinor ty) (fld6 o) 0 slot 0 (z.eng lines.code)
  | .mdrainx h f ty mem slot z peer => two h f 0x15 (tyMinor ty) (fld6 mem) 0 slot (imm18 peer) (z.eng 0)
  | .mfact h f ty z piv => two h f 0x16 (tyMinor ty) 0 0 0 (imm18 piv) (z.eng 0)
  | .mstat h code => one h 0x17 0 0 0 0 (imm18 code)
  | .tred h f ty o q ri ro op levels =>
      two h f 0x18 (tyMinor ty) (fld6 o) (fld6 q) ri (imm18 ro) (0#19 ++ op.code ++ levels)
  | .tpass h f ty o q pi po => two h f 0x19 (tyMinor ty) (fld6 o) (fld6 q) pi (imm18 po) 0
  | .attn h f blk => two h f 0x1A 0 0 0 0 (imm18 blk) 0
  | .attnm h f blk => two h f 0x1B 0 0 0 0 (imm18 blk) 0
  | .pbind h slot r => one h 0x1C 0 slot 0 0 r
  | .pbindTable h t r => one h 0x1C 1 (fld6 t) 0 0 r
  | .pstate h port k => one h 0x1D 0 0 0 0 (0#12 ++ k ++ port)
  | _ => []

/-- The word of an element operation (R180, R181); 0 for any other term. -/
def encodeElem : Instr → BitVec 32
  | .fadd d a b => EFields.pack { op := 0x00, d, a, b }
  | .fsub d a b => EFields.pack { op := 0x01, d, a, b }
  | .fmul d a b => EFields.pack { op := 0x02, d, a, b }
  | .ffma d a b c => EFields.pack { op := 0x03, d, a, b, c }
  | .fmax d a b => EFields.pack { op := 0x04, d, a, b }
  | .fmin d a b => EFields.pack { op := 0x05, d, a, b }
  | .fabs d a => EFields.pack { op := 0x06, d, a }
  | .fneg d a => EFields.pack { op := 0x07, d, a }
  | .fcmp d a b cond => EFields.pack { op := 0x08, d, a, b, mod := cond.code.setWidth 8 }
  | .fsel d a b c => EFields.pack { op := 0x09, d, a, b, c }
  | .frcp d a => EFields.pack { op := 0x0A, d, a }
  | .frsq d a => EFields.pack { op := 0x0B, d, a }
  | .fexp2 d a => EFields.pack { op := 0x0C, d, a }
  | .flog2 d a => EFields.pack { op := 0x0D, d, a }
  | .fcvt d a t r => EFields.pack { op := 0x0E, d, a, mod := r.code ++ t.code }
  | .tbl d a t => EFields.pack { op := 0x0F, d, a, mod := t.setWidth 8 }
  | .iadd d a b => EFields.pack { op := 0x10, d, a, b }
  | .isub d a b => EFields.pack { op := 0x11, d, a, b }
  | .imul d a b => EFields.pack { op := 0x12, d, a, b }
  | .iand d a b => EFields.pack { op := 0x13, d, a, b }
  | .ior d a b => EFields.pack { op := 0x14, d, a, b }
  | .ixor d a b => EFields.pack { op := 0x15, d, a, b }
  | .ishl d a b => EFields.pack { op := 0x16, d, a, b }
  | .ishr d a b => EFields.pack { op := 0x17, d, a, b }
  | .kld d a => EFields.pack { op := 0x18, d, a }
  | .kst d a => EFields.pack { op := 0x19, d, a }
  | .lag d a dist => EFields.pack { op := 0x1A, d, a, mod := dist.setWidth 8 }
  | .emit a => EFields.pack { op := 0x1B, a }
  | .emitLast a => EFields.pack { op := 0x1B, a, mod := 1 }
  | .tap a q => EFields.pack { op := 0x1C, a, mod := q.setWidth 8 }
  | .drop a => EFields.pack { op := 0x1D, a }
  | .eflt a code => EFields.pack { op := 0x1E, a, mod := code.setWidth 8 }
  | .efltFp mask => EFields.pack { op := 0x1E, mod := 0x80#8 ||| mask.setWidth 8 }
  | _ => 0

/-- Decode an instruction's doublewords; missing doublewords read 0. -/
def decodeList (q : Seq) (ws : List Word) : Except DecErr Instr :=
  decode q (ws.getD 0 0) (ws.getD 1 0) (ws.getD 2 0) (ws.getD 3 0)

/-- The instruction the decoder reads from a word of the opcode table's numbering: a 32-bit row is an
element word, a 64-bit row a single of K, and a longer row a double or quad of L (the table gives no bits
to the stream instructions; see NOTES.md). -/
def decodeTableWord (nbits w : Nat) : Option Instr :=
  if nbits ≤ 32 then (decodeElem (BitVec.ofNat 32 w)).toOption
  else
    let word (j : Nat) : Word := BitVec.ofNat 64 (w / 2 ^ (64 * j))
    let q : Seq := if nbits ≤ 64 then .k else .l
    (decode q (word 0) (word 1) (word 2) (word 3)).toOption

end Sys2Proof
end

