-- ==== Sys2Proof/Machine/Order.lean ====
section
/-! DEFINITION. Machine/Order: epochs and frontier vectors (R147-R151), token FIFOs (R28-R33) and
semaphores (R34, R35, R203). -/

namespace Sys2Proof.Machine

/-! ## Vectors -/

def lget (v : LVec) (t : Nat) : BitVec 23 :=
  match t with
  | 0 => v.k | 1 => v.l | 2 => v.c | _ => v.s

def lset (v : LVec) (t : Nat) (e : BitVec 23) : LVec :=
  match t with
  | 0 => { v with k := e } | 1 => { v with l := e } | 2 => { v with c := e } | _ => { v with s := e }

def bmax {w : Nat} (a b : BitVec w) : BitVec w := if a.toNat < b.toNat then b else a

def lmax (a b : LVec) : LVec := ⟨bmax a.k b.k, bmax a.l b.l, bmax a.c b.c, bmax a.s b.s⟩

/-- Every entry one epoch (R150, start of a task). -/
def lall (e : BitVec 23) : LVec := ⟨e, e, e, e⟩

/-- The entrywise maximum of two frontier vectors. -/
def fmaxV (a b : Frontier) : Frontier :=
  b.foldl (fun m p => cset 0 m p.1 (bmax (cget 0 m p.1) p.2)) a

/-- Frontier index of Kiln and of a port's ingress agent (R126). -/
def kilnAgent : Nat := 460
def portAgent (p : Nat) : Nat := 448 + p

/-! ## Epochs -/

/-- An agent's epoch in a job; epochs start at 1 (R148, R157). -/
def State.epoch (s : State) (job agent : Nat) : BitVec 23 :=
  match s.job? job with
  | some j => cget 1 j.epochs agent
  | none => 1

def State.pending (s : State) (job agent : Nat) : Bool :=
  match s.job? job with
  | some j => cget false j.pending agent
  | none => false

/-- Set an agent's pending-advance flag (R148). -/
def State.setPending (s : State) (job agent : Nat) : State :=
  s.modJob job fun j => { j with pending := cset false j.pending agent true }

/-- The advance that a checked write makes first, if the flag is set; none when it would take the epoch
beyond 0x7F_FFFF (R148, R158). -/
def State.advance (s : State) (job agent : Nat) : Option State :=
  if s.pending job agent then
    let e := s.epoch job agent
    if e = 0x7FFFFF then none
    else some (s.modJob job fun j => { j with
      epochs := cset 1 j.epochs agent (e + 1)
      pending := cset false j.pending agent false })
  else some s

/-- The job of the task on a core; 0 where there is none. -/
def CoreSt.job (c : CoreSt) : Nat := match c.task with | some t => t.job | none => 0

/-- Holder H after a release of a core (R150). -/
def State.released (s : State) (core : Nat) (h : Frontier) : Frontier :=
  let c := s.core core
  let h := fmaxV h c.frontier
  cset 0 h core (bmax (cget 0 h core) (s.epoch c.job core))

/-- A core acquires from H: its own entry is unchanged (R150). -/
def State.acquired (s : State) (core : Nat) (h : Frontier) : State :=
  s.modCore core fun c =>
    { c with frontier := cset 0 (fmaxV c.frontier h) core (cget 0 c.frontier core) }

/-- Entry a of a core's frontier is raised to an epoch (R150, LD.acq of an OI value). -/
def State.acquireEntry (s : State) (core agent : Nat) (e : BitVec 23) : State :=
  s.modCore core fun c => { c with frontier := cset 0 c.frontier agent (bmax (cget 0 c.frontier agent) e) }

/-- The core's release, push or signal sets its pending flag (R148). -/
def State.flagCore (s : State) (core : Nat) : State := s.setPending (s.core core).job core

/-- The vector copy that a push or signal of sequencer q leaves: the old copy, the local vector of q, and
entry q raised to the core's epoch (R150). -/
def State.signalCopy (s : State) (core : Nat) (q : Seq) (old : LVec) : LVec :=
  let c := s.core core
  lset (lmax old (c.seq q).lvec) q.idx (s.epoch c.job core)

/-- A pop or a satisfied wait of sequencer q takes a copy into its local vector (R150). -/
def CoreSt.takeCopy (c : CoreSt) (q : Seq) (copy : LVec) : CoreSt :=
  c.setSeq q { c.seq q with lvec := lmax (c.seq q).lvec copy }

/-! ## Tokens -/

/-- FIFO from X to Y: 3 × index(X) + j (R28). -/
def fifoIdx (x y : Seq) : Nat := 3 * x.idx + (if y.idx < x.idx then y.idx else y.idx - 1)

/-- The neighbours that a pop or push field of q names, in ascending bit order (R163). -/
def neighbours (q : Seq) (bits : BitVec 3) : List Seq :=
  (upFrom 0 3).filterMap fun j => if bits.getLsbD j then q.neighbour j else none

/-- Value tokens in a FIFO (R29). -/
def valueTokens (f : List Tok) : Nat := f.countP fun t => t.val.isSome

/-- Whether a push fits: 15 entries, four value tokens (R29, R32). -/
def pushFits (f : List Tok) (isValue : Bool) : Bool :=
  f.length < 15 && (!isValue || valueTokens f < 4)

/-- Append a token from q to y, with the copy of R150. -/
def State.pushTok (s : State) (core : Nat) (q y : Seq) (v : Option Word) : State :=
  let i := fifoIdx q y
  let t : Tok := ⟨v, s.signalCopy core q {}⟩
  s.modCore core fun c => (c.setFifo i (c.fifo i ++ [t])).countPush i

/-- The pushes of a retiring instruction: plain tokens to the neighbours of its push field, and a value
token where it is a PUSHV, which comes first. None when one of them overflows; then none is performed (R32). -/
def State.pushAll (s : State) (core : Nat) (q : Seq) (bits : BitVec 3) (val : Option (Seq × Word)) :
    Option State :=
  let c := s.core core
  let ys := neighbours q bits
  let filled (y : Seq) : List Tok :=
    let f := c.fifo (fifoIdx q y)
    match val with | some (z, v) => if y = z then f ++ [⟨some v, {}⟩] else f | none => f
  let fits := ys.all (fun y => pushFits (filled y) false) &&
    (match val with | some (y, _) => pushFits (c.fifo (fifoIdx q y)) true | none => true)
  if !fits then none
  else
    let s1 := match val with | some (y, v) => s.pushTok core q y (some v) | none => s
    let s2 := ys.foldl (fun s y => s.pushTok core q y none) s1
    some (if ys.isEmpty && val.isNone then s2 else s2.flagCore core)

/-- Consume the head of the FIFO from y to q; none when it is empty. -/
def State.popTok (s : State) (core : Nat) (q y : Seq) : Option (Tok × State) :=
  let i := fifoIdx y q
  match (s.core core).fifo i with
  | [] => none
  | t :: r => some (t, s.modCore core fun c => ((c.setFifo i r).countPop i).takeCopy q t.copy)

/-- The pops of an instruction at issue: all of them, or none while one FIFO is empty (R30). -/
def State.popAll (s : State) (core : Nat) (q : Seq) : List Seq → Option State
  | [] => some s
  | y :: ys =>
    match s.popTok core q y with
    | some (_, s') => s'.popAll core q ys
    | none => none

/-! ## Semaphores -/

/-- The increments of the current cycle that reached a semaphore. -/
def State.addsOf (s : State) (core : Nat) (sem : BitVec 8) : List SemAdd :=
  (s.semAdds.filter fun p => p.1 == core && p.2.sem == sem).map (·.2)

/-- The value a semaphore has in the current cycle without the cycle's increments (R35, R203). -/
def State.semBaseOf (s : State) (core : Nat) (sem : BitVec 8) : BitVec 16 :=
  match s.semBase.find? fun p => p.1 == core && p.2.1 == sem with
  | some p => p.2.2
  | none => ((s.core core).sema sem.toNat).val

def sumInc (l : List SemAdd) : Nat := (l.map (·.inc)).sum

/-- Whether the cycle's increments overflow a semaphore (R35). -/
def State.overflows (s : State) (core : Nat) (sem : BitVec 8) : Bool :=
  decide ((s.semBaseOf core sem).toNat + sumInc (s.addsOf core sem) > 65535)

/-- A semaphore as the current cycle found it (R203). -/
def State.semOldOf (s : State) (core : Nat) (sem : BitVec 8) : Sema :=
  match s.semOld.find? fun p => p.1 == core && p.2.1 == sem with
  | some p => p.2.2
  | none => (s.core core).sema sem.toNat

/-- The cycle changes a semaphore: the value it will have without increments, and what it was before, are noted. -/
def State.noteSem (s : State) (core : Nat) (sem : BitVec 8) (base : BitVec 16) : State :=
  { s with
    semBase := (core, sem, base) :: s.semBase.filter fun p => !(p.1 == core && p.2.1 == sem)
    semOld := (core, sem, s.semOldOf core sem) :: s.semOld.filter fun p => !(p.1 == core && p.2.1 == sem) }

/-- Store a semaphore as the cycle's SSETs and increments leave it: the sum with the copies of R150, or, when the sum
exceeds 65,535, the value without any increment (R35). -/
def State.settle (s : State) (core : Nat) (sem : BitVec 8) : State :=
  let base := s.semBaseOf core sem
  let adds := s.addsOf core sem
  let old := (s.semOldOf core sem).copy
  let m : Sema :=
    if s.overflows core sem then ⟨base, old⟩
    else ⟨BitVec.ofNat 16 (base.toNat + sumInc adds), adds.foldl (fun v a => lmax v a.copy) old⟩
  s.modCore core fun c => c.setSema sem.toNat m

/-- An increment reaches a semaphore of a core. Whether the cycle's sum overflows is settled at the end of the
cycle (R35). -/
def State.semAdd (s : State) (core : Nat) (a : SemAdd) : State :=
  let s1 := s.noteSem core a.sem (s.semBaseOf core a.sem)
  { s1 with semAdds := (core, a) :: s1.semAdds }.settle core a.sem

/-- SSET of R202: within a cycle the highest sequencer index stands (R203). -/
def State.semSet (s : State) (core : Nat) (q : Seq) (sem : BitVec 8) (v : BitVec 16) : State :=
  let higher := s.semSets.any fun p => p.1 == core && p.2.1 == sem && decide (q.idx < p.2.2.idx)
  if higher then s
  else { s.noteSem core sem v with semSets := (core, sem, q) :: s.semSets }.settle core sem

/-- A wait tests the value left at the end of a cycle, and issues in the next one: it does not see what the current
cycle changes (R203). -/
def State.semMet (s : State) (core : Nat) (sem : BitVec 8) (t : Nat) : Bool :=
  decide (t ≤ (s.semOldOf core sem).val.toNat)

/-- Of two contributions, the one to which an overflow is attributed: the one of lower sequencer index, or the one of
the same sequencer that issued first (R35). -/
def SemAdd.before (a b : SemAdd) : Bool :=
  decide (a.by_.idx < b.by_.idx) || (a.by_ == b.by_ && decide (a.place ≤ b.place))

/-- The contribution to which an overflow is attributed (R35). The list is newest first, so that of several SSIGs between
two commands, which act in order, the first stands. -/
def firstContribution (l : List SemAdd) : Option SemAdd :=
  l.foldl (fun best a =>
    match best with
    | none => some a
    | some b => if a.before b then some a else some b) none

/-- The semaphores of all cores whose sum of the cycle overflows, with the cycle's contributions (R35). -/
def State.overflowing (s : State) : List (Nat × List SemAdd) :=
  (s.semBase.filter fun p => s.overflows p.1 p.2.1).map fun p => (p.1, s.addsOf p.1 p.2.1)

/-- A new cycle begins: the contributions of the last one are settled. -/
def State.newCycle (s : State) : State :=
  { s with semAdds := [], semBase := [], semSets := [], semOld := [], endLog := [], mtsLog := [], lastAct := none }

end Sys2Proof.Machine
end

