-- ==== Sys2Proof/Machine/Access.lean ====
section
/-! DEFINITION. Machine/Access: paths and translation (R94 to R103), device memory with its keys, poison
marks and generations (R104 to R107), the scratchpad (R108 to R111), compressed tiles (R112 to R119), the
sync window's addresses (R121), the race check (R146 to R158) and K's scalar cache (R97). -/

namespace Sys2Proof.Machine

/-! ## Translation -/

def AKind.writes : AKind → Bool
  | .write | .coil => true | .fetch | .read => false

/-- The cause of a translation reason (R99, R395). -/
def xcause (kind : AKind) (reason : Nat) : Nat :=
  let perm := reason == 4 || reason == 5
  match kind with
  | .fetch => if perm then 0x08 else 0x05
  | .read => if perm then 0x09 else 0x06
  | .write | .coil => if perm then 0x0A else 0x07

/-- The trap of a failed translation at an address. -/
def xtrap (kind : AKind) (reason : Nat) (va : Word) : Trap :=
  { cause := xcause kind reason, reason := reason, addr := va }

def bitOf (e i : Nat) : Bool := e / 2 ^ i % 2 == 1

/-- addr of an entry (R99). -/
def pteAddr (e : Nat) : Nat := e / 2 ^ 8 % 2 ^ 31 * 2 ^ 8

/-- Key slot of a leaf. -/
def pteKey (e : Nat) : Nat := e / 2 ^ 47 % 64

/-- Page size of a leaf at a level (R98). -/
def pageSize : Nat → Nat
  | 0 => 2 ^ 16 | 1 => 2 ^ 21 | _ => 2 ^ 30

/-- Size of the table that a level indexes (R98). -/
def tableSize : Nat → Nat
  | 0 => 256 | _ => 4096

/-- Index of an offset at a level (R98). -/
def tableIdx (f : Nat) : Nat → Nat
  | 0 => f / 2 ^ 16 % 32
  | n + 1 => f / 2 ^ (21 + 9 * n) % 512

/-- Malformed(e, lvl) of R99. -/
def pteMalformed (e lvl : Nat) : Bool :=
  let tbl := bitOf e 1
  (e / 2 ^ 53 != 0) || (e / 2 ^ 39 % 2 ^ 8 != 0) || bitOf e 7 ||
  (if tbl then lvl == 0 || pteAddr e % tableSize (lvl - 1) != 0
   else lvl == 3 || pteAddr e % pageSize lvl != 0)

/-- The walk of R100 from a table of a level: the leaf and its level. -/
def walk (rd : Nat → Nat) (f : Nat) : Nat → Nat → Except Nat (Nat × Nat)
  | 0, t =>
    let e := rd (t + 8 * tableIdx f 0)
    if !bitOf e 0 then .error 2 else if pteMalformed e 0 then .error 3 else .ok (e, 0)
  | n + 1, t =>
    let e := rd (t + 8 * tableIdx f (n + 1))
    if !bitOf e 0 then .error 2
    else if pteMalformed e (n + 1) then .error 3
    else if bitOf e 1 then walk rd f n (pteAddr e)
    else .ok (e, n + 1)

/-- Two ranges, by base and size, share a byte. -/
def overlaps (a n b m : Nat) : Bool := 0 < n && 0 < m && a < b + m && b < a + n

/-- The carve-outs of R104 that do not depend on jobs: overflow areas and saggers, and die 0's push window. -/
def fixedCarve (a n : Nat) : Bool :=
  overlaps a n 0xF78000000 0x4000000 ||
  (upFrom 0 8).any fun d => overlaps a n (d * 2 ^ 36 + 0xF7C000000) 0x84000000

/-- OverlapsCarveOut of R100: also the image area of every job (R360). -/
def State.carved (s : State) (a n : Nat) : Bool :=
  fixedCarve a n || s.jobs.any fun p => overlaps a n p.2.imagePa (p.2.imageSlots * 2 ^ 24)

/-- OverlapsFrameArea of R100: the frame area of any job (R360). -/
def State.framed (s : State) (a n : Nat) : Bool :=
  s.jobs.any fun p => overlaps a n p.2.framePa 0x40000

/-! ## Device memory -/

def State.keyOf (s : State) (slot : Nat) : Option (BitVec 512) := cfind s.keys slot

/-- A byte of device memory as a read under a key sees it (R105): memory holds the plaintext, with the key that it was
written under (log 9). -/
def State.devByte (s : State) (key : BitVec 512) (pa : Nat) : Byte :=
  match cfind s.memory.memKey (pa / 128) with
  | none => byteAt s.memory.mem pa
  | some k =>
    if k = key then byteAt s.memory.mem pa
    else otherKeyByte k key pa (bytesAt s.memory.mem (pa / 128 * 128) 128)

/-- n bytes under the key of a slot; an emptied slot decrypts as the zero key would (never reached by a
translated access, R100 reason 6). -/
def State.devRead (s : State) (slot pa n : Nat) : List Byte :=
  (upFrom pa n).map (s.devByte ((s.keyOf slot).getD 0))

/-- A 128-byte unit comes under a key before bytes of it are merged in (R105, R106). -/
def State.rekey (s : State) (key : BitVec 512) (unit : Nat) : State :=
  let m := s.memory
  let mem := match cfind m.memKey unit with
    | none => m.mem
    | some k =>
      if k = key then m.mem
      else setBytes m.mem (unit * 128) ((upFrom (unit * 128) 128).map (s.devByte key))
  { s with memory := { m with mem := mem, memKey := cput m.memKey unit key } }

/-- Indices of the blocks of size b that n bytes from a touch. -/
def blocksOf (b a n : Nat) : List Nat :=
  if n = 0 then [] else upFrom (a / b) ((a + n - 1) / b - a / b + 1)

/-- The poison marks that a write leaves, for marks of b bytes (R107, R111). -/
def markAfter (b a n : Nat) (poison : Bool) (m : Cells Bool) : Cells Bool :=
  (blocksOf b a n).foldl (fun m u =>
    if poison then cset false m u true
    else if a ≤ u * b && u * b + b ≤ a + n then cset false m u false
    else m) m

/-- A page was written (R391): its generation rises, and a speculative launch that has read it is due for a
discard with reason 3 (R394). -/
def State.pageWritten (s : State) (page : Nat) : State :=
  { s with memory := { s.memory with gens := cset 0 s.memory.gens page (cget 0 s.memory.gens page + 1) } }.discardAll
    (s.specKeys fun _ _ x => (cfind x.readSet page).isSome) 3

/-- Bytes come to stand in device memory under the key of a slot. -/
def State.devPut (s : State) (slot pa : Nat) (bs : List Byte) (poison : Bool) : State :=
  let n := bs.length
  let s1 := (blocksOf 128 pa n).foldl (fun s u => s.rekey ((s.keyOf slot).getD 0) u) s
  { s1 with memory := { s1.memory with
    mem := setBytes s1.memory.mem pa bs
    poison := markAfter 64 pa n poison s1.memory.poison } }

/-- A write of device memory under the key of a slot. -/
def State.devWrite (s : State) (slot pa : Nat) (bs : List Byte) (poison : Bool) : State :=
  (blocksOf 65536 pa bs.length).foldl State.pageWritten (s.devPut slot pa bs poison)

/-- Whether a read of n bytes meets a poison mark (R107). -/
def State.devPoison (s : State) (pa n : Nat) : Bool :=
  (blocksOf 64 pa n).any fun u => cget false s.memory.poison u

/-- The doubleword of a page table, read with the job's key slot (R100); until Kiln reports a change complete, a
translation uses the old entry (R101). -/
def State.pteRead (s : State) (slot pa : Nat) : Nat :=
  match s.memory.ptPending.find? fun p => p.1 == pa with
  | some p => p.2.1.toNat
  | none => leNat (s.devRead slot pa 8)

/-- Offset of argument page p (DESIGN CHOICE, log 12). -/
def argBlock (p : Nat) : Nat := 0x7F0000000000 + 65536 * p

/-- argbase with a block at an offset: its constant-path address (R206). -/
def argBase (off : Nat) : Word := BitVec.ofNat 64 (2 * 2 ^ 60 + off)

/-- A core holds a task of the job whose argument page an offset lies in: the page that argbase names, wherever the task
has gone on since it started (R128, R206, R399). -/
def CoreSt.ownsPage (c : CoreSt) (job off : Nat) : Bool :=
  match c.task with
  | some t => t.job == job && c.regs.sp.argbase == argBase (off / 65536 * 65536)
  | none => false

/-- The core whose task's argument page an offset of a job lies in: a page of the G, N, constant and OI paths alike
(R128). -/
def State.argPage (s : State) (job off : Nat) : Option Nat :=
  (s.cores.find? fun c => (s.core c.1).ownsPage job off).map (·.1)

/-- An argument page of a job for a task that starts on a core: the one of the core's number, or, while a placed or saved
task of the job has that one, the first beyond all of those that no such task has (DESIGN CHOICE, log 12). -/
def State.freePage (s : State) (job core : Nat) : Nat :=
  let placed := s.cores.filterMap fun c => c.2.task.bind fun t =>
    if t.job = job && c.1 != core then some c.2.regs.sp.argbase else none
  let saved := match s.job? job with
    | some j => j.launches.flatMap fun l => l.2.images.map fun i => i.saved.regs.sp.argbase
    | none => []
  let used := placed ++ saved
  ((core :: upFrom 448 used.length).find? fun p => !used.contains (argBase (argBlock p))).getD (448 + used.length)

/-- n bytes of an argument page from an offset: the block, then zeros (R206). -/
def State.argBytes (s : State) (core off n : Nat) : List Byte :=
  let args := match (s.core core).task with | some t => t.args | none => []
  (upFrom (off % 65536) n).map fun i => args.getD i 0

/-- Translate of R100 in a job: physical address, key slot, chk. An argument page is read-only (R206). -/
def State.translate (s : State) (job : Nat) (off : Nat) (kind : AKind) : Except Nat (Nat × Nat × Bool) :=
  match s.job? job with
  | none => .error 2
  | some j =>
    if off / 2 ^ 48 % 2 ^ 12 != 0 then .error 1
    else if kind != .read && (s.argPage job off).isSome then .error 4
    else match walk (s.pteRead j.keySlot) off 3 j.root with
      | .error r => .error r
      | .ok (e, lvl) =>
        let size := pageSize lvl
        let base := pteAddr e
        if kind == .fetch && !bitOf e 4 then .error 4
        else if kind == .read && !bitOf e 2 then .error 4
        else if kind.writes && !bitOf e 3 then .error 4
        else if kind == .write && bitOf e 6 then .error 5
        else if kind == .coil && !bitOf e 6 then .error 5
        else if (s.keyOf (pteKey e)).isNone then .error 6
        else if s.carved base size then .error 7
        else if kind.writes && s.framed base size then .error 4
        else .ok (base + off % size, pteKey e, bitOf e 5)

/-! ## Places -/

/-- Which instructions a path accepts (the columns of R94). -/
inductive AClass where
  | load | store | atomic | tile
  deriving DecidableEq, Repr, Inhabited

/-- The table of R94; XV is accepted for tiles, which reach it by their own functions. -/
def AClass.permits : AClass → Nat → Bool
  | .load, p => p == 0 || p == 1 || p == 2 || p == 4 || p == 5 || p == 7
  | .store, p => p == 0 || p == 1 || p == 4 || p == 5 || p == 7
  | .atomic, p => p == 0 || p == 7
  | .tile, p => p == 0 || p == 1 || p == 4 || p == 5 || p == 6

/-- Where an access lands. arg is a byte of the argument page of a core's task (log 12). -/
inductive Place where
  | dev (pa slot : Nat) (chk : Bool)
  | sp (core off : Nat)
  | sw (byte : Nat)
  | arg (core off : Nat)
  deriving DecidableEq, Repr, Inhabited

def pathOf (va : Word) : Nat := va.toNat / 2 ^ 60
def offOf (va : Word) : Nat := va.toNat % 2 ^ 60

/-- Member and local offset that a CL offset names (R109). -/
def clMember (c : Nat) : Nat := c / 128 % 8
def clLocal (c : Nat) : Nat := c / 1024 * 128 + c % 128

/-- Byte of the sync window that an SW offset names: die × 2^25 + offset; none outside R121. -/
def swByte (off : Nat) : Option Nat :=
  let w := off % 2 ^ 25
  if off / 2 ^ 28 != 0 then none
  else if w / 2 ^ 24 = 1 && w % 0x2000 ≥ 8 then none
  else some (off % 2 ^ 28)

/-- The frontier-vector key of a checked variable: die × 2048 + v; none for an unchecked one (R121, R149). -/
def swChecked (byte : Nat) : Option Nat :=
  let w := byte % 2 ^ 25
  if w / 2 ^ 24 = 1 then some (byte / 2 ^ 25 * 2048 + w % 2 ^ 24 / 0x2000) else none

/-- Where an access of a core lands (R94 to R100, R108, R109, R121). -/
def State.locate (s : State) (core : Nat) (cls : AClass) (kind : AKind) (va : Word) : Except Nat Place :=
  let p := pathOf va
  let off := offOf va
  let job := (s.core core).job
  if p = 3 || p ≥ 10 then .error 0
  else if !cls.permits p then .error 8
  else match p with
    | 4 => if off > 0x17FFFF then .error 1 else .ok (.sp core off)
    | 5 =>
      if off > 0xBFFFFF then .error 1
      else
        let target := core / 8 * 8 + clMember off
        match (s.core target).owner with
        | some j => if j = job then .ok (.sp target (clLocal off)) else .error 9
        | none => .ok (.sp target (clLocal off))
    | 6 => .error 8
    | 7 => match swByte off with | some b => .ok (.sw b) | none => .error 1
    | _ =>
      match if kind == .read then s.argPage job off else none with
      | some c => .ok (.arg c (off % 65536))
      | none => (s.translate job off kind).map fun (pa, slot, chk) => .dev pa slot chk

/-! ## The race check (R151) -/

def Stamp.bits (t : Stamp) : BitVec 32 := t.agent ++ t.epoch

/-- The vector entry that a core's access is tested against: its own local vector for its own stamps, else
its frontier. -/
def CoreSt.covers (c : CoreSt) (core : Nat) (q : Seq) (t : Stamp) : Bool × BitVec 24 :=
  if t.agent.toNat = core then
    let e := lget (c.seq q).lvec t.tag.toNat
    (t.tag.toNat == q.idx || t.epoch.toNat ≤ e.toNat, e.setWidth 24)
  else
    let e := cget 0 c.frontier t.agent.toNat
    (t.epoch.toNat ≤ e.toNat, e.setWidth 24)

/-- The race trap (R151, R152) at a granule's address. -/
def raceTrap (t : Stamp) (front : BitVec 24) (gaddr : Word) : Trap :=
  { cause := 0x0F, addr := gaddr, stamp := t.bits, tag := t.tag, front := front }

/-- The granule of a place, and its stamp (R110, R147). -/
inductive Granule where
  | dev (g : Nat) | sp (core g : Nat)
  deriving DecidableEq, Repr, Inhabited

def State.stamp (s : State) : Granule → Stamp
  | .dev g => cget {} s.memory.stamps g
  | .sp c g => cget {} (s.core c).stores.spStamp g

def State.setStamp (s : State) (g : Granule) (t : Stamp) : State :=
  match g with
  | .dev g => { s with memory := { s.memory with stamps := cset {} s.memory.stamps g t } }
  | .sp c g => s.modCore c fun k =>
      { k with stores := { k.stores with spStamp := cset {} k.stores.spStamp g t } }

/-- The speculative launch that runs on a core, with its job. -/
def State.specOn (s : State) (core : Nat) : Option (Nat × Launch × Spec) :=
  match (s.core core).task with
  | some t =>
    if t.spec then (s.launch? t.job t.launch).bind fun l => l.spec.map fun x => (t.job, l, x) else none
  | none => none

/-- A read of a checked granule by the moving core's sequencer (R151; R155 for a speculative task). -/
def checkRead (g : Granule) (gaddr : Word) : M Unit := do
  let s ← get
  let core ← me
  let q ← mySeq
  let t := s.stamp g
  match s.specOn core with
  | some (_, l, _) =>
    if t.epoch.toNat ≤ (cget 0 l.vector t.agent.toNat).toNat then pure () else stop .spec
  | none =>
    let (ok, front) := (s.core core).covers core q t
    if ok then pure () else trapWith (raceTrap t front gaddr)

/-- A write of a checked granule (R151, R158); a speculative task writes without a check or a stamp. -/
def checkWrite (g : Granule) (gaddr : Word) : M Unit := do
  let s ← get
  let core ← me
  let q ← mySeq
  if (s.specOn core).isSome then pure ()
  else
    let t := s.stamp g
    let c := s.core core
    let (ok, front) := c.covers core q t
    if !ok then trapWith (raceTrap t front gaddr)
    match s.advance c.job core with
    | none => trapWith { (raceTrap t front gaddr) with cause := 0x10 }
    | some s' =>
      set (s'.setStamp g ⟨BitVec.ofNat 9 core, s'.epoch c.job core, BitVec.ofNat 2 q.idx, c.job⟩)

/-- Stamp of a write that is not checked: an ingress agent's or Kiln's (R146 to R148); none when the epoch
is exhausted (R158). -/
def State.stampBy (s : State) (job agent tag : Nat) (gs : List Nat) : Option State :=
  if gs.isEmpty then some s
  else (s.advance job agent).map fun s' =>
    gs.foldl (fun s g => s.setStamp (.dev g)
      ⟨BitVec.ofNat 9 agent, s'.epoch job agent, BitVec.ofNat 2 tag, job⟩) s'

/-! ## K's scalar cache -/

def dropLine (m : Cells (List Byte)) (line : Nat) : Cells (List Byte) := m.filter fun p => p.1 / 64 != line

/-- Invalidate a line in K's cache (R97). -/
def CoreSt.dropLine (c : CoreSt) (line : Nat) : CoreSt :=
  { c with stores := { c.stores with kcache := Machine.dropLine c.stores.kcache line } }

/-- Replace bytes of a cached copy. -/
def patchLine (l : List Byte) (o : Nat) (bs : List Byte) : List Byte :=
  l.take o ++ bs ++ l.drop (o + bs.length)

/-- A K store through G updates any copy of the line (R97). -/
def CoreSt.updateLine (c : CoreSt) (pa : Nat) (bs : List Byte) : CoreSt :=
  { c with stores := { c.stores with
      kcache := c.stores.kcache.map fun p =>
        if p.1 / 64 = pa / 128 then (p.1, patchLine p.2 (pa % 128) bs) else p } }

/-- The number of lines of the cache (32 KiB, log 10). -/
def kLines : Nat := 256

/-- A line enters the cache; a full cache loses a line that nothing constrains. -/
def allocLine (key : Nat) (bs : List Byte) : M Unit := do
  let c ← myCore
  let m := c.stores.kcache
  let m ← if m.length < kLines then pure m
    else do
      let w ← freeWord
      pure (m.eraseIdx (w.toNat % m.length))
  modMe fun c => { c with stores := { c.stores with kcache := cput m key bs } }

/-! ## Speculative accesses (R391) -/

def setSpec (f : Spec → Spec) : M Unit := do
  let s ← get
  match (s.core s.cur.1.val).task with
  | some t => set (s.modLaunch t.job t.launch fun l => { l with spec := l.spec.map f })
  | none => pure ()

/-- A page joins the read set with its generation; at most 65,536 pages. -/
def joinReadSet (x : Spec) (page : Nat) : M Unit := do
  if (cfind x.readSet page).isSome then pure ()
  else if x.readSet.length ≥ 65536 then stop (.discard 2)
  else
    let s ← get
    setSpec fun x => { x with readSet := cput x.readSet page (cget 0 s.memory.gens page) }

def Shadow.halfMask (h : Nat) : BitVec 2 := if h = 0 then 1 else 2

/-- Up to 8 bytes of device memory as a speculative task sees them: shadow bytes where they exist, memory otherwise. -/
def State.specBytes (s : State) (x : Spec) (pa slot n : Nat) : List Byte × Bool :=
  let sh := cget {} x.shadow (pa / 128)
  let key := (s.keyOf slot).getD 0
  let bs := (upFrom pa n).map fun a => (cfind sh.bytes (a % 128)).getD (s.devByte key a)
  let half := pa / 64 % 2
  let whole := (upFrom (64 * half) 64).all fun o => (cfind sh.bytes o).isSome
  let mark := (sh.poison &&& Shadow.halfMask half) != 0 ||
    (cget false s.memory.poison (pa / 64) && !whole)
  (bs, mark)

/-- A read of up to 8 bytes of device memory by a speculative task (R391). -/
def specRead (x : Spec) (va : Word) (pa slot n : Nat) : M (List Byte × Bool) := do
  let sh := cget {} x.shadow (pa / 128)
  if (upFrom pa n).any fun a => (cfind sh.bytes (a % 128)).isNone then joinReadSet x (pa / 65536)
  setSpec fun x => { x with vpages := cput x.vpages (offOf va / 65536) true }
  return (← get).specBytes x pa slot n

/-- A write of up to 8 bytes goes to the sagger: at most 256 MiB of granules. -/
def specWrite (x : Spec) (va : Word) (pa : Nat) (chk : Bool) (bs : List Byte) (poison : Bool) : M Unit := do
  let g := pa / 128
  if (cfind x.shadow g).isNone && x.shadow.length ≥ 2 ^ 21 then stop (.discard 2)
  let core ← me
  let q ← mySeq
  let sh := cget {} x.shadow g
  let half := Shadow.halfMask (pa / 64 % 2)
  let sh := { sh with
    bytes := (upFrom 0 bs.length).foldl
      (fun m i => cput m (pa % 128 + i) (bs.getD i 0)) sh.bytes
    core := core
    tag := BitVec.ofNat 2 q.idx
    chk := sh.chk || chk
    poison := if poison then sh.poison ||| half else sh.poison }
  setSpec fun x => { x with
    shadow := cput x.shadow g sh, vpages := cput x.vpages (offOf va / 65536) true }

/-! ## Words of a core -/

/-- The address of a granule through the alias an access used (R152). -/
def gaddr (va : Word) : Word := va &&& ~~~(127 : Word)

/-- A CL access to another core waits while that core is frozen (R417), and a member without an owner takes
the job of the task (R109). -/
def touchMember (core : Nat) : M Unit := do
  let s ← get
  let mine ← me
  if core = mine then pure ()
  else
    let c := s.core core
    waitFor (c.frozen == 0)
    match c.owner with
    | some _ => pure ()
    | none => set (s.setCore core { c with owner := some (s.core mine).job })

def CoreSt.spBytes (c : CoreSt) (off n : Nat) : List Byte := bytesAt c.stores.sp off n

def CoreSt.spPoisoned (c : CoreSt) (off n : Nat) : Bool :=
  (blocksOf 8 off n).any fun w => cget false c.stores.spPoison w

def CoreSt.spWrite (c : CoreSt) (off : Nat) (bs : List Byte) (poison : Bool) : CoreSt :=
  { c with stores := { c.stores with
      sp := setBytes c.stores.sp off bs
      spPoison := markAfter 8 off bs.length poison c.stores.spPoison } }

/-- An inline word of the argument block outside smask that a speculative task may not read (R392): the
words of the packet's inline block, 8 bytes each; own says that the block is the packet's. -/
def argOpen (x : Option (Nat × Launch × Spec)) (own : Bool) (off n : Nat) : Bool :=
  match x with
  | none => true
  | some (_, l, _) => !own || (blocksOf 8 off n).all fun w => decide (8 ≤ w) || l.smask.getLsbD w

/-- Where an access of the moving core lands, or its fault. A stream of a tile command translates once as it enters a
64 KiB region (R103). -/
def placeAt (cls : AClass) (kind : AKind) (va : Word) : M Place := do
  let s ← get
  let region := va.toNat / 65536
  match if cls == .tile then s.xlat.bind (·.trans.find? fun x => x.region == region && x.kind == kind) else none with
  | some x => return .dev (x.pa + va.toNat % 65536) x.slot x.chk
  | none =>
    match s.locate (← me) cls kind va with
    | .error r => trapWith (xtrap kind r va)
    | .ok (.dev pa slot chk) =>
      if cls == .tile then
        set { s with xlat := s.xlat.map fun (l : Streams) =>
          { l with trans := ⟨region, kind, pa - va.toNat % 65536, slot, chk⟩ :: l.trans } }
      return .dev pa slot chk
    | .ok p => return p

/-- Read up to 8 bytes that lie in one aligned 8-byte word. The flag says that a byte is poisoned. The kind is write for
the read of a read-modify-write operation (R95). -/
def coreRead (cls : AClass) (va : Word) (n : Nat) (kind : AKind := .read) : M (List Byte × Bool) := do
  let p ← placeAt cls kind va
  let s ← get
  let core ← me
  let q ← mySeq
  match p with
  | .arg c off =>
    let own := match (s.core c).task with | some t => t.own | none => false
    if !argOpen (s.specOn core) own off n then stop .spec
    return (s.argBytes c off n, false)
  | .sw b =>
    if (s.specOn core).isSome then stop .spec
    return (bytesAt s.memory.sw b n, false)
  | .sp c off =>
    touchMember c
    checkRead (.sp c (off / 128)) (gaddr va)
    let s ← get
    return ((s.core c).spBytes off n, (s.core c).spPoisoned off n)
  | .dev pa slot chk =>
    if chk then checkRead (.dev (pa / 128)) (gaddr va)
    match s.specOn core with
    | some (_, _, x) => specRead x va pa slot n
    | none =>
      let poison := s.devPoison pa n
      let line := pa / 128
      let cached := q == .k && cls == .load && pathOf va != 1
      if !cached then
        if q == .k then modMe (·.dropLine line)
        return (s.devRead slot pa n, poison)
      else
        match cfind (s.core core).stores.kcache (64 * line + slot) with
        | some l => return ((l.drop (pa % 128)).take n, false)
        | none =>
          if !s.devPoison (line * 128) 128 then
            allocLine (64 * line + slot) (s.devRead slot (line * 128) 128)
          return (s.devRead slot pa n, poison)

/-- Write up to 8 bytes that lie in one aligned 8-byte word; kind is write or coil store. -/
def coreWrite (cls : AClass) (kind : AKind) (va : Word) (bs : List Byte) (poison : Bool) : M Unit := do
  let p ← placeAt cls kind va
  let s ← get
  let core ← me
  let q ← mySeq
  match p with
  | .arg .. => trapWith (xtrap kind 4 va)
  | .sw b =>
    if (s.specOn core).isSome then stop .spec
    set { s with memory := { s.memory with sw := setBytes s.memory.sw b bs } }
  | .sp c off =>
    if (s.specOn core).isSome && c != core then stop .spec
    touchMember c
    checkWrite (.sp c (off / 128)) (gaddr va)
    modify fun s => s.modCore c (·.spWrite off bs poison)
  | .dev pa slot chk =>
    match s.specOn core with
    | some (_, _, x) => specWrite x va pa chk bs poison
    | none =>
      if chk then checkWrite (.dev (pa / 128)) (gaddr va)
      modify fun s => s.devWrite slot pa bs poison
      if q == .k && pathOf va == 0 then modMe (·.updateLine pa bs)
      else modMe (·.dropLine (pa / 128))

/-- Bytes of a unit of poison at an address: 64 of device memory, 8 of a scratchpad (R107, R111); none elsewhere. -/
def poisonUnit (va : Word) : Option Nat :=
  let p := pathOf va
  if p ≤ 1 then some 64 else if p = 4 || p = 5 then some 8 else none

/-- A write without poison has covered a whole unit: its mark goes (R107, R111). The unit starts at va. -/
def clearUnit (cls : AClass) (kind : AKind) (va : Word) : M Unit := do
  match ← placeAt cls kind va with
  | .dev pa _ _ =>
    if ((← get).specOn (← me)).isSome then
      setSpec fun x =>
        let g : Shadow := cget {} x.shadow (pa / 128)
        let g := { g with poison := g.poison &&& ~~~Shadow.halfMask (pa / 64 % 2) }
        { x with shadow := cput x.shadow (pa / 128) g }
    else modify fun s => { s with memory := { s.memory with poison := cset false s.memory.poison (pa / 64) false } }
  | .sp c off => modify fun s => s.modCore c fun k =>
      { k with stores := { k.stores with spPoison := cset false k.stores.spPoison (off / 8) false } }
  | .sw _ | .arg .. => pure ()

/-- Units of poison that n bytes from an address cover whole. -/
def wholeUnits (va : Word) (n : Nat) : List Word :=
  match poisonUnit va with
  | none => []
  | some b => ((blocksOf b va.toNat n).filter fun u => va.toNat ≤ u * b && u * b + b ≤ va.toNat + n).map
      fun u => BitVec.ofNat 64 (u * b)

/-- The pieces of n bytes at an address: each within one aligned 8-byte word (R129). -/
def wordPieces (va : Word) : Nat → List (Word × Nat)
  | 0 => []
  | n + 1 =>
    let k := min (n + 1) (8 - va.toNat % 8)
    (va, k) :: (if n + 1 ≤ 8 - va.toNat % 8 then []
      else (upFrom 0 ((n + 1 - k + 7) / 8)).map fun i =>
        (va + BitVec.ofNat 64 (k + 8 * i), min 8 (n + 1 - k - 8 * i)))

/-- Read the pieces of an access one after the other. -/
def readPieces (cls : AClass) (kind : AKind) : List (Word × Nat) → M (List Byte × Bool)
  | [] => return ([], false)
  | (va, n) :: r => do
    let (b, p) ← coreRead cls va n kind
    let (bs, ps) ← readPieces cls kind r
    return (b ++ bs, p || ps)

def writePieces (cls : AClass) (kind : AKind) (poison : Bool) : List (Word × Nat) → List Byte → M Unit
  | [], _ => pure ()
  | (va, n) :: r, bs => do
    coreWrite cls kind va (bs.take n) poison
    writePieces cls kind poison r (bs.drop n)

/-! ## Compressed tiles (R112 to R119) -/

/-- A field of xvtab or xvpool. -/
def xvField (w : Word) (lo n : Nat) : Nat := w.toNat / 2 ^ lo % 2 ^ n

/-- The scratchpad words of an entry or a granule are reached as LS memory; one beyond the scratchpad is an
LS offset out of range, reason 1 (R108). -/
def xvLs (kind : AKind) (va : Word) (off n : Nat) : M Unit :=
  if off + n > 0x180000 then trapWith (xtrap kind 1 va) else pure ()

def lsAddr (off : Nat) : Word := BitVec.ofNat 64 (4 * 2 ^ 60 + off)

/-- An entry of the offset table (R113). -/
structure XvEntry where
  bad : Bool          -- a reserved bit is set
  raw : Bool
  n : Nat
  gran : List Nat
  deriving DecidableEq, Repr

def xvEntry (v : Nat) : XvEntry :=
  let n := v / 2 ^ 448 % 64
  ⟨v / 2 ^ 455 != 0, bitOf v 454, n, (upFrom 0 (min n 32)).map fun i => v / 2 ^ (14 * i) % 2 ^ 14⟩

/-- Granule numbers of an entry, all 32 places. -/
def xvEntryOf (raw : Bool) (gran : List Nat) : Nat :=
  (if raw then 2 ^ 454 else 0) + gran.length * 2 ^ 448 +
  ((upFrom 0 gran.length).map fun i => gran.getD i 0 * 2 ^ (14 * i)).sum

/-- Tag of chunk i in a header. -/
def xvTag (header i : Nat) : Nat := header / 2 ^ (2 * i) % 4

/-- Payload bytes of a tag (R114). -/
def xvLen : Nat → Nat
  | 0 => 0 | 1 => 8 | 2 => 64 | _ => 0

/-- Start of chunk i's payload in the stream. -/
def xvStart (header i : Nat) : Nat := 16 + ((upFrom 0 i).map fun c => xvLen (xvTag header c)).sum

/-- Size of the stream (R114). -/
def xvSize (header : Nat) : Nat := xvStart header 64

/-- Stream byte b of a tile over its granules: its scratchpad offset (R114). -/
def xvByte (gran : List Nat) (b : Nat) : Nat := gran.getD (b / 128) 0 * 128 + b % 128

/-- The expanded byte f of a tile with its poison bit (R117, R118). The value bits of a poisoned byte are the model's
choice (log 79): what the chunk would hold without its poison, and 0 in a chunk tagged 11. -/
def xvExpand (c : CoreSt) (entryOff : Nat) (f : Nat) : Byte × Bool :=
  let e := xvEntry (leNat (c.spBytes entryOff 64))
  let at_ (b : Nat) : Byte := byteAt c.stores.sp (xvByte e.gran b)
  let bad_ (b n : Nat) : Bool :=
    (upFrom (b / 8) (blocksOf 8 b n).length).any fun w =>
      cget false c.stores.spPoison (xvByte e.gran (8 * w) / 8)
  let entryBad := c.spPoisoned entryOff 64
  if e.raw then
    let bad := entryBad || e.bad || e.n != 32 || bad_ (f / 64 * 64) 64
    (at_ f, bad)
  else if e.n = 0 && !e.bad then (0, entryBad)
  else
    let header := leNat ((upFrom 0 16).map at_)
    let i := f / 64
    let start := xvStart header i
    let whole := entryBad || e.bad || e.n > 32 || e.n != (xvSize header + 127) / 128 || bad_ 0 16
    match xvTag header i with
    | 0 => (0, whole)
    | 1 => (at_ (start + f % 8), whole || bad_ start 8)
    | 2 => (at_ (start + f % 64), whole || bad_ start 64)
    | _ => (0, true)

/-- xvtab as it governs an access: for a command, as it was when the command issued (R207). -/
def State.tab (s : State) : Word :=
  match s.xlat with | some x => x.xvtab | none => (s.core s.cur.1.val).regs.sp.xvtab

/-- xvpool as it governs a write: for a command, the pool of its issue, with the allocations since (R116, R207). -/
def State.pool (s : State) : Word :=
  match s.xlat with | some x => x.xvpool | none => (s.core s.cur.1.val).regs.sp.xvpool

/-- Every holder of a pool on a core holds the value that an allocation leaves: the register and the commands that it
governs. Pools of one value count as one (DESIGN CHOICE, log 92). -/
def CoreSt.setPool (c : CoreSt) (old new : Word) : CoreSt :=
  let f (x : Cmd) : Cmd := if x.xvpool = old then { x with xvpool := new } else x
  { c with
    regs := if c.regs.sp.xvpool = old then { c.regs with sp := { c.regs.sp with xvpool := new } } else c.regs
    units := { c.units with load := c.units.load.map f, store := c.units.store.map f, copy := c.units.copy.map f } }

/-- An allocation changes the pool of the access. -/
def setPool (new : Word) : M Unit := do
  let s ← get
  set { s.modCore s.cur.1.val (·.setPool s.pool new) with xlat := s.xlat.map fun (x : Streams) => { x with xvpool := new } }

/-- Where tile t's entry lies, or reason 1 for a tile number of count or more (R112, R113). -/
def xvTile (kind : AKind) (va : Word) : M Nat := do
  let tab := (← get).tab
  let t := offOf va / 4096
  if t ≥ xvField tab 14 14 then trapWith (xtrap kind 1 va)
  let off := (xvField tab 0 14 + t) * 128
  xvLs kind va off 128
  return off

/-- The granules that the expansion of a tile reads: none where its entry alone poisons the tile, the first where the
header shows the entry to be inconsistent, else all that it lists (R117, R118). -/
def xvReads (c : CoreSt) (entryOff : Nat) : List Nat :=
  let e := xvEntry (leNat (c.spBytes entryOff 64))
  if c.spPoisoned entryOff 64 || e.bad || 32 < e.n || (e.raw && e.n != 32) then []
  else if e.raw then e.gran
  else
    let g := e.gran.headD 0
    if 0x180000 < g * 128 + 128 then [g]
    else if e.n = (xvSize (leNat (c.spBytes (g * 128) 16)) + 127) / 128 then e.gran
    else e.gran.take 1

/-- A read of n bytes through XV, all in one tile (R117, R119). -/
def xvRead (va : Word) (n : Nat) (kind : AKind) : M (List Byte × Bool) := do
  let off ← xvTile kind va
  let core ← me
  checkRead (.sp core (off / 128)) (lsAddr off)
  let c ← myCore
  (xvReads c off).forM fun g => xvLs kind va (g * 128) 128
  let r := (upFrom (offOf va % 4096) n).map (xvExpand c off)
  return (r.map (·.1), r.any (·.2))

/-- Tag and payload of a chunk (R115); a chunk that holds a poisoned byte is stored raw (R240). -/
def xvChunk (bs : List (Byte × Bool)) : Nat × List (Byte × Bool) :=
  let v := bs.map (·.1)
  if bs.any (·.2) then (2, bs)
  else if v.all (· == 0) then (0, [])
  else if (upFrom 0 64).all fun i => v.getD i 0 == v.getD (i % 8) 0 then (1, bs.take 8)
  else (2, bs)

/-- The stream of a tile and whether it is stored raw (R115). -/
def xvPack (tile : List (Byte × Bool)) : Bool × List (Byte × Bool) :=
  let cs := (upFrom 0 64).map fun i => xvChunk ((tile.drop (64 * i)).take 64)
  let header := ((upFrom 0 64).map fun i => (cs.getD i (0, [])).1 * 2 ^ (2 * i)).sum
  let stream := (leBytes 16 header).map (fun b => (b, false)) ++ cs.flatMap (·.2)
  let m := (stream.length + 127) / 128
  if m ≥ 32 then (true, tile)
  else (false, stream ++ List.replicate (m * 128 - stream.length) (0, false))

/-- Write whole 8-byte words of the scratchpad, each poisoned when one of its bytes is. -/
def spPut (c : CoreSt) (off : Nat) : List (List (Byte × Bool)) → CoreSt
  | [] => c
  | w :: r => spPut (c.spWrite off (w.map (·.1)) (w.any (·.2))) (off + 8) r

def chunksOf {α : Type} (k : Nat) (l : List α) : List (List α) :=
  (upFrom 0 ((l.length + k - 1) / k)).map fun i => (l.drop (k * i)).take k

/-- Write the bytes of a granule, stamped (R119). -/
def xvPutGranule (g : Nat) (bs : List (Byte × Bool)) : M Unit := do
  let core ← me
  checkWrite (.sp core g) (lsAddr (128 * g))
  modMe fun c => spPut c (128 * g) (chunksOf 8 bs)

/-- Push a granule number on the free stack: a stamped write of 2 bytes (R116). -/
def xvPush (va : Word) (g : Nat) : M Unit := do
  let core ← me
  let p := (← get).pool
  let depth := xvField p 28 14
  let off := xvField p 0 14 * 128 + 2 * depth
  xvLs .write va off 2
  checkWrite (.sp core (off / 128)) (lsAddr (off / 128 * 128))
  modMe (·.spWrite off (leBytes 2 g) false)
  setPool (p + BitVec.ofNat 64 (2 ^ 28))

/-- Pop a granule number: the low 14 bits of the entry; the stack's poison is not looked at (log 79). -/
def xvPop (va : Word) : M Nat := do
  let core ← me
  let p := (← get).pool
  let off := xvField p 0 14 * 128 + 2 * (xvField p 28 14 - 1)
  xvLs .write va off 2
  checkRead (.sp core (off / 128)) (lsAddr (off / 128 * 128))
  let g := leNat ((← myCore).spBytes off 2) % 2 ^ 14
  setPool (p - BitVec.ofNat 64 (2 ^ 28))
  return g

def xvPops (va : Word) : Nat → M (List Nat)
  | 0 => return []
  | n + 1 => do
    let g ← xvPop va
    return g :: (← xvPops va n)

/-- Write the granules of a tile's stream in list order. -/
def xvPutAll : List Nat → List (List (Byte × Bool)) → M Unit
  | g :: gs, b :: bs => do xvPutGranule g b; xvPutAll gs bs
  | _, _ => pure ()

/-- A write of a whole tile (R115, R116): granules, then the entry. va is the tile's first byte. The previous count of an
entry that is inconsistent or poisoned is the n that stands in it (log 79). -/
def xvWriteTile (va : Word) (tile : List (Byte × Bool)) : M Unit := do
  let off ← xvTile .write va
  let core ← me
  let c ← myCore
  let e := xvEntry (leNat (c.spBytes off 64))
  let (raw, stream) := xvPack tile
  let m := if raw then 32 else stream.length / 128
  let pool := (← get).pool
  let depth := xvField pool 28 14
  let cap := xvField pool 14 14
  let n := e.n
  limitIf (depth + n < m || depth + n - m > cap)
  let gran ← if m ≤ n then do
      (e.gran.drop m).forM (xvPush va)
      pure (e.gran.take m)
    else do
      let gs ← xvPops va (m - n)
      pure (e.gran ++ gs)
  gran.forM fun g => xvLs .write va (g * 128) 128
  xvPutAll gran (chunksOf 128 stream)
  checkWrite (.sp core (off / 128)) (lsAddr off)
  modMe fun c => spPut c off (chunksOf 8 ((leBytes 64 (xvEntryOf raw gran)).map fun b => (b, false)))

/-! ## Element accesses -/

/-- Read n bytes of a tile element (R129): words of device memory or scratchpad, or a compressed tile. -/
def tileRead (va : Word) (n : Nat) (kind : AKind := .read) : M (List Byte × Bool) :=
  if pathOf va = 6 then
    let k := min n (4096 - offOf va % 4096)
    if k = n then xvRead va n kind
    else do
      let (a, p) ← xvRead va k kind
      let (b, r) ← xvRead (va + BitVec.ofNat 64 k) (n - k) kind
      return (a ++ b, p || r)
  else readPieces .tile kind (wordPieces va n)

/-! ## Fetch (R96, R402) -/

/-- A doubleword at an address of the G path. A fetch of a speculative task sees its own writes; it is no load, and its
page does not join the read set (R391, log 62). Of text that is written while a task runs it, a fetch sees the new bytes
and a WHEEL in progress keeps the body it has read, where R195 allows either (DESIGN CHOICE, log 92). -/
def fetchWord (va : Word) : M (Word) := do
  let s ← get
  let core ← me
  if pathOf va != 0 then trapWith (xtrap .fetch 8 va)
  match s.translate (s.core core).job (offOf va) .fetch with
  | .error r => trapWith (xtrap .fetch r va)
  | .ok (pa, slot, _) =>
    let (bs, bad) := match s.specOn core with
      | some (_, _, x) => s.specBytes x pa slot 8
      | none => (s.devRead slot pa 8, s.devPoison pa 8)
    if bad then trapWith { cause := 0x0E, reason := 1, addr := va }
    return BitVec.ofNat 64 (leNat bs)

/-! ## Accesses of Kiln and of ports -/

/-- The pieces of n bytes that each lie in one 64 KiB region. -/
def regionPieces (va : Word) (n : Nat) : List (Word × Nat) :=
  (blocksOf 65536 va.toNat n).map fun p =>
    let lo := max va.toNat (p * 65536)
    (BitVec.ofNat 64 lo, min (va.toNat + n) (p * 65536 + 65536) - lo)

/-- Translate every region of an access of a job through G before any byte moves (R352). -/
def State.regions (s : State) (job : Nat) (kind : AKind) (off : Word) (n : Nat) :
    Except Nat (List (Nat × Nat × Bool × Nat)) :=
  (regionPieces off n).mapM fun (v, k) =>
    (s.translate job v.toNat kind).map fun (pa, slot, chk) => (pa, slot, chk, k)

/-- n bytes that lie in an argument page, as an agent other than a core reads them (R128). -/
def State.argRead (s : State) (job off n : Nat) : Option (List Byte) :=
  if 65536 < off % 65536 + n then none else (s.argPage job off).map fun c => s.argBytes c off n

/-- What an agent other than a core reads of n bytes of a job, page by page: the bytes of an argument page, or a place in
device memory (R128, R352). -/
def State.agentParts (s : State) (job : Nat) (off : Word) (n : Nat) :
    Except Nat (List (List Byte ⊕ Nat × Nat × Nat)) :=
  (regionPieces off n).mapM fun (v, k) =>
    match s.argRead job (offOf v) k with
    | some bs => .ok (.inl bs)
    | none => (s.translate job v.toNat .read).map fun (pa, slot, _) => .inr (pa, slot, k)

/-- Bytes of a job's memory as Kiln reads them; none where a translation fails. -/
def State.jobRead (s : State) (job : Nat) (off : Word) (n : Nat) : Option (List Byte) :=
  match s.agentParts job off n with
  | .error _ => none
  | .ok ps => some (ps.flatMap fun p => match p with | .inl bs => bs | .inr (pa, slot, k) => s.devRead slot pa k)

/-- Checked granules of translated regions. -/
def checkedGranules (rs : List (Nat × Nat × Bool × Nat)) : List Nat :=
  rs.flatMap fun (pa, _, chk, k) => if chk then blocksOf 128 pa k else []

def putRegions (s : State) : List (Nat × Nat × Bool × Nat) → List Byte → State
  | [], _ => s
  | (pa, slot, _, k) :: r, bs => putRegions (s.devWrite slot pa (bs.take k) false) r (bs.drop k)

/-- A write of an agent that is not a core: refused with a reason, exhausted, or done (R158, R352). -/
inductive AgentWrite where
  | done (s : State) | refused (reason : Nat) | exhausted

/-- A write by an ingress agent or Kiln into a job's memory (R146, R147, R352). -/
def State.agentWrite (s : State) (job agent tag : Nat) (off : Word) (bs : List Byte) : AgentWrite :=
  match s.regions job .write off bs.length with
  | .error r => .refused r
  | .ok rs =>
    match s.stampBy job agent tag (checkedGranules rs) with
    | none => .exhausted
    | some s' => .done (putRegions s' rs bs)

/-! ## Capabilities (R374) -/

/-- A capability for n bytes of a job's memory, for writing as well where w says so: derived from a translation of the
whole range, and none where that fails or the range meets an argument page, which no page table maps. -/
def State.derive (s : State) (job : Nat) (kind : CapKind) (va : Word) (n : Nat) (w : Bool) : Option Cap :=
  if pathOf va != 0 || (regionPieces va n).any fun p => (s.argPage job (offOf p.1)).isSome then none
  else
    match s.regions job .read va n, if w then s.regions job .write va n else .ok [] with
    | .ok rs, .ok _ => some { base := va, len := n, rd := true, wr := w, kind := kind, tag := true, spans := rs }
    | _, _ => none

/-- The parts of n bytes from offset o of a list of parts. -/
def cutSpans : List (Nat × Nat × Bool × Nat) → Nat → Nat → List (Nat × Nat × Bool × Nat)
  | [], _, _ => []
  | (pa, slot, chk, k) :: r, o, n =>
    if n = 0 then []
    else if k ≤ o then cutSpans r (o - k) n
    else (pa + o, slot, chk, min n (k - o)) :: cutSpans r 0 (n - min n (k - o))

/-- n bytes from offset o of a capability's range; none beyond its bounds or permissions. -/
def State.capRead (s : State) (c : Cap) (o n : Nat) : Option (List Byte) :=
  if c.tag && c.rd && o + n ≤ c.len then
    some ((cutSpans c.spans o n).flatMap fun (pa, slot, _, k) => s.devRead slot pa k)
  else none

/-- A write of Kiln through a capability (R146, R374); one outside its bounds or permissions is not made. -/
def State.capWrite (s : State) (job : Nat) (c : Cap) (o : Nat) (bs : List Byte) : State :=
  if c.tag && c.wr && o + bs.length ≤ c.len then
    let rs := cutSpans c.spans o bs.length
    match s.stampBy job kilnAgent 0 (checkedGranules rs) with
    | none => s.record ⟨job, 0x10, 0, 0, 0, c.base + BitVec.ofNat 64 o, []⟩
    | some s' => putRegions s' rs bs
  else s

end Sys2Proof.Machine
end

