-- ==== Sys2Proof/Machine/Flags.lean ====
section
/-! DEFINITION. Machine/Flags: the conditions of compares and waits (R175, R213, R321), the conditions of
FCMP on values (R301), and the merge of condition records into statistics (R271, R272). -/

namespace Sys2Proof.Machine

/-- A condition on two w-bit values (R213). -/
def condOn {w : Nat} (c : Cond) (a b : BitVec w) : Bool :=
  match c with
  | .eq => a == b
  | .ne => a != b
  | .lt => a.slt b
  | .le => a.sle b
  | .gt => b.slt a
  | .ge => b.sle a
  | .ltn => a.ult b
  | .len => a.ule b
  | .gtn => b.ult a
  | .gen => b.ule a

/-- The conditions that compare unsigned (R213): their immediate is zero-extended. -/
def unsignedCond : Cond → Bool
  | .ltn | .len | .gtn | .gen => true
  | .eq | .ne | .lt | .le | .gt | .ge => false

/-- The immediate of CMPI and ACMPI (R213, R229). -/
def cmpImm (c : Cond) (imm : BitVec 18) : Word :=
  if unsignedCond c then imm.setWidth 64 else imm.signExtend 64

/-- A condition on 8- or 4-byte values (R321): the low 32 bits where w4 is set. -/
def condW (c : Cond) (w4 : Bool) (a b : Word) : Bool :=
  if w4 then condOn c (a.setWidth 32) (b.setWidth 32) else condOn c a b

/-- A guard holds: the predicate, negated when asked (R162, R164). -/
def CoreSt.guard (c : CoreSt) (q : Seq) (h : Hdr) : Bool := (c.pred q h.guard) != h.gneg

end Sys2Proof.Machine
end

