-- ==== Sys2Proof/Machine/Fp.lean ====
section
/-! DEFINITION. Machine/Fp: number formats, rounding, conversions, quantisation and exact sums (R66 to
R93). A value is exact: a sign, a natural mantissa and a power of two. Every result is rounded from the
exact value, once, where its rule says so; conditions are the masks of R272. -/

namespace Sys2Proof.Machine

/-- Conditions of R81 in the masks of R272: bit 0 invalid, 1 divide by zero, 2 overflow, 3 underflow,
4 inexact. -/
abbrev Flags := BitVec 5

def flInvalid : Flags := 1
def flDivZero : Flags := 2
def flOverflow : Flags := 4
def flUnderflow : Flags := 8
def flInexact : Flags := 16

/-- A floating format (R66). top is the largest mantissa, hidden bit included, at the largest exponent. -/
structure Fmt where
  e : Nat
  m : Nat
  bias : Nat
  hasInf : Bool
  hasNan : Bool
  top : Nat
  topE : Nat            -- biased exponent of the largest normal
  cnan : Nat
  deriving DecidableEq, Repr

def fmt64 : Fmt := ⟨11, 52, 1023, true, true, 2 ^ 53 - 1, 2046, 0x7FF8000000000000⟩
def fmt32 : Fmt := ⟨8, 23, 127, true, true, 2 ^ 24 - 1, 254, 0x7FC00000⟩
def fmt16 : Fmt := ⟨5, 10, 15, true, true, 2 ^ 11 - 1, 30, 0x7E00⟩
def fmtB16 : Fmt := ⟨8, 7, 127, true, true, 2 ^ 8 - 1, 254, 0x7FC0⟩
def fmtE4M3 : Fmt := ⟨4, 3, 7, false, true, 14, 15, 0x7F⟩
def fmtE5M2 : Fmt := ⟨5, 2, 15, true, true, 7, 30, 0x7F⟩
def fmtE3M2 : Fmt := ⟨3, 2, 3, false, false, 7, 7, 0⟩
def fmtE2M3 : Fmt := ⟨2, 3, 1, false, false, 15, 3, 0⟩
def fmtE2M1 : Fmt := ⟨2, 1, 1, false, false, 3, 3, 0⟩

/-- The floating format of a type; integer types and MXINT8 have none. -/
def fmtOf : Ty → Option Fmt
  | .f64 | .c64 => some fmt64
  | .f32 => some fmt32
  | .f16 => some fmt16
  | .bf16 => some fmtB16
  | .e4m3 => some fmtE4M3
  | .e5m2 => some fmtE5M2
  | .e3m2 => some fmtE3M2
  | .e2m3 => some fmtE2M3
  | .e2m1 => some fmtE2M1
  | .i8 | .i16 | .i32 | .i64 | .n8 | .n16 | .n32 | .n64 | .mxi8 => none

/-- A value: a NaN, an infinity, or sign, mantissa and exponent with value (−1)^s m 2^e. -/
inductive FVal where
  | nan
  | inf (s : Bool)
  | fin (s : Bool) (m : Nat) (e : Int)
  deriving DecidableEq, Repr, Inhabited

/-- Number of significant bits of a natural number. -/
def bitLen (n : Nat) : Nat := if n = 0 then 0 else Nat.log2 n + 1

/-- The value of an encoding (R66). -/
def unpackF (f : Fmt) (bits : Nat) : FVal :=
  let m := bits % 2 ^ f.m
  let e := bits / 2 ^ f.m % 2 ^ f.e
  let s := bits / 2 ^ (f.m + f.e) % 2 == 1
  if e = 0 then .fin s m (1 - (f.bias : Int) - f.m)
  else if f.hasInf && e == 2 ^ f.e - 1 then (if m = 0 then .inf s else .nan)
  else if !f.hasInf && f.hasNan && e == 2 ^ f.e - 1 && m == 2 ^ f.m - 1 then .nan
  else .fin s (m + 2 ^ f.m) ((e : Int) - f.bias - f.m)

/-- The overflow option of R77: no option field, saturate, NaN. -/
inductive Ovf where
  | none | sat | nan
  deriving DecidableEq, Repr, Inhabited

def signBit (f : Fmt) (s : Bool) : Nat := if s then 2 ^ (f.m + f.e) else 0

/-- The infinity of a format. -/
def infBits (f : Fmt) (s : Bool) : Nat := signBit f s + (2 ^ f.e - 1) * 2 ^ f.m

/-- The largest normal of a format, with a sign. -/
def maxBits (f : Fmt) (s : Bool) : Nat := signBit f s + f.topE * 2 ^ f.m + (f.top - 2 ^ f.m)

/-- R77: the overflow outcome. -/
def overflowBits (f : Fmt) (mode : RMode) (o : Ovf) (s : Bool) : Nat :=
  match o with
  | .sat => maxBits f s
  | .nan => f.cnan
  | .none =>
    match mode with
    | .rne | .sr => infBits f s
    | .rtz => maxBits f s
    | .rup => if s then maxBits f s else infBits f s
    | .rdn => if s then infBits f s else maxBits f s

/-- R74 on a grid of spacing 2^q: the magnitude (m + δ) 2^e, with 0 < δ < 1 when sticky and δ = 0
otherwise, to the chosen multiple of 2^q, and whether the choice is inexact. u is the draw of R76. -/
def roundMag (mode : RMode) (u : BitVec 32) (s : Bool) (m : Nat) (e : Int) (sticky : Bool) (q : Int) :
    Nat × Bool :=
  let k := (q - e).toNat                     -- bits dropped
  let n := if q ≤ e then m * 2 ^ (e - q).toNat else m / 2 ^ k
  let r := if q ≤ e then 0 else m % 2 ^ k
  let inexact := r != 0 || sticky
  let up : Bool := inexact &&
    (match mode with
      | .rne => q > e && (2 * r > 2 ^ k || (2 * r == 2 ^ k && (sticky || n % 2 == 1)))
      | .rtz => false
      | .rup => !s
      | .rdn => s
      | .sr => decide (u.toNat < r * 2 ^ 32 / 2 ^ k))
  (if up then n + 1 else n, inexact)

/-- Round a magnitude to a format (R74, R77, R81). A result that rounds to zero records inexact alone, as R81 asks for a
non-zero result; what R84 adds for its second rounding stands there. A value that is itself a point of the extended grid
above the largest normal has no neighbours in R74's sense: it is taken as the choice, so that it overflows in every mode
(DESIGN CHOICE, log 95). -/
def roundFin (f : Fmt) (mode : RMode) (o : Ovf) (u : BitVec 32) (s : Bool) (m : Nat) (e : Int)
    (sticky : Bool) : Nat × Flags :=
  if m = 0 && !sticky then (signBit f s, 0)
  else
    let emin : Int := 1 - (f.bias : Int) - f.m
    let q : Int := max (e + bitLen m - (f.m + 1)) emin
    let (n0, inexact) := roundMag mode u s m e sticky q
    let (n, q) := if n0 = 2 ^ (f.m + 1) then (2 ^ f.m, q + 1) else (n0, q)
    let be := q - emin + 1                   -- biased exponent of a normal result
    if n ≥ 2 ^ f.m && (be > f.topE || (be == f.topE && n > f.top)) then
      (overflowBits f mode o s, flOverflow ||| flInexact)
    else
      let fl : Flags := if inexact then flInexact else 0
      let fl := if inexact && n != 0 && n < 2 ^ f.m then fl ||| flUnderflow else fl
      let bits := if n < 2 ^ f.m then n else be.toNat * 2 ^ f.m + (n - 2 ^ f.m)
      (signBit f s + bits, fl)

/-- Round a value to a format; a NaN gives the canonical NaN (R69, R78). -/
def roundV (f : Fmt) (mode : RMode) (o : Ovf) (u : BitVec 32) : FVal → Nat × Flags
  | .nan => (f.cnan, 0)
  | .inf s =>
    match o with
    | .none => (infBits f s, 0)
    | .sat => (maxBits f s, 0)
    | .nan => (f.cnan, 0)
  | .fin s m e => roundFin f mode o u s m e false

/-- Round to nearest even with no option field: the default of every rule that names no mode (R73). -/
def roundNE (f : Fmt) (v : FVal) : Nat × Flags := roundV f .rne .none 0 v

/-! ## Exact arithmetic -/

def FVal.isNan : FVal → Bool
  | .nan => true | _ => false

def FVal.neg : FVal → FVal
  | .nan => .nan | .inf s => .inf !s | .fin s m e => .fin (!s) m e

def FVal.abs : FVal → FVal
  | .nan => .nan | .inf _ => .inf false | .fin _ m e => .fin false m e

/-- Multiply by a power of two, exactly. -/
def FVal.scale (k : Int) : FVal → FVal
  | .nan => .nan | .inf s => .inf s | .fin s m e => .fin s m (e + k)

/-- An exact product; the flag says that it is 0 × ∞ of operands that are not NaNs. -/
def mulV : FVal → FVal → FVal × Bool
  | .nan, _ => (.nan, false)
  | _, .nan => (.nan, false)
  | .inf s, .inf t => (.inf (s != t), false)
  | .inf s, .fin t m _ => if m = 0 then (.nan, true) else (.inf (s != t), false)
  | .fin s m _, .inf t => if m = 0 then (.nan, true) else (.inf (s != t), false)
  | .fin s m e, .fin t n g => (.fin (s != t) (m * n) (e + g), false)

/-- A running exact sum: the signed mantissa at exponent e, and whether every term so far is −0. -/
structure Acc where
  n : Int := 0
  e : Int := 0
  allNegZero : Bool := true
  nan : Bool := false        -- a NaN operand
  bad : Bool := false        -- 0 × ∞
  pinf : Bool := false
  ninf : Bool := false
  deriving DecidableEq, Repr

/-- Add a term, given with its 0 × ∞ flag. -/
def Acc.add (a : Acc) (t : FVal × Bool) : Acc :=
  match t with
  | (.nan, b) => if b then { a with bad := true } else { a with nan := true }
  | (.inf s, _) => if s then { a with ninf := true } else { a with pinf := true }
  | (.fin s m e, _) =>
    let v : Int := if s then -(m : Int) else m
    let z := a.allNegZero && s && m == 0
    if m = 0 then { a with allNegZero := z }
    else if a.n = 0 then { a with n := v, e := e, allNegZero := z }
    else if e ≥ a.e then { a with n := a.n + v * 2 ^ (e - a.e).toNat, allNegZero := z }
    else { a with n := a.n * 2 ^ (a.e - e).toNat + v, e := e, allNegZero := z }

/-- The exact sum of terms with its conditions (R84). With a NaN among the operands it records nothing, even where a
0 × ∞ product or both infinities stand beside it: R81 raises invalid for a NaN that no operand is (DEDUCED, log 84); the
same holds of FFMA (R299). -/
def Acc.value (a : Acc) : FVal × Flags :=
  if a.nan then (.nan, 0)
  else if a.bad || (a.pinf && a.ninf) then (.nan, flInvalid)
  else if a.pinf then (.inf false, 0)
  else if a.ninf then (.inf true, 0)
  else if a.n = 0 then (.fin a.allNegZero 0 0, 0)
  else (.fin (decide (a.n < 0)) a.n.natAbs a.e, 0)

/-- ExactSum of R84 over products. -/
def exactSum (ts : List (FVal × Bool)) : FVal × Flags := (ts.foldl Acc.add {}).value

/-- A sum rounded once to nearest even (R90, R299). -/
def addF (f : Fmt) (a b : FVal) : Nat × Flags :=
  let (v, fl) := exactSum [(a, false), (b, false)]
  let (r, fl') := roundNE f v
  (r, fl ||| fl')

/-- A product rounded once. -/
def mulF (f : Fmt) (a b : FVal) : Nat × Flags :=
  let (v, bad) := mulV a b
  let (r, fl) := roundNE f v
  (r, if bad then flInvalid ||| fl else fl)

/-- A fused multiply-add rounded once (R85, R299). -/
def fmaF (f : Fmt) (a b c : FVal) : Nat × Flags :=
  let (v, fl) := exactSum [mulV a b, (c, false)]
  let (r, fl') := roundNE f v
  (r, fl ||| fl')

/-- Compare two values that are not NaNs: less, equal, greater. -/
def cmpV (a b : FVal) : Ordering :=
  match a, b with
  | .nan, _ => .eq
  | _, .nan => .eq
  | .inf s, .inf t => if s == t then .eq else if s then .lt else .gt
  | .inf s, _ => if s then .lt else .gt
  | _, .inf t => if t then .gt else .lt
  | .fin s m e, .fin t n g =>
    let lo := min e g
    let x : Int := (m : Int) * 2 ^ (e - lo).toNat
    let y : Int := (n : Int) * 2 ^ (g - lo).toNat
    compare (if s then -x else x) (if t then -y else y)

def FVal.isZero : FVal → Bool
  | .fin _ 0 _ => true | _ => false

def FVal.sign : FVal → Bool
  | .nan => false | .inf s => s | .fin s _ _ => s

/-- Max or min of R91 on encodings: a NaN when either is one; +0 for max and −0 for min of zeros of both
signs; otherwise one of the inputs. -/
def minmaxF (f : Fmt) (isMax : Bool) (a b : Nat) : Nat :=
  let x := unpackF f a
  let y := unpackF f b
  if x.isNan || y.isNan then f.cnan
  else if x.isZero && y.isZero then
    (if isMax then (if x.sign && y.sign then a else signBit f false)
      else (if x.sign || y.sign then signBit f true else a))
  else match cmpV x y with
    | .lt => if isMax then b else a
    | .eq => a
    | .gt => if isMax then a else b

/-! ## Integers -/

/-- Value of an integer. -/
def intV (n : Int) : FVal := .fin (decide (n < 0)) n.natAbs 0

/-- The integer that w bits hold. -/
def toInt (signed : Bool) (w bits : Nat) : Int :=
  let b := bits % 2 ^ w
  if signed && b ≥ 2 ^ (w - 1) then (b : Int) - 2 ^ w else b

/-- Conversion to a w-bit integer (R75): a NaN gives 0, an out-of-range result the nearest bound, both
with invalid; a finite value that the result differs from records inexact, the replaced ones too (R81). -/
def roundInt (signed : Bool) (w : Nat) (mode : RMode) (u : BitVec 32) (v : FVal) : Nat × Flags :=
  let lo : Int := if signed then -(2 ^ (w - 1) : Int) else 0
  let hi : Int := if signed then (2 ^ (w - 1) : Int) - 1 else (2 ^ w : Int) - 1
  let enc (n : Int) : Nat := (n % (2 ^ w : Int)).toNat
  match v with
  | .nan => (0, flInvalid)
  | .inf s => (enc (if s then lo else hi), flInvalid)
  | .fin s m e =>
    let (n, inexact) := roundMag mode u s m e false 0
    let z : Int := if s then -(n : Int) else n
    if z < lo then (enc lo, flInvalid ||| flInexact)
    else if z > hi then (enc hi, flInvalid ||| flInexact)
    else (enc z, if inexact then flInexact else 0)

/-! ## Conversions and quantisation -/

/-- Conversion between floating formats (R78). -/
def convF (src dst : Fmt) (mode : RMode) (o : Ovf) (u : BitVec 32) (bits : Nat) : Nat × Flags :=
  roundV dst mode o u (unpackF src bits)

/-- Exact widening of FP16 or BF16 to FP32, or FP32 to FP64 (R78, step 1). -/
def widen (src dst : Fmt) (bits : Nat) : Nat := (convF src dst .rne .none 0 bits).1

/-- An MX element's value without its block's scale (R70, R71); a NaN encoding is a NaN. -/
def mxVal (t : Ty) (bits : Nat) : FVal :=
  match fmtOf t with
  | some f => unpackF f bits
  | none => let j := toInt true 8 bits; .fin (decide (j < 0)) j.natAbs (-6)

/-- An MX element's value with its scale (R70). -/
def mxScaled (t : Ty) (scale : Byte) (bits : Nat) : FVal :=
  if scale = 0xFF then .nan else (mxVal t bits).scale ((scale.toNat : Int) - 127)

/-- The dequantised element in a target format (R79). -/
def dequant (t : Ty) (dst : Fmt) (scale : Byte) (bits : Nat) : Nat × Flags :=
  roundNE dst (mxScaled t scale bits)

/-- emax of R80: the unbiased exponent of the element type's largest normal. -/
def emaxOf : Ty → Int
  | .e4m3 => 8 | .e5m2 => 15 | .e3m2 => 4 | .e2m3 => 2 | .e2m1 => 2
  | .mxi8 | .i8 | .i16 | .i32 | .i64 | .n8 | .n16 | .n32 | .n64 | .f16 | .bf16 | .f32 | .f64 | .c64 => 0

/-- floor(log2 v) of a finite value that is not zero. -/
def FVal.ilog2 : FVal → Int
  | .fin _ m e => e + bitLen m - 1
  | .nan | .inf _ => 0

/-- The larger of two magnitudes. -/
def maxMag (a b : FVal) : FVal :=
  match cmpV a.abs b.abs with
  | .lt => b.abs
  | .eq | .gt => a.abs

/-- The block's scale (R80, steps 1 to 3); 0xFF for a block with a special input. -/
def quantScale (t : Ty) (vs : List FVal) : Byte :=
  if vs.any (fun v => match v with | .fin .. => false | .nan | .inf _ => true) then 0xFF
  else
    let amax := vs.foldl maxMag (.fin false 0 0)
    if amax.isZero then 0
    else BitVec.ofInt 8 (min (max (amax.ilog2 - emaxOf t + 127) 0) 254)

/-- One element of a block whose scale is not NaN (R80, steps 4 and 5). A quotient above the largest normal whose
chosen neighbour is the largest normal (450 for E4M3) gives that normal, under R74 and R77; the last sentence of step 4
alone would call it an overflow (log 84). -/
def quantElem (t : Ty) (scale : Byte) (mode : RMode) (o : Ovf) (u : BitVec 32) (v : FVal) : Nat × Flags :=
  let q := v.scale (127 - (scale.toNat : Int))
  match fmtOf t with
  | some f => roundV f mode o u q
  | none =>
    match q with
    | .nan | .inf _ => (0, 0)
    | .fin s m e =>
      let (n, inexact) := roundMag mode u s m (e + 6) false 0
      let fl : Flags := if n > 127 then flOverflow ||| flInexact else if inexact then flInexact else 0
      let j : Int := min n 127
      (((if s then -j else j) % 256).toNat, fl)

/-! ## Functions of port programs (R303) -/

/-- floor of the square root, by bits from 2^b down. -/
def isqrtFrom : Nat → Nat → Nat → Nat
  | 0, n, r => if (r + 1) * (r + 1) ≤ n then r + 1 else r
  | b + 1, n, r =>
    let t := r + 2 ^ (b + 1)
    isqrtFrom b n (if t * t ≤ n then t else r)

/-- floor(√n). -/
def isqrt (n : Nat) : Nat := if n = 0 then 0 else isqrtFrom (bitLen n) n 0

/-- 1/v for a finite v that is not zero. -/
def recipV (f : Fmt) (s : Bool) (m : Nat) (e : Int) : Nat × Flags :=
  let k : Nat := 128
  roundFin f .rne .none 0 s (2 ^ k / m) (-(k : Int) - e) (2 ^ k % m != 0)

/-- 1/√v for a finite v above zero. -/
def rsqrtV (f : Fmt) (m : Nat) (e : Int) : Nat × Flags :=
  let (m, e) := if e % 2 = 0 then (m, e) else (2 * m, e - 1)
  let k : Nat := 128
  let n := isqrt (2 ^ (2 * k) / m)
  roundFin f .rne .none 0 false n (-(k : Int) - e / 2) (n * n * m != 2 ^ (2 * k))

/-- ln 2 × 2^300, rounded down. -/
def ln2Fix : Nat :=
  1411965743695424507508857192728570223734551239724995589061361292466257174357546532574725854

/-- The sum of x^i / i! for i ≥ i0, in units of 2^-300, from the term of i0 − 1. -/
def expTerms : Nat → Nat → Nat → Nat → Nat
  | 0, _, _, _ => 0
  | n + 1, i, term, x =>
    let t := term * x / 2 ^ 300 / i
    t + expTerms n (i + 1) t x

/-- 2^f for the fraction f = r / 2^k, in units of 2^-300, to within 2^-280. -/
def exp2Frac (r k : Nat) : Nat :=
  let x := r * ln2Fix / 2 ^ k
  2 ^ 300 + expTerms 80 1 (2 ^ 300) x

/-- 2^v for a finite v: exact for integers, otherwise irrational, so the kept bits with a sticky bit round
as the exact value does. -/
def exp2V (f : Fmt) (s : Bool) (m : Nat) (e : Int) : Nat × Flags :=
  if m = 0 then roundFin f .rne .none 0 false 1 0 false
  else if e + bitLen m > 12 then                      -- |v| is at least 4,096
    if s then roundFin f .rne .none 0 false 1 (-5000) false
    else roundFin f .rne .none 0 false 1 5000 false
  else
    let k := (-e).toNat
    let z : Int := if s then -((m * 2 ^ e.toNat : Nat) : Int) else ((m * 2 ^ e.toNat : Nat) : Int)
    let n : Int := z / 2 ^ k                           -- floor
    let r := (z % 2 ^ k).toNat
    if r = 0 then roundFin f .rne .none 0 false 1 n false
    else roundFin f .rne .none 0 false (exp2Frac r k) (n - 300) true

/-- Bits of log2 of y / 2^300, 1 ≤ y / 2^300 < 2, most significant first. -/
def log2Bits : Nat → Nat → Nat → Nat
  | 0, _, acc => acc
  | n + 1, y, acc =>
    let y2 := y * y / 2 ^ 300
    if y2 ≥ 2 ^ 301 then log2Bits n (y2 / 2) (2 * acc + 1) else log2Bits n y2 (2 * acc)

/-- log2 v for a finite v above zero: exact for powers of two, otherwise irrational. -/
def log2V (f : Fmt) (m : Nat) (e : Int) : Nat × Flags :=
  let l := bitLen m - 1
  let n : Int := e + l
  if m = 2 ^ l then roundV f .rne .none 0 (intV n)
  else
    let t : Int := n * 2 ^ 120 + log2Bits 120 (m * 2 ^ (300 - l)) 0
    if t ≥ 0 then roundFin f .rne .none 0 false t.toNat (-120) true
    else roundFin f .rne .none 0 true ((-t).toNat - 1) (-120) true

/-- FRCP on FP32 (R303). -/
def frcp32 (a : Nat) : Nat × Flags :=
  match unpackF fmt32 a with
  | .nan => (fmt32.cnan, 0)
  | .inf s => (signBit fmt32 s, 0)
  | .fin s 0 _ => (infBits fmt32 s, flDivZero)
  | .fin s m e => recipV fmt32 s m e

/-- FRSQ on FP32 (R303). -/
def frsq32 (a : Nat) : Nat × Flags :=
  match unpackF fmt32 a with
  | .nan => (fmt32.cnan, 0)
  | .inf s => if s then (fmt32.cnan, flInvalid) else (0, 0)
  | .fin s 0 _ => (infBits fmt32 s, flDivZero)
  | .fin s m e => if s then (fmt32.cnan, flInvalid) else rsqrtV fmt32 m e

/-- FEXP2 on FP32 (R303). -/
def fexp2_32 (a : Nat) : Nat × Flags :=
  match unpackF fmt32 a with
  | .nan => (fmt32.cnan, 0)
  | .inf s => if s then (0, 0) else (infBits fmt32 false, 0)
  | .fin s m e => exp2V fmt32 s m e

/-- FLOG2 on FP32 (R303). -/
def flog2_32 (a : Nat) : Nat × Flags :=
  match unpackF fmt32 a with
  | .nan => (fmt32.cnan, 0)
  | .inf s => if s then (fmt32.cnan, flInvalid) else (infBits fmt32 false, 0)
  | .fin _ 0 _ => (infBits fmt32 true, flDivZero)
  | .fin s m e => if s then (fmt32.cnan, flInvalid) else log2V fmt32 m e

/-- One draw of the stochastic generator (R76). -/
def srDraw (x : BitVec 32) : BitVec 32 :=
  let x := x ^^^ (x <<< 13)
  let x := x ^^^ (x >>> 17)
  x ^^^ (x <<< 5)

/-- The register that a seed sets (R76). -/
def srSeed (seed : BitVec 32) : BitVec 32 := if seed = 0 then 0x9E3779B9 else seed

end Sys2Proof.Machine
end

