-- ==== Sys2Proof/Machine/Sync.lean ====
section
/-! DEFINITION. Machine/Sync: words that sync engines act on, atomics (R314 to R320), registered waiters
and their tests (R321 to R323), and the release and acquire of checked variables (R150). -/

namespace Sys2Proof.Machine

/-! ## Words -/

/-- A word of a sync engine: device memory under a key slot, the sync window, or the 8 bytes from an offset of an
argument page, which nothing writes (R128, R206). -/
inductive SyncAt where
  | dev (pa slot : Nat) | sw (byte : Nat) | arg (off : Nat) (bytes : Word)
  deriving DecidableEq, Repr, Inhabited

/-- The word that the address of an atomic, a wait or a signal names in a job (R313, R316): G, translated for a kind of
access, where a read of an argument page finds its bytes (R128), or SW. -/
def State.syncAt (s : State) (job : Nat) (va : Word) (kind : AKind) : Except Nat SyncAt :=
  let p := pathOf va
  if p = 0 then
    match if kind == .read then s.argPage job (offOf va) else none with
    | some c => .ok (.arg (offOf va) (BitVec.ofNat 64 (leNat (s.argBytes c (offOf va) 8))))
    | none => (s.translate job (offOf va) kind).map fun (pa, slot, _) => .dev pa slot
  else if p = 7 then
    match swByte (offOf va) with | some b => .ok (.sw b) | none => .error 1
  else if p = 3 || p ≥ 10 then .error 0
  else .error 8

/-- The n bytes at a sync word, as a number. -/
def State.syncRead (s : State) (a : SyncAt) (n : Nat) : Word :=
  match a with
  | .dev pa slot => BitVec.ofNat 64 (leNat (s.devRead slot pa n))
  | .sw b => BitVec.ofNat 64 (leNat (bytesAt s.memory.sw b n))
  | .arg _ v => BitVec.ofNat 64 (v.toNat % 2 ^ (8 * n))

/-- A write of a sync word. The mark of a marked unit stays (R107, R320). No write reaches an argument page. -/
def State.syncWrite (s : State) (a : SyncAt) (n : Nat) (v : Word) : State :=
  match a with
  | .dev pa slot => s.devWrite slot pa (leBytes n v.toNat) false
  | .sw b => { s with memory := { s.memory with sw := setBytes s.memory.sw b (leBytes n v.toNat) } }
  | .arg .. => s

def State.syncPoison (s : State) (a : SyncAt) (n : Nat) : Bool :=
  match a with
  | .dev pa _ => s.devPoison pa n
  | .sw _ | .arg .. => false

/-- The checked variable that a word belongs to, if any (R121, R149). -/
def SyncAt.checked : SyncAt → Option Nat
  | .dev _ _ | .arg .. => none
  | .sw b => swChecked b

def SyncAt.isSw : SyncAt → Bool
  | .dev _ _ | .arg .. => false | .sw _ => true

/-- The word's place as a waiter keeps it; that of an argument page lies beyond every physical byte. -/
def SyncAt.byte : SyncAt → Nat
  | .dev pa _ => pa | .sw b => b | .arg off _ => 2 ^ 60 + off

/-- Key slot of a word of device memory. -/
def SyncAt.keySlot : SyncAt → Nat
  | .dev _ slot => slot | .sw _ | .arg .. => 0

/-- The bytes of an argument page, as a waiter keeps them. -/
def SyncAt.fixed : SyncAt → Option Word
  | .dev _ _ | .sw _ => none | .arg _ v => some v

/-- The vector of a checked variable. -/
def State.varVec (s : State) (v : Nat) : Frontier := cget [] s.memory.swVec v

def State.setVarVec (s : State) (job v : Nat) (f : Frontier) : State :=
  { s with memory := { s.memory with
      swVec := cset [] s.memory.swVec v f, swJob := cset 0 s.memory.swJob v job } }

/-- A core's release into the variable that a word belongs to; unchecked variables have no vector (R150). -/
def State.releaseInto (s : State) (core : Nat) (a : SyncAt) : State :=
  match a.checked with
  | some v => s.setVarVec (s.core core).job v (s.released core (s.varVec v))
  | none => s

/-- A core's acquire from the variable that a word belongs to (R150). -/
def State.acquireFrom (s : State) (core : Nat) (a : SyncAt) : State :=
  match a.checked with
  | some v => s.acquired core (s.varVec v)
  | none => s

/-- The entry that an agent without a core raises in a checked variable (R150, R355; for Kiln's own atomics
DEDUCED, log 16). -/
def State.raiseVar (s : State) (job agent : Nat) (a : SyncAt) : State :=
  match a.checked with
  | some v =>
    let h := s.varVec v
    s.setVarVec job v (cset 0 h agent (bmax (cget 0 h agent) (s.epoch job agent)))
  | none => s

/-- What a reader takes from a granule that an ingress agent wrote through OI (R134, R150). -/
def State.oiStamp (s : State) (a : SyncAt) : Option Stamp :=
  match a with
  | .sw _ | .arg .. => none
  | .dev pa _ =>
    let t := s.stamp (.dev (pa / 128))
    if t.tag = 1 && decide (448 ≤ t.agent.toNat) && decide (t.agent.toNat < 460) then some t else none

/-! ## New values (R315) -/

/-- New value of an operation on w-bit values. -/
def amNew {w : Nat} (op : AmOp) (o v : BitVec w) : BitVec w :=
  match op with
  | .add => o + v
  | .and => o &&& v
  | .or => o ||| v
  | .xor => o ^^^ v
  | .min => if o.sle v then o else v
  | .max => if v.sle o then o else v
  | .minn => if o.ule v then o else v
  | .maxn => if v.ule o then o else v
  | .fadd => BitVec.ofNat w (addF fmt32 (unpackF fmt32 o.toNat) (unpackF fmt32 v.toNat)).1

def amoNew {w : Nat} (op : AmoOp) (o v : BitVec w) : BitVec w :=
  match op with
  | .plain p => amNew p o v
  | .swap => v

/-- New value on doublewords that hold 8- or 4-byte values. -/
def amoNewW (op : AmoOp) (w4 : Bool) (o v : Word) : Word :=
  if w4 then (amoNew op (o.setWidth 32) (v.setWidth 32)).setWidth 64 else amoNew op o v

def wBytes (w4 : Bool) : Nat := if w4 then 4 else 8

/-- The low bytes of a value, zero-extended. -/
def lowW (w4 : Bool) (v : Word) : Word := if w4 then (v.setWidth 32).setWidth 64 else v

/-! ## Waiters -/

/-- The word that a waiter waits on. -/
def Waiter.at (w : Waiter) : SyncAt :=
  match w.fixed with
  | some v => .arg (w.place - 2 ^ 60) v
  | none => if w.sw then .sw w.place else .dev w.place w.slot

/-- Work for an idle core that is assigned to a stage: pre-empted tasks and ready continuations first, then
a new entry (R53). -/
def State.offer (s : State) (core : Nat) : State :=
  if h : core < 448 then
    let f : Fin 448 := ⟨core, h⟩
    ((s.due (.taskResume f)).due (.continuationStart f)).due (.taskStart f)
  else s

/-- Entries of a stage's input queue and ready continuations of the stage (R51). -/
def Launch.work (l : Launch) (st : Nat) : Nat :=
  (match l.stages[st]? with
    | some x => match cfind l.queues x.input with | some q => q.entries.length | none => 0
    | none => 0) +
  l.conts.countP fun c => c.stage == st && c.state == .ready

/-- Cores of a die that are assigned to a stage (R51). -/
def State.heldBy (s : State) (die job launch st : Nat) : List Nat :=
  ((cget {} s.disp die).assigned.filter fun a => a.2.job == job && a.2.launch == launch && a.2.stage == st).map (·.1)

/-- Idle cores of a die that are assigned to a launch take work of it. -/
def State.offerIdle (s : State) (die job launch : Nat) : State :=
  ((cget {} s.disp die).assigned.filter fun a => a.2.job == job && a.2.launch == launch).foldl
    (fun s a => if (s.core a.1).task.isNone then s.offer a.1 else s) s

/-- A launch has gained ready work: idle cores that are assigned to it take it. A stage that holds no core on a die
and had no work before is due a grant pass there (R51). -/
def State.wantPass (s : State) (job launch st : Nat) (hadNone : Bool) : State :=
  match s.launch? job launch with
  | none => s
  | some l => l.dieSet.foldl (fun s d =>
      let s := s.offerIdle d job launch
      if hadNone && (s.heldBy d job launch st).isEmpty then
        let s := { s with disp := cset {} s.disp d { cget {} s.disp d with passDue := true } }
        if h : d < 8 then s.due (.grantPass ⟨d, h⟩) else s
      else s) s

/-- A continuation becomes ready, with what it will acquire at its start. -/
def State.readyCont (s : State) (job launch id : Nat) (acq : Frontier) : State :=
  match s.launch? job launch with
  | none => s
  | some l =>
    let st := ((l.conts.find? fun c => c.id == id).map (·.stage)).getD 0
    let l' := { l with conts := l.conts.map fun c =>
      if c.id = id then { c with state := .ready, acq := fmaxV c.acq acq } else c }
    (s.setLaunch job launch l').wantPass job launch st (l.work st == 0)

/-- What a wait on a word acquires (R150): the vector of a checked variable, or the entry of an OI write. -/
def State.waitAcq (s : State) (a : SyncAt) : Frontier :=
  match a.checked with
  | some v => s.varVec v
  | none =>
    match s.oiStamp a with
    | some t => [(t.agent.toNat, t.epoch)]
    | none => []

/-- One test of a registered waiter (R322). A phase waiter is readied by the barrier itself (R326). -/
def State.testWaiter (s : State) (w : Waiter) : State :=
  match w.waits with
  | .phase _ => s
  | .cond c w4 v =>
    let a := w.at
    if !s.syncPoison a (wBytes w4) && condW c w4 (s.syncRead a (wBytes w4)) v then
      let s := { s with memory := { s.memory with waiters := s.memory.waiters.erase w } }
      s.readyCont w.job w.launch w.cont (s.waitAcq a)
    else s

/-- Bytes of a waiter's word. -/
def Waiter.bytes (w : Waiter) : Nat :=
  match w.waits with | .cond _ w4 _ => wBytes w4 | .phase _ => 8

/-- Test, in registration order, the waiters that n bytes of a kind of store touch (R322). -/
def State.testTouched (s : State) (sw : Bool) (place n : Nat) : State :=
  (s.memory.waiters.filter fun w => w.sw == sw && overlaps w.place w.bytes place n).foldl State.testWaiter s

def State.testAfter (s : State) (a : SyncAt) (n : Nat) : State := s.testTouched a.isSw a.byte n

/-- Test the waiters registered at exactly an address (R323). -/
def State.testAt (s : State) (a : SyncAt) : State :=
  (s.memory.waiters.filter fun w => w.sw == a.isSw && w.place == a.byte).foldl State.testWaiter s

/-! ## Operations -/

/-- An atomic at its home by an agent that is not a core: old value and state; none on a poisoned word. -/
def State.agentAmo (s : State) (job agent : Nat) (a : SyncAt) (w4 : Bool) (f : Word → Option Word) :
    Option (Word × State) :=
  let n := wBytes w4
  if s.syncPoison a n then none
  else
    let o := s.syncRead a n
    let s1 := match f o with | some v => s.syncWrite a n v | none => s
    let s2 := (s1.raiseVar job agent a).setPending job agent
    some (o, s2.testAfter a n)

/-- The result of an atomic of Kiln (R378, R381): done, or the cause of its failure. -/
def State.kilnAmo (s : State) (job : Nat) (va : Word) (op : AmoOp) (v : Word) : Except Nat State :=
  match s.syncAt job va .write with
  | .error r => .error (xcause .write r)
  | .ok a =>
    match s.agentAmo job kilnAgent a false (fun o => some (amoNewW op false o v)) with
    | none => .error 0x0E
    | some (_, s') => .ok s'

/-- A queue whose head slot's mark n written bytes cover is tested (R376). -/
def State.pokeQueues (s : State) (job : Nat) (off n : Nat) : State :=
  s.queues.foldl (fun s p =>
    let q := p.2
    let slot := q.ring.toNat + 128 * (q.next.toNat % 2 ^ q.order)
    if q.job = job && overlaps (slot + 4) 4 off n then s.due .queuePollTick else s) s

/-- An event write of R378: 8 bytes at the queue's event address; a failure is recorded. -/
def State.eventWrite (s : State) (qn : Nat) (q : WQ) (seq : BitVec 32) (kind : Nat) : State :=
  if q.event = 0 then s
  else
    let v := BitVec.ofNat 64 (seq.toNat + kind * 2 ^ 32)
    match s.kilnAmo q.job q.event .swap v with
    | .ok s' => s'
    | .error c => s.record ⟨q.job, c, kind, 0, qn, seq.setWidth 64, []⟩

end Sys2Proof.Machine
end

