-- ==== Sys2Proof/Machine/Levels.lean ====
section
/-! DEFINITION. Machine/Levels: completion, cancelling and failing of launches, graphs, phases and jobs
(R36 to R39, R384, R408), the stop of a work queue (R378), the end of a task on a core (R45, R49), and the
phase boundary (R156). -/

namespace Sys2Proof.Machine

/-! ## Work-queue records -/

/-- The device part of a queue record, bytes 64 to 175 (R373). -/
def WQ.devPart (q : WQ) : List Byte :=
  leBytes 4 q.next.toNat ++ leBytes 4 q.prod.toNat ++ leBytes 1 q.state ++ leBytes 1 q.code ++
  leBytes 2 q.detail ++ leBytes 4 q.errseq.toNat ++ leBytes 8 q.errlaunch.toNat ++
  leBytes 8 q.accepted ++ leBytes 8 q.predicted ++ leBytes 8 q.claimed ++
  (upFrom 1 8).flatMap fun r => leBytes 8 (cget 0 q.discarded r)

/-- Kiln changes a queue: the record in job memory follows (R373). -/
def State.saveWq (s : State) (qn : Nat) (q : WQ) : State :=
  (s.setWq qn q).capWrite q.job q.recCap 64 q.devPart

/-- A queue stops (R378). -/
def State.stopQueue (s : State) (qn code detail : Nat) (errseq : BitVec 32) (errlaunch : Nat) : State :=
  match s.queue? qn with
  | none => s
  | some q =>
    if q.state != 1 then s.record ⟨q.job, detail, code, errlaunch, qn, errseq.setWidth 64, []⟩
    else
      let q := { q with state := 2, code := code, detail := detail % 65536, errseq := errseq
                        errlaunch := BitVec.ofNat 64 errlaunch, taken := none }
      let s := (s.saveWq qn q).eventWrite qn q errseq 2
      s.discardAll (s.specKeys fun _ _ x => x.queue == qn && x.real.isNone) 6

/-! ## Cores -/

/-- The clear of R45: scratchpad, accumulators, and their stamps, tags and poison. -/
def CoreSt.clear45 (c : CoreSt) : CoreSt :=
  { c with stores := { c.stores with
      sp := [], spPoison := [], spStamp := [], acc := [], accPoison := [] } }

/-- A core without a task: entries, tokens and commands that are left are discarded (R49). -/
def CoreSt.vacate (c : CoreSt) : CoreSt :=
  let idle (q : SeqSt) : SeqSt :=
    { q with cond := .idle, wheel := {}, live := [], sigs := [], endPush := 0, endPop := 0, specPark := false
             stalled := false, relWait := none, pushPark := false }
  { c with
    task := none
    regs := { c.regs with k := idle c.regs.k, l := idle c.regs.l, c := idle c.regs.c, s := idle c.regs.s }
    couple := { c.couple with fifos := [], queues := [] }
    units := {}
    handler := false
    cut := none
    preempt := .none
    preemptAt := 0
    preemptFor := none
    yielded := false }

/-- A core whose task has left: a marked core becomes free (R52), as does one of a co-resident launch that is pre-empted
(R55); another may take more work. -/
def State.coreLeft (s : State) (core : Nat) : State :=
  let d := dieOf core
  let x := cget {} s.disp d
  match cfind x.assigned core with
  | some a =>
    let saved := match s.launch? a.job a.launch with | some l => l.cores && !l.images.isEmpty | none => false
    if a.marked || saved then { s with disp := cset {} s.disp d { x with assigned := cerase x.assigned core } }
    else s.offer core
  | none => s

/-- Stop the tasks that a test selects, without frames (R39, R408). -/
def State.stopTasks (s : State) (p : Task → Bool) : State :=
  s.cores.foldl (fun s c =>
    match c.2.task with
    | some t => if p t then (s.modCore c.1 CoreSt.vacate) else s
    | none => s) s

/-! ## Launches -/

/-- A launch leaves its dies: its cores become free, and its deficits go (R44, R54), as do its probes. Where it was
the launch last granted a core, the next visit of R54 starts at the ring's beginning (DESIGN CHOICE, log 87). -/
def State.leaveDies (s : State) (job launch : Nat) : State :=
  { s with disp := s.disp.filterMap fun p =>
      let x := p.2
      let k := (job, launch)
      let y := { x with
        assigned := x.assigned.filter fun a => !(a.2.job == job && a.2.launch == launch)
        deficits := x.deficits.filter fun e => e.1 != k
        ring := x.ring.filter fun e => e != k
        busy := x.busy.filter fun e => e.1 != k
        last := if x.last = some k then none else x.last
        probes := x.probes.filter fun p => !(p.job == job && p.launch == launch)
        reports := x.reports.filter fun p => !(p.job == job && p.launch == launch) }
      if y = {} then none else some (p.1, y) }

/-- Whether a task of the launch is placed. -/
def State.placed (s : State) (job launch : Nat) : Bool :=
  s.cores.any fun c => match c.2.task with | some t => t.job == job && t.launch == launch | none => false

/-- The four conditions of R37 for a launch. -/
def State.launchOver (s : State) (job num : Nat) (l : Launch) : Bool :=
  l.started && l.left == 0 && l.queues.all (fun q => q.2.entries.isEmpty) && !s.placed job num &&
  l.images.isEmpty && l.conts.isEmpty && l.spec.isNone && !l.complete

/-- An accepted packet of a queue that completes is due. -/
def State.duePacket (s : State) (queue : Nat) (pkt : BitVec 32) : State := s.due (.packetComplete queue pkt)

/-- Ask again whether a launch is complete. -/
def State.checkLaunch (s : State) (job num : Nat) : State :=
  match s.launch? job num with
  | some l => if s.launchOver job num l then s.due (.launchComplete job num) else s
  | none => s

/-- Cancel a launch (R39). -/
def State.cancelLaunch (s : State) (job num : Nat) : State :=
  match s.launch? job num with
  | none => s
  | some l =>
    if l.complete then s
    else
      let s := s.stopTasks fun t => t.job == job && t.launch == num && !t.spec
      let s := { s with memory := { s.memory with
        waiters := s.memory.waiters.filter fun w => !(w.job == job && w.launch == num) } }
      let s := s.setLaunch job num { l with
        queues := l.queues.map fun q => (q.1, { q.2 with entries := [] })
        left := 0, conts := [], images := [], complete := true, cancelled := true }
      let s := s.leaveDies job num
      let s := s.discardAll (s.specKeys fun k y x =>
        k == job && (y.num == l.num || (x.queue == l.queue && x.real == some l.pkt.toNat))) 6
      s.due (.nodeComplete job l.phase l.graph l.node)

/-! ## Graphs, phases, jobs -/

/-- Phase p is complete as R37 says, apart from its flag. -/
def Job.phaseOver (j : Job) (p : Nat) : Bool :=
  (j.phase p).closed && (p == 0 || (j.phase (p - 1)).complete) &&
  (j.phase p).graphs.all fun g => g.2.complete

/-- Set the flag of every phase that has become complete; the job's counter counts them (R36, R37). -/
def Job.settlePhases (j : Job) : List Nat → Job
  | [] => j
  | p :: r =>
    let j := if !(j.phase p).complete && j.phaseOver p then
        { j with phases := cput j.phases p { j.phase p with complete := true }, counter := j.counter + 1 }
      else j
    j.settlePhases r

def State.checkPhases (s : State) (job : Nat) : State :=
  match s.job? job with
  | none => s
  | some j => ((s.setJob job (j.settlePhases (upFrom 0 (j.openPhase + 1)))).due (.phaseBoundary job)).due .queuePollTick

/-- Transforms of a graph stop: no engine runs one and none waits. -/
def State.stopTransforms (s : State) (p : Xform → Bool) : State :=
  let s := { s with
    engines := s.engines.filter fun e => !p e.2
    xwait := s.xwait.filter fun e => !p e.2 }
  (List.finRange 8).foldl (fun s d =>
    if s.xwait.any fun e => e.1 == d.val then s.due (.transformEngineStart d) else s) s

/-- Cancel a graph and every level beneath it (R39), with what runs on prediction for its packet (R394, reason 6). It adds
nothing to its phase's counter, nor a cancelled phase to its job's (DESIGN CHOICE, log 87). -/
def State.cancelGraph (s : State) (job ph g : Nat) : State :=
  match s.graph? job ph g with
  | none => s
  | some gr =>
    if gr.complete then s
    else
      let s := s.setGraph job ph g { gr with complete := true, cancelled := true }
      let s := gr.nodes.foldl (fun s n =>
        match n.kind with
        | .launch num => s.cancelLaunch job num
        | .transform _ => s) s
      let s := s.stopTransforms fun x => x.job == job && x.phase == ph && x.graph == g
      let s := s.discardAll (s.specKeys fun k _ x => k == job && x.queue == gr.queue && x.real == some gr.pkt.toNat) 6
      (s.duePacket gr.queue gr.pkt).checkPhases job

/-- Cancel a phase (R39, R394 reason 6). -/
def State.cancelPhase (s : State) (job ph : Nat) : State :=
  match s.job? job with
  | none => s
  | some j =>
    if ph > j.openPhase || (j.phase ph).complete then s
    else
      let s := s.setJob job { j with
        phases := cput j.phases ph { j.phase ph with complete := true, cancelled := true } }
      let s := (j.phase ph).graphs.foldl (fun s g => s.cancelGraph job ph g.1) s
      let s := s.discardAll (s.specKeys fun k l _ => k == job && l.phase == ph) 6
      s.checkPhases job

/-- Cancel a job (R37, R39). -/
def State.cancelJob (s : State) (job : Nat) : State :=
  match s.job? job with
  | none => s
  | some j =>
    if j.complete then s
    else
      let s := s.setJob job { j with complete := true, cancelled := true }
      let s := (upFrom 0 (j.openPhase + 1)).foldl (fun s p => s.cancelPhase job p) s
      s.discardAll (s.specKeys fun k _ _ => k == job) 6

/-- The 256 bytes of a continuation record (R58). -/
def Cont.record (c : Cont) (job : Nat) (l : Launch) : List Byte :=
  let bs := leBytes 8 c.kpc.toNat ++ leBytes 8 c.lpc.toNat ++ leBytes 8 c.cpc.toNat ++ leBytes 8 c.spc.toNat ++
    leBytes 8 c.live.toNat ++ leBytes 2 job ++ leBytes 2 l.phase ++ leBytes 4 l.graph ++ leBytes 4 l.num ++
    leBytes 1 c.stage ++ leBytes 1 c.kind ++ leBytes 2 c.origin ++ leBytes 4 c.entry.toNat ++
    leBytes 4 c.seq.toNat ++ c.xs.flatMap fun x => leBytes 8 x.toNat
  bs ++ List.replicate (256 - bs.length) 0

/-- The continuation records of a graph's launches, which its cancelling deletes (R39, R58; log 87). -/
def State.contRecords (s : State) (job ph g : Nat) : List (List Byte) :=
  match s.job? job with
  | none => []
  | some j => (j.launches.filter fun l => l.2.spec.isNone && l.2.phase == ph && l.2.graph == g && !l.2.complete).flatMap
      fun l => l.2.conts.map fun c => c.record job l.2

/-- A launch or transform of a graph fails: an error record, the queue stops with code 8, and the graph is
cancelled (R62, R384, R408). -/
def State.failNode (s : State) (job ph g : Nat) (cause code launch : Nat) (info : Word) : State :=
  match s.graph? job ph g with
  | none => s
  | some gr =>
    let s := s.record ⟨job, cause, code, launch, gr.queue, info, s.contRecords job ph g⟩
    let s := s.stopQueue gr.queue 8 cause gr.pkt launch
    s.cancelGraph job ph g

/-- A launch fails (R408). -/
def State.failLaunch (s : State) (job num cause code : Nat) (info : Word) : State :=
  match s.launch? job num with
  | none => s
  | some l => (s.failNode job l.phase l.graph cause code num info).cancelLaunch job num

/-! ## The phase boundary (R156) -/

/-- A core's vectors are cleared: frontier, local vectors, and the copies of tokens and semaphores. -/
def CoreSt.clearVectors (c : CoreSt) : CoreSt :=
  let z (q : SeqSt) : SeqSt := { q with lvec := {} }
  { c with
    frontier := []
    regs := { c.regs with k := z c.regs.k, l := z c.regs.l, c := z c.regs.c, s := z c.regs.s }
    couple := { c.couple with
      fifos := c.couple.fifos.map fun f => (f.1, f.2.map fun t => { t with copy := {} })
      sems := c.couple.sems.filterMap fun m =>
        if m.2.val = 0 then none else some (m.1, { m.2 with copy := {} }) } }

/-- The stamps that a job's writes left are cleared, in device memory and, when asked, in every core's
scratchpad (R156, R157). -/
def State.clearStamps (s : State) (job : Nat) (scratch : Bool) : State :=
  let s := { s with memory := { s.memory with
    stamps := s.memory.stamps.filter fun p => p.2.job != job } }
  if scratch then
    { s with cores := cmap s.cores fun _ c => { c with stores := { c.stores with
        spStamp := ckeep c.stores.spStamp fun _ t => t.job != job } } }
  else s

/-- Steps 1 to 3 of R156. -/
def State.renormalise (s : State) (job : Nat) : State :=
  let s := s.clearStamps job true
  let s := { s with
    cores := cmap s.cores fun _ c => if c.owner = some job then c.clearVectors else c
    memory := { s.memory with
      swVec := ckeep s.memory.swVec fun v _ => cget 0 s.memory.swJob v != job
      coils := cmap s.memory.coils fun _ c => if c.job = job then { c with vector := [] } else c }
    queues := cmap s.queues fun _ q => if q.job = job then { q with vector := [] } else q }
  s.modJob job fun j => { j with
    epochs := []
    pending := []
    launches := cmap j.launches fun _ l => { l with vector := [] }
    phases := cmap j.phases fun _ p => { p with graphs := cmap p.graphs fun _ g =>
      { g with nodes := g.nodes.map fun n => { n with vector := [] } } } }

end Sys2Proof.Machine
end

