-- ==== Sys2Proof/Machine/Ops.lean ====
section
/-! DEFINITION. Machine/Ops: taking a trap and returning from one (R395 to R408), the advance of a sequencer
and of its wheel (R287, R288), and the issue of an instruction: legality, pops, guard, effect, pushes (R30
to R33, R164, R171, R192). -/

namespace Sys2Proof.Machine

abbrev Result := Host.Outcome State Fault Refusal

/-! ## Back to a boundary (R258, R397) -/

/-- The word of R400 that counts a queue: q0 to q7 are queues 0 to 7, o0 to o7 queues 8 to 15. -/
def queueWord (i : Nat) : Nat := 12 + i

/-- The word of R400 that counts a command queue. -/
def unitWord : CUnit → Option Nat
  | .mat => some 28
  | .red => some 29
  | .pass => some 30
  | .copy => some 31
  | .load | .store | .mac => none

/-- Capacity of a queue in bits (R26, R237). -/
def queueBits : Nat := 131072

/-- Bits that the elements of a queue take: MX elements packed, scales free (R237). -/
def Queue.used (q : Queue) : Nat := (q.elems.map fun e => e.ty.bits).sum

def Queue.fits (q : Queue) (t : Ty) : Bool := decide (q.used + t.bits ≤ queueBits)

/-- An element enters a queue. -/
def CoreSt.putElem (c : CoreSt) (i : Nat) (e : QElem) : CoreSt :=
  let q := c.queue i
  (c.setQueue i { q with elems := q.elems ++ [e] }).countPush (queueWord i)

/-- An element stands again at the head of its queue (R239, R258). -/
def CoreSt.returnElem (c : CoreSt) (i : Nat) (e : QElem) : CoreSt :=
  let q := c.queue i
  (c.setQueue i { elems := e :: q.elems, head := q.head - BitVec.ofNat 17 e.ty.bits }).uncountPop (queueWord i)

/-- Elements stand again at the head, in their order. -/
def CoreSt.returnElems (c : CoreSt) (i : Nat) (es : List QElem) : CoreSt :=
  es.reverse.foldl (fun c e => c.returnElem i e) c

/-- An instance as it stood before; the operations that a handler's return passes over stay passed over (R310,
R406). -/
def PortInst.back (old now : Option PortInst) : Option PortInst :=
  match old, now with
  | some o, some n => some { o with skip := n.skip }
  | _, _ => old

/-- Of the elements of open tiles that a command has popped, those before element n. -/
def Cmd.keptBefore (x : Cmd) (n : Nat) : Nat := x.popped.length - (x.cursor - n)

/-- The command goes back to element n, the first of an open tile: the register and the programs stand as they did, and
of the open tiles the bytes of earlier elements stay (R76, R116, R239). -/
def Cmd.backTo (x : Cmd) (n : Nat) : Cmd :=
  let popped := x.popped.take (x.keptBefore n)
  let x := match x.xv.find? fun t => t.2.first == n with
    | some t => { x with rng := t.2.rng, pa := PortInst.back t.2.pa x.pa, pb := PortInst.back t.2.pb x.pb }
    | none => x
  { x with
    cursor := n
    popped := popped
    scales := x.scales.filter fun e => decide (e.1 < n)
    xv := (x.xv.filter fun t => decide (t.2.first < n)).map fun t =>
      (t.1, { t.2 with bytes := t.2.bytes.filter fun b => decide (b.2.2.2 < n) }) }

/-- The first element that a command has not performed: those of open tiles of the XV path have not (R115). -/
def Cmd.firstLeft (x : Cmd) : Nat := x.xv.foldl (fun n t => min n t.2.first) x.cursor

/-- Elements of a TPASS or TRED that are complete: those before the oldest window (R258). -/
def Cmd.complete (x : Cmd) : Nat := x.read - (x.wins.map fun w => w.els.length).sum

/-- A TPASS or TRED goes back to the first element that is not complete: the instances stand as they did (R258,
R310). -/
def Cmd.backToWindow (x : Cmd) : Cmd :=
  match x.wins with
  | [] => x
  | w :: _ =>
    { x with
      pa := PortInst.back w.before x.pa, pb := if w.entered then PortInst.back w.beforeB x.pb else x.pb
      wins := [], held := [], read := x.complete, cursor := x.complete, atEnd := false, acc := none, first := none }

/-- The queue that a command pops. -/
def queuePopped : Instr → Option Nat
  | .tpass _ _ _ _ q _ _ | .tred _ _ _ _ q _ _ _ _ => some q.toNat
  | .tst _ _ _ o .. | .tstCoil _ _ _ o .. | .tsct _ _ _ o .. => some (8 + o.toNat)
  | _ => none

/-- The queue that a TPASS or TRED feeds. -/
def queueFed : Instr → Option Nat
  | .tpass _ _ _ o .. | .tred _ _ _ o .. => some (8 + o.toNat)
  | _ => none

/-- At a cut the outputs of the elements before the cursor stand in their queue (R310): the one that is held back for the
last mark goes out without it, where the queue has room (log 85). -/
def CoreSt.letOut (c : CoreSt) (u : CUnit) : CoreSt :=
  match c.unit u with
  | [] => c
  | x :: r =>
    match x.out, queueFed x.inst with
    | some e, some q =>
      if x.pend.isEmpty && (c.queue q).fits e.ty then (c.putElem q e).setUnit u ({ x with out := none, gave := some e } :: r)
      else c
    | _, _ => c

/-- A unit stops its command at a boundary: what waits in windows or open tiles has not been performed, and the
elements popped for it stand again at the head of their queue (R258, R397). -/
def CoreSt.toBoundary (c : CoreSt) (u : CUnit) : CoreSt :=
  let c := c.letOut u
  match c.unit u with
  | [] => c
  | x :: r =>
    let n := x.firstLeft
    let y := if x.wins.isEmpty then (if n < x.cursor then x.backTo n else x) else x.backToWindow
    let els := if x.wins.isEmpty then x.popped.drop (x.keptBefore n) else x.wins.flatMap (·.els)
    let c := match queuePopped x.inst with | some q => c.returnElems q els | none => c
    c.setUnit u (y :: r)

/-! ## The cut and the frame -/

def allUnits : List CUnit := [.mat, .red, .pass, .copy, .load, .store, .mac]

/-- Origin number of a unit (R396). -/
def unitOrigin : CUnit → Nat
  | .mat => 4 | .red => 5 | .pass => 6 | .copy => 7 | .load => 8 | .store => 9 | .mac => 10

/-- Cut PC of a sequencer (R397): an END that has issued and not retired stands at its own address. -/
def CoreSt.cutPc (c : CoreSt) (q : Seq) : Word :=
  let x := c.seq q
  match x.cond with
  | .ending => x.endPc
  | .idle | .run | .ended => x.pc

def CoreSt.endedBit (c : CoreSt) (q : Seq) : Nat :=
  match (c.seq q).cond with | .ending => 2 ^ q.idx | .idle | .run | .ended => 0

/-- Commands issued by C before a given one that stand in some units (R259). -/
def CoreSt.earlier (c : CoreSt) (us : List CUnit) (num : Nat) : Bool :=
  us.any fun u => (c.unit u).any fun x => decide (x.num < num)

/-- A macro operation runs by itself among the engines of C (R259). -/
def CoreSt.engineFree (c : CoreSt) (u : CUnit) : Bool :=
  match c.unit u with
  | [] => true
  | x :: _ =>
    match u with
    | .mac => !c.earlier [.mat, .red, .pass] x.num
    | .mat | .red | .pass => !c.earlier [.mac] x.num
    | .copy | .load | .store => true

/-- The resume cursor of a unit's command in execution; all ones without one (R400). A command at the head of its queue
that may not start yet is not in execution (R259); one that waits for the order of accesses alone is (DEDUCED, log 70). -/
def CoreSt.cursorWord (c : CoreSt) (u : CUnit) : Nat :=
  match c.unit u with
  | [] => 2 ^ 64 - 1
  | x :: _ => if c.engineFree u then x.cursor else 2 ^ 64 - 1

/-- The wheel word of a sequencer (R400). -/
def CoreSt.wheelWord (c : CoreSt) (q : Seq) : Nat :=
  let w := (c.seq q).wheel
  w.step % 2 ^ 32 + w.pos % 64 * 2 ^ 32 + (if w.active then 2 ^ 63 else 0)

def idxBytes (i : Idx) : List Byte :=
  leBytes 2 i.i0.toNat ++ leBytes 2 i.i1.toNat ++ leBytes 2 i.i2.toNat ++ leBytes 2 i.i3.toNat ++
  leBytes 2 i.i4.toNat

/-- The cause word (R401). -/
def causeWord (t : Trap) (nested handler : Bool) : Nat :=
  t.cause % 256 + t.origin % 16 * 2 ^ 8 + (if t.straddle then 2 ^ 12 else 0) +
  (if handler then 2 ^ 13 else 0) + (if nested then 2 ^ 14 else 0) +
  t.reason % 256 * 2 ^ 16 + t.code % 65536 * 2 ^ 32

/-- The 512-byte frame (R400). -/
def CoreSt.frame (c : CoreSt) (t : Trap) (nested handler : Bool) : List Byte :=
  leBytes 8 (causeWord t nested handler) ++ leBytes 8 t.addr.toNat ++
  [Seq.k, .l, .c, .s].flatMap (fun q => leBytes 8 (c.cutPc q).toNat) ++
  leBytes 8 t.ipc.toNat ++ leBytes 8 t.cursor ++ leBytes 8 t.elem ++ idxBytes t.idx ++
  leBytes 1 t.port ++ leBytes 1 t.slot ++ leBytes 1 t.pos ++ leBytes 3 0 ++
  leBytes 4 t.chain ++ leBytes 4 t.stamp.toNat ++ leBytes 1 t.tag.toNat ++ leBytes 3 t.front.toNat ++
  leBytes 4 0 ++
  allUnits.flatMap (fun u => leBytes 8 (c.cursorWord u)) ++
  [Seq.l, .c, .s].flatMap (fun q => leBytes 8 (c.wheelWord q)) ++
  leBytes 2 t.rowbase ++
  leBytes 1 (c.endedBit .k + c.endedBit .l + c.endedBit .c + c.endedBit .s) ++ leBytes 5 0 ++
  leBytes 64 t.rowpoison.toNat ++
  (upFrom 0 32).flatMap fun i =>
    leBytes 4 (cget 0 c.couple.pushed i).toNat ++ leBytes 4 (cget 0 c.couple.popped i).toNat

/-- The handler class bit of a cause (R395). -/
def classBit : Nat → Option Nat
  | 0x0D => some 0 | 0x0F => some 1 | 0x11 => some 2 | _ => none

/-- hvec holds the class of a cause (R223, R405). -/
def CoreSt.handles (c : CoreSt) (cause : Nat) : Bool :=
  match classBit cause with
  | some b => c.regs.sp.hvec.getLsbD b
  | none => false

/-- Write a core's frame through its physical address (R360, R400, log 17): K's cache follows. -/
def State.writeFrame (s : State) (core : Nat) (bs : List Byte) : State :=
  match s.job? (s.core core).job with
  | none => s
  | some j =>
    let pa := j.framePa + 512 * core
    (s.devWrite j.keySlot pa bs false).modCore core fun c =>
      (chunksOf 128 bs).zipIdx.foldl (fun c p => c.updateLine (pa + 128 * p.2) p.1) c

/-- A stopped command: its streams are translated again when it goes on (R103). -/
def CoreSt.dropRegions (c : CoreSt) : CoreSt :=
  allUnits.foldl (fun c u => c.setUnit u ((c.unit u).map fun x => { x with regions := [], trans := [] })) c

/-- A trap enters the handler: K issues from the handler's address, everything else stays stopped (R405). -/
def CoreSt.enter (c : CoreSt) (t : Trap) (u : Option CUnit) (now : Nat) : CoreSt :=
  let k := c.regs.k
  { c.dropRegions with
    handler := true
    cut := some { trap := t, kpc := c.cutPc .k, kcond := k.cond, kendPush := k.endPush
                  kendPop := k.endPop, kendPc := k.endPc, unit := u, at_ := now }
    regs := { c.regs with k := { k with
      cond := .run, pc := c.regs.sp.hvec &&& ~~~(7 : Word), stalled := false, relWait := none, pushPark := false } } }

/-- Every unit but the origin of a trap stops at its boundary (R397). -/
def CoreSt.halt (c : CoreSt) (origin : Option CUnit) : CoreSt :=
  (allUnits.filter fun u => origin != some u).foldl CoreSt.toBoundary c

/-- Taking a trap (R397, R400, R405, R407, R408): the frame is written; then either the handler runs, or the
trap escalates and Kiln fails the launch. -/
def State.takeTrap (s : State) (core : Nat) (t : Trap) (u : Option CUnit) : State :=
  let s := s.modCore core (·.halt u)
  let c := s.core core
  match c.task with
  | none => s
  | some k =>
    if c.handles t.cause && !c.handler then
      (s.writeFrame core (c.frame t false true)).modCore core fun c => c.enter t u s.cycle
    else
      let t := if c.handler && c.handles t.cause then { t with cause := 0x16 } else t
      (s.writeFrame core (c.frame t c.handler false)).failLaunch k.job k.launch t.cause t.code t.addr

/-- The instance of the port that a port element fault names passes over the operation of the fault for its
element, beside those that it passes over already (R406). -/
def Cmd.skipAt (x : Cmd) (t : Trap) : Cmd :=
  let f (p : Option PortInst) : Option PortInst := p.map fun i => { i with skip := (t.elem, t.pos) :: i.skip }
  if t.port = 3 || t.port = 5 || t.port = 7 then { x with pb := f x.pb } else { x with pa := f x.pa }

/-- The return from a handler (R406): the cut continues. -/
def CoreSt.leave (c : CoreSt) : CoreSt :=
  match c.cut with
  | none => c
  | some k =>
    let r := c.regs.k
    let c := { c with
      handler := false
      cut := none
      regs := { c.regs with k := { r with
        pc := k.kpc, cond := k.kcond, endPush := k.kendPush, endPop := k.kendPop
        endPc := k.kendPc, relWait := none, pushPark := false } } }
    if k.trap.cause = 0x0D then
      match k.unit with
      | some u =>
        match c.unit u with
        | x :: r => c.setUnit u (x.skipAt k.trap :: r)
        | [] => c
      | none => c
    else c

/-- Causes that a sequencer's own instruction raises only after it has issued (R392): faults of an access, poison,
races, epoch exhaustion, and token and semaphore overflow. Every trap of a unit is of that kind. -/
def lateCause (n : Nat) : Bool := [0x06, 0x07, 0x09, 0x0A, 0x0B, 0x0C, 0x0E, 0x0F, 0x10].contains n

/-! ## Traps of one cycle -/

/-- The contributions at which a core raises the overflow traps that the cycle amounts to so far (R35): the first of its
own to a semaphore of its own, and each MDRAINX of its own that contributed to another core's. -/
def State.overflowAdds (s : State) (core : Nat) : List SemAdd :=
  s.overflowing.flatMap fun p =>
    let own := if p.1 = core then firstContribution (p.2.filter (·.remote.isNone)) else none
    own.toList ++ p.2.filter (·.remote == some core)

/-- The trap of an overflow that is attributed to a contribution. -/
def SemAdd.trap (a : SemAdd) : Trap := { cause := 0x0C, origin := a.by_.idx, ipc := a.ipc }

/-- The overflow traps of a core (R35). -/
def State.overflowTraps (s : State) (core : Nat) : List Trap := (s.overflowAdds core).map SemAdd.trap

/-- The overflow of lowest origin (R398). -/
def State.lowestOverflow (s : State) (core : Nat) : Option SemAdd :=
  (s.overflowAdds core).foldl (fun best a =>
    match best with
    | none => some a
    | some b => if a.by_.idx < b.by_.idx then some a else some b) none

/-- The instruction of a signal that traps has no effect (R192, R396): its pushes are not made, its pops count as not
taken, and its sequencer stands at it where it has moved only by it; a command stands in its unit again. The tokens
themselves go with the task, which no handler of this cause keeps. -/
def CoreSt.undo (c : CoreSt) (q : Seq) (u : Undo) : CoreSt :=
  let c := (neighbours q u.push).foldl (fun c y => c.uncountPush (fifoIdx q y)) c
  let c := (neighbours q u.pop).foldl (fun c y => c.uncountPop (fifoIdx y q)) c
  let c := match u.seq with
    | some (pc, w) => c.setSeq q { c.seq q with pc := pc, wheel := w }
    | none => c
  match u.cmd with
  | some (n, x) =>
    let c := c.setUnit n (x :: c.unit n)
    match unitWord n with | some w => c.uncountPop w | none => c
  | none => c

/-- An END has not retired yet: it stands as issued, and its pushes are not made (R197, R397). -/
def CoreSt.unend (c : CoreSt) (q : Seq) (push : BitVec 3) : CoreSt :=
  (c.undo q { push := push }).setSeq q { c.seq q with cond := .ending, endPush := push }

/-- The contributions of signals that waited behind a contribution of the same sequencer and acted after it in the
cycle (R202). -/
def State.laterSigs (s : State) (core : Nat) (a : SemAdd) : List SemAdd :=
  let rest := (s.semAdds.reverse.dropWhile fun p => p.2 != a || (p.1 != core && a.remote != some core)).drop 1
  (rest.filter fun p =>
    p.1 == core && p.2.by_ == a.by_ && p.2.remote.isNone && p.2.undo.seq.isNone && p.2.undo.cmd.isNone).map (·.2)

/-- The cut of an overflow that is attributed to a contribution (R35, R397): its instruction has no effect, and what of
its sequencer waited for it to retire has not retired: signals have made no pushes, and an END stands as issued. -/
def State.undoSignal (s : State) (core : Nat) (a : SemAdd) : State :=
  let later := s.laterSigs core a
  s.modCore core fun c =>
    let c := later.foldl (fun c b => c.undo b.by_ { push := b.undo.push }) (c.undo a.by_ a.undo)
    match s.endLog.find? fun e => e.1 == core && e.2.1 == a.by_ with
    | some (_, q, push) => c.unend q push
    | none => c

/-- A core takes the overflow trap of a contribution. -/
def State.raiseOverflow (s : State) (core : Nat) (a : SemAdd) : State :=
  (s.undoSignal core a).takeTrap core a.trap none

/-- A trap of a core (R398): an overflow of the same cycle at a lower origin is the trap that is raised. -/
def State.raise (s : State) (core : Nat) (t : Trap) (u : Option CUnit) : State :=
  match s.lowestOverflow core with
  | some a => if a.by_.idx < t.origin then s.raiseOverflow core a else s.takeTrap core t u
  | none => s.takeTrap core t u

/-- A trap of a core that may run on prediction: then the launch is discarded with reason 8 (R392). -/
def State.trapOn (s : State) (core : Nat) (t : Trap) (u : Option CUnit) : State :=
  match (s.core core).task with
  | some k =>
    if k.spec then s.discardAll [k.launch] 8 else s.raise core t u
  | none => s

/-- A handler that another trap of this cycle has entered has not begun: an overflow stops the core at the cut that
was there (log 78). -/
def CoreSt.unenter (c : CoreSt) (now : Nat) : CoreSt :=
  match c.cut with
  | some k => if c.handler && k.at_ == now then c.leave else c
  | none => c

/-- The overflow traps that the cycle leaves, once all its contributions and SSETs are in (R35, R203). -/
def State.endCycle (s : State) : State :=
  let cores := (s.overflowing.flatMap fun p => p.1 :: p.2.filterMap (·.remote)).eraseDups
  cores.foldl (fun s n =>
    match s.lowestOverflow n with
    | some a => ((s.modCore n fun c => c.unenter s.cycle).undoSignal n a).trapOn n a.trap none
    | none => s) s

/-- K's scalar cache loses every line (R133). -/
def CoreSt.dropCache (c : CoreSt) : CoreSt := { c with stores := { c.stores with kcache := [] } }

/-! ## The end of a turn -/

/-- A sequencer's turn that ends in a stall at issue (R409). -/
def State.stalled (s : State) : State :=
  s.modCore s.cur.1.val fun c => c.setSeq s.cur.2 { c.seq s.cur.2 with stalled := true }

/-- A release of K waits for writing commands (R133). -/
def State.heldFor (s : State) (w : List (Seq × Nat)) : State :=
  (s.modCore s.cur.1.val fun c =>
    { c with regs := { c.regs with k := { c.regs.k with relWait := some w } } }).stalled

/-- K's SQPUSH has found its queue full: it stalls until L, C and S are parked (R57). -/
def State.parking (s : State) : State :=
  (s.modCore s.cur.1.val fun c =>
    { c with regs := { c.regs with k := { c.regs.k with pushPark := true } } }).stalled

/-- A speculative sequencer parks (R392). -/
def State.parked (s : State) : State :=
  s.modCore s.cur.1.val fun c => c.setSeq s.cur.2 { c.seq s.cur.2 with specPark := true }

/-- A discard of the speculative launch that runs on the moving core. -/
def State.discardMine (s : State) (reason : Nat) : State :=
  match (s.core s.cur.1.val).task with
  | some k => s.discardAll [k.launch] reason
  | none => s

/-- Progress of the moving core (R409). -/
def State.progressed (s : State) : State :=
  s.modCore s.cur.1.val fun c => { c with progress := s.cycle }

/-- The outcome of a sequencer's turn: s is the state it began with, which a stop leaves (R192). -/
def seqOutcome (s : State) (r : Except Stop (Unit × State)) : Result :=
  match r with
  | .ok (_, s') => .next s'.progressed
  | .error .stall => .next s.stalled
  | .error (.held w) => .next (s.heldFor w)
  | .error .park => .next s.parking
  | .error .spec => .next s.parked
  | .error (.discard n) => .next (s.discardMine n)
  | .error (.fault f) => .fault f
  | .error (.trap t) =>
    let core := s.cur.1.val
    let q := s.cur.2
    let c := s.core core
    let spec := match c.task with | some k => k.spec | none => false
    let t := { t with origin := q.idx, ipc := if t.ipc = 0 then (c.seq q).pc else t.ipc }
    if spec && !lateCause t.cause then .next s.parked
    else .next (s.trapOn core t none)

/-! ## Advance -/

/-- Stage of a body position counted from 0 (R287). -/
def Wheel.stage (w : Wheel) (p : Nat) : Nat := p * w.stages / w.body.length

/-- The number of steps, T + S − 1; a drain ends after step t0 + S − 2 (R287, R288). -/
def Wheel.last (w : Wheel) : Nat :=
  match w.drain with
  | some t0 => min (w.trip + w.stages - 1) (t0 + w.stages - 1)
  | none => w.trip + w.stages - 1

/-- The iterations that a wheel runs: all of its trips, or, while it drains, those that had begun. With more than two
stages an iteration that a drain keeps from stage 0 is squashed in the later stages too: it issues after the resumption
(R288's exactly once; DEDUCED, log 70). -/
def Wheel.runs (w : Wheel) : Nat :=
  match w.drain with
  | some t0 => min t0 w.trip
  | none => w.trip

/-- The iteration of a slot; none when the slot is squashed (R287, R288). -/
def Wheel.iter (w : Wheel) : Option Nat :=
  let g := w.stage w.pos
  if w.step < g then none
  else
    let i := w.step - g
    if i < w.runs && w.i0 ≤ i then some i else none

/-- Bytes of the instructions of a body, from its first address: where the sequencer continues. -/
def Wheel.after (w : Wheel) : Word :=
  match w.body.getLast? with
  | some (a, i) => a + BitVec.ofNat 64 (8 * (encode i).length)
  | none => w.pc + 32

/-- A wheel whose drain has ended is saved at its WHEEL with i0 (R288). -/
def SeqSt.saveWheel (x : SeqSt) (t0 : Nat) : SeqSt :=
  let w := x.wheel
  let i0 := min t0 w.trip
  { x with
    wheel := { w with active := false, drained := true, i0 := i0, pos := 0, step := i0, drain := none }
    pc := w.pc }

/-- The wheel goes to its next slot (R287); after its last step the sequencer continues behind the body, or,
when a drain ends, the wheel is saved. stepStart is the cycle in which the step's first slot was taken. -/
def SeqSt.nextSlot (x : SeqSt) (now : Nat) : SeqSt :=
  let w : Wheel := { x.wheel with stepStart := if x.wheel.pos = 0 then now else x.wheel.stepStart }
  if w.pos + 1 < w.body.length then
    { x with
      wheel := { w with pos := w.pos + 1 }
      pc := ((w.body[w.pos + 1]?).map (·.1)).getD 0 }
  else if w.step + 1 < w.last then
    { x with
      wheel := { w with pos := 0, step := w.step + 1 }
      pc := ((w.body[0]?).map (·.1)).getD 0 }
  else
    match w.drain with
    | none => { x with wheel := {}, pc := w.after }
    | some t0 => { x with wheel := w }.saveWheel t0

/-- A pre-emption request reaches a running wheel: the step in progress is completed, and from t0 on it drains
(R288). -/
def SeqSt.drainWheel (x : SeqSt) : SeqSt :=
  let t0 := if x.wheel.pos = 0 then x.wheel.step else x.wheel.step + 1
  let w : Wheel := { x.wheel with drain := some t0 }
  if w.pos = 0 && decide (w.last ≤ w.step) then { x with wheel := w }.saveWheel t0 else { x with wheel := w }

/-- A drained wheel goes on from i0 (R288). -/
def SeqSt.startWheel (x : SeqSt) : SeqSt :=
  { x with
    wheel := { x.wheel with active := true, drained := false }
    pc := ((x.wheel.body[0]?).map (·.1)).getD 0 }

/-- The moving sequencer goes on: to the next slot of its wheel, or to an address. -/
def advance (next : Option Word) (bytes : Nat) : M Unit := do
  let q ← mySeq
  let s ← get
  modMe fun c =>
    let x := { c.seq q with stalled := false, relWait := none, pushPark := false }
    c.setSeq q (if x.wheel.active then x.nextSlot s.cycle
      else { x with pc := next.getD (x.pc + BitVec.ofNat 64 bytes) })

/-! ## Issue -/

/-- How an instruction's effect ends: where the sequencer goes, whether its pushes act now, a value token
that it pushes, and whether it has moved its sequencer itself. -/
structure Go where
  next : Option Word := none
  push : Bool := true
  val : Option (Seq × Word) := none
  keep : Bool := false
  deriving DecidableEq, Repr, Inhabited

/-- The pushes of an instruction that retires; an overflow is its trap (R32). -/
def doPush (h : Hdr) (val : Option (Seq × Word)) : M Unit := do
  let s ← get
  let core ← me
  let q ← mySeq
  match s.pushAll core q h.push val with
  | some s' => set s'
  | none => trapWith { cause := 0x0B }

def taskSpec : M Bool := do
  let c ← myCore
  return match c.task with | some t => t.spec | none => false

/-- An instruction of the moving sequencer (R30, R33, R164, R171, R192, R392): legal is the sequencers of
R173 and R174, bytes its length, parks whether a speculative sequencer parks at it, body its effect when the
guard is true. -/
def issue (legal : Seq → Bool) (bytes : Nat) (parks : Bool) (h : Hdr) (body : M Go) : M Unit := do
  let q ← mySeq
  let core ← me
  if !legal q then trapWith { cause := 1 }
  let s ← get
  match s.popAll core q (neighbours q h.pop) with
  | none => stall
  | some s1 =>
    set s1
    if (s1.core core).guard q h then
      if parks && (← taskSpec) then stop .spec
      let g ← body
      if g.push then doPush h g.val
      if !g.keep then advance g.next bytes
    else
      doPush h none
      advance none bytes

/-! ## Releases of K -/

/-- Commands of a core that write memory and have not retired (R133). -/
def CoreSt.writers (c : CoreSt) : List (Seq × Nat) :=
  (c.units.store ++ c.units.copy ++ c.units.mac).map fun x => (x.seq, x.num)

/-- The writing commands that a release of K waits for: those that were there at its first attempt (R133). -/
def CoreSt.unperformed (c : CoreSt) : List (Seq × Nat) :=
  match c.regs.k.relWait with
  | some l => l.filter fun p => c.writers.contains p
  | none => c.writers

/-- Whether an instruction of K that can pop is a release: by its own effect, when its guard is true, or by its
pushes, which act in any case (R33, R134). -/
def releases (isRel : Bool) (core : Nat) (h : Hdr) (s : State) : Bool :=
  s.cur.2 == .k && (isRel || h.push != 0) &&
  match s.popAll core .k (neighbours .k h.pop) with
  | none => false
  | some s1 => h.push != 0 || (s1.core core).guard .k h

/-- A release of K stalls until every write that its core's sequencers had issued at its first attempt has
been performed (R133, log 46). -/
def gated (legal : Seq → Bool) (isRel : Bool) (h : Hdr) (s : State) (run : State → Result) : Result :=
  let core := s.cur.1.val
  let w := (s.core core).unperformed
  if legal s.cur.2 && releases isRel core h s && !w.isEmpty then
    .next (s.heldFor w)
  else run s

/-- An effect of K that is a release only in some cases waits here (R133). -/
def releaseWait : M Unit := do
  let w := (← myCore).unperformed
  if w.isEmpty then pure () else stop (.held w)

/-- Run an instruction of a sequencer; isRel says whether its own effect is a release. -/
def runRel (isRel : Bool) (legal : Seq → Bool) (bytes : Nat) (parks : Bool) (h : Hdr) (body : M Go) (s : State) :
    Result :=
  gated legal isRel h s fun s => seqOutcome s ((issue legal bytes parks h body).run s)

/-- Run an instruction of a sequencer whose own effect is no release. -/
def runSeq (legal : Seq → Bool) (bytes : Nat) (parks : Bool) (h : Hdr) (body : M Go) (s : State) : Result :=
  runRel false legal bytes parks h body s

def onAny : Seq → Bool := fun _ => true
def onK : Seq → Bool := fun q => q == .k
def onC : Seq → Bool := fun q => q == .c
def onLS : Seq → Bool := fun q => q == .l || q == .s
def onKLS : Seq → Bool := fun q => q != .c
def onLCS : Seq → Bool := fun q => q != .k

/-- An instruction whose effect falls through. -/
def plain (f : M Unit) : M Go := do f; return {}

/-! ## Signals and retirement -/

/-- An increment of sequencer q reaches a semaphore of a core, with the copy of R150; place is the instruction's among
the issues of q. -/
def signal (q : Seq) (sem : BitVec 8) (inc : Nat) (ipc : Word) (place : Nat) (u : Undo) : M Unit := do
  let s ← get
  let core ← me
  let a : SemAdd := {
    sem := sem, inc := inc, by_ := q, remote := none, ipc := ipc, copy := s.signalCopy core q {}
    place := place, undo := u }
  set ((s.semAdd core a).flagCore core)

/-- One that waited acts: all of it, or, where a push overflows, none of it and its trap (R32, R192). It then counts its
pops as not taken. -/
def actLate (q : Seq) (pop push : BitVec 3) (pc : Word) (f : M Unit) : M (Option Trap) := do
  let s ← get
  if (s.pushAll s.cur.1.val q push none).isNone then
    modMe (·.undo q { pop := pop })
    return some { cause := 0x0B, ipc := pc }
  f
  modify fun s => (s.pushAll s.cur.1.val q push none).getD s
  return none

/-- The signals and the END of a sequencer that wait for its earlier commands (R197, R202): those that no live command
holds back act, in order, up to one that traps. n bounds their number. -/
def flushSeq (q : Seq) : Nat → M (Option Trap)
  | 0 => return none
  | n + 1 => do
    let x := (← myCore).seq q
    match x.sigs with
    | p :: r =>
      if x.live.any fun i => i < p.upto then return none
      else
        match ← actLate q p.pop p.push p.ipc (do
          modMe fun c => c.setSeq q { c.seq q with sigs := r }
          signal q p.sem p.inc p.ipc (2 * p.upto) { pop := p.pop, push := p.push }) with
        | some t => return some t
        | none => flushSeq q n
    | [] =>
      if x.cond == .ending && x.live.isEmpty then
        actLate q x.endPop x.endPush x.endPc (do
          modMe fun c => c.setSeq q { c.seq q with cond := .ended, endPush := 0, endPop := 0 }
          modify fun s => { s with endLog := (s.cur.1.val, q, x.endPush) :: s.endLog })
      else return none

/-- Whether a task has ended (R49): every sequencer has reached END and no command is left. -/
def CoreSt.ended (c : CoreSt) : Bool :=
  c.task.isSome && [Seq.k, .l, .c, .s].all (fun q => (c.seq q).cond == .ended) &&
  allUnits.all fun u => (c.unit u).isEmpty

/-- The end of a task is due when it has ended. -/
def checkOver : M Unit := do
  let s ← get
  if (s.core s.cur.1.val).ended then set (s.due (.taskEnd s.cur.1))

/-! ## Events -/

/-- An event that acts only when it is due (log 18): a state, or nothing. -/
def event (s : State) (r : Option State) : Result := .next (r.getD s)

/-- An operand field of a first doubleword (R162). -/
def fieldOf (w : Word) (f : RotFld) : Nat :=
  let x := Fields.unpack w
  match f with
  | .a => x.a.toNat | .b => x.b.toNat | .c => x.c.toNat

end Sys2Proof.Machine
end

