-- ==== Sys2Proof/Machine/CoilOps.lean ====
section
/-! DEFINITION. Machine/CoilOps: coil handles and descriptors, the buddy allocator, growth and the slot checks
(R330 to R336, R339). Blocks are named by their offset in the job's pool. -/

namespace Sys2Proof.Machine

/-! ## Handles -/

/-- Home die and index of a handle, as the descriptor's key (R330). -/
def coilKey (h : Word) : Nat := h.toNat % 2 ^ 20

def State.coilGeneration (s : State) (key : Nat) : BitVec 20 :=
  cget (if key = 0 then 1 else 0) s.memory.coilGen key

/-- The handle of a descriptor as it stands. -/
def State.coilHandle (s : State) (key : Nat) : Word :=
  BitVec.ofNat 64 ((s.coilGeneration key).toNat * 2 ^ 20 + key)

/-- The descriptor that a handle names (R330). -/
def State.coil? (s : State) (h : Word) : Option Coil :=
  if h.toNat / 2 ^ 20 = (s.coilGeneration (coilKey h)).toNat then cfind s.memory.coils (coilKey h) else none

def State.setCoil (s : State) (key : Nat) (c : Coil) : State :=
  { s with memory := { s.memory with coils := cput s.memory.coils key c } }

/-- The generation after a descriptor is freed: modulo 2^20, and for descriptor 0 of die 0 never 0 (R330). -/
def nextGen (key : Nat) (g : BitVec 20) : BitVec 20 := if key = 0 && g + 1 == 0 then 1 else g + 1

def State.freeCoil (s : State) (key : Nat) : State :=
  let g := nextGen key (s.coilGeneration key)
  { s with memory := { s.memory with
      coils := cerase s.memory.coils key
      coilGen := cset (if key = 0 then 1 else 0) s.memory.coilGen key g } }

/-- The lowest free descriptor of a die: 131,072 each (R330, R335). -/
def State.freeDescriptor (s : State) (die : Nat) : Option Nat :=
  let used := (s.memory.coils.filter fun p => p.1 / 131072 == die).map fun p => p.1 % 131072
  ((upFrom 0 (min 131072 (used.length + 1))).find? fun i => !used.contains i).map fun i => die * 131072 + i

/-! ## Slots -/

def Coil.capacity (c : Coil) : Nat := (c.extents.map (·.slots)).sum

def Coil.size (c : Coil) : Nat := 2 ^ c.log2

/-- Address of slot n over consecutive extents (R331). -/
def slotIn : List Extent → Nat → Option Word
  | [], _ => none
  | e :: r, n => if n < e.slots then some (e.base + BitVec.ofNat 64 (n * e.stride)) else slotIn r (n - e.slots)

/-- The coil fault traps (R334): reasons 8 and 9 are the exhaustion trap. -/
def coilTrap (reason : Nat) : Trap := { cause := if reason ≥ 8 then 0x12 else 0x11, reason := reason }

def coilFault {α : Type} (reason : Nat) : M α := trapWith (coilTrap reason)

/-- The descriptor, or reason 1. -/
def coilOf (h : Word) : M Coil := do
  match (← get).coil? h with
  | some c => return c
  | none => coilFault 1

/-- CoilCheck of R219 and R336: reasons 1, 2, 3. -/
def coilCheck (h n : Word) : M Coil := do
  let c ← coilOf h
  if n.toNat < c.c then coilFault 2
  if n.toNat ≥ c.r then coilFault 3
  return c

/-- CoilAddress: the address of a slot below R. -/
def coilAddr (c : Coil) (n : Word) : M Word :=
  match slotIn c.extents n.toNat with
  | some a => pure a
  | none => coilFault 3

/-! ## The buddy allocator (R332) -/

def orderBytes (k : Nat) : Nat := 2 ^ (16 + k)

/-- The lowest-addressed free block of an order. -/
def Pool.lowest (p : Pool) (k : Nat) : Option Nat := (p.free.find? fun b => b.2 == k).map (·.1)

/-- The smallest free order from j up, with its block. -/
def Pool.smallest (p : Pool) : Nat → Nat → Option (Nat × Nat)
  | 0, _ => none
  | n + 1, j =>
    match p.lowest j with
    | some b => some (b, j)
    | none => p.smallest n (j + 1)

/-- Split a block down to order k: the lower half is kept, each upper half is freed. -/
def splitTo (free : Cells Nat) (base k : Nat) : Nat → Cells Nat
  | 0 => free
  | n + 1 => splitTo (cput free (base + orderBytes (k + n)) (k + n)) base k n

/-- Allocate a block of order k. -/
def Pool.alloc (p : Pool) (k : Nat) : Option (Nat × Pool) :=
  (p.smallest (21 - k) k).map fun (b, j) =>
    (b, { free := splitTo (cerase p.free b) b k (j - k), used := cput p.used b (k, 1) })

/-- Put a block back: it merges with its buddy while the buddy is free, up to order 20. -/
def Pool.merge (free : Cells Nat) (base k : Nat) : Nat → Cells Nat
  | 0 => cput free base k
  | n + 1 =>
    let buddy := if base / orderBytes k % 2 = 0 then base + orderBytes k else base - orderBytes k
    if k < 20 && cfind free buddy == some k then
      Pool.merge (cerase free buddy) (min base buddy) (k + 1) n
    else cput free base k

/-- A block loses 1 from its reference count; a block whose count reaches 0 returns to the allocator
(R339). -/
def Pool.unref (p : Pool) (base : Nat) : Pool :=
  match cfind p.used base with
  | none => p
  | some (k, n) =>
    if n ≤ 1 then { free := Pool.merge p.free base k 21, used := cerase p.used base }
    else { p with used := cput p.used base (k, n - 1) }

/-- A block gains 1 (R338). -/
def Pool.ref (p : Pool) (base : Nat) : Pool :=
  match cfind p.used base with
  | none => p
  | some (k, n) => { p with used := cput p.used base (k, n + 1) }

/-- The free blocks of a new pool of 2^p bytes (R332). -/
def Pool.fresh (p : Nat) : Pool :=
  if p ≤ 36 then { free := [(0, p - 16)] }
  else { free := (upFrom 0 (2 ^ (p - 36))).map fun i => (i * orderBytes 20, 20) }

/-! ## Growth (R333) -/

/-- Order of the block that growth takes. -/
def growOrder (size cap need : Nat) : Nat :=
  let bytes := max 65536 (max (cap * size) ((need - cap) * size))
  min (log2Up 64 bytes) 36 - 16

/-- Grow(d, need); an error is the reason of its fault, and the number of extents at which it arose. -/
def growCoil (poolBase : Word) : Nat → Coil → Pool → Nat → Except (Nat × Nat) (Coil × Pool)
  | 0, c, _, _ => .error (5, c.extents.length)
  | fuel + 1, c, p, need =>
    if c.capacity ≥ need then .ok (c, p)
    else if c.extents.length ≥ 16 then .error (5, c.extents.length)
    else
      let k := growOrder c.size c.capacity need
      match p.alloc k with
      | none => .error (8, c.extents.length)
      | some (b, p') =>
        let e : Extent := ⟨poolBase + BitVec.ofNat 64 b, orderBytes k / c.size, c.size, b, false⟩
        growCoil poolBase fuel { c with extents := c.extents ++ [e] } p' need

/-- A pool once every release that is pending for the job has been made (R339). -/
def State.poolAfterReleases (s : State) (job : Nat) (p : Pool) : Pool :=
  (s.memory.dropped.filter fun d => d.job == job).foldl (fun p d => d.blocks.foldl Pool.unref p) p

/-- Growth in a job. An allocation that fails waits when the releases that are pending can satisfy it, whatever a later
one then meets; reason 8 is raised only when they cannot (R339). -/
def growIn (job : Nat) (c : Coil) (need : Nat) : M Coil := do
  let s ← get
  match s.job? job with
  | none => coilFault 8
  | some j =>
    match growCoil j.poolBase 18 c j.pool need with
    | .ok (c', p') => set (s.setJob job { j with pool := p' }); return c'
    | .error (8, n) =>
      match growCoil j.poolBase 18 c (s.poolAfterReleases job j.pool) need with
      | .ok _ => stall
      | .error (_, m) => if n < m then stall else coilFault 8
    | .error (r, _) => coilFault r

/-! ## Speculative reads and writes of coils (R391, R394) -/

/-- A speculative task that reads a coil's committed length adds it to the read set. -/
def readLength (h : Word) (c : Coil) : M Unit := do
  let s ← get
  if (s.specOn (← me)).isSome then
    setSpec fun x => if (cfind x.coilSet h.toNat).isSome then x
      else { x with coilSet := cput x.coilSet h.toNat c.c }

/-- Speculative launches that have read a coil are due for a discard with reason 3 (R394). -/
def State.coilTouched (s : State) (h : Word) : State :=
  s.discardAll (s.specKeys fun _ _ x => (cfind x.coilSet h.toNat).isSome) 3

end Sys2Proof.Machine
end

