-- ==== Sys2Proof/Machine/Common.lean ====
section
/-! DEFINITION. Machine/Common: the common instructions of R173 but WHEEL: stream control (R196 to R198),
value tokens (R199, R200), semaphores (R201, R202), fences (R132, R204), special registers (R205 to R207) and
breakpoints (R226). -/

namespace Sys2Proof.Machine

/-- Address of the instruction that the moving sequencer runs. -/
def myPc : M Word := do
  let q ← mySeq
  return ((← myCore).seq q).pc

/-- A doubleword offset from the instruction (R198). -/
def target {n : Nat} (pc : Word) (off : BitVec n) : Word := pc + off.signExtend 64 * 8

/-- Src(n) of R191. -/
def srcOf (r : BitVec 6) : M Word := do return (← myCore).src (← mySeq) r

def setDst (r : BitVec 6) (v : Word) : M Unit := do
  let q ← mySeq
  modMe (·.setSrc q r v)

/-! ## Stream control -/

/-- R196. -/
def execNop (h : Hdr) (s : State) : Result := runSeq onAny 8 false h (plain (pure ())) s

/-- R198. -/
def execBr (h : Hdr) (off : BitVec 18) (s : State) : Result :=
  runSeq onAny 8 false h (do return { next := some (target (← myPc) off) }) s

/-- R198. -/
def execJmp (h : Hdr) (off : BitVec 36) (s : State) : Result :=
  runSeq onAny 8 false h (do return { next := some (target (← myPc) off) }) s

/-- END (R197): it retires, and its pushes act, once every earlier instruction of its sequencer has
retired. -/
def endBody (pop push : BitVec 3) : M Go := do
  let q ← mySeq
  let pc ← myPc
  let x := (← myCore).seq q
  if x.live.isEmpty && x.sigs.isEmpty then
    modMe fun c => c.setSeq q { c.seq q with cond := .ended, endPc := pc }
    return {}
  else
    modMe fun c => c.setSeq q { c.seq q with cond := .ending, endPush := push, endPop := pop, endPc := pc }
    return { push := false }

/-- R197, R49. -/
def execEndStream (h : Hdr) (s : State) : Result :=
  gated onAny false h s fun s => seqOutcome s ((do issue onAny 8 false h (endBody h.pop h.push); checkOver).run s)

/-- R196. -/
def execTok (h : Hdr) (s : State) : Result := runSeq onAny 8 false h (plain (pure ())) s

/-! ## Value tokens -/

/-- R199. -/
def execPushv (h : Hdr) (target : Seq) (src : BitVec 6) (s : State) : Result :=
  runRel true onKLS 8 false h (do return { val := some (target, ← srcOf src) }) s

/-- Take the head of a FIFO as POPV does (R29, R200). -/
def takeValue (y : Seq) : M Word := do
  let s ← get
  let core ← me
  let q ← mySeq
  match s.popTok core q y with
  | none => stall
  | some (t, s') =>
    match t.val with
    | none => limitTrap
    | some v => set s'; return v

/-- R200. -/
def execPopv (h : Hdr) (dst : BitVec 6) (source : Seq) (s : State) : Result :=
  runSeq onKLS 8 false h (plain (do setDst dst (← takeValue source))) s

/-! ## Semaphores -/

/-- Wait for a threshold, and acquire (R34, R137, R150). -/
def waitSem (sem : BitVec 8) (t : Nat) : M Unit := do
  let s ← get
  let core ← me
  let q ← mySeq
  waitFor (s.semMet core sem t)
  modMe fun c => c.takeCopy q (s.semOldOf core sem).copy

/-- R202. -/
def execSwait (h : Hdr) (sem : BitVec 8) (thresh : BitVec 16) (s : State) : Result :=
  runSeq onAny 8 false h (plain (waitSem sem thresh.toNat)) s

/-- R202. -/
def execSwaitReg (h : Hdr) (sem : BitVec 8) (reg : BitVec 6) (s : State) : Result :=
  runSeq onKLS 8 false h (plain (do
    let v ← srcOf reg
    limitIf (v.toNat > 65535)
    waitSem sem v.toNat)) s

/-- SSIG (R202): applied once every earlier command of the sequencer has retired. -/
def ssigBody (sem inc : BitVec 8) (h : Hdr) : M Go := do
  let q ← mySeq
  let pc ← myPc
  let x := (← myCore).seq q
  if x.live.isEmpty && x.sigs.isEmpty then
    signal q sem inc.toNat pc (2 * x.issued) { pop := h.pop, push := h.push, seq := some (x.pc, x.wheel) }
    return {}
  else
    modMe fun c =>
      let x := c.seq q
      c.setSeq q { x with sigs := x.sigs ++ [⟨x.issued, sem, inc.toNat, h.pop, h.push, pc⟩] }
    return { push := false }

/-- R202. -/
def execSsig (h : Hdr) (sem : BitVec 8) (inc : BitVec 8) (s : State) : Result :=
  runRel true onAny 8 false h (ssigBody sem inc h) s

/-- SSET (R202, R203). -/
def ssetBody (sem : BitVec 8) (v : BitVec 16) : M Go := do
  let s ← get
  let core ← me
  let q ← mySeq
  set (s.semSet core q sem v)
  return {}

/-- R202. -/
def execSset (h : Hdr) (sem : BitVec 8) (value : BitVec 16) (s : State) : Result :=
  runSeq onAny 8 false h (ssetBody sem value) s

/-- R202. -/
def execSsetReg (h : Hdr) (sem : BitVec 8) (reg : BitVec 6) (s : State) : Result :=
  runSeq onKLS 8 false h (do
    let v ← srcOf reg
    limitIf (v.toNat > 65535)
    ssetBody sem (v.setWidth 16)) s

/-! ## Fences -/

/-- Every command that the moving sequencer issued earlier has retired. -/
def drained : M Unit := do
  let q ← mySeq
  waitFor ((← myCore).seq q).live.isEmpty

/-- R132: this machine performs the accesses of a sequencer's own instructions in program order, so a fence
of any kind and scope only waits for the sequencer's commands. -/
def execFence (h : Hdr) (_kind : FenceKind) (_scope : Scope) (s : State) : Result :=
  runSeq onAny 8 false h (plain drained) s

/-! ## Special registers -/

/-- The value of a special register (R206). -/
def State.sreg (s : State) (core : Nat) (r : SReg) : Word :=
  let c := s.core core
  let p := c.regs.sp
  match r with
  | .coreid => BitVec.ofNat 64 core
  | .argbase => p.argbase
  | .argptr => p.argptr
  | .entry => p.entry
  | .stage => p.stage
  | .jobid => p.jobid
  | .launchid => p.launchid
  | .cont => p.cont
  | .linkbase => p.linkbase
  | .tframe => p.tframe
  | .hvec => p.hvec
  | .cycle => BitVec.ofNat 64 s.cycle
  | .freeze => p.freeze
  | .epoch => BitVec.ofNat 64 ((s.epoch c.job core).toNat + if s.pending c.job core then 2 ^ 23 else 0)
  | .xvtab => p.xvtab
  | .xvpool => p.xvpool
  | .coretemp => p.coretemp.setWidth 64
  | .coredroop => p.coredroop.setWidth 64
  | .coreproc => p.coreproc.setWidth 64
  | .dietemp => (cget 0 s.mon.dietemp (dieOf core)).setWidth 64

/-- A speculative task parks at an MFS of argptr unless the launch's mask covers it (R392). -/
def argptrOpen (s : State) (core : Nat) : Bool :=
  match s.specOn core with
  | some (_, l, _) => l.smask.getLsbD 8
  | none => true

/-- A reading of a core's monitors, which no other step sets: nothing constrains it (log 5). -/
def sample (reg : SReg) : M Unit :=
  match reg with
  | .coretemp => do
    let w ← freeWord
    modMe fun c => { c with regs := { c.regs with sp := { c.regs.sp with coretemp := w.setWidth 16 } } }
  | .coredroop => do
    let w ← freeWord
    modMe fun c => { c with regs := { c.regs with sp := { c.regs.sp with coredroop := w.setWidth 16 } } }
  | .coreproc => do
    let w ← freeWord
    modMe fun c => { c with regs := { c.regs with sp := { c.regs.sp with coreproc := w.setWidth 16 } } }
  | .coreid | .argbase | .argptr | .entry | .stage | .jobid | .launchid | .cont | .linkbase | .tframe
  | .hvec | .cycle | .freeze | .epoch | .xvtab | .xvpool | .dietemp => pure ()

/-- R205. -/
def execMfs (h : Hdr) (dst : BitVec 6) (reg : SReg) (s : State) : Result :=
  runSeq onKLS 8 false h (plain (do
    let s ← get
    let core ← me
    if reg == .argptr && !argptrOpen s core then stop .spec
    sample reg
    let s ← get
    setDst dst (s.sreg core reg))) s

/-- The two registers that MTS writes, as they would be written; none for a value out of limit (R112,
R205). -/
def mtsValue (r : SReg) (v : Word) : Option Word :=
  match r with
  | .xvtab => if xvField v 14 14 > 12288 then none else some (v &&& 0xFFFFFFF)
  | .xvpool => if xvField v 28 14 > xvField v 14 14 then none else some (v &&& 0x3FFFFFFFFFF)
  | .coreid | .argbase | .argptr | .entry | .stage | .jobid | .launchid | .cont | .linkbase | .tframe
  | .hvec | .cycle | .freeze | .epoch | .coretemp | .coredroop | .coreproc | .dietemp => some v

/-- A special register is written: only xvtab and xvpool are writable (R206). -/
def CoreSt.setSreg (c : CoreSt) (r : SReg) (v : Word) : CoreSt :=
  match r with
  | .xvtab => { c with regs := { c.regs with sp := { c.regs.sp with xvtab := v } } }
  | .xvpool => { c with regs := { c.regs with sp := { c.regs.sp with xvpool := v } } }
  | .coreid | .argbase | .argptr | .entry | .stage | .jobid | .launchid | .cont | .linkbase | .tframe
  | .hvec | .cycle | .freeze | .epoch | .coretemp | .coredroop | .coreproc | .dietemp => c

/-- R205, R207: within a cycle the write of the highest sequencer index stands. The commands issued before keep the old
value, and every later access, of other sequencers too, goes by the new one, where R207 allows either (DESIGN CHOICE, log
92). -/
def execMts (h : Hdr) (reg : SReg) (src : BitVec 6) (s : State) : Result :=
  runSeq onKLS 8 false h (plain (do
    let v ← srcOf src
    let q ← mySeq
    let core ← me
    match mtsValue reg v with
    | none => limitTrap
    | some w =>
      let s ← get
      let higher := s.mtsLog.any fun e => e.1 == core && e.2.1 == reg && decide (q.idx < e.2.2.idx)
      if !higher then
        set { s with mtsLog := (core, reg, q) :: s.mtsLog }
        modMe (·.setSreg reg w))) s

/-! ## Breakpoints -/

/-- R226. -/
def execBrk (h : Hdr) (code : BitVec 16) (s : State) : Result :=
  runSeq onAny 8 false h (trapWith { cause := 0x14, code := code.toNat }) s

end Sys2Proof.Machine
end

