-- ==== Sys2Proof/Machine/Scalar.lean ====
section
/-! DEFINITION. Machine/Scalar: calls and indirect jumps (R216), loads and stores of K (R217 to R221), traps,
handlers and services (R222 to R225). -/

namespace Sys2Proof.Machine

/-! ## Calls -/

def xOf (r : BitVec 6) : M Word := do return (← myCore).x r

/-- R216. -/
def execCall (h : Hdr) (d : BitVec 6) (off : BitVec 18) (s : State) : Result :=
  runSeq onK 8 false h (do
    let pc ← myPc
    modMe (·.setX d (pc + 8))
    return { next := some (target pc off) }) s

/-- R216: the target is read before the link is written. -/
def execCallr (h : Hdr) (d b : BitVec 6) (s : State) : Result :=
  runSeq onK 8 false h (do
    let t ← xOf b
    aligned t 8
    let pc ← myPc
    modMe (·.setX d (pc + 8))
    return { next := some t }) s

/-- The jump of RET and JMPR (R216). -/
def jumpTo (b : BitVec 6) : M Go := do
  let t ← xOf b
  aligned t 8
  return { next := some t }

/-- R216. -/
def execRet (h : Hdr) (b : BitVec 6) (s : State) : Result := runSeq onK 8 false h (jumpTo b) s

/-- R216. -/
def execJmpr (h : Hdr) (b : BitVec 6) (s : State) : Result := runSeq onK 8 false h (jumpTo b) s

/-! ## Ordering of K's accesses -/

/-- A scope that contains the cluster or more (R127). -/
def wide : Scope → Bool
  | .seq | .core => false | .clu | .die | .dev | .sys => true

/-- An acquire at .clu or wider discards K's cache (R133). The acquiring read comes after it (log 19). -/
def discardFor (acq : Option Scope) : M Unit :=
  match acq with
  | some sc => if wide sc then modMe (·.dropCache) else pure ()
  | none => pure ()

/-- Where an access of K lands, as a sync word: none for scratchpad and argument block. -/
def syncPlace (cls : AClass) (kind : AKind) (va : Word) : M (Option SyncAt) := do
  let s ← get
  match s.locate (← me) cls kind va with
  | .ok (.dev pa slot _) => return some (.dev pa slot)
  | .ok (.sw b) => return some (.sw b)
  | .ok (.sp _ _) | .ok (.arg ..) | .error _ => return none

/-- What an acquiring read of K takes (R134, R150): the vector of a checked variable, or the entry of an
ingress agent that wrote through OI. -/
def acquireAt (a : SyncAt) : M Unit := do
  let s ← get
  let core ← me
  let s := s.acquireFrom core a
  set (match s.oiStamp a with
    | some t => s.acquireEntry core t.agent.toNat t.epoch
    | none => s)

/-- The effect of an acquire on the vectors. It comes before the read's own check of R151, which the entry of an
ingress agent is there to pass (DEDUCED, log 28). -/
def acquireOf (acq : Option Scope) (cls : AClass) (kind : AKind) (va : Word) : M Unit := do
  if acq.isSome then
    match ← syncPlace cls kind va with
    | some a => acquireAt a
    | none => pure ()

/-- The effect of a release on the vectors: into the variable, and the core's flag afterwards (R148, R150). -/
def releaseOf (rel : Option Scope) (va : Word) : M Unit := do
  if rel.isSome then
    let core ← me
    match ← syncPlace .store .write va with
    | some a => modify fun s => s.releaseInto core a
    | none => pure ()
    modify fun s => s.flagCore core

/-! ## Loads and stores -/

/-- A load of K that would deliver a poisoned byte traps (R193, R404). -/
def cleanRead (va : Word) (n : Nat) : M Word := do
  let (bs, bad) ← coreRead .load va n
  if bad then trapWith { cause := 0x0E }
  return BitVec.ofNat 64 (leNat bs)

/-- Width in bytes (R176). -/
def mBytes (w : MWidth) : Nat := 2 ^ w.log2.toNat

/-- A loaded value, extended as its type asks (R218). -/
def extend (w : MWidth) (v : Word) : Word :=
  if w.zext then v
  else match w.log2.toNat with
    | 0 => (v.setWidth 8).signExtend 64
    | 1 => (v.setWidth 16).signExtend 64
    | 2 => (v.setWidth 32).signExtend 64
    | _ => v

/-- The checks of R218 before the access. -/
def checkScalar (va : Word) (n : Nat) : M Unit := do
  aligned va n
  limitIf (pathOf va = 7 && n < 4)

/-- R218. -/
def execLd (h : Hdr) (acq : Option Scope) (w : MWidth) (d b : BitVec 6) (disp : BitVec 18) (s : State) :
    Result :=
  runSeq onK 8 false h (plain (do
    let va := (← xOf b) + disp.signExtend 64
    checkScalar va (mBytes w)
    discardFor acq
    acquireOf acq .load .read va
    let v ← cleanRead va (mBytes w)
    modMe (·.setX d (extend w v)))) s

/-- R218. -/
def execSt (h : Hdr) (rel : Option Scope) (w : MWidth) (src b : BitVec 6) (disp : BitVec 18) (s : State) :
    Result :=
  runRel rel.isSome onK 8 false h (plain (do
    let va := (← xOf b) + disp.signExtend 64
    checkScalar va (mBytes w)
    coreWrite .store .write va (leBytes (mBytes w) (← xOf src).toNat) false
    releaseOf rel va)) s

/-- R219. -/
def execStCoil (h : Hdr) (w : MWidth) (src b c : BitVec 6) (off : BitVec 18) (s : State) : Result :=
  runSeq onK 8 false h (plain (do
    let o := off.setWidth 64
    aligned o (mBytes w)
    let n ← xOf c
    let k ← coilCheck (← xOf b) n
    limitIf (o.toNat + mBytes w > k.size)
    let va := (← coilAddr k n) + o
    coreWrite .store .coil va (leBytes (mBytes w) (← xOf src).toNat) false)) s

/-- Read n doublewords, the lowest-addressed first (R220, R221). -/
def readWords (va : Word) : Nat → M (List Word)
  | 0 => return []
  | n + 1 => do
    let v ← cleanRead va 8
    return v :: (← readWords (va + 8) n)

/-- Write doublewords, the highest-addressed last (R221). -/
def writeWords (va : Word) : List Word → M Unit
  | [] => pure ()
  | v :: r => do
    coreWrite .store .write va (leBytes 8 v.toNat) false
    writeWords (va + 8) r

/-- The words of an STM are one write (R107): units of poison that it covers whole lose their marks (log 80). -/
def writeRun (va : Word) (l : List Word) : M Unit := do
  writeWords va l
  (wholeUnits va (8 * l.length)).forM (clearUnit .store .write)

/-- Registers f, f + 1, … take a list of values. -/
def CoreSt.setXs (c : CoreSt) (f : BitVec 6) : List Word → CoreSt
  | [] => c
  | v :: r => (c.setX f v).setXs (f + 1) r

/-- R220, R221: all or nothing. The first word's read is the acquire. -/
def execLdm (h : Hdr) (acq : Option Scope) (_zext : Bool) (f b cntM1 : BitVec 6) (disp : BitVec 18)
    (s : State) : Result :=
  runSeq onK 8 false h (plain (do
    let va := (← xOf b) + disp.signExtend 64
    aligned va 8
    discardFor acq
    acquireOf acq .load .read va
    let v ← cleanRead va 8
    let r ← readWords (va + 8) cntM1.toNat
    modMe (·.setXs f (v :: r)))) s

/-- R220, R221: all or nothing. The last word's write is the release. -/
def execStm (h : Hdr) (rel : Option Scope) (_zext : Bool) (f b cntM1 : BitVec 6) (disp : BitVec 18)
    (s : State) : Result :=
  runRel rel.isSome onK 8 false h (plain (do
    let va := (← xOf b) + disp.signExtend 64
    aligned va 8
    let c ← myCore
    writeRun va ((upFrom 0 (cntM1.toNat + 1)).map fun i => c.x (f + BitVec.ofNat 6 i))
    releaseOf rel (va + BitVec.ofNat 64 (8 * cntM1.toNat)))) s

/-! ## Traps, handlers and services -/

/-- R222. -/
def execTrap (h : Hdr) (code : BitVec 8) (s : State) : Result :=
  runSeq onK 8 false h (trapWith { cause := 0x13, code := code.toNat }) s

/-- R223. -/
def execHset (h : Hdr) (b : BitVec 6) (classes : BitVec 3) (s : State) : Result :=
  runSeq onK 8 false h (plain (do
    let t ← xOf b
    aligned t 8
    modMe fun c => { c with regs := { c.regs with sp := { c.regs.sp with
      hvec := t ||| classes.setWidth 64 } } })) s

/-- R224, R406: outside a handler it raises cause 0x03; inside it continues the cut. -/
def execResume (h : Hdr) (s : State) : Result :=
  runSeq onK 8 false h (do
    limitIf (!(← myCore).handler)
    doPush h none
    modMe CoreSt.leave
    modify fun s => match (s.core s.cur.1.val).preempt with
      | .none => s
      | .requested => s.due (.preemptionRequest s.cur.1)
      | .stopped | .timedOut => s.due (.contextSave s.cur.1)
    return { push := false, keep := true }) s

/-- The answer of a service (R225). -/
def service (s : State) (n : Nat) : Word :=
  match n with
  | 0 => Config.firmwareVersion
  | 1 => Config.nanoseconds s.cycle
  | _ => BitVec.allOnes 64

/-- R225: the answer arrives in the step that asks. -/
def execSysc (h : Hdr) (d _b : BitVec 6) (service : BitVec 12) (s : State) : Result :=
  runSeq onK 8 true h (plain (do
    let s ← get
    modMe (·.setX d (Machine.service s service.toNat)))) s

end Sys2Proof.Machine
end

