-- ==== Sys2Proof/Machine/WheelInstr.lean ====
section
/-! DEFINITION. Machine/WheelInstr: fetching an instruction (R96, R402) and WHEEL (R286, R287). -/

namespace Sys2Proof.Machine

/-! ## Fetch -/

/-- The page that an offset of a job lies in: its first offset and size, by its leaf (R98). -/
def State.pageOf (s : State) (job off : Nat) : Option (Nat × Nat) :=
  match s.job? job with
  | none => none
  | some j =>
    match walk (s.pteRead j.keySlot) off 3 j.root with
    | .error _ => none
    | .ok (_, lvl) => some (off / pageSize lvl * pageSize lvl, pageSize lvl)

/-- The trap of a fetch of a later doubleword: straddle says that the doubleword lies on the second page
(R402). -/
def straddling (s : State) (job : Nat) (start : Word) (t : Trap) : Trap :=
  match s.pageOf job (offOf start) with
  | some (lo, n) => { t with straddle := pathOf t.addr != pathOf start || decide (lo + n ≤ offOf t.addr) }
  | none => t

/-- Doublewords 1, 2, … of an instruction. -/
def fetchRest (start : Word) : Nat → Nat → M (List Word)
  | 0, _ => return []
  | n + 1, i => do
    let s ← get
    let job := (s.core (← me)).job
    let w ← fun s =>
      match (fetchWord (start + BitVec.ofNat 64 (8 * i))).run s with
      | .error (.trap t) => .error (.trap (straddling s job start t))
      | r => r
    return w :: (← fetchRest start n (i + 1))

/-- Every doubleword of the instruction at an address (R402). -/
def fetchWords (pc : Word) : M (List Word) := do
  let w ← fetchWord pc
  return w :: (← fetchRest pc (lenWords w - 1) 1)

/-- An instruction of the moving sequencer's stream, fetched and decoded (R171, R402). -/
def fetchInstr (pc : Word) : M Instr := do
  let ws ← fetchWords pc
  match decodeList (← mySeq) ws with
  | .ok i => return i
  | .error e => trapWith { cause := e.cause }

/-! ## Rotation -/

/-- One operand field of a first doubleword replaced (R162). -/
def setField (w : Word) (f : RotFld) (v : Nat) : Word :=
  let x := Fields.unpack w
  match f with
  | .a => { x with a := BitVec.ofNat 6 v }.pack
  | .b => { x with b := BitVec.ofNat 6 v }.pack
  | .c => { x with c := BitVec.ofNat 6 v }.pack

/-- A body instruction with some fields replaced. -/
def withFields (q : Seq) (i : Instr) (sets : List (RotFld × Nat)) : Except DecErr Instr :=
  match encode i with
  | [] => .ok i
  | w :: r => decodeList q (sets.foldl (fun w s => setField w s.1 s.2) w :: r)

/-- The instruction of a slot for iteration n (R287). -/
def rotated (q : Seq) (rots : List Rot) (pos n : Nat) (i : Instr) : Except DecErr Instr :=
  let w := (encode i).headD 0
  withFields q i ((rots.filter fun r => r.posM1.toNat == pos).map fun r =>
    (r.fld, fieldOf w r.fld + n % (r.lenM1.toNat + 1)))

/-- The largest value of a rotating field passes the field's range (R169, R286). A field that names a queue or a
latch stays in its own range. -/
def rotTooFar (q : Seq) (r : Rot) (i : Instr) : Bool :=
  let base := fieldOf ((encode i).headD 0) r.fld
  let top := base + r.lenM1.toNat
  let crosses := match i with
    | .tld _ _ _ (.q _) .. => r.fld == .a && decide (8 ≤ top)
    | _ => false
  crosses || decide (63 < top) || (withFields q i [(r.fld, top)]).toOption.isNone

/-! ## WHEEL -/

/-- What a wheel's body may not hold (R286). -/
def wheelRefuses : Instr → Bool
  | .wheel .. | .br .. | .jmp .. | .endStream .. | .brk .. | .attn .. | .attnm .. | .mfact .. | .pbind ..
  | .pbindTable .. => true
  | _ => false

/-- The body of n instructions from an address on: a fault in it has the body instruction's address (R286). -/
def fetchBody (pc : Word) : Nat → M (List (Word × Instr))
  | 0 => return []
  | n + 1 => do
    let i ← fun s =>
      match (fetchInstr pc).run s with
      | .error (.trap t) => .error (.trap { t with ipc := pc })
      | r => r
    return (pc, i) :: (← fetchBody (pc + BitVec.ofNat 64 (8 * (encode i).length)) n)

/-- The trip count (R168, R286). -/
def tripCount : Trip → M Nat
  | .imm n => return n.toNat
  | .reg r => do return (← srcOf (r.setWidth 6)).toNat
  | .token => do return (← takeValue .k).toNat

/-- Issue of a WHEEL (R286): the wheel starts at its first slot, or, with no trips, the sequencer goes on behind
the body. -/
def wheelBody (bodyM1 iiM1 : BitVec 6) (stagesM1 : BitVec 4) (trip : Trip) (rots : List Rot) : M Go := do
  let q ← mySeq
  let pc ← myPc
  let n ← tripCount trip
  let body ← fetchBody (pc + 32) (bodyM1.toNat + 1)
  limitIf (decide (2 ^ 32 ≤ n))
  limitIf (decide (body.length < stagesM1.toNat + 1))
  limitIf (body.any fun b => wheelRefuses b.2)
  limitIf (rots.any fun r => match body[r.posM1.toNat]? with | some b => rotTooFar q r b.2 | none => true)
  let w : Wheel :=
    { active := true, pc := pc, body := body, stages := stagesM1.toNat + 1, rots := rots, trip := n
      ii := iiM1.toNat + 1 }
  if n = 0 then return { next := some w.after }
  else
    modMe fun c =>
      let x := c.seq q
      c.setSeq q { x with wheel := w, pc := pc + 32, stalled := false, relWait := none, pushPark := false }
    return { keep := true }

/-- R286. -/
def execWheel (h : Hdr) (bodyM1 iiM1 : BitVec 6) (stagesM1 : BitVec 4) (trip : Trip) (rots : List Rot)
    (s : State) : Result :=
  runSeq onLCS 32 false h (wheelBody bodyM1 iiM1 stagesM1 trip rots) s

end Sys2Proof.Machine
end

