-- ==== Sys2Proof/Machine/Waiting.lean ====
section
/-! DEFINITION. Machine/Waiting: parked sequencers (R57), continuation records (R58 to R60), and the end of a
task that waits. -/

namespace Sys2Proof.Machine

/-- Iterations of a wheel that have begun and not finished (R57, R287). -/
def Wheel.inFlight (w : Wheel) : Bool :=
  let lo := max w.i0 (w.step - (w.stages - 1))
  let hi := min w.trip (if w.pos > 0 then w.step + 1 else w.step)
  w.active && decide (lo < hi)

/-- The wheel itself moves the sequencer next: a saved wheel that goes on, or a squashed slot (R287, R288). -/
def Wheel.goesOn (w : Wheel) : Bool := w.drained || (w.active && w.iter.isNone)

/-- The sync field of an instruction, and the FIFO that it takes a value token from. -/
def syncField : Instr → Option (Hdr × Option Seq)
  | .popv h _ y => some (h, some y)
  | .wheel h _ _ _ .token _ => some (h, some .k)
  | i =>
    match encode i with
    | [] => none
    | w :: _ => some ((Fields.unpack w).hdr, none)

/-- The instruction that a sequencer would issue next, found without effect: in a wheel the slot's instruction with its
rotated fields (R287); none where the slot is squashed, or the fetch or the decoding would trap. -/
def State.peek (s : State) (core : Nat) (q : Seq) : Option Instr :=
  let x := (s.core core).seq q
  let w := x.wheel
  if w.active then do
    let n ← w.iter
    let b ← w.body[w.pos]?
    (rotated q w.rots w.pos n b.2).toOption
  else
    match (fetchInstr x.pc).run { s with cur := (if h : core < 448 then ⟨core, h⟩ else 0, q) } with
    | .ok (i, _) => some i
    | .error _ => none

/-- A PARK point (R57): the sequencer stalls at an instruction that pops a token from K, because that token, or another
that the instruction pops, is not there; a stall there on a semaphore or a full queue is none (DESIGN CHOICE, log 91). A
POPV or a WHEEL whose guard is false takes no value token (R33). -/
def State.atPark (s : State) (core : Nat) (q : Seq) : Bool :=
  match (s.peek core q).bind syncField with
  | none => false
  | some (h, v) =>
    let ys := neighbours q h.pop
    let v := if (s.core core).guard q h then v else none
    (ys.contains .k || v == some .k) &&
    (match s.popAll core q ys with
      | none => true
      | some s1 => match v with
        | some y => ((s1.core core).fifo (fifoIdx y q)).isEmpty
        | none => false)

/-- R57: the sequencer has reached END, or stands at a PARK point with nothing in flight. -/
def State.parkedAt (s : State) (core : Nat) (q : Seq) : Bool :=
  let x := (s.core core).seq q
  match x.cond with
  | .ended | .ending => true
  | .idle => false
  | .run => x.live.isEmpty && x.sigs.isEmpty && !x.wheel.inFlight && !x.wheel.goesOn && s.atPark core q

/-- K stalls until L, C and S are parked (R57). -/
def waitParked : M Unit := do
  let s ← get
  let core ← me
  waitFor ([Seq.l, .c, .s].all (s.parkedAt core))

/-- What else the end of the task waits for: every command has retired, and every END with it (R49). -/
def waitRetired : M Unit := do
  let c ← myCore
  waitFor ([Seq.l, .c, .s].all (fun q => (c.seq q).cond != .ending) && allUnits.all fun u => (c.unit u).isEmpty)

/-- A waiting instruction is refused while a handler runs (R405), and its live mask is checked (R59). -/
def checkWaiting (mask : Word) : M Unit := do
  limitIf (← myCore).handler
  limitIf (mask.getLsbD 0 || decide ((upFrom 0 64).countP (fun i => mask.getLsbD i) > 24))

/-- Resume address of a parked sequencer: its END again, or its PARK point (R60). -/
def CoreSt.resumePc (c : CoreSt) (q : Seq) : Word :=
  let x := c.seq q
  match x.cond with
  | .ended | .ending => x.endPc
  | .run | .idle => x.pc

/-- The live registers, in ascending order (R58). -/
def CoreSt.liveXs (c : CoreSt) (mask : Word) : List Word :=
  ((upFrom 0 64).filter fun i => mask.getLsbD i).map fun i => c.x (BitVec.ofNat 6 i)

/-- A number kept for a launch. -/
def kfind {α : Type} (d : α) (m : List ((Nat × Nat) × α)) (k : Nat × Nat) : α :=
  match m.find? fun e => e.1 == k with | some e => e.2 | none => d

def kset {α : Type} (m : List ((Nat × Nat) × α)) (k : Nat × Nat) (v : α) : List ((Nat × Nat) × α) :=
  if m.any fun e => e.1 == k then m.map fun e => if e.1 = k then (k, v) else e else m ++ [(k, v)]

/-- Core-cycles that the task on a core has occupied since the last re-division step (R54). -/
def State.occupied (s : State) (core : Nat) : Nat :=
  match (s.core core).task with
  | some t => s.cycle - Nat.max t.placed (cget {} s.disp (dieOf core)).lastStep
  | none => 0

/-- The core-cycles of a task that leaves its core. -/
def State.charge (s : State) (core : Nat) : State :=
  match (s.core core).task with
  | none => s
  | some t =>
    let d := dieOf core
    let x := cget {} s.disp d
    let k := (t.job, t.launch)
    if x.ring.contains k then
      { s with disp := cset {} s.disp d { x with busy := kset x.busy k (kfind 0 x.busy k + s.occupied core) } }
    else s

/-- The end of a task on a core (R49, R134, R148, R150): its release into the launch vector; the core is
left. counted says whether the launch's counter gains 1 (R36). -/
def State.leaveTask (s : State) (core : Nat) : State :=
  match (s.core core).task with
  | none => s
  | some t =>
    let s := s.modLaunch t.job t.launch fun l =>
      { l with vector := s.released core l.vector, counter := l.counter + 1 }
    let s := ((s.flagCore core).charge core).modCore core CoreSt.vacate
    (s.coreLeft core).checkLaunch t.job t.launch

/-- The continuation records that a die's sync engine SRAM of 8 MiB and overflow area of 64 MiB hold at 256 bytes each
(R2, R58; log 65). -/
def contCap : Nat := 0x4800000 / 256

/-- Continuation records that a die holds: those of the launches whose first die it is (R58). -/
def State.contsOn (s : State) (die : Nat) : Nat :=
  (s.jobs.map fun j => (j.2.launches.map fun l =>
    if l.2.dieSet.headD 0 = die then l.2.conts.length else 0).sum).sum

/-- A record of the moving task's launch has room; else K stalls (R321). -/
def waitRecord : M Unit := do
  let s ← get
  match (s.core (← me)).task.bind fun t => s.launch? t.job t.launch with
  | some l => waitFor (s.contsOn (l.dieSet.headD 0) < contCap)
  | none => pure ()

/-- The task ends with a continuation record, once its commands have retired and there is room for the record (R49,
R57, R58). The enqueue sequence number counts the launch's continuations of every kind, from 0; an SQPUSH that blocks again
takes a new one (DESIGN CHOICE, log 91). -/
def endWaiting (kind : Nat) (kpc mask : Word) (st : ContState) : M Nat := do
  waitRetired
  waitRecord
  let s ← get
  let core ← me
  let c := s.core core
  match c.task with
  | none => return 0
  | some t =>
    match s.job? t.job with
    | none => return 0
    | some j =>
      let id := j.contIds
      let k : Cont := {
        id := id, kpc := kpc, lpc := c.resumePc .l, cpc := c.resumePc .c, spc := c.resumePc .s
        live := mask, stage := t.stage, kind := kind, origin := core, entry := t.entry, seq := 0
        xs := c.liveXs mask, args := t.args, own := t.own, state := st }
      let s := s.setJob t.job { j with contIds := id + 1 }
      let s := s.modLaunch t.job t.launch fun l =>
        { l with conts := l.conts ++ [{ k with seq := l.enq }], enq := l.enq + 1 }
      set (s.leaveTask core)
      return id

/-- The instruction has ended its task: nothing is left to push or to advance. -/
def gone : Go := { push := false, keep := true }

end Sys2Proof.Machine
end

