-- ==== Sys2Proof/Machine/SyncInstr.lean ====
section
/-! DEFINITION. Machine/SyncInstr: atomics (R315 to R320), waiting and signalling (R321 to R323), barriers
(R324 to R328) and alias fences (R329). -/

namespace Sys2Proof.Machine

/-- The refusal of a path that an entry does not accept (R95, R313). -/
def pathGuard (ok : Nat → Bool) (kind : AKind) (va : Word) : M Unit :=
  let p := pathOf va
  if p = 3 || p ≥ 10 then trapWith (xtrap kind 0 va)
  else if ok p then pure ()
  else trapWith (xtrap kind 8 va)

/-- G, N, the constant path or LS: where lists, entries, packets and tables are read. -/
def listPath (p : Nat) : Bool := p == 0 || p == 1 || p == 2 || p == 4

def gOrSw (p : Nat) : Bool := p == 0 || p == 7

/-- The word of an atomic, wait or signal (R313, R316). -/
def atomicAt (kind : AKind) (va : Word) (n : Nat) : M SyncAt := do
  aligned va n
  pathGuard gOrSw kind va
  let s ← get
  match s.syncAt (s.core (← me)).job va kind with
  | .ok a => return a
  | .error r => trapWith (xtrap kind r va)

/-- A barrier's word lies in the sync window (R324). -/
def barrierAt (va : Word) : M SyncAt := do
  aligned va 8
  pathGuard (· == 7) .write va
  match swByte (offOf va) with
  | some b => return .sw b
  | none => trapWith (xtrap .write 1 va)

/-- After an atomic on a G address the line leaves K's cache (R320). -/
def dropAtomic (a : SyncAt) : M Unit :=
  match a with
  | .dev pa _ => modMe (·.dropLine (pa / 128))
  | .sw _ | .arg .. => pure ()

/-- The ordering of an atomic that K issues: acquire, and release (R135, R150). -/
def orderAtomic (a : SyncAt) (acq rel : Bool) : M Unit := do
  let core ← me
  if acq then modify fun s => s.acquireFrom core a
  if rel then modify fun s => (s.releaseInto core a).flagCore core

def isAcq : AmOrd → Bool | .none => false | .acq _ | .rel _ => true
def isRel : AmOrd → Bool | .none | .acq _ => false | .rel _ => true
def ordScope : AmOrd → Option Scope | .none => none | .acq sc | .rel sc => some sc

/-- One atomic of K at its home: f gives the new value, or none for no write. The old value is the answer.
A word with its poison mark set is written only by AMRED and AVEC (R320). -/
def coreAtomic (a : SyncAt) (w4 marked : Bool) (f : Word → Option Word) (acq rel : Bool) : M Word := do
  let s ← get
  let n := wBytes w4
  if !marked && s.syncPoison a n then trapWith { cause := 0x0E, reason := 2 }
  let o := s.syncRead a n
  match f o with
  | some v =>
    set (s.syncWrite a n v)
    orderAtomic a acq rel
    modify fun s => s.testAfter a n
  | none => orderAtomic a acq false
  dropAtomic a
  return o

/-! ## Atomics -/

/-- R316. -/
def execAmo (h : Hdr) (op : AmoOp) (ord : AmOrd) (w4 : Bool) (d b c : BitVec 6) (s : State) : Result :=
  runRel (isRel ord) onK 8 true h (plain (do
    let a ← atomicAt .write (← xOf b) (wBytes w4)
    let v ← xOf c
    discardFor (ordScope ord)
    let o ← coreAtomic a w4 false (fun o => some (amoNewW op w4 o v)) (isAcq ord) (isRel ord)
    modMe (·.setX d o))) s

/-- R317. -/
def execAmoc (h : Hdr) (ord : AmOrd) (w4 : Bool) (a b c : BitVec 6) (s : State) : Result :=
  runRel (isRel ord) onK 8 true h (plain (do
    let p ← atomicAt .write (← xOf b) (wBytes w4)
    let e ← xOf a
    let v ← xOf c
    discardFor (ordScope ord)
    let o ← coreAtomic p w4 false (fun o => if o = lowW w4 e then some v else none) (isAcq ord) (isRel ord)
    modMe (·.setX a o))) s

/-- R318. -/
def execAmred (h : Hdr) (op : AmOp) (rel : Option Scope) (w4 : Bool) (b c : BitVec 6) (s : State) : Result :=
  runRel rel.isSome onK 8 true h (plain (do
    let a ← atomicAt .write (← xOf b) (wBytes w4)
    let v ← xOf c
    let _ ← coreAtomic a w4 true (fun o => some (amoNewW (.plain op) w4 o v)) false rel.isSome)) s

/-- n doublewords of a list, entry or table (R319, R341, R343, R347). Their poison ends nothing (R404, log 82). -/
def readList (va : Word) : Nat → M (List Word)
  | 0 => return []
  | n + 1 => do
    pathGuard listPath .read va
    let (bs, _) ← coreRead .load va 8
    return BitVec.ofNat 64 (leNat bs) :: (← readList (va + 8) n)

/-- Target and operand of a list entry (R319). -/
def avecTarget (bits : Bool) (x e : Word) : Word × Word :=
  if bits then (x + 8 * (e >>> 6), BitVec.twoPow 64 (e.toNat % 64)) else (e, x)

/-- The places of AVEC's targets, all translated before anything is performed. -/
def avecPlaces (bits : Bool) (x : Word) : List Word → M (List (SyncAt × Word))
  | [] => return []
  | e :: r => do
    let (t, v) := avecTarget bits x e
    let a ← atomicAt .write t 8
    return (a, v) :: (← avecPlaces bits x r)

/-- R319. -/
def execAvec (h : Hdr) (isAdd bits : Bool) (rel : Option Scope) (cntM1 : BitVec 6) (b c : BitVec 6)
    (s : State) : Result :=
  runRel rel.isSome onK 8 true h (plain (do
    let l ← xOf b
    let x ← xOf c
    aligned l 8
    if bits then do
      aligned x 8
      pathGuard gOrSw .write x
    let es ← readList l (cntM1.toNat + 1)
    let ps ← avecPlaces bits x es
    let op : AmOp := if isAdd then .add else .or
    ps.forM fun (a, v) => do
      let _ ← coreAtomic a false true (fun o => some (amNew op o v)) false rel.isSome)) s

/-! ## Waiting and signalling -/

/-- R321. -/
def execWaita (h : Hdr) (cond : Cond) (w4 : Bool) (a b c : BitVec 6) (s : State) : Result :=
  runSeq onK 8 true h (do
    let mask ← xOf c
    checkWaiting mask
    let va ← xOf b
    aligned va (wBytes w4)
    waitParked
    let p ← atomicAt .read va (wBytes w4)
    let s ← get
    if s.syncPoison p (wBytes w4) then trapWith { cause := 0x0E, reason := 2 }
    let v := lowW w4 (← xOf a)
    let pc ← myPc
    let t := (s.core (← me)).task
    let holds := condW cond w4 (s.syncRead p (wBytes w4)) v
    let id ← endWaiting 1 (pc + 8) mask .waiting
    match t with
    | none => pure ()
    | some t =>
      let s ← get
      if holds then set (s.readyCont t.job t.launch id (s.waitAcq p))
      else
        let w : Waiter := ⟨p.isSw, p.byte, p.keySlot, va, .cond cond w4 v, t.job, t.launch, id, p.fixed⟩
        set { s with memory := { s.memory with waiters := s.memory.waiters ++ [w] } }
    return gone) s

/-- R323: a release at .dev. -/
def execSiga (h : Hdr) (b : BitVec 6) (s : State) : Result :=
  runRel true onK 8 true h (plain (do
    let a ← atomicAt .write (← xOf b) 4
    orderAtomic a false true
    modify fun s => s.testAt a)) s

/-! ## Barriers (R324) -/

structure Barrier where
  phase : BitVec 16
  drops : BitVec 16
  arrived : BitVec 16
  expect : BitVec 16
  deriving DecidableEq, Repr

def Barrier.ofWord (w : Word) : Barrier :=
  ⟨w.extractLsb' 48 16, w.extractLsb' 32 16, w.extractLsb' 16 16, w.extractLsb' 0 16⟩

def Barrier.word (b : Barrier) : Word := b.phase ++ b.drops ++ b.arrived ++ b.expect

/-- One member of a group arrives (R326): the barrier afterwards, and whether its phase is complete. -/
def Barrier.arrive (b : Barrier) (isDrop : Bool) : Barrier × Bool :=
  let b := if isDrop then { b with drops := b.drops + 1 } else b
  let b := { b with arrived := b.arrived + 1 }
  if b.arrived = b.expect then
    ({ expect := b.expect - b.drops, drops := 0, arrived := 0, phase := b.phase + 1 }, true)
  else (b, false)

/-- The BARW continuations that wait on a phase of a barrier (R326, R327). -/
def State.phaseWaiters (s : State) (place : Nat) (t : Option (BitVec 16)) : List Waiter :=
  s.memory.waiters.filter fun w => w.sw && w.place == place &&
    (match w.waits with | .phase p => (match t with | some q => p == q | none => true) | .cond .. => false)

/-- R325. -/
def execBari (h : Hdr) (b c : BitVec 6) (s : State) : Result :=
  runSeq onK 8 true h (plain (do
    let a ← barrierAt (← xOf b)
    let n ← xOf c
    limitIf (n = 0 || decide (n.toNat > 65535))
    let s ← get
    limitIf (!(s.phaseWaiters a.byte none).isEmpty)
    set ((s.syncWrite a 8 n).testAfter a 8))) s

/-- BARA and BARD (R326, R328): a release at .dev; the phase in which the member counted becomes the task's
arrival record. -/
def arriveAt (b : BitVec 6) (isDrop : Bool) : M Unit := do
  let va ← xOf b
  let a ← barrierAt va
  let s ← get
  let w := Barrier.ofWord (s.syncRead a 8)
  limitIf (w.expect == 0)
  let (w', done) := w.arrive isDrop
  set (s.syncWrite a 8 w'.word)
  orderAtomic a false true
  modMe fun c => { c with arrival := some (va, w.phase) }
  if done then
    modify fun s =>
      let ws := s.phaseWaiters a.byte (some w.phase)
      let s := { s with memory := { s.memory with
        waiters := s.memory.waiters.filter fun x => !ws.contains x } }
      ws.foldl (fun s x => s.readyCont x.job x.launch x.cont (s.waitAcq a)) s
  modify fun s => s.testAfter a 8

/-- R326. -/
def execBara (h : Hdr) (b : BitVec 6) (s : State) : Result :=
  runRel true onK 8 true h (plain (arriveAt b false)) s

/-- R326. -/
def execBard (h : Hdr) (b : BitVec 6) (s : State) : Result :=
  runRel true onK 8 true h (plain (arriveAt b true)) s

/-- R327. -/
def execBarw (h : Hdr) (b c : BitVec 6) (s : State) : Result :=
  runSeq onK 8 true h (do
    let mask ← xOf c
    checkWaiting mask
    let va ← xOf b
    let a ← barrierAt va
    waitParked
    let s ← get
    let core ← me
    let w := Barrier.ofWord (s.syncRead a 8)
    let t := match (s.core core).arrival with
      | some (p, ph) => if p = va then ph else w.phase
      | none => w.phase
    if w.phase != t || w.expect == 0 then
      discardFor (some .dev)
      orderAtomic a true false
      return {}
    else
      let pc ← myPc
      let k := (s.core core).task
      let id ← endWaiting 2 (pc + 8) mask .waiting
      match k with
      | none => pure ()
      | some k => modify fun s =>
          let x : Waiter := ⟨true, a.byte, 0, va, .phase t, k.job, k.launch, id, none⟩
          { s with memory := { s.memory with waiters := s.memory.waiters ++ [x] } }
      return gone) s

/-! ## Alias fences -/

/-- The copies of an address's covered range leave the core (R329): K's cached lines. -/
def coverRange (va : Word) : M Unit := do
  pathGuard (fun p => p == 0 || p == 1 || p == 2 || p == 4 || p == 5 || p == 6) .read va
  let s ← get
  match pathOf va with
  | 0 | 1 | 2 =>
    match s.locate (← me) .load .read va with
    | .ok (.dev pa _ _) => modMe (·.dropLine (pa / 128))
    | .ok (.sp _ _) | .ok (.sw _) | .ok (.arg ..) => pure ()
    | .error r => trapWith (xtrap .read r va)
  | 4 => if offOf va > 0x17FFFF then trapWith (xtrap .read 1 va) else pure ()
  | 5 => if offOf va > 0xBFFFFF then trapWith (xtrap .read 1 va) else pure ()
  | _ => pure ()

/-- R329. Every access that happens before an instruction of K has been performed when it issues: a sequencer's own
accesses are performed as it issues them, in the order of R130, and a token or signal of a command acts at its retirement
(R136, log 46). It then acts as FENCE.full.core. -/
def execAfence (h : Hdr) (b c : BitVec 6) (s : State) : Result :=
  runSeq onK 8 false h (plain (do
    coverRange (← xOf b)
    coverRange (← xOf c)
    drained)) s

end Sys2Proof.Machine
end

