-- ==== Sys2Proof/Machine/CoilInstr.lean ====
section
/-! DEFINITION. Machine/CoilInstr: the coil instructions of K (R335 to R340). -/

namespace Sys2Proof.Machine

/-- The job of the moving core's task. -/
def myJob : M Nat := do return (← myCore).job

/-- A new descriptor on the issuing core's die, or reason 9 (R334, R335). -/
def newDescriptor (c : Coil) : M Word := do
  let s ← get
  match s.freeDescriptor (dieOf (← me)) with
  | none => coilFault 9
  | some key => set (s.setCoil key c); return s.coilHandle key

/-- R335. -/
def execCnew (h : Hdr) (d : BitVec 6) (size : BitVec 4) (s : State) : Result :=
  runSeq onK 8 true h (plain (do
    let k ← newDescriptor { job := ← myJob, log2 := size.toNat + 6 }
    modMe (·.setX d k))) s

/-- R335. -/
def execCres (h : Hdr) (d b c : BitVec 6) (s : State) : Result :=
  runSeq onK 8 true h (plain (do
    let k ← xOf b
    let n ← xOf c
    let co ← coilOf k
    limitIf (n = 0 || decide (n.toNat > 2 ^ 30))
    let co' ← growIn co.job co (co.r + n.toNat)
    modify fun s => s.setCoil (coilKey k) { co' with r := co.r + n.toNat }
    modMe (·.setX d (BitVec.ofNat 64 co.r)))) s

/-- The address of a slot: reason 1, then reason 3 (R335). -/
def caddrOf (k n : Word) : M Word := do
  let co ← coilOf k
  if n.toNat ≥ co.r then coilFault 3
  coilAddr co n

/-- R335. -/
def execCaddr (h : Hdr) (d b c : BitVec 6) (s : State) : Result :=
  runSeq onK 8 false h (plain (do
    let a ← caddrOf (← xOf b) (← xOf c)
    modMe (·.setX d a))) s

/-- Shift committed slots out of the bitmap (R337). -/
def commitRun : Nat → Nat → BitVec 1024 → Nat × BitVec 1024
  | 0, c, m => (c, m)
  | n + 1, c, m => if m.getLsbD 0 then commitRun n (c + 1) (m >>> 1) else (c, m)

/-- n ones from bit i up. -/
def onesFrom (i n : Nat) : BitVec 1024 := (BitVec.allOnes 1024 >>> (1024 - n)) <<< i

/-- The commit of n slots from slot x, or the trap of the first failing check (R337). -/
def commitCoil (co : Coil) (n x : Nat) : Except Trap Coil :=
  if n = 0 then .error { cause := 3 }
  else if x < co.c then .error (coilTrap 2)
  else if x + n > co.r then .error (coilTrap 3)
  else if x + n > co.c + 1024 then .error (coilTrap 4)
  else if (co.bitmap &&& onesFrom (x - co.c) n) != 0 then .error (coilTrap 6)
  else
    let r := commitRun 1024 co.c (co.bitmap ||| onesFrom (x - co.c) n)
    .ok { co with c := r.1, bitmap := r.2 }

/-- R337: a release at .dev into the descriptor. -/
def execCcommit (h : Hdr) (a b c : BitVec 6) (s : State) : Result :=
  runRel true onK 8 true h (plain (do
    let k ← xOf b
    let n ← xOf a
    let x ← xOf c
    let co ← coilOf k
    match commitCoil co n.toNat x.toNat with
    | .error t => trapWith t
    | .ok co' =>
      let core ← me
      modify fun s =>
        let s := s.setCoil (coilKey k) { co' with vector := s.released core co.vector }
        (s.flagCore core).coilTouched k)) s

/-- An acquire at .dev from a descriptor (R134, R150). -/
def acquireCoil (co : Coil) : M Unit := do
  discardFor (some .dev)
  let core ← me
  modify fun s => s.acquired core co.vector

/-- R335. -/
def execClen (h : Hdr) (d b : BitVec 6) (s : State) : Result :=
  runSeq onK 8 false h (plain (do
    let k ← xOf b
    let co ← coilOf k
    readLength k co
    acquireCoil co
    modMe (·.setX d (BitVec.ofNat 64 co.c)))) s

/-- The extents that hold a slot below f, the last cut to end at f (R338). -/
def forkExtents : List Extent → Nat → List Extent
  | [], _ => []
  | e :: r, f =>
    if f = 0 then []
    else { e with slots := min e.slots f, shared := true } :: forkExtents r (f - e.slots)

/-- A CFORK of an extent whose block holds a page of a speculative launch's sets discards it (R394). -/
def State.forkDiscards (s : State) (job : Nat) (es : List Extent) : State :=
  match s.job? job with
  | none => s
  | some j =>
    s.discardAll (s.specKeys fun k _ x => k == job && es.any fun e =>
      match cfind j.pool.used e.block with
      | some (o, _) => x.vpages.any fun p =>
          overlaps (p.1 * 65536) 65536 (j.poolBase.toNat + e.block) (orderBytes o)
      | none => false) 4

/-- R338. -/
def execCfork (h : Hdr) (d b c : BitVec 6) (s : State) : Result :=
  runSeq onK 8 true h (plain (do
    let k ← xOf b
    let f ← xOf c
    let co ← coilOf k
    if f.toNat > co.c then coilFault 7
    let es := forkExtents co.extents f.toNat
    let child ← newDescriptor {
      job := co.job, log2 := co.log2, r := f.toNat, c := f.toNat, extents := es, parent := k
      f := f.toNat, vector := co.vector }
    acquireCoil co
    modify fun s =>
      (s.modJob co.job fun j => { j with pool := es.foldl (fun p e => p.ref e.block) j.pool }).forkDiscards
        co.job es
    modMe (·.setX d child))) s

/-- R339: the descriptor is freed at once; its blocks await the stores that have passed their checks. -/
def execCdrop (h : Hdr) (b : BitVec 6) (s : State) : Result :=
  runSeq onK 8 true h (plain (do
    let k ← xOf b
    let co ← coilOf k
    modify fun s =>
      let s := (s.freeCoil (coilKey k)).coilTouched k
      let n := s.memory.nextDrop
      let x : Dropped := { id := n, handle := k, job := co.job, blocks := co.extents.map (·.block) }
      let s := { s with memory := { s.memory with dropped := s.memory.dropped ++ [x], nextDrop := n + 1 } }
      s.due (.coilBlockRelease n))) s

/-- The half word of extent i (R340). -/
def extentInfo (p : Pool) (es : List Extent) (i : Nat) : Nat :=
  match es[i]? with
  | none => 0
  | some e =>
    match cfind p.used e.block with
    | none => 0
    | some (k, n) => e.block / 65536 % 2 ^ 23 + k * 2 ^ 23 + min n 15 * 2 ^ 28

/-- The word of R340. -/
def coilInfo (co : Coil) (p : Pool) (w : Nat) : Word :=
  match w with
  | 0 => BitVec.ofNat 64 ((co.log2 - 6) + co.extents.length * 2 ^ 4 +
      (co.extents.countP (·.shared)) * 2 ^ 9)
  | 1 => BitVec.ofNat 64 co.r
  | 2 => BitVec.ofNat 64 co.c
  | 3 => co.parent
  | 4 => BitVec.ofNat 64 co.f
  | 5 => co.bitmap.setWidth 64
  | 6 => BitVec.ofNat 64 ((upFrom 0 1024).countP fun i => co.bitmap.getLsbD i)
  | 7 => BitVec.ofNat 64 co.capacity
  | _ => BitVec.ofNat 64 (extentInfo p co.extents (2 * (w - 8)) + extentInfo p co.extents (2 * (w - 8) + 1) * 2 ^ 32)

/-- R340. -/
def execCinfo (h : Hdr) (d b : BitVec 6) (word : BitVec 4) (s : State) : Result :=
  runSeq onK 8 false h (plain (do
    let co ← coilOf (← xOf b)
    let s ← get
    let p := match s.job? co.job with | some j => j.pool | none => {}
    modMe (·.setX d (coilInfo co p word.toNat)))) s

end Sys2Proof.Machine
end

