-- ==== Sys2Proof/Machine/Operands.lean ====
section
/-! DEFINITION. Machine/Operands: map registers and their walks (R167, R233 to R235), queues and their elements
(R237, R255), and reading and writing one element of a tile (R239, R240, R246, R249). -/

namespace Sys2Proof.Machine

/-! ## Maps -/

/-- A map register, its fields read out (R167, R233). -/
structure MapV where
  ext : List Nat
  stride : List Int
  ring : Nat
  len : Nat
  start : Nat
  deriving DecidableEq, Repr, Inhabited

def MapReg.view (m : MapReg) : MapV :=
  let p := m.payload.toNat
  { ext := (upFrom 0 5).map fun l => p / 2 ^ (13 * l) % 2 ^ 13 + 1
    stride := (upFrom 0 5).map fun l => toInt true 22 (p / 2 ^ (65 + 22 * l))
    ring := p / 2 ^ 175 % 8
    len := p / 2 ^ 178 % 2 ^ 14 + 1
    start := m.start.toNat }

/-- The number of elements (R236). -/
def MapV.count (m : MapV) : Nat := m.ext.foldl (· * ·) 1

/-- Two places of a list exchanged. -/
def exch {α : Type} [Inhabited α] (l : List α) (x y : Nat) : List α :=
  (l.set x (l.getD y default)).set y (l.getD x default)

/-- Swap of R234. -/
def MapV.swap (m : MapV) (x y : Nat) : MapV :=
  { m with
    ext := exch m.ext x y
    stride := exch m.stride x y
    ring := if m.ring = x then y else if m.ring = y then x else m.ring }

/-- The indices of element n, level 0 innermost (R234). -/
def digits : List Nat → Nat → List Nat
  | [], _ => []
  | e :: r, n => n % e :: digits r (n / e)

def MapV.digits (m : MapV) (n : Nat) : List Nat := Machine.digits m.ext n

/-- j of R234: the indices with the ring applied. -/
def MapV.ringed (m : MapV) (n : Nat) : List Nat :=
  let i := m.digits n
  if m.ring ≤ 4 then i.set m.ring ((i.getD m.ring 0 + m.start) % m.len) else i

def dot : List Nat → List Int → Int
  | i :: r, s :: t => (i : Int) * s + dot r t
  | _, _ => 0

/-- off(n) of R234, in elements. -/
def MapV.off (m : MapV) (n : Nat) : Int := dot (m.ringed n) m.stride

/-- idx(n) of R234. -/
def idxOf (l : List Nat) : Idx :=
  let g (i : Nat) : BitVec 16 := BitVec.ofNat 16 (l.getD i 0)
  ⟨g 0, g 1, g 2, g 3, g 4⟩

def MapV.idx (m : MapV) (n : Nat) : Idx := idxOf (m.digits n)

/-- addr(n) of R234: the byte in which the element's first bit stands. -/
def elemAddr (base : Word) (off : Int) (bits : Nat) : Word := base + BitVec.ofInt 64 (off * bits / 8)

/-- First bit of an element within its first byte: not 0 only for the packed MX types (R72, R235). -/
def elemShift (off : Int) (bits : Nat) : Nat := (off * bits % 8).toNat

/-- Bytes that hold an element. -/
def elemBytes (off : Int) (bits : Nat) : Nat := (elemShift off bits + bits + 7) / 8

/-- The block of an element (R235). -/
def blockOf (off : Int) : Int := off / 32

/-- Address of the scale byte of an element's block. -/
def scaleAddr (sbase : Word) (off : Int) : Word := sbase + BitVec.ofInt 64 (blockOf off)

/-- The conditions that R235 puts on a map and a base used with an MX type. -/
def mxMapOk (m : MapV) (base : Word) : Bool :=
  m.stride.getD 0 0 == 1 && m.ext.getD 0 1 % 32 == 0 && (m.stride.drop 1).all (fun s => s % 32 == 0) &&
  m.ring != 0 && base.toNat % 8 == 0

/-- The checks of R236 that every tile instruction makes. -/
def mapOk (m : MapV) : Bool := decide (m.count ≤ 2 ^ 32)

/-! ## Queues -/

/-- The head element leaves a queue. -/
def CoreSt.takeElem (c : CoreSt) (i : Nat) : Option (QElem × CoreSt) :=
  let q := c.queue i
  match q.elems with
  | [] => none
  | e :: r =>
    some (e, (c.setQueue i { elems := r, head := q.head + BitVec.ofNat 17 e.ty.bits &&& 0x1FFFF }).countPop
      (queueWord i))

/-- Stall until a queue has room for an element of a type, then put it. -/
def putWhenRoom (i : Nat) (e : QElem) : M Unit := do
  waitFor (((← myCore).queue i).fits e.ty)
  modMe (·.putElem i e)

/-- Pop n elements, or stall while there are fewer. -/
def popElems (i : Nat) : Nat → M (List QElem)
  | 0 => return []
  | n + 1 => do
    match (← myCore).takeElem i with
    | none => stall
    | some (e, c) =>
      modMe fun _ => c
      return e :: (← popElems i n)

/-! ## Element faults -/

/-- The trap of a fault that stops a command at element n (R103, R239). -/
def Trap.atElem (t : Trap) (n : Nat) (i : Idx) : Trap := { t with cursor := n, elem := n, idx := i }

/-- An action on behalf of element n: its traps cut the command there. -/
def atElem {α : Type} (n : Nat) (i : Idx) (m : M α) : M α := fun s =>
  match m.run s with
  | .error (.trap t) => .error (.trap (t.atElem n i))
  | r => r

/-- An address of a walk carries the path code of its base (R239). -/
def samePath (kind : AKind) (base va : Word) : M Unit :=
  if pathOf va = pathOf base then pure () else trapWith (xtrap kind 1 va)

/-- A base on a path that a tile instruction may not use raises the fault of R95; XV may be used unless a rule
shuts it out. -/
def tilePath (kind : AKind) (xvOk : Bool) (va : Word) : M Unit := do
  let p := pathOf va
  if p = 3 || p ≥ 10 then trapWith (xtrap kind 0 va)
  else if !AClass.tile.permits p || (p = 6 && !xvOk) then trapWith (xtrap kind 8 va)

/-- 64 KiB regions that bytes of device memory lie in (R103). -/
def regionsOf (va : Word) (n : Nat) : List Nat := if pathOf va ≤ 1 then blocksOf 65536 va.toNat n else []

/-! ## Reading -/

/-- An element as it is read: its bits, poison bit, and the scale of its block (R240). -/
structure Read where
  bits : Nat
  poison : Bool
  scale : Byte
  deriving DecidableEq, Repr, Inhabited

/-- How bytes of a tile are read: by a core, or by Kiln for a transform (R385). The kind is write where the bytes are
read to be written back changed (R95). -/
abbrev ByteReader := AKind → Word → Nat → M (List Byte × Bool)

/-- A core's read of tile bytes (R242). -/
def coreTile : ByteReader := fun kind va n => do
  tilePath kind true va
  tileRead va n kind

/-- The bits of one element and its poison (R239, R240). -/
def readBits (rd : ByteReader) (base : Word) (off : Int) (ty : Ty) : M (Nat × Bool) := do
  let va := elemAddr base off ty.bits
  let n := elemBytes off ty.bits
  samePath .read base va
  if !ty.isMx then alignedAt va (min n 8)
  let (bs, bad) ← rd .read va n
  return (leNat bs / 2 ^ elemShift off ty.bits % 2 ^ ty.bits, bad)

/-- The scale byte of an element's block (R235): the block's first element in the order of the walk reads it (R239). -/
def readScale (rd : ByteReader) (sbase : Word) (off : Int) (x : Cmd) : M ((Byte × Bool) × Cmd) := do
  let va := scaleAddr sbase off
  match x.scaleAt.filter (·.1 == va) with
  | some e => return (e.2, x)
  | none =>
    samePath .read sbase va
    let (bs, bad) ← rd .read va 1
    let e := (bs.getD 0 0, bad)
    return (e, { x with scaleAt := some (va, e) })

/-- An element with its block's scale: a poisoned scale poisons the elements of the block (R240). sbase is
none where nothing names the scales. -/
def readElem (rd : ByteReader) (base : Word) (sbase : Option Word) (off : Int) (ty : Ty) (x : Cmd) :
    M (Read × Cmd) := do
  let (v, bad) ← readBits rd base off ty
  match sbase with
  | some sb =>
    if ty.isMx then
      let (e, x) ← readScale rd sb off x
      return (⟨v, bad || e.2, e.1⟩, x)
    else return (⟨v, bad, 127⟩, x)
  | none => return (⟨v, bad, 127⟩, x)

/-- Entry i of an index list (R249). The poison of its bytes has no effect: the spec gives poison to elements alone (R240,
R404; DESIGN CHOICE, log 82). -/
def readEntry (list : Word) (i : Nat) : M Nat := do
  let va := list + BitVec.ofNat 64 (4 * i)
  samePath .read list va
  let (bs, _) ← coreTile .read va 4
  return leNat bs

/-- off(n) with the index of a level replaced by its entry (R249). -/
def gatherOff (m : MapV) (list : Word) (lvl n : Nat) : M Int := do
  let e ← readEntry list ((m.digits n).getD lvl 0)
  return dot ((m.ringed n).set lvl e) m.stride

/-- off(n) of a command in execution: an entry is read by the first element of those in a row that use it (R239). -/
def walkOff (m : MapV) (lvl n : Nat) (x : Cmd) : M (Int × Cmd) := do
  let i := (m.digits n).getD lvl 0
  let (e, x) ← match x.entryAt.filter (·.1 == i) with
    | some e => pure (e.2, x)
    | none => do
      let e ← readEntry x.idxBase i
      pure (e, { x with entryAt := some (i, e) })
  return (dot ((m.ringed n).set lvl e) m.stride, x)

/-- Region of entry i of an index list. -/
def entryRegion (list : Word) (i : Nat) : List Nat := regionsOf (list + BitVec.ofNat 64 (4 * i)) 4

/-! ## Writing -/

/-- Enter the slot of n bytes from byte b of a coil store on: its check and its address (R219, R246). Bytes that pass the
end of their slot exceed its size. -/
def enterSlot (handle slot : Word) (b : Int) (n : Nat) : M CoilSlot := do
  limitIf (b < 0)
  let c ← coilOf handle
  let i := slot + BitVec.ofNat 64 (b.toNat / c.size)
  let c ← coilCheck handle i
  limitIf (c.size < b.toNat % c.size + n)
  return ⟨i, ← coilAddr c i, c.size⟩

/-- The slot of n bytes from byte b on: a slot is checked once, when the store enters it, and a commit or a drop after that
does not undo the write (R336). A store that comes back to a slot which it has left enters it again, and checks it again
(DESIGN CHOICE, log 95). -/
def slotOf (handle slot : Word) (b : Int) (n : Nat) (now : Option CoilSlot) : M CoilSlot :=
  match now with
  | some k =>
    if 0 ≤ b && slot + BitVec.ofNat 64 (b.toNat / k.size) == k.num then do
      limitIf (k.size < b.toNat % k.size + n)
      return k
    else enterSlot handle slot b n
  | none => enterSlot handle slot b n

/-- Bytes to be written, each with the poison bit of its element (R240). -/
abbrev Marked := List (Byte × Bool)

def marked (bs : List Byte) (poison : Bool) : Marked := bs.map fun b => (b, poison)

/-- Write bytes of plain memory, word by word: a word that holds a poisoned byte is marked (R107, R111). -/
def walkBytes (kind : AKind) (va : Word) (bs : Marked) : M Unit :=
  (wordPieces va bs.length).forM fun (a, n) => do
    let w := (bs.drop (a - va).toNat).take n
    coreWrite .tile kind a (w.map (·.1)) (w.any (·.2))

/-- The bits from i to i + n − 1 of a mask of 64. -/
def maskRun (i n : Nat) : BitVec 64 := BitVec.ofNat 64 ((2 ^ n - 1) * 2 ^ i)

/-- The bytes that a command has written of a unit of b bytes, once it has written some more from address va (R107,
R111): a mask, or none once a poisoned byte is among them. -/
def coverUnit (b : Nat) (va : Word) (bs : Marked) (old : BitVec 64) (u : Nat) : Option (BitVec 64) :=
  let lo := max va.toNat (u * b)
  let hi := min (va.toNat + bs.length) (u * b + b)
  if ((bs.drop (lo - va.toNat)).take (hi - lo)).any (·.2) then none
  else some (old ||| maskRun (lo - u * b) (hi - lo))

/-- The command's elements are one write (R107, log 80): a unit of poison that it has covered whole, without poison,
loses its mark. clear says how a unit loses it. -/
def coverBytes (clear : Word → M Unit) (x : Cmd) (va : Word) (bs : Marked) : M Cmd :=
  match poisonUnit va with
  | none => pure x
  | some b => (blocksOf b va.toNat bs.length).foldlM (fun x u =>
    match coverUnit b va bs (cget 0 x.cover u) u with
    | none => pure { x with cover := cset 0 x.cover u 0 }
    | some m =>
      if m = maskRun 0 b then do
        clear (BitVec.ofNat 64 (u * b))
        pure { x with cover := cset 0 x.cover u 0 }
      else pure { x with cover := cset 0 x.cover u m }) x

/-! ## Writers of one word (R160) -/

/-- Bytes o to o + n − 1 of a word. -/
def byteMask (o n : Nat) : BitVec 8 := BitVec.ofNat 8 ((2 ^ n - 1) * 2 ^ o)

/-- A command writes bytes m of a word: of two commands that write it, the one that came to it later has its bytes. What
those that came before have of m is lost to them, and what the command itself has lost is told (R160, log 94). -/
def joinWriters (id : Nat) (m : BitVec 8) : List Part → List Part × BitVec 8
  | [] => ([⟨id, 0⟩], 0)
  | p :: r =>
    if p.cmd = id then (p :: r, p.lost)
    else
      let (l, lost) := joinWriters id m r
      ({ p with lost := p.lost ||| m } :: l, lost)

/-- A command among the writers of a word has a name, and notes the word; nextCmd is the next name. -/
def Cmd.named (x : Cmd) (nextCmd w : Nat) : Cmd :=
  { x with id := if x.id = 0 then nextCmd else x.id, words := if x.words.contains w then x.words else w :: x.words }

/-- The next name, once a command has been named. -/
def State.useName (s : State) (x : Cmd) : State :=
  { s with memory := { s.memory with nextCmd := if x.id = 0 then s.memory.nextCmd + 1 else s.memory.nextCmd } }

/-- A command comes to a word of memory with bytes m: it has a name from then on. -/
def State.joinWord (s : State) (w : Nat) (m : BitVec 8) (x : Cmd) : State × Cmd × BitVec 8 :=
  let y := x.named s.memory.nextCmd w
  let (l, lost) := joinWriters y.id m (cget [] s.memory.parts w)
  let s := s.useName x
  ({ s with memory := { s.memory with parts := cset [] s.memory.parts w l } }, y, lost)

/-- The bytes of a piece of unchecked device memory that a command has lost (R160). -/
def takeAt (pa n : Nat) (x : Cmd) : M (Cmd × List Bool) := do
  let (s, x, lost) := (← get).joinWord (pa / 8) (byteMask (pa % 8) n) x
  set s
  return (x, (upFrom (pa % 8) n).map lost.getLsbD)

/-- The same for a command of a speculative launch, whose bytes go to the sagger: the word's writers are those of the
launch (R391). -/
def takeSpec (y : Spec) (pa n : Nat) (x : Cmd) : M (Cmd × List Bool) := do
  let s ← get
  let w := pa / 8
  let x' := x.named s.memory.nextCmd w
  let (l, lost) := joinWriters x'.id (byteMask (pa % 8) n) (cget [] y.parts w)
  set (s.useName x)
  setSpec fun y => { y with parts := cset [] y.parts w l }
  return (x', (upFrom (pa % 8) n).map lost.getLsbD)

/-- The bytes of a piece that a command of a core has lost. -/
def takeWord (kind : AKind) (va : Word) (n : Nat) (x : Cmd) : M (Cmd × List Bool) := do
  match ← placeAt .tile kind va with
  | .dev pa _ false =>
    match (← get).specOn (← me) with
    | some (_, _, y) => takeSpec y pa n x
    | none => takeAt pa n x
  | .dev _ _ true | .sp .. | .sw _ | .arg .. => return (x, List.replicate n false)

/-- Words' writers without a command. -/
def Cmd.leave (x : Cmd) (m : Cells (List Part)) : Cells (List Part) :=
  x.words.foldl (fun m w => cset [] m w ((cget [] m w).filter fun p => p.cmd != x.id)) m

/-- The command is no longer among the writers of its words: it does not come back to them. -/
def State.leaveWords (s : State) (x : Cmd) : State :=
  { s with memory := { s.memory with parts := x.leave s.memory.parts } }

/-- Bytes of an element of a tile command come to memory, but for those that a command that came to their word later has
written (R160); a unit of poison that the command has covered whole is then clear (R107, R111). take, put and clear are
what the command's agent does with the words, the bytes and a unit. -/
def storeWith (take : Word → Nat → Cmd → M (Cmd × List Bool)) (put : Word → Marked → M Unit) (clear : Word → M Unit)
    (x : Cmd) (va : Word) (bs : Marked) : M Cmd := do
  let (x, lost) ← (wordPieces va bs.length).foldlM (fun (p : Cmd × List Bool) a => do
    let (x, l) ← take a.1 a.2 p.1
    return (x, p.2 ++ l)) (x, [])
  if !lost.any id then put va bs
  else (bs.zip lost).zipIdx.forM fun b => if b.1.2 then pure () else put (va + BitVec.ofNat 64 b.2) [b.1.1]
  coverBytes clear x va ((bs.zip lost).map fun b => (b.1.1, b.1.2 || b.2))

/-- A core's write of such bytes. -/
def storeBytes (kind : AKind) : Cmd → Word → Marked → M Cmd :=
  storeWith (takeWord kind) (walkBytes kind) (clearUnit .tile kind)

/-- Write the bytes of an element or a block from position b of a coil store on. -/
def coilBytes (handle slot : Word) (b : Int) (bs : Marked) (x : Cmd) : M Cmd := do
  let k ← slotOf handle slot b bs.length x.slot
  let va := k.addr + BitVec.ofNat 64 (b.toNat % k.size)
  let x ← storeBytes .coil x va bs
  return { x with slot := some k, regions := regionsOf va bs.length ++ x.regions }

/-- The unit whose command a port belongs to (R290). MA and MD belong to the matrix engine. -/
def portUnit : Port → CUnit
  | .ma | .md => .mat
  | .ri | .ro => .red
  | .pi | .po => .pass
  | .ci | .co => .copy

end Sys2Proof.Machine
end

