-- ==== Sys2Proof/Machine/Ports.lean ====
section
/-! DEFINITION. Machine/Ports: port programs (R290 to R312): instances, carry chains, the element operations, and
the outputs of a pass. Each operation acts on the element pass; an engine runs a whole pass within one step,
and an operation that is run by itself acts on the pass that ppass holds. -/

namespace Sys2Proof.Machine

/-! ## Registers and faults of a pass -/

/-- Registers 0 to 7 are e0 to e7, 8 to 15 k0 to k7 (R292). -/
def Pass.reg (p : Pass) (c : BitVec 4) : PReg :=
  if c.toNat < 8 then p.es.getD c.toNat {} else p.inst.ks.getD (c.toNat - 8) {}

def Pass.setReg (p : Pass) (c : BitVec 4) (v : PReg) : Pass :=
  if c.toNat < 8 then { p with es := p.es.set c.toNat v }
  else { p with inst := { p.inst with ks := p.inst.ks.set (c.toNat - 8) v } }

/-- Conditions are ORed into the element's record (R298). -/
def Pass.note (p : Pass) (fl : Flags) : Pass := { p with cond := p.cond ||| fl }

/-- The port element fault (R309). -/
def Pass.fault (p : Pass) (reason code : Nat) : Trap :=
  { cause := 0x0D, reason := reason, code := code, elem := p.inst.count, idx := p.elem.idx
    port := p.port.idx, slot := p.inst.slot, pos := p.pos, chain := p.inst.chain }

/-- What an operation does to the pass. -/
abbrev PassOp := Pass → Except Trap Pass

/-- A result of one source (R298). -/
def unary (d a : BitVec 4) (f : Nat → Nat × Flags) : PassOp := fun p =>
  let x := p.reg a
  let r := f x.bits.toNat
  .ok ((p.setReg d ⟨BitVec.ofNat 32 r.1, x.poison⟩).note r.2)

/-- A result of two sources. -/
def binary (d a b : BitVec 4) (f : Nat → Nat → Nat × Flags) : PassOp := fun p =>
  let x := p.reg a
  let y := p.reg b
  let r := f x.bits.toNat y.bits.toNat
  .ok ((p.setReg d ⟨BitVec.ofNat 32 r.1, x.poison || y.poison⟩).note r.2)

/-- A result of two integers, which records nothing (R306). -/
def integer (d a b : BitVec 4) (f : BitVec 32 → BitVec 32 → BitVec 32) : PassOp := fun p =>
  let x := p.reg a
  let y := p.reg b
  .ok (p.setReg d ⟨f x.bits y.bits, x.poison || y.poison⟩)

/-- An FP32 value. -/
def val32 (a : Nat) : FVal := unpackF fmt32 a

/-! ## The operations -/

/-- R299. -/
def passFadd (d a b : BitVec 4) : PassOp := binary d a b fun x y => addF fmt32 (val32 x) (val32 y)
/-- R299. -/
def passFsub (d a b : BitVec 4) : PassOp := binary d a b fun x y => addF fmt32 (val32 x) (val32 y).neg
/-- R299. -/
def passFmul (d a b : BitVec 4) : PassOp := binary d a b fun x y => mulF fmt32 (val32 x) (val32 y)

/-- R299. -/
def passFfma (d a b c : BitVec 4) : PassOp := fun p =>
  let x := p.reg a
  let y := p.reg b
  let z := p.reg c
  let r := fmaF fmt32 (val32 x.bits.toNat) (val32 y.bits.toNat) (val32 z.bits.toNat)
  .ok ((p.setReg d ⟨BitVec.ofNat 32 r.1, x.poison || y.poison || z.poison⟩).note r.2)

/-- R299, R91. -/
def passFmax (d a b : BitVec 4) : PassOp := binary d a b fun x y => (minmaxF fmt32 true x y, 0)
/-- R299, R91. -/
def passFmin (d a b : BitVec 4) : PassOp := binary d a b fun x y => (minmaxF fmt32 false x y, 0)
/-- R300. -/
def passFabs (d a : BitVec 4) : PassOp := unary d a fun x => (x % 2 ^ 31, 0)
/-- R300. -/
def passFneg (d a : BitVec 4) : PassOp := unary d a fun x => (x ^^^ 2 ^ 31, 0)

/-- The conditions of R301. -/
def fcond (c : FCond) (x y : FVal) : Bool :=
  let un := x.isNan || y.isNan
  match c with
  | .eq => !un && cmpV x y == .eq
  | .ne => un || cmpV x y != .eq
  | .lt => !un && cmpV x y == .lt
  | .le => !un && cmpV x y != .gt
  | .gt => !un && cmpV x y == .gt
  | .ge => !un && cmpV x y != .lt
  | .uo => un
  | .ord => !un

/-- R301. -/
def passFcmp (d a b : BitVec 4) (c : FCond) : PassOp :=
  binary d a b fun x y => (if fcond c (val32 x) (val32 y) then 2 ^ 32 - 1 else 0, 0)

/-- R302. -/
def passFsel (d a b c : BitVec 4) : PassOp := fun p =>
  let x := p.reg a
  let y := if x.bits = 0 then p.reg c else p.reg b
  .ok (p.setReg d ⟨y.bits, x.poison || y.poison⟩)

/-- R303. -/
def passFrcp (d a : BitVec 4) : PassOp := unary d a frcp32
/-- R303. -/
def passFrsq (d a : BitVec 4) : PassOp := unary d a frsq32
/-- R303. -/
def passFexp2 (d a : BitVec 4) : PassOp := unary d a fexp2_32
/-- R303. -/
def passFlog2 (d a : BitVec 4) : PassOp := unary d a flog2_32

def CvtMode.mode : CvtMode → RMode
  | .rne => .rne | .rtz => .rtz | .rup => .rup | .rdn => .rdn

/-- FCVT of R304 on 32 bits. -/
def fcvt32 (t : CvtTy) (r : CvtMode) (a : Nat) : Nat × Flags :=
  let m := CvtMode.mode r
  match t with
  | .i32 => roundInt true 32 m 0 (val32 a)
  | .n32 => roundInt false 32 m 0 (val32 a)
  | .f16 =>
    let x := roundV fmt16 m .none 0 (val32 a)
    (widen fmt16 fmt32 x.1, x.2)
  | .bf16 =>
    let x := roundV fmtB16 m .none 0 (val32 a)
    (widen fmtB16 fmt32 x.1, x.2)
  | .f32 => roundV fmt32 m .none 0 (intV (toInt true 32 a))

/-- R304. -/
def passFcvt (d a : BitVec 4) (t : CvtTy) (r : CvtMode) : PassOp := unary d a (fcvt32 t r)

/-- Clamp(floor(x), 0, 255) of R305. -/
def tableIndex : FVal → Nat
  | .nan => 0
  | .inf s => if s then 0 else 255
  | .fin s m e =>
    if s then 0
    else min 255 (if 0 ≤ e then m * 2 ^ (min e 9).toNat else m / 2 ^ (-e).toNat)

/-- R305. -/
def passTbl (d a : BitVec 4) (t : BitVec 2) : PassOp := fun p =>
  let x := p.reg a
  let v := val32 x.bits.toNat
  if v.isNan then .error (p.fault 2 0)
  else match cfind p.inst.tables t.toNat with
    | none => .error (p.fault 3 t.toNat)
    | some tab => .ok (p.setReg d ⟨tab.getD (tableIndex v) 0, x.poison⟩)

/-- R306. -/
def passIadd (d a b : BitVec 4) : PassOp := integer d a b (· + ·)
/-- R306. -/
def passIsub (d a b : BitVec 4) : PassOp := integer d a b (· - ·)
/-- R306. -/
def passImul (d a b : BitVec 4) : PassOp := integer d a b (· * ·)
/-- R306. -/
def passIand (d a b : BitVec 4) : PassOp := integer d a b (· &&& ·)
/-- R306. -/
def passIor (d a b : BitVec 4) : PassOp := integer d a b (· ||| ·)
/-- R306. -/
def passIxor (d a b : BitVec 4) : PassOp := integer d a b (· ^^^ ·)
/-- R306. -/
def passIshl (d a b : BitVec 4) : PassOp := integer d a b fun x y => x <<< (y.toNat % 32)
/-- R306. -/
def passIshr (d a b : BitVec 4) : PassOp := integer d a b fun x y => x >>> (y.toNat % 32)
/-- R307. -/
def passKld (d a : BitVec 4) : PassOp := fun p => .ok (p.setReg d (p.reg a))
/-- R307. -/
def passKst (d a : BitVec 4) : PassOp := fun p => .ok (p.setReg d (p.reg a))

/-- R295: each LAG keeps its own history, newest first. -/
def passLag (d a : BitVec 4) (dist : BitVec 2) : PassOp := fun p =>
  let h := cget [] p.inst.hist p.pos
  let v := h.getD (dist.toNat - 1) {}
  let p := { p with inst := { p.inst with hist := cset [] p.inst.hist p.pos ((p.reg a :: h).take 3) } }
  .ok (p.setReg d (if dist.toNat ≤ h.length then v else {}))

/-- An output of the pass before its conversion back: a register's bits and poison with indices (R308). -/
def Pass.take (p : Pass) (a : BitVec 4) (i : Idx) : QElem :=
  let x := p.reg a
  { ty := p.elem.ty, bits := x.bits.setWidth 128, scale := p.elem.scale, poison := x.poison, idx := i }

/-- R308. -/
def passEmit (a : BitVec 4) : PassOp := fun p => .ok { p with emits := p.emits ++ [p.take a p.elem.idx] }

def idxList (i : Idx) : List Nat := [i.i0.toNat, i.i1.toNat, i.i2.toNat, i.i3.toNat, i.i4.toNat]

/-- Indices with the levels below n set to 0. -/
def idxFrom (n : Nat) (i : Idx) : Idx := idxOf (List.replicate n 0 ++ (idxList i).drop n)

/-- R308: only at the last element of the chain. -/
def passEmitLast (a : BitVec 4) : PassOp := fun p =>
  if p.lastOfChain then
    .ok { p with emits := p.emits ++ [p.take a (idxFrom (p.inst.prog.carry + 1) p.elem.idx)] }
  else .ok p

/-- R308. -/
def passTap (a : BitVec 4) (q : BitVec 3) : PassOp := fun p =>
  .ok { p with taps := p.taps ++ [(q.toNat, p.take a p.elem.idx)] }

/-- R308. -/
def passDrop (a : BitVec 4) : PassOp := fun p =>
  let x := p.reg a
  if x.poison then .error (p.fault 5 0x1D)
  else .ok { p with drop := p.drop || x.bits != 0 }

/-- R308. -/
def passEflt (a : BitVec 4) (code : BitVec 7) : PassOp := fun p =>
  let x := p.reg a
  if x.poison then .error (p.fault 5 0x1E)
  else if x.bits != 0 then .error (p.fault 0 code.toNat)
  else .ok p

/-- R308. -/
def passEfltFp (mask : BitVec 5) : PassOp := fun p =>
  if p.cond &&& mask != 0 then .error (p.fault 1 (p.cond &&& mask).toNat) else .ok p

/-- The operation of an element word. -/
def passOp : Instr → PassOp
  | .fadd d a b => passFadd d a b
  | .fsub d a b => passFsub d a b
  | .fmul d a b => passFmul d a b
  | .ffma d a b c => passFfma d a b c
  | .fmax d a b => passFmax d a b
  | .fmin d a b => passFmin d a b
  | .fabs d a => passFabs d a
  | .fneg d a => passFneg d a
  | .fcmp d a b cond => passFcmp d a b cond
  | .fsel d a b c => passFsel d a b c
  | .frcp d a => passFrcp d a
  | .frsq d a => passFrsq d a
  | .fexp2 d a => passFexp2 d a
  | .flog2 d a => passFlog2 d a
  | .fcvt d a t r => passFcvt d a t r
  | .tbl d a t => passTbl d a t
  | .iadd d a b => passIadd d a b
  | .isub d a b => passIsub d a b
  | .imul d a b => passImul d a b
  | .iand d a b => passIand d a b
  | .ior d a b => passIor d a b
  | .ixor d a b => passIxor d a b
  | .ishl d a b => passIshl d a b
  | .ishr d a b => passIshr d a b
  | .kld d a => passKld d a
  | .kst d a => passKst d a
  | .lag d a dist => passLag d a dist
  | .emit a => passEmit a
  | .emitLast a => passEmitLast a
  | .tap a q => passTap a q
  | .drop a => passDrop a
  | .eflt a code => passEflt a code
  | .efltFp mask => passEfltFp mask
  | _ => .ok

/-! ## Chains and passes -/

/-- Two elements agree in their indices at every level above n (R294). -/
def agreeAbove (n : Nat) (a b : Idx) : Bool := (idxList a).drop (n + 1) == (idxList b).drop (n + 1)

/-- An element with these indices enters: a new chain starts where they differ from the last element's above
the carry level (R294). -/
def PortInst.enter (i : PortInst) (x : Idx) : PortInst :=
  let fresh := i.prog.kinit.map fun v => (⟨v, false⟩ : PReg)
  match i.prev with
  | none => { i with ks := fresh, hist := [], prev := some x }
  | some y =>
    if agreeAbove i.prog.carry y x then { i with prev := some x }
    else { i with ks := fresh, hist := [], chain := i.chain + 1, prev := some x }

/-- Whether an operation acts at a port (R297). -/
def Pass.acts (p : Pass) : Instr → Bool
  | .drop _ => !(p.port == .ma || p.port == .md)
  | .emit _ | .emitLast _ => p.port == .ro || p.port == .pi || p.port == .po
  | .tap _ q =>
    ((p.port == .md && p.tapOk) || p.port == .ri || p.port == .ro || p.port == .pi || p.port == .po) &&
    p.tapOwn != some q.toNat
  | _ => true

/-- The widening of an element for a program (R257). -/
def widenElem (e : QElem) : BitVec 32 :=
  match e.ty with
  | .f16 => BitVec.ofNat 32 (widen fmt16 fmt32 e.bits.toNat)
  | .bf16 => BitVec.ofNat 32 (widen fmtB16 fmt32 e.bits.toNat)
  | _ => e.bits.setWidth 32

/-- The conversion back of a value to the port's element type (R257). -/
def narrowElem (e : QElem) : QElem × Flags :=
  let v := e.bits.toNat % 2 ^ 32
  match e.ty with
  | .f16 => let r := convF fmt32 fmt16 .rne .none 0 v; ({ e with bits := BitVec.ofNat 128 r.1 }, r.2)
  | .bf16 => let r := convF fmt32 fmtB16 .rne .none 0 v; ({ e with bits := BitVec.ofNat 128 r.1 }, r.2)
  | _ => ({ e with bits := BitVec.ofNat 128 v }, 0)

/-- What a port's pass is given beside the element. -/
structure PassCtx where
  port : Port
  core : Nat
  tapOwn : Option Nat := none
  tapOk : Bool := true
  lastOfChain : Bool := false
  lastOfCmd : Bool := false

/-- The start of a pass (R292). -/
def startPass (x : PassCtx) (i : PortInst) (e : QElem) : Pass :=
  { port := x.port, inst := i.enter e.idx
    es := ⟨widenElem e, e.poison⟩ :: List.replicate 7 {}
    elem := e, lastOfChain := x.lastOfChain, lastOfCmd := x.lastOfCmd
    tapOwn := x.tapOwn, tapOk := x.tapOk, core := x.core }

/-- The operations of a pass, each once, in program order (R293); some may be passed over (R406). -/
def runWords : List (BitVec 32) → PassOp
  | [], p => .ok p
  | w :: r, p =>
    let on (p : Pass) : Except Trap Pass := runWords r { p with pos := p.pos + 1 }
    match decodeElem w with
    | .error _ => on p
    | .ok i =>
      if p.inst.skip.contains (p.inst.count, p.pos) || !p.acts i then on p
      else match passOp i p with
        | .ok p' => on p'
        | .error t => .error t

/-- The first operation that does not act at the port and is not passed over, at the port's first element
(R297). -/
def Pass.misplaced (p : Pass) : Option Trap :=
  if p.inst.count != 0 then none
  else (p.inst.prog.words.zipIdx.find? fun w =>
    match decodeElem w.1 with
    | .ok i => !p.acts i && !p.inst.skip.contains (0, w.2 + 1)
    | .error _ => false).map fun w => { p with pos := w.2 + 1 }.fault 4 (w.1.toNat % 32)

/-- What a pass puts out (R296): the instance after it, the primary stream, the taps by queue, and the
conditions for the port's statistic. -/
structure PassOut where
  inst : PortInst
  prim : List QElem
  taps : List (Nat × QElem)
  fl : Flags
  deriving DecidableEq, Repr, Inhabited

def markLast : List QElem → List QElem
  | [] => []
  | [e] => [{ e with last := true }]
  | e :: r => e :: markLast r

/-- In each queue, the last tap takes a last mark (R296). -/
def markTaps : List (Nat × QElem) → List (Nat × QElem)
  | [] => []
  | t :: r => (if r.any (·.1 == t.1) then t else (t.1, { t.2 with last := true })) :: markTaps r

def Pass.outputs (p : Pass) : PassOut :=
  let raw := (if p.drop then [] else [p.take 0 p.elem.idx]) ++ p.emits
  let prim := raw.map narrowElem
  let taps := p.taps.map fun t => (t.1, narrowElem t.2)
  let ts := taps.map fun t => (t.1, t.2.1)
  { inst := { p.inst with count := p.inst.count + 1 }
    prim := if p.elem.last then markLast (prim.map (·.1)) else prim.map (·.1)
    taps := if p.lastOfCmd then markTaps ts else ts
    fl := (prim.map (·.2) ++ taps.map (·.2.2)).foldl (· ||| ·) p.cond }

/-- A whole pass of an element through a port. An operation that may not stand there (R297) is found before any word runs,
so that its fault comes before one that an earlier operation meets at the port's first element (DESIGN CHOICE, log 95). -/
def runPass (x : PassCtx) (i : PortInst) (e : QElem) : Except Trap PassOut :=
  let p := startPass x i e
  match p.misplaced with
  | some t => .error t
  | none =>
    match runWords i.prog.words p with
    | .ok p' => .ok p'.outputs
    | .error t => .error t

/-- A pass through a port that may have no program: the element passes unchanged (R296, slot 63). -/
def passPort (x : PassCtx) (i : Option PortInst) (e : QElem) : Except Trap (Option PortInst × PassOut) :=
  match i with
  | none => .ok (none, { inst := default, prim := [e], taps := [], fl := 0 })
  | some i => (runPass x i e).map fun o => (some o.inst, o)

/-- The program of an instance holds an operation of a kind. -/
def PortInst.holds (i : Option PortInst) (f : Instr → Bool) : Bool :=
  match i with
  | none => false
  | some i => i.prog.words.any fun w => match decodeElem w with | .ok j => f j | .error _ => false

/-- Whether a program can suppress an element. -/
def drops (i : Option PortInst) : Bool := PortInst.holds i fun j => match j with | .drop _ => true | _ => false

/-- Whether a program acts at the last element of a chain. -/
def needsLast (i : Option PortInst) : Bool :=
  PortInst.holds i fun j => match j with | .emitLast _ => true | _ => false

/-! ## The operations by themselves -/

/-- Conditions of a port go to its statistic (R298); those of CI and CO count when their command retires
(R272). -/
def CoreSt.notePort (c : CoreSt) (p : Port) (fl : Flags) : CoreSt :=
  match p with
  | .ma | .md => c.orStat 0 fl
  | .ri | .ro | .pi | .po => c.orStat 1 fl
  | .ci | .co =>
    match c.units.copy with
    | x :: r => { c with units := { c.units with copy := { x with fl := x.fl ||| fl } :: r } }
    | [] => c

/-- An operation of the pass in progress (R293): it acts once, at its position, and the next operation
follows; a fault ends the pass and cuts the command (R309). -/
def runElem (f : PassOp) (s : State) : Result :=
  match s.ppass with
  | none => .fault .noElement
  | some p =>
    match f p with
    | .ok p' =>
      .next ({ s with ppass := some { p' with pos := p'.pos + 1 } }.modCore p.core fun c =>
        c.notePort p.port (p'.cond &&& ~~~p.cond))
    | .error t =>
      let u := portUnit p.port
      let x := ((s.core p.core).unit u).head?
      let t := { t with
        origin := unitOrigin u
        ipc := (x.map (·.ipc)).getD 0
        cursor := (x.map (·.cursor)).getD 0 }
      .next ({ s with ppass := none }.trapOn p.core t (some u))

/-- R299. -/
def execFadd (d a b : BitVec 4) (s : State) : Result := runElem (passFadd d a b) s

/-- R299. -/
def execFsub (d a b : BitVec 4) (s : State) : Result := runElem (passFsub d a b) s

/-- R299. -/
def execFmul (d a b : BitVec 4) (s : State) : Result := runElem (passFmul d a b) s

/-- R299. -/
def execFfma (d a b c : BitVec 4) (s : State) : Result := runElem (passFfma d a b c) s

/-- R299. -/
def execFmax (d a b : BitVec 4) (s : State) : Result := runElem (passFmax d a b) s

/-- R299. -/
def execFmin (d a b : BitVec 4) (s : State) : Result := runElem (passFmin d a b) s

/-- R300. -/
def execFabs (d a : BitVec 4) (s : State) : Result := runElem (passFabs d a) s

/-- R300. -/
def execFneg (d a : BitVec 4) (s : State) : Result := runElem (passFneg d a) s

/-- R301. -/
def execFcmp (d a b : BitVec 4) (cond : FCond) (s : State) : Result := runElem (passFcmp d a b cond) s

/-- R302. -/
def execFsel (d a b c : BitVec 4) (s : State) : Result := runElem (passFsel d a b c) s

/-- R303. -/
def execFrcp (d a : BitVec 4) (s : State) : Result := runElem (passFrcp d a) s

/-- R303. -/
def execFrsq (d a : BitVec 4) (s : State) : Result := runElem (passFrsq d a) s

/-- R303. -/
def execFexp2 (d a : BitVec 4) (s : State) : Result := runElem (passFexp2 d a) s

/-- R303. -/
def execFlog2 (d a : BitVec 4) (s : State) : Result := runElem (passFlog2 d a) s

/-- R304. -/
def execFcvt (d a : BitVec 4) (t : CvtTy) (r : CvtMode) (s : State) : Result := runElem (passFcvt d a t r) s

/-- R305. -/
def execTbl (d a : BitVec 4) (t : BitVec 2) (s : State) : Result := runElem (passTbl d a t) s

/-- R306. -/
def execIadd (d a b : BitVec 4) (s : State) : Result := runElem (passIadd d a b) s

/-- R306. -/
def execIsub (d a b : BitVec 4) (s : State) : Result := runElem (passIsub d a b) s

/-- R306. -/
def execImul (d a b : BitVec 4) (s : State) : Result := runElem (passImul d a b) s

/-- R306. -/
def execIand (d a b : BitVec 4) (s : State) : Result := runElem (passIand d a b) s

/-- R306. -/
def execIor (d a b : BitVec 4) (s : State) : Result := runElem (passIor d a b) s

/-- R306. -/
def execIxor (d a b : BitVec 4) (s : State) : Result := runElem (passIxor d a b) s

/-- R306. -/
def execIshl (d a b : BitVec 4) (s : State) : Result := runElem (passIshl d a b) s

/-- R306. -/
def execIshr (d a b : BitVec 4) (s : State) : Result := runElem (passIshr d a b) s

/-- R307. -/
def execKld (d a : BitVec 4) (s : State) : Result := runElem (passKld d a) s

/-- R307. -/
def execKst (d a : BitVec 4) (s : State) : Result := runElem (passKst d a) s

/-- R295. -/
def execLag (d a : BitVec 4) (dist : BitVec 2) (s : State) : Result := runElem (passLag d a dist) s

/-- R308. -/
def execEmit (a : BitVec 4) (s : State) : Result := runElem (passEmit a) s

/-- R308. -/
def execEmitLast (a : BitVec 4) (s : State) : Result := runElem (passEmitLast a) s

/-- R308. -/
def execTap (a : BitVec 4) (q : BitVec 3) (s : State) : Result := runElem (passTap a q) s

/-- R308. -/
def execDrop (a : BitVec 4) (s : State) : Result := runElem (passDrop a) s

/-- R308. -/
def execEflt (a : BitVec 4) (code : BitVec 7) (s : State) : Result := runElem (passEflt a code) s

/-- R308. -/
def execEfltFp (mask : BitVec 5) (s : State) : Result := runElem (passEfltFp mask) s

end Sys2Proof.Machine
end

