-- ==== Sys2Proof/Machine/Command.lean ====
section
/-! DEFINITION. Machine/Command: the life of a command (R23, R31, R237, R258): its issue to a unit's queue, one
boundary-to-boundary step of the command in execution, the cut, and its retirement. -/

namespace Sys2Proof.Machine

/-! ## Fields -/

/-- Sync field and semaphore fields of the instruction that a command came from. -/
def cmdFields : Instr → Option (Hdr × Sem)
  | .tld h f .. | .tst h f .. | .tstCoil h f .. | .tcpy h f .. | .tgth h f .. | .tsct h f .. | .tzero h f ..
  | .rcpyWr h f .. | .rcpyRd h f .. | .mlw h f .. | .mma h f .. | .mmac h f .. | .mzero h f ..
  | .mdrain h f .. | .mdrainx h f .. | .mfact h f .. | .tred h f .. | .tpass h f .. | .attn h f ..
  | .attnm h f .. => some (h, f)
  | _ => none

/-- Entries of a command queue (R23); the manual bounds the queues of the load and store units nowhere. -/
def unitCap : CUnit → Option Nat
  | .mat => some 16
  | .red | .pass | .copy => some 8
  | .mac => some 1
  | .load | .store => none

/-! ## Issue -/

/-- A command of the moving sequencer, not yet queued. xvtab and xvpool govern it as they stand now (R207). -/
def newCmd (i : Instr) : M Cmd := do
  let q ← mySeq
  let r := (← myCore).regs.sp
  let x := (← myCore).seq q
  return { inst := i, seq := q, ipc := x.pc, num := x.issued, xvtab := r.xvtab, xvpool := r.xvpool }

/-- A command enters its unit's queue (R23). -/
def CoreSt.queueCmd (c : CoreSt) (u : CUnit) (x : Cmd) : CoreSt :=
  let c := c.setUnit u (c.unit u ++ [x])
  let c := match unitWord u with | some w => c.countPush w | none => c
  let s := c.seq x.seq
  c.setSeq x.seq { s with issued := s.issued + 1, live := s.live ++ [x.num] }

/-- Issue of a command: the wait field (R34, R165), room in the queue (R23), the operands and the checks made
at issue, and then the queue. Its pushes and its signal act when it retires (R31). -/
def sendCmd (wait : Option Sem) (u : CUnit) (mk : M Cmd) : M Go := do
  match wait with
  | some f => if f.thresh != 0 then waitSem' f
  | none => pure ()
  let c ← myCore
  match unitCap u with
  | some n => waitFor ((c.unit u).length < n)
  | none => pure ()
  let x ← mk
  modMe (·.queueCmd u x)
  return { push := false }
where
  waitSem' (f : Sem) : M Unit := do
    let s ← get
    let core ← me
    let q ← mySeq
    waitFor (s.semMet core f.waitsem f.thresh.toNat)
    modMe fun c => c.takeCopy q (s.semOldOf core f.waitsem).copy

/-! ## Steps of a unit -/

/-- An action whose traps cut the command at a cursor. -/
def cutAt {α : Type} (n : Nat) (m : M α) : M α := fun s =>
  match m.run s with
  | .error (.trap t) => .error (.trap { t with cursor := n })
  | r => r

/-- Whether a core's units run: not in a handler (R405), not in a freeze (R417), not once a pre-emption request
has reached the core (R410, log 21). -/
def CoreSt.unitsRun (c : CoreSt) : Bool :=
  c.task.isSome && !c.handler && c.frozen == 0 && (c.preempt == .none || c.preempt == .requested)

/-- The head of a unit's queue is replaced. -/
def CoreSt.setHead (c : CoreSt) (u : CUnit) (x : Cmd) : CoreSt := c.setUnit u (x :: (c.unit u).drop 1)

/-- The retirement of a finished command is due. -/
def State.dueRetire (s : State) (core : Fin 448) (u : CUnit) : State :=
  let e := Instr.commandRetire core u
  if s.todo.contains e then s else s.due e

/-- One step of the command at the head of a unit's queue: all of it or, where it stalls or traps, nothing
but what f puts into the state with its trap (R239, R258). The translations of the regions that its streams are in
stand (R103). -/
def unitRun (core : Fin 448) (u : CUnit) (f : Cmd → M (Cmd × Option Trap)) (s : State) : Result :=
  let c := s.core core
  match c.unit u with
  | [] => .next s
  | x :: _ =>
    if !c.unitsRun then .next s
    else if x.done then .next (s.dueRetire core u)
    else
      let s0 := { s with cur := (core, x.seq), xlat := some { trans := x.trans, xvtab := x.xvtab, xvpool := x.xvpool } }
      let back (t : State) : State := { t with cur := s.cur, xlat := none }
      let deco (t : Trap) : Trap := { t with origin := unitOrigin u, ipc := x.ipc }
      match (f x).run s0 with
      | .ok ((x', t), s1) =>
        let w := s1.xlat.getD {}
        let x' := { x' with trans := w.trans.filter fun e => x'.regions.contains e.region, xvpool := w.xvpool }
        let s2 := s1.modCore core fun c => { c.setHead u x' with progress := s.cycle }
        let s3 := if x'.done then s2.dueRetire core u else s2
        let s4 := match t with | none => s3 | some t => s3.trapOn core (deco t) (some u)
        .next (back s4)
      | .error (.trap t) => .next (back (s0.trapOn core (deco t) (some u)))
      | .error (.discard n) => .next (back (s0.discardMine n))
      | .error (.fault e) => .fault e
      | .error .stall | .error .spec | .error (.held _) | .error .park => .next s

/-! ## Retirement -/

/-- The signal of an MDRAINX reaches its peer's semaphore (R266, R267), with the copy of R150; without a task of the
launch there it is discarded. -/
def signalPeer (peer : Nat) (present : Bool) (f : Sem) (x : Cmd) (u : Undo) : M Unit := do
  if f.inc != 0 && present then
    let s ← get
    let core ← me
    let a : SemAdd := {
      sem := f.sigsem, inc := f.inc.toNat, by_ := .c, remote := if peer = core then none else some core
      ipc := x.ipc, copy := s.signalCopy core .c {}, place := 2 * x.num + 1, undo := u }
    set ((s.semAdd peer a).flagCore core)

/-- The core that an MDRAINX names (R267). -/
def peerOf (core : Nat) (mem : BitVec 3) : Nat := core / 8 * 8 + mem.toNat

/-- A core holds a task of the launch that runs on another (R267). -/
def State.sameLaunch (s : State) (a b : Nat) : Bool :=
  match (s.core a).task, (s.core b).task with
  | some x, some y => x.job == y.job && x.launch == y.launch
  | _, _ => false

/-- A latch gets a loaded tile, to be taken under R243. -/
def CoreSt.loadLatch (c : CoreSt) (w : Nat) (t : Tile) : CoreSt :=
  if w = 0 then { c with stores := { c.stores with w0 := { c.stores.w0 with pending := some t } } }
  else { c with stores := { c.stores with w1 := { c.stores.w1 with pending := some t } } }

def CoreSt.latch (c : CoreSt) (w : Nat) : Latch := if w = 0 then c.stores.w0 else c.stores.w1

/-- Format in which a TLD delivers (R242). -/
def deliveredTy (ty : Ty) (dq : Dq) : Ty :=
  match dq with
  | .none => ty | .f32 => .f32 | .bf16 => .bf16 | .f16 => .f16

/-- What the retirement of a command leaves in the core's stores: a loaded tile (R243, R260), the carried
registers of its C ports (R285), statistics (R272), and latches left empty by a macro operation (R275). -/
def CoreSt.settleCmd (c : CoreSt) (u : CUnit) (x : Cmd) : CoreSt :=
  let keep (c : CoreSt) (p : Port) (i : Option PortInst) : CoreSt :=
    match i with
    | some i => { c with stores := { c.stores with lastK := cset [] c.stores.lastK p.idx i.ks } }
    | none => c
  let c := match x.inst with
    | .tld _ _ ty (.w n) _ _ _ o => c.loadLatch n.toNat ⟨deliveredTy ty o.dq, x.staged.reverse⟩
    | .mlw _ _ ty w _ => c.loadLatch w.toNat ⟨ty, x.staged.reverse⟩
    | .mma .. | .mmac .. => keep c .ma x.pa
    | .mdrain .. | .mdrainx .. => keep c .md x.pa
    | .tred .. => keep (keep c .ri x.pa) .ro x.pb
    | .tpass .. => keep (keep c .pi x.pa) .po x.pb
    | .attn .. | .attnm .. | .mfact .. => { c with stores := { c.stores with w0 := {}, w1 := {} } }
    | _ => c
  match u with
  | .mat => c.addStat 7 1
  | .load | .store | .copy => c.orStat 2 x.fl
  | .red | .pass | .mac => c

/-- A command leaves its unit (R23). -/
def CoreSt.dropHead (c : CoreSt) (u : CUnit) (x : Cmd) : CoreSt :=
  let c := c.setUnit u ((c.unit u).drop 1)
  let c := match unitWord u with | some w => c.countPop w | none => c
  let s := c.seq x.seq
  c.setSeq x.seq { s with live := s.live.filter (· != x.num) }

/-- Steps that may have waited for a command are due again: the release of dropped blocks (R339) and the report of
a page-table change (R101). -/
def State.recheck (s : State) : State :=
  let s := s.memory.dropped.foldl (fun s d => s.due (.coilBlockRelease d.id)) s
  if s.memory.ptPending.isEmpty then s else s.due .pageTableChangeComplete

/-- The pushes and the signal of a retiring command (R31, R32, R34), and what then no longer waits: the answer is the
trap of an SSIG or END that waited for it, which leaves the command retired (R192, R397). -/
def retireBody (u : CUnit) (x : Cmd) : M (Option Trap) := do
  modMe fun c => (c.settleCmd u x).dropHead u x
  match cmdFields x.inst with
  | none => pure ()
  | some (h, f) =>
    let s ← get
    let core ← me
    match s.pushAll core x.seq h.push none with
    | some s' => set s'
    | none => trapWith { cause := 0x0B }
    let undo : Undo := { push := h.push, cmd := some (u, x) }
    match x.inst with
    | .mdrainx _ _ _ mem .. =>
      let peer := peerOf core mem
      signalPeer peer ((← get).sameLaunch core peer) f x undo
    | _ => if f.inc != 0 then signal x.seq f.sigsem f.inc.toNat x.ipc (2 * x.num + 1) undo
  let n := ((← myCore).seq x.seq).sigs.length
  let t ← flushSeq x.seq (n + 2)
  let c ← myCore
  for w in [0, 1] do
    if (c.latch w).pending.isSome then
      modify fun s => s.due (.latchTake s.cur.1 (if w = 0 then 0 else 1))
  modify State.recheck
  checkOver
  return t

/-- The trap of an SSIG or END that waited: an instruction's, at its sequencer (R396, R400). An overflow of an earlier
signal of the same sequencer, or of one of a lower origin, comes before it (R398). -/
def State.trapLate (s : State) (core : Nat) (q : Seq) (t : Trap) : State :=
  let t := { t with origin := q.idx }
  match s.lowestOverflow core with
  | some a => if a.by_.idx ≤ q.idx then (s.undoSignal core a).trapOn core a.trap none else s.trapOn core t none
  | none => s.trapOn core t none

/-- COMMAND_RETIRE (R31): due once the command at the head of a unit has finished. -/
def execCommandRetire (core : Fin 448) (unit : CUnit) (s : State) : Result :=
  let c := s.core core
  match c.unit unit with
  | [] => .next s
  | x :: _ =>
    if !x.done || c.task.isNone || c.handler || c.frozen != 0 then .next s
    else
      let s0 := { s with cur := (core, x.seq) }
      let back (t : State) : State := { t with cur := s.cur }
      match (retireBody unit x).run s0 with
      | .ok (t, s1) =>
        let s2 := s1.modCore core fun c => { c with progress := s.cycle }
        .next (back (match t with | none => s2 | some t => s2.trapLate core x.seq t))
      | .error (.trap t) =>
        .next (back (s0.trapOn core { t with origin := unitOrigin unit, ipc := x.ipc, cursor := x.cursor } none))
      | .error (.fault e) => .fault e
      | .error .stall | .error .spec | .error (.held _) | .error .park | .error (.discard _) => .next s

/-- A matrix command in execution that uses a latch (R243). -/
def CoreSt.usesLatch (c : CoreSt) (w : Nat) : Bool :=
  match c.units.mat with
  | [] => false
  | x :: _ =>
    x.begun && (match x.inst with
      | .mma _ _ _ _ v .. | .mmac _ _ _ _ v .. => v.toNat == w
      | _ => false)

/-- LATCH_TAKE (R243): due once a tile has been loaded and no command started on the latch is left. -/
def execLatchTake (core : Fin 448) (w : Fin 2) (s : State) : Result :=
  let c := s.core core
  match (c.latch w).pending with
  | none => .next s
  | some t =>
    if c.usesLatch w then .next s
    else .next (s.setCore core (
      if w = 0 then { c with stores := { c.stores with w0 := { cur := some t } } }
      else { c with stores := { c.stores with w1 := { cur := some t } } }))

end Sys2Proof.Machine
end

