-- ==== Sys2Proof/Machine/Hold.lean ====
section
/-! DEFINITION. Machine/Hold: which accesses of a sequencer keep their order (R129 to R131, R138). A side is what a
command or a scalar access of L or S reads or writes through one base; an access is held back while an earlier one,
not yet performed, must come first. -/

namespace Sys2Proof.Machine

/-! ## Half-chains of a TCPY (R242, R248) -/

/-- The order in which a load half reads (R242). -/
def loadMap (m : MapV) (o : LoadHalf) : MapV :=
  match o.tr with
  | some (x, y) => m.swap x.toNat y.toNat
  | none => m

/-- Type of the elements at CI and CO (R248, R290). -/
def cpyPortTy (half : CpyHalf) (ty : Ty) : Ty :=
  match half with
  | .load o => deliveredTy ty o.dq
  | .store o => o.inTy

/-- Types that a TCPY reads and writes (R248). -/
def cpySrcTy (half : CpyHalf) (ty : Ty) : Ty :=
  match half with | .load _ => ty | .store o => o.inTy

def cpyDstTy (half : CpyHalf) (ty : Ty) : Ty :=
  match half with | .load o => deliveredTy ty o.dq | .store _ => ty

/-- The load half of a TCPY. -/
def loadOf (ty : Ty) (half : CpyHalf) : LoadHalf :=
  match half with
  | .load o => o
  | .store _ => { conj := false, tr := none, sc := 0, dq := .none }

/-! ## Sides -/

/-- Accesses through one base: its path, whether they write, and their spans; none where they may lie anywhere. -/
structure Side where
  path : Nat
  writes : Bool
  spans : Option (List (Word × Nat))
  deriving DecidableEq, Repr, Inhabited

/-- Elements lo to hi − 1 of a walk. -/
def walkSide (writes : Bool) (base : Word) (m : MapV) (bits lo hi : Nat) : Side :=
  ⟨pathOf base, writes, some ((upFrom lo (hi - lo)).map fun n =>
    let off := m.off n
    (elemAddr base off bits, elemBytes off bits))⟩

/-- The scale bytes of elements lo to hi − 1. -/
def scaleSide (writes : Bool) (sbase : Word) (m : MapV) (lo hi : Nat) : Side :=
  ⟨pathOf sbase, writes, some ((upFrom lo (hi - lo)).map fun n => (scaleAddr sbase (m.off n), 1))⟩

/-- Elements lo to hi − 1 of a gather or scatter, and the entries that they read (R249). -/
def gatherSides (s : State) (core : Nat) (x : Cmd) (writes : Bool) (lvl bits lo hi : Nat) : List Side :=
  let m := x.map.view
  let s0 : State := { s with
    cur := (if h : core < 448 then ⟨core, h⟩ else 0, x.seq)
    xlat := some { xvtab := x.xvtab, xvpool := x.xvpool } }
  let at_ (n : Nat) : Option (Word × Nat) :=
    match (gatherOff m x.idxBase lvl n).run s0 with
    | .ok (off, _) => some (elemAddr x.src off bits, elemBytes off bits)
    | .error _ => none
  let ns := upFrom lo (hi - lo)
  [⟨pathOf x.src, writes, ns.mapM at_⟩,
   ⟨pathOf x.idxBase, false, some (ns.map fun n => (x.idxBase + BitVec.ofNat 64 (4 * (m.digits n).getD lvl 0), 4))⟩]

/-- The extents of a coil: where a coil store may write. -/
def coilSide (s : State) (h : Word) : Side :=
  ⟨0, true, (s.coil? h).map fun c => c.extents.map fun e => (e.base, e.slots * e.stride)⟩

def scaleIf (ty : Ty) (x : Side) : List Side := if ty.isMx then [x] else []

/-- What elements lo to hi − 1 of a command read and write. -/
def sidesOf (s : State) (core : Nat) (x : Cmd) (lo hi : Nat) : List Side :=
  let m := x.map.view
  match x.inst with
  | .tld _ _ ty _ _ _ _ o =>
    let m := loadMap m o
    walkSide false x.src m ty.bits lo hi :: scaleIf ty (scaleSide false x.sbase m lo hi)
  | .tgth _ _ ty _ _ _ _ lvl _ => gatherSides s core x false lvl.toNat ty.bits lo hi
  | .tst _ _ ty _ _ _ _ sh =>
    (if sh.red = .none then [] else [walkSide false x.src m ty.bits lo hi]) ++
    walkSide true x.src m ty.bits lo hi :: scaleIf ty (scaleSide true x.sbase m lo hi)
  | .tstCoil _ _ ty .. => coilSide s x.src :: scaleIf ty (scaleSide true x.sbase m lo hi)
  | .tsct _ _ ty _ _ _ _ lvl _ => gatherSides s core x true lvl.toNat ty.bits lo hi
  | .tcpy _ _ ty _ _ _ _ _ half =>
    let lm := loadMap m (loadOf ty half)
    let dty := cpyDstTy half ty
    walkSide false x.src lm (cpySrcTy half ty).bits lo hi ::
      (match half with
        | .load _ => scaleIf ty (scaleSide false x.sbase lm lo hi)
        | .store o => (if o.red = .none then [] else [walkSide false x.dst m dty.bits lo hi]) ++
            scaleIf dty (scaleSide true x.sbase m lo hi)) ++
      [walkSide true x.dst m dty.bits lo hi]
  | .tzero _ _ ty .. => [walkSide true x.src m ty.bits lo hi]
  | .rcpyWr _ _ _ _ _ log2 => [walkSide false x.src m (8 * 2 ^ log2.toNat) lo hi]
  | .rcpyRd _ _ _ _ _ log2 => [walkSide true x.src m (8 * 2 ^ log2.toNat) lo hi]
  | _ => []

/-- What is left of a command. -/
def leftOf (s : State) (core : Nat) (x : Cmd) : List Side :=
  if x.done then [] else sidesOf s core x x.firstLeft x.map.view.count

/-! ## Order -/

/-- Rows of the table of R130: 0 G, N and constant, 1 LS, 2 CL, 3 XV, 4 SW; none for PR and what is no path. -/
def pathRow : Nat → Option Nat
  | 0 | 1 | 2 => some 0 | 4 => some 1 | 5 => some 2 | 6 => some 3 | 7 => some 4 | _ => none

/-- The pairs that R130 keeps, of accesses to different locations. -/
def keptPair (a b : Side) : Bool :=
  match pathRow a.path, pathRow b.path with
  | some p, some q =>
    if p = 1 || p = 4 then true
    else
      let three := !(a.writes && !b.writes)
      if p = 0 then q == 0 && three else (q == 1 || q == p) && three
  | _, _ => false

/-- The bytes of a span as locations (R128): a space, the first byte and the length. The G, N and constant paths share
theirs, and so do the LS and CL names of one scratchpad. -/
def places (core : Nat) (p : Word × Nat) : List (Nat × Nat × Nat) :=
  let off := offOf p.1
  match pathRow (pathOf p.1) with
  | some 0 => [(0, off, p.2)]
  | some 1 => [(1 + core, off, p.2)]
  | some 2 => (blocksOf 128 off p.2).map fun b =>
      let lo := max off (128 * b)
      (1 + core / 8 * 8 + clMember lo, clLocal lo, min (off + p.2) (128 * b + 128) - lo)
  | some 3 => [(1000 + core, off, p.2)]
  | _ => []

/-- Two sides share a location, as far as their spans are known. -/
def meet (core : Nat) (a b : Side) : Bool :=
  match a.spans, b.spans with
  | some l, some r =>
    let r := r.flatMap (places core)
    (l.flatMap (places core)).any fun x => r.any fun y => x.1 == y.1 && overlaps x.2.1 x.2.2 y.2.1 y.2.2
  | _, _ => (pathRow a.path).isSome && pathRow a.path == pathRow b.path

/-- An earlier access of a sequencer comes before a later one: they share a location and one of them writes (R129), or
R130 keeps their order. -/
def comesFirst (core : Nat) (a b : Side) : Bool := keptPair a b || ((a.writes || b.writes) && meet core a b)

/-- The units whose commands access memory for L and S. -/
def tileUnits : List CUnit := [.load, .store, .copy]

/-- Commands of a sequencer in these units, each with its unit: those issued before number num, not yet performed. -/
def CoreSt.pendingOf (c : CoreSt) (q : Seq) (num : Nat) : List (CUnit × Cmd) :=
  tileUnits.flatMap fun u => ((c.unit u).filter fun x => x.seq == q && decide (x.num < num) && !x.done).map fun x => (u, x)

/-- A side waits for an earlier command, one of the copy engine as one of the load or store unit: R131 applies R130 to
every tile instruction (DEDUCED beside R138, log 7). -/
def State.waitsFor (s : State) (core : Nat) (x : Cmd) (later : List Side) : Bool :=
  (leftOf s core x).any fun a => later.any fun b => comesFirst core a b

/-- A scalar access of L or S may not be performed yet (R131). -/
def State.heldScalar (s : State) (core : Nat) (q : Seq) (x : Side) : Bool :=
  let c := s.core core
  (c.pendingOf q (c.seq q).issued).any fun p => s.waitsFor core p.2 [x]

/-- The elements that one step of a command may perform: those of one aligned 8-byte word, or of one word of scale
bytes. -/
def Cmd.reach (x : Cmd) : Nat :=
  match x.inst with
  | .tst .. | .tstCoil .. | .tsct .. | .tcpy .. | .tzero .. | .rcpyRd .. => 256
  | _ => 1

/-- A command reads as it is performed: every command of the copy engine but TZERO. -/
def Cmd.readsOwn (x : Cmd) : Bool := match x.inst with | .tzero .. => false | _ => true

/-- The next elements of the command at the head of a unit may not be performed yet: an earlier command of its sequencer
in another unit comes first. The reads of the copy engine come after every earlier access (R134, R138). -/
def State.heldHead (s : State) (core : Nat) (u : CUnit) : Bool :=
  let c := s.core core
  if !tileUnits.contains u then false
  else match c.unit u with
    | [] => false
    | x :: _ =>
      let ps := (c.pendingOf x.seq x.num).filter (·.1 != u)
      if ps.isEmpty || x.done then false
      else
        (u == .copy && x.readsOwn) ||
        (let next := sidesOf s core x x.cursor (min x.map.view.count (x.cursor + x.reach))
         ps.any fun p => s.waitsFor core p.2 next)

/-! ## Prediction (R392) -/

/-- The granules whose stamps a read of a byte span checks: its own, or, through XV, the entries of its tiles (R119). -/
def State.readGranules (s : State) (core : Nat) (p : Word × Nat) : List Granule :=
  if pathOf p.1 = 6 then
    let tab := (s.core core).regs.sp.xvtab
    ((blocksOf 4096 (offOf p.1) p.2).filter fun t => decide (t < xvField tab 14 14)).map fun t =>
      .sp core (xvField tab 0 14 + t)
  else
    (blocksOf 128 p.1.toNat p.2).filterMap fun b =>
      match s.locate core .tile .read (BitVec.ofNat 64 (max p.1.toNat (128 * b))) with
      | .ok (.dev pa _ chk) => if chk then some (.dev (pa / 128)) else none
      | .ok (.sp c off) => some (.sp c (off / 128))
      | .ok (.sw _) | .ok (.arg ..) | .error _ => none

/-- A byte span holds an access that a speculative task may not perform: a write to another member's stripes, or the
read of a checked granule that its launch vector does not cover (R155). -/
def State.spanParks (s : State) (core : Nat) (l : Launch) (writes : Bool) (p : Word × Nat) : Bool :=
  if writes then pathOf p.1 = 5 && (places core p).any fun x => x.1 != 1 + core
  else (s.readGranules core p).any fun g =>
    let t := s.stamp g
    decide ((cget 0 l.vector t.agent.toNat).toNat < t.epoch.toNat)

/-- A side holds such an access. -/
def State.sideParks (s : State) (core : Nat) (l : Launch) (a : Side) : Bool :=
  match a.spans with
  | some ps => ps.any (s.spanParks core l a.writes)
  | none => false

/-- A speculative task parks at the issue of a tile command (R392). -/
def State.specParks (s : State) (core : Nat) (x : Cmd) : Bool :=
  match s.specOn core with
  | none => false
  | some (_, l, _) => (sidesOf s core x 0 x.map.view.count).any (s.sideParks core l)

end Sys2Proof.Machine
end

