-- ==== Sys2Proof/Machine/TileInstr.lean ====
section
/-! DEFINITION. Machine/TileInstr: the instructions of L and S (R227 to R254) as they issue: address registers,
compares, LDA and STA, maps, and the issue of tile commands with the checks of R236. -/

namespace Sys2Proof.Machine

/-- a register r of the moving sequencer. -/
def aOf (r : BitVec 5) : M Word := do return (← myCore).a (← mySeq) r

def setAReg (r : BitVec 5) (v : Word) : M Unit := do
  let q ← mySeq
  modMe (·.setA q r v)

/-! ## Address registers (R228, R229) -/

def aBinary (h : Hdr) (d b c : BitVec 5) (f : Word → Word → Word) (s : State) : Result :=
  runSeq onLS 8 false h (plain (do setAReg d (f (← aOf b) (← aOf c)))) s

/-- R228. -/
def execAadd (h : Hdr) (d b c : BitVec 5) (s : State) : Result := aBinary h d b c (· + ·) s
/-- R228. -/
def execAsub (h : Hdr) (d b c : BitVec 5) (s : State) : Result := aBinary h d b c (· - ·) s
/-- R228. -/
def execAmul (h : Hdr) (d b c : BitVec 5) (s : State) : Result := aBinary h d b c (· * ·) s

/-- R228. -/
def execAmadd (h : Hdr) (d b c : BitVec 5) (s : State) : Result :=
  runSeq onLS 8 false h (plain (do setAReg d ((← aOf d) + (← aOf b) * (← aOf c)))) s

/-- R228. -/
def execAmov (h : Hdr) (d b : BitVec 5) (s : State) : Result :=
  runSeq onLS 8 false h (plain (do setAReg d (← aOf b))) s

/-- R229. -/
def execAaddi (h : Hdr) (d b : BitVec 5) (imm : BitVec 18) (s : State) : Result :=
  runSeq onLS 8 false h (plain (do setAReg d ((← aOf b) + imm.signExtend 64))) s

/-- R229. -/
def execAshli (h : Hdr) (d b : BitVec 5) (sh : BitVec 6) (s : State) : Result :=
  runSeq onLS 8 false h (plain (do setAReg d ((← aOf b) <<< sh.toNat))) s

/-- R229. -/
def execAli (h : Hdr) (d : BitVec 5) (imm : BitVec 18) (s : State) : Result :=
  runSeq onLS 8 false h (plain (setAReg d (imm.signExtend 64))) s

/-- R229. -/
def execAlih (h : Hdr) (d : BitVec 5) (imm : BitVec 18) (s : State) : Result :=
  runSeq onLS 8 false h (plain (do setAReg d (((← aOf d) <<< 18) ||| imm.setWidth 64))) s

def setMyPred (pd : BitVec 5) (v : Bool) : M Unit := do
  let q ← mySeq
  modMe (·.setPred q pd v)

/-- R230. -/
def execAcmp (h : Hdr) (cond : Cond) (pd b c : BitVec 5) (s : State) : Result :=
  runSeq onLS 8 false h (plain (do
    let x ← aOf b
    let y ← aOf c
    setMyPred pd (condOn cond x y))) s

/-- R230. -/
def execAcmpi (h : Hdr) (cond : Cond) (pd b : BitVec 5) (imm : BitVec 18) (s : State) : Result :=
  runSeq onLS 8 false h (plain (do
    let x ← aOf b
    setMyPred pd (condOn cond x (cmpImm cond imm)))) s

/-! ## LDA and STA (R231) -/

/-- An access of the moving sequencer's own is no stream, so it is translated by itself (R103); it waits for the earlier
ones that it may not overtake (R129 to R131). -/
def holdScalar (writes : Bool) (va : Word) (n : Nat) : M Unit := do
  modify fun s => { s with xlat := none }
  let s ← get
  waitFor (!s.heldScalar (← me) (← mySeq) ⟨pathOf va, writes, some [(va, n)]⟩)

/-- R231. -/
def execLda (h : Hdr) (w : MWidth) (d b : BitVec 5) (disp : BitVec 18) (s : State) : Result :=
  runSeq onLS 8 false h (plain (do
    let va := (← aOf b) + disp.signExtend 64
    aligned va (mBytes w)
    holdScalar false va (mBytes w)
    let (bs, bad) ← coreTile .read va (mBytes w)
    if bad then trapWith { cause := 0x0E }
    setAReg d (extend w (BitVec.ofNat 64 (leNat bs))))) s

/-- R231; through XV it writes less than a tile (R115). -/
def execSta (h : Hdr) (w : MWidth) (src b : BitVec 5) (disp : BitVec 18) (s : State) : Result :=
  runSeq onLS 8 false h (plain (do
    let va := (← aOf b) + disp.signExtend 64
    aligned va (mBytes w)
    limitIf (pathOf va = 6)
    tilePath .write false va
    holdScalar true va (mBytes w)
    walkBytes .write va (marked (leBytes (mBytes w) (← aOf src).toNat) false))) s

/-! ## Maps (R232, R233) -/

/-- R232. -/
def execMapset (h : Hdr) (m : BitVec 4) (payload : BitVec 192) (s : State) : Result :=
  runSeq onLS 32 false h (plain (do
    let q ← mySeq
    modMe (·.setMap q m { payload := payload, start := 0 }))) s

/-- R233. -/
def execMapofs (h : Hdr) (m : BitVec 4) (b : BitVec 5) (s : State) : Result :=
  runSeq onLS 8 false h (plain (do
    let q ← mySeq
    let v ← aOf b
    modMe fun c =>
      let r := c.map q m
      let x := r.view
      c.setMap q m { r with start := if x.ring ≤ 4 then BitVec.ofNat 14 (v.toNat % x.len) else 0 })) s

/-! ## Checks of R236 -/

/-- K × N of a weight format (R24). -/
def latchDims : Ty → Nat × Nat
  | .f16 | .bf16 => (256, 256)
  | .e4m3 | .e5m2 | .e3m2 | .e2m3 | .mxi8 => (512, 256)
  | .e2m1 => (1024, 256)
  | .f32 => (128, 128)
  | .f64 => (32, 32)
  | .c64 => (16, 16)
  | .i8 | .i16 | .i32 | .i64 | .n8 | .n16 | .n32 | .n64 => (0, 0)

def latchCount (t : Ty) : Nat := (latchDims t).1 * (latchDims t).2

/-- The options of a load half fit its type (R241, R242). -/
def loadFits (o : LoadHalf) (ty : Ty) : Bool :=
  (!o.conj || ty == .c64) &&
  (match o.tr with | some (x, y) => x != y && (!ty.isMx || o.dq != .none) | none => true) &&
  (o.dq == .none || ty.isMx)

/-- The pairs of in and memory type with their options (R77, R245). -/
def storeFits (o : StoreHalf) (ty : Ty) : Bool :=
  let float (t : Ty) : Bool := t == .f16 || t == .bf16 || t == .f32 || t == .f64
  let red := match o.red with
    | .none => true
    | .add => float ty || ty == .c64
    | .max | .min => float ty
  let ovf := !o.ovf || ty == .e4m3 || ty == .e5m2
  if o.inTy == ty then o.mode == .rne && !o.ovf && red
  else
    let pair :=
      (ty.isMx && (o.inTy == .f32 || o.inTy == .bf16 || o.inTy == .f16) && o.red == .none) ||
      ((ty == .bf16 || ty == .f16) && (o.inTy == .f32 || o.inTy == .f16 || o.inTy == .bf16)) ||
      (ty == .f32 && o.inTy == .f64)
    pair && red && ovf

/-- The checks of a map and a base (R235, R236). -/
def checkMap (m : MapV) (ty : Ty) (base : Word) : M Unit :=
  limitIf (!(mapOk m && (!ty.isMx || mxMapOk m base)))

/-- The map register that a command takes with it (R227). -/
def mapOf (m : BitVec 4) : M MapReg := do return (← myCore).map (← mySeq) m

def based (c : BitVec 5) (disp : BitVec 18) : M Word := do return (← aOf c) + disp.signExtend 64

/-- A tile command of a speculative task parks at its issue where one of its accesses may not be performed (R392). -/
def sendTile (f : Sem) (u : CUnit) (mk : M Cmd) : M Go :=
  sendCmd (some f) u (do
    let x ← mk
    let s ← get
    if s.specParks (← me) x then stop .spec
    return x)

/-! ## Loads -/

/-- R241 to R243. -/
def execTld (h : Hdr) (f : Sem) (ty : Ty) (dst : TDst) (m : BitVec 4) (c : BitVec 5) (disp : BitVec 18)
    (o : LoadHalf) (s : State) : Result :=
  runSeq (· == .l) 16 false h (sendTile f .load (do
    let x ← newCmd (.tld h f ty dst m c disp o)
    let r ← mapOf m
    let base ← based c disp
    checkMap r.view ty base
    limitIf (!loadFits o ty)
    match dst with
    | .w _ => limitIf (!(deliveredTy ty o.dq).isWeight || r.view.count != latchCount (deliveredTy ty o.dq))
    | .q _ => pure ()
    return { x with map := r, src := base, sbase := ← aOf o.sc })) s

/-- R249. -/
def execTgth (h : Hdr) (f : Sem) (ty : Ty) (q : BitVec 3) (m : BitVec 4) (c : BitVec 5) (disp : BitVec 18)
    (lvl : BitVec 3) (idx : BitVec 5) (s : State) : Result :=
  runSeq (· == .l) 16 false h (sendTile f .load (do
    let x ← newCmd (.tgth h f ty q m c disp lvl idx)
    let r ← mapOf m
    let base ← based c disp
    let list ← aOf idx
    checkMap r.view ty base
    limitIf (ty.isMx || r.view.ring == lvl.toNat || list.toNat % 4 != 0)
    return { x with map := r, src := base, idxBase := list })) s

/-! ## Stores -/

/-- Seed and scale base of a store half (R244). -/
def withStoreHalf (x : Cmd) (sh : StoreHalf) : M Cmd := do
  return { x with sbase := ← aOf sh.sc, rng := srSeed ((← aOf sh.seed).setWidth 32) }

/-- R244, R245. -/
def execTst (h : Hdr) (f : Sem) (ty : Ty) (o : BitVec 3) (m : BitVec 4) (c : BitVec 5) (disp : BitVec 18)
    (sh : StoreHalf) (s : State) : Result :=
  runSeq (· == .s) 16 false h (sendTile f .store (do
    let x ← newCmd (.tst h f ty o m c disp sh)
    let r ← mapOf m
    let base ← based c disp
    checkMap r.view ty base
    limitIf (!storeFits sh ty)
    withStoreHalf { x with map := r, src := base } sh)) s

/-- R246: src holds the handle, dst the first slot. -/
def execTstCoil (h : Hdr) (f : Sem) (ty : Ty) (o : BitVec 3) (m : BitVec 4) (c : BitVec 5) (slot : BitVec 5)
    (sh : StoreHalf) (s : State) : Result :=
  runSeq (· == .s) 16 false h (sendTile f .store (do
    let x ← newCmd (.tstCoil h f ty o m c slot sh)
    let r ← mapOf m
    checkMap r.view ty 0
    limitIf (!storeFits sh ty || sh.red != .none)
    withStoreHalf { x with map := r, src := ← aOf c, dst := ← aOf slot } sh)) s

/-- R249. -/
def execTsct (h : Hdr) (f : Sem) (ty : Ty) (o : BitVec 3) (m : BitVec 4) (c : BitVec 5) (disp : BitVec 18)
    (lvl : BitVec 3) (idx : BitVec 5) (s : State) : Result :=
  runSeq (· == .s) 16 false h (sendTile f .store (do
    let x ← newCmd (.tsct h f ty o m c disp lvl idx)
    let r ← mapOf m
    let base ← based c disp
    let list ← aOf idx
    checkMap r.view ty base
    limitIf (ty.isMx || r.view.ring == lvl.toNat || list.toNat % 4 != 0)
    return { x with map := r, src := base, idxBase := list })) s

/-! ## The copy engine -/

/-- The instance of a slot's binding for one command (R291); a slot without a binding raises cause 0x03. The binding is
the one in force at the command's issue, also for a TCPY that popped no token of the PBIND or of a later C instruction,
where R284 allows the old binding or the new (DESIGN CHOICE, log 95). -/
def instOf (slot : BitVec 6) : M (Option PortInst) := do
  if slot = 63 then return none
  let c ← myCore
  match cfind c.stores.slots slot.toNat with
  | none => limitTrap
  | some p =>
    return some { slot := slot.toNat, prog := p, tables := c.stores.tables
                  ks := p.kinit.map fun v => ⟨v, false⟩ }

/-- The options of a TCPY fit its types (R236, R248, R257). -/
def cpyFits (half : CpyHalf) (ty : Ty) (ports : Bool) : Bool :=
  (match half with | .load o => loadFits o ty | .store o => storeFits o ty) && (!ports || (cpyPortTy half ty).portOk)

/-- R248. -/
def execTcpy (h : Hdr) (f : Sem) (ty : Ty) (d : BitVec 5) (m : BitVec 4) (c : BitVec 5) (ci co : BitVec 6)
    (half : CpyHalf) (s : State) : Result :=
  runSeq onLS 16 false h (sendTile f .copy (do
    let x ← newCmd (.tcpy h f ty d m c ci co half)
    let r ← mapOf m
    let src ← aOf c
    let dst ← aOf d
    checkMap r.view (cpySrcTy half ty) src
    checkMap r.view (cpyDstTy half ty) dst
    limitIf (!cpyFits half ty (ci != 63 || co != 63))
    let pa ← instOf ci
    let pb ← instOf co
    let x := { x with map := r, src := src, dst := dst, pa := pa, pb := pb }
    match half with
    | .load o => return { x with sbase := ← aOf o.sc }
    | .store o => withStoreHalf x o)) s

/-- R250. -/
def execTzero (h : Hdr) (f : Sem) (ty : Ty) (m : BitVec 4) (c : BitVec 5) (disp : BitVec 18) (s : State) :
    Result :=
  runSeq onLS 16 false h (sendTile f .copy (do
    let x ← newCmd (.tzero h f ty m c disp)
    let r ← mapOf m
    let base ← based c disp
    checkMap r.view ty base
    limitIf ty.isMx
    return { x with map := r, src := base })) s

/-- R251: its effect is on timing only. -/
def execTprf (h : Hdr) (_ty : Ty) (_m : BitVec 4) (_c : BitVec 5) (_disp : BitVec 18) (s : State) : Result :=
  runSeq onLS 8 false h (plain (pure ())) s

/-! ## Remote transfers (R252, R253) -/

/-- A remote transfer: src is the local base, dst the remote one. -/
def remoteCopy (i : Instr) (r : BitVec 5) (m : BitVec 4) (c : BitVec 5) : M Cmd := do
  let x ← newCmd i
  let g ← mapOf m
  limitIf (!mapOk g.view)
  return { x with map := g, src := ← aOf c, dst := ← aOf r }

/-- R252. -/
def execRcpyWr (h : Hdr) (f : Sem) (r : BitVec 5) (m : BitVec 4) (c : BitVec 5) (log2 : BitVec 2) (s : State) :
    Result :=
  runSeq onLS 16 true h (sendCmd (some f) .copy (remoteCopy (.rcpyWr h f r m c log2) r m c)) s

/-- R252. -/
def execRcpyRd (h : Hdr) (f : Sem) (r : BitVec 5) (m : BitVec 4) (c : BitVec 5) (log2 : BitVec 2) (s : State) :
    Result :=
  runSeq onLS 16 true h (sendCmd (some f) .copy (remoteCopy (.rcpyRd h f r m c log2) r m c)) s

/-- The peer job and fabric address that a PR address names (R123): reason 8 off the path, reason 1 for an
entry that Kiln has not filled, and what the peer refuses (log 15). -/
def peerAt (kind : AKind) (va : Word) : M (Nat × Word) := do
  let s ← get
  if pathOf va != 8 then trapWith (xtrap kind 8 va)
  match (s.job? (← myCore).job).bind fun j => cfind j.peers (offOf va / 2 ^ 48) with
  | none => trapWith (xtrap kind 1 va)
  | some p =>
    match cfind s.memory.peerFault va.toNat with
    | some r => trapWith (xtrap kind r.toNat va)
    | none => return p

/-- RSIG (R253): once every earlier instruction of the sequencer has retired, the peer adds the value; a
release at .sys. -/
def execRsig (h : Hdr) (b c : BitVec 5) (s : State) : Result :=
  runSeq onLS 8 true h (plain (do
    let q ← mySeq
    let x := (← myCore).seq q
    waitFor (x.live.isEmpty && x.sigs.isEmpty)
    let va ← aOf b
    let v ← aOf c
    if pathOf va != 8 then trapWith (xtrap .write 8 va)
    aligned va 8
    let (ident, fabric) ← peerAt .write va
    let core ← me
    modify fun s =>
      (s.output (.peerAdd fabric ident (BitVec.ofNat 64 (offOf va % 2 ^ 48)) v)).flagCore core)) s

/-! ## CADDR on L and S -/

/-- R254. -/
def execCaddrLs (h : Hdr) (d b c : BitVec 5) (s : State) : Result :=
  runSeq onLS 8 false h (plain (do
    let a ← caddrOf (← aOf b) (← aOf c)
    setAReg d a)) s

end Sys2Proof.Machine
end

