-- ==== Sys2Proof/Machine/TileSteps.lean ====
section
/-! DEFINITION. Machine/TileSteps: what the load unit, the store unit and the copy engine do between two
boundaries of a tile command (R237 to R252): the elements of one aligned 8-byte word, or one block of an MX store. -/

namespace Sys2Proof.Machine

/-! ## The load half (R242) -/

def dqFmt : Dq → Option Fmt
  | .none => none | .f32 => some fmt32 | .bf16 => some fmtB16 | .f16 => some fmt16

/-- An element after the load half: bits, scale that travels with it, conditions. -/
def loadValue (ty : Ty) (o : LoadHalf) (r : Read) : Nat × Byte × Flags :=
  match dqFmt o.dq with
  | some f =>
    let v := dequant ty f r.scale r.bits
    (v.1, 127, v.2)
  | none =>
    (if o.conj then r.bits ^^^ 2 ^ 127 else r.bits, if ty.isMx then r.scale else 127, 0)

/-- TLD, one element (R242, R243). -/
def stepTld (ty : Ty) (dst : TDst) (o : LoadHalf) (x : Cmd) : M (Cmd × Option Trap) := do
  let m := loadMap x.map.view o
  let n := x.cursor
  let out := deliveredTy ty o.dq
  match dst with
  | .q q => waitFor (((← myCore).queue q.toNat).fits out)
  | .w _ => pure ()
  let off := m.off n
  let (r, x) ← atElem n (m.idx n) (readElem coreTile x.src (some x.sbase) off ty x)
  let (v, scale, fl) := loadValue ty o r
  let last := n + 1 == m.count
  let x := { x with
    begun := true, cursor := n + 1, done := last, fl := x.fl ||| fl
    regions := if last then [] else regionsOf (elemAddr x.src off ty.bits) (elemBytes off ty.bits) ++
      (if ty.isMx then regionsOf (scaleAddr x.sbase off) 1 else []) }
  match dst with
  | .q q =>
    modMe (·.putElem q.toNat { ty := out, bits := BitVec.ofNat 128 v, scale := scale, poison := r.poison
                               idx := m.idx n, last := last })
    return (x, none)
  | .w _ => return ({ x with staged := ⟨BitVec.ofNat 128 v, scale, r.poison⟩ :: x.staged }, none)

/-- TGTH, one element (R249). -/
def stepTgth (ty : Ty) (q lvl : BitVec 3) (x : Cmd) : M (Cmd × Option Trap) := do
  let m := x.map.view
  let n := x.cursor
  waitFor (((← myCore).queue q.toNat).fits ty)
  let (off, x, v, bad) ← atElem n (m.idx n) (do
    let (off, x) ← walkOff m lvl.toNat n x
    let (v, bad) ← readBits coreTile x.src off ty
    return (off, x, v, bad))
  let last := n + 1 == m.count
  modMe (·.putElem q.toNat { ty := ty, bits := BitVec.ofNat 128 v, poison := bad, idx := m.idx n, last := last })
  return ({ x with
    begun := true, cursor := n + 1, done := last
    regions := if last then [] else regionsOf (elemAddr x.src off ty.bits) (elemBytes off ty.bits) ++
      entryRegion x.idxBase ((m.digits n).getD lvl.toNat 0) }, none)

/-! ## Compressed tiles (R115) -/

/-- Bytes for tiles of the XV path wait until the tile's last element has come. -/
def xvStage (x : Cmd) (n : Nat) (va : Word) (bs : Marked) : Cmd :=
  bs.zipIdx.foldl (fun x b =>
    let a := offOf va + b.2
    let e := (cfind x.xv (a / 4096)).getD { first := n }
    { x with xv := cput x.xv (a / 4096) { e with bytes := cput e.bytes (a % 4096) (b.1.1, b.1.2, n) } }) x

/-- What a cut at the first element of a tile restores is noted as the tile is opened: x is the command before its
element (R76, R116). -/
def Cmd.openTiles (y x : Cmd) : Cmd :=
  { y with xv := cmap y.xv fun t e =>
      if (cfind x.xv t).isNone then { e with rng := x.rng, pa := x.pa, pb := x.pb } else e }

/-- Some element from n on satisfies a test; fuel bounds their number. -/
def someFrom (f : Nat → Bool) : Nat → Nat → Bool
  | 0, _ => false
  | k + 1, n => f n || someFrom f k (n + 1)

/-- Bytes of an element on the XV path. -/
def xvSpan (base : Word) (ty : Ty) (off : Int) : Nat × Nat :=
  (offOf (elemAddr base off ty.bits), elemBytes off ty.bits)

/-- Spans cover exactly whole tiles (R115). -/
def coversTiles (spans : List (Nat × Nat)) : Bool :=
  ((spans.flatMap fun p => blocksOf 4096 p.1 p.2).eraseDups).all fun t =>
    (upFrom (t * 4096) 4096).all fun b => spans.any fun p => p.1 ≤ b && b < p.1 + p.2

/-- Offsets of all elements of a walk. -/
def MapV.offs (m : MapV) : List Int := (upFrom 0 m.count).map m.off

/-- The check of R115 at the start of a command that writes through a base. -/
def checkTiles (base : Word) (ty : Ty) (offs : List Int) : M Unit :=
  limitIf (pathOf base = 6 && !coversTiles (offs.map (xvSpan base ty)))

/-- Some element after n touches tile t of the XV path. -/
def xvLater (m : MapV) (base : Word) (ty : Ty) (n t : Nat) : Bool :=
  someFrom (fun k =>
    let p := xvSpan base ty (m.off k)
    (blocksOf 4096 p.1 p.2).contains t) (m.count - (n + 1)) (n + 1)

/-! ## The store half (R244, R245) -/

/-- How bytes of a tile are written: at byte b of the stream of command x, for element n. -/
abbrev ByteWriter := Cmd → Nat → Int → Marked → M Cmd

/-- A core's write of tile bytes at a base; through XV the bytes wait for their tile. -/
def coreStore (base : Word) : ByteWriter := fun x n b bs => do
  let va := base + BitVec.ofInt 64 b
  samePath .write base va
  if pathOf va = 6 then return xvStage x n va bs
  else
    tilePath .write false va
    let x ← storeBytes .write x va bs
    return { x with regions := regionsOf va bs.length ++ x.regions }

/-- A coil store's write (R246): src is the handle, dst the first slot. -/
def coilStore : ByteWriter := fun x _ b bs => coilBytes x.src x.dst b bs x

def ovfOf (sh : StoreHalf) : Ovf := if sh.ovf then .nan else .sat

/-- The next draw of a stochastic stage (R76): the register and the draw. -/
def drawFor (sh : StoreHalf) (rng : BitVec 32) : BitVec 32 := if sh.mode = .sr then srDraw rng else rng

/-- Combine of R92 on encodings of a format. -/
def combine (red : Red) (ty : Ty) (d v : Nat) : Nat × Flags :=
  match fmtOf ty with
  | none => (v, 0)
  | some f =>
    match red with
    | .none => (v, 0)
    | .add =>
      if ty = .c64 then
        let r := addF f (unpackF f (d % 2 ^ 64)) (unpackF f (v % 2 ^ 64))
        let i := addF f (unpackF f (d / 2 ^ 64)) (unpackF f (v / 2 ^ 64))
        (r.1 + i.1 * 2 ^ 64, r.2 ||| i.2)
      else addF f (unpackF f d) (unpackF f v)
    | .max => (minmaxF f true d v, 0)
    | .min => (minmaxF f false d v, 0)

/-- The convert stage of an element (R78): equal types are left as they are. -/
def convertTo (src dst : Ty) (mode : RMode) (o : Ovf) (u : BitVec 32) (v : Nat) : Nat × Flags :=
  if src = dst then (v, 0)
  else match fmtOf src, fmtOf dst with
    | some f, some g => convF f g mode o u v
    | _, _ => (v, 0)

/-- Store one element of a type other than MX at off: reduce, convert, write (R245). A reduce whose in and memory type
are FP16 and BF16 brings the stored value to in with RNE and no option, and records that conversion's conditions: neither
type is the wider one, and R92 gives no mode for it (log 81). -/
def storeOne (rd : ByteReader) (wr : ByteWriter) (base : Word) (x : Cmd) (n : Nat) (off : Int) (ty : Ty)
    (sh : StoreHalf) (v : Nat) (poison : Bool) : M Cmd := do
  let b := off * ty.bits / 8
  let len := ty.bits / 8
  alignedAt (base + BitVec.ofInt 64 b) (min len 8)
  let (v, poison, fl) ← if sh.red = .none then pure (v, poison, (0 : Flags))
    else do
      let va := base + BitVec.ofInt 64 b
      samePath .write base va
      let (old, bad) ← xvOverlay x va (← rd .write va len)
      let d := convertTo ty sh.inTy .rne .none 0 (leNat old)
      let r := combine sh.red sh.inTy d.1 v
      pure (r.1, poison || bad, d.2 ||| r.2)
  let rng := if sh.inTy = ty then x.rng else drawFor sh x.rng
  let (w, fl') := convertTo sh.inTy ty sh.mode (ovfOf sh) rng v
  let x ← wr { x with rng := rng, fl := x.fl ||| fl ||| fl' } n b (marked (leBytes len w) poison)
  return x
where
  /-- A read through XV of bytes that an earlier element of the command wrote. -/
  xvOverlay (x : Cmd) (va : Word) (r : List Byte × Bool) : M (List Byte × Bool) :=
    if pathOf va = 6 then
      let l := r.1.zipIdx.map fun b =>
        let a := offOf va + b.2
        match (cfind x.xv (a / 4096)).bind fun e => cfind e.bytes (a % 4096) with
        | some m => (m.1, m.2.1)
        | none => (b.1, r.2)
      pure (l.map (·.1), l.any (·.2))
    else pure r

/-- An element that reaches a store half: its bits, poison and scale. -/
structure StoreIn where
  bits : Nat
  poison : Bool
  scale : Byte
  deriving DecidableEq, Repr, Inhabited

/-- Draws for the elements of a block, in order, and the register after them: one for each element that the stage
converts, so none for a dropped one (R76). -/
def draws (sh : StoreHalf) : List (Option StoreIn) → BitVec 32 → List (BitVec 32) × BitVec 32
  | [], r => ([], r)
  | e :: es, r =>
    let r := if e.isSome then drawFor sh r else r
    let (l, r') := draws sh es r
    (r :: l, r')

/-- The elements of a block, quantised where their type differs (R80, R240), with the block's scale, its
poison and the conditions. An element that a program dropped is none: amax and the test for special inputs are of those
that are left, and the scale of a block of none is 0 (DESIGN CHOICE, log 95). -/
def quantBlock (ty : Ty) (sh : StoreHalf) (us : List (BitVec 32)) (es : List (Option StoreIn)) :
    List (Option (Nat × Bool)) × Byte × Bool × Flags :=
  if sh.inTy = ty then
    (es.map fun e => e.map fun e => (e.bits, e.poison),
      match es with | some e :: _ => e.scale | _ => 127, false, 0)
  else
    let val (e : StoreIn) : FVal := match fmtOf sh.inTy with | some f => unpackF f e.bits | none => .nan
    let scale := quantScale ty (es.filterMap fun e => e.map val)
    let bad := es.any fun e => match e with | some e => e.poison | none => false
    let q (p : Option StoreIn × BitVec 32) : Option (Nat × Flags) :=
      p.1.map fun e => if scale = 0xFF then (0, 0) else quantElem ty scale sh.mode (ovfOf sh) p.2 (val e)
    let rs := (es.zip us).map q
    (rs.map fun r => r.map fun r => (r.1, bad), scale, bad,
      rs.foldl (fun fl r => match r with | some r => fl ||| r.2 | none => fl) 0)

/-- The bytes of a block's string: dropped elements keep the bits that stand there (R72, R248). -/
def blockBytes (ty : Ty) (old : List Byte) (es : List (Option (Nat × Bool))) : Marked :=
  let w := ty.bits
  let bit (k : Nat) : Bool × Bool :=
    match es.getD (k / w) none with
    | some (v, p) => (bitOf v (k % w), p)
    | none => (bitOf (leNat old) k, false)
  (upFrom 0 (4 * w)).map fun i =>
    let bs := (upFrom (8 * i) 8).map bit
    (BitVec.ofNat 8 ((bs.zipIdx.map fun b => if b.1.1 then 2 ^ b.2 else 0).sum), bs.any (·.2))

/-- Store a block of 32 elements and, where something names it, its scale byte (R235, R245). -/
def storeBlock (rd : ByteReader) (wr wrScale : ByteWriter) (base : Word) (scales : Bool) (x : Cmd) (n : Nat)
    (off : Int) (ty : Ty) (sh : StoreHalf) (es : List (Option StoreIn)) : M Cmd := do
  let (us, rng) := if sh.inTy = ty then ([], x.rng) else draws sh es x.rng
  let (vs, scale, bad, fl) := quantBlock ty sh us es
  let b := blockOf off * (4 * ty.bits)
  let old ← if es.any (·.isNone) then do
      let va := base + BitVec.ofInt 64 b
      let (bs, _) ← rd .write va (4 * ty.bits)
      pure bs
    else pure []
  let x ← wr { x with rng := rng, fl := x.fl ||| fl } n b (blockBytes ty old vs)
  if scales then wrScale x n (blockOf off) [(scale, bad)] else return x

/-- A scale byte is written on its own base's path; through XV it would be less than a tile (R115, R246). That of a block
that waits in an open tile waits with it (R245). -/
def scaleStore (sbase : Word) : ByteWriter := fun x n b bs => do
  limitIf (pathOf sbase = 6)
  if x.xv.isEmpty then coreStore sbase x n b bs
  else return { x with scales := x.scales ++ bs.map fun e => (n, b, e) }

/-- The open tiles are written, with the scale bytes of their blocks, once no element after n touches any of them, so that
a cut finds every element either written or not performed (R115, R239, R245; log 85): bytes that no element wrote, because
a program dropped it, stay as they are (R248). The faults of a tile belong to its first element (R116), those of a scale
byte to the first element of its block (R239). -/
def xvFlush (sbase : Word) (x : Cmd) (idx : Nat → Idx) (later : Nat → Bool) : M Cmd := do
  if x.xv.any fun p => later p.1 then return x
  else
    x.xv.forM fun p => do
      let va := BitVec.ofNat 64 (6 * 2 ^ 60 + p.1 * 4096)
      atElem p.2.first (idx p.2.first) (do
        let off ← xvTile .write va
        let c ← myCore
        xvWriteTile va ((upFrom 0 4096).map fun o =>
          match cfind p.2.bytes o with
          | some b => (b.1, b.2.1)
          | none => xvExpand c off o))
    x.scales.foldlM (fun x e => atElem e.1 (idx e.1) (coreStore sbase x e.1 e.2.1 [e.2.2])) { x with xv := [], scales := [] }

/-! ## TST and TSCT -/

/-- A trap while tiles of the XV path are open cuts the command at the first element that waits in one: it and the later
ones are not performed, and what was popped for them stands again at the head of their queue (R116, R239; log 85). -/
def xvCut (q : Option Nat) (x : Cmd) (m : M (Cmd × Option Trap)) : M (Cmd × Option Trap) := fun s =>
  match m.run s with
  | .error (.trap t) =>
    let n := x.firstLeft
    if n < x.cursor then
      let s := match q with
        | some q => s.modCore s.cur.1.val fun c => c.returnElems q (x.popped.drop (x.keptBefore n))
        | none => s
      .ok ((x.backTo n, some { t with cursor := n }), s)
    else .error (.trap t)
  | r => r

/-- The elements of a command that still wait in open tiles. -/
def waiting (x : Cmd) (es : List QElem) : List QElem := if x.xv.isEmpty then [] else x.popped ++ es

/-- The first step of a command that may write through XV makes the check of R115. -/
def beginTiles (x : Cmd) (check : M Unit) (step : M (Cmd × Option Trap)) : M (Cmd × Option Trap) := do
  if x.begun then step
  else do
    check
    return ({ x with begun := true }, none)

/-- TST, one element or one block (R245, R246). -/
def stepTst (ty : Ty) (o : BitVec 3) (sh : StoreHalf) (isCoil : Bool) (x : Cmd) : M (Cmd × Option Trap) :=
  let m := x.map.view
  let n := x.cursor
  let q := 8 + o.toNat
  let k := if ty.isMx then 32 else 1
  beginTiles x (if isCoil then pure () else checkTiles x.src ty m.offs) (xvCut (some q) x (do
    let es ← popElems q k
    let off := m.off n
    let base := if isCoil then 0 else x.src
    let wr : ByteWriter := if isCoil then coilStore else coreStore x.src
    let x0 := { x with regions := [] }
    let y ← atElem n (m.idx n) (do
      limitIf (es.any fun e => e.ty != sh.inTy)
      if ty.isMx then
        storeBlock coreTile wr (scaleStore x.sbase) base true x0 n off ty sh
          (es.map fun e => some ⟨e.bits.toNat, e.poison, e.scale⟩)
      else
        match es with
        | e :: _ => storeOne coreTile wr base x0 n off ty sh e.bits.toNat e.poison
        | [] => return x0)
    let z ← xvFlush x.sbase (y.openTiles x) m.idx (xvLater m x.src ty (n + k - 1))
    let last := n + k ≥ m.count
    return ({ z with cursor := n + k, done := last, popped := waiting z es
                     regions := if last then [] else z.regions }, none)))

/-- A store half without stages. -/
def plainHalf (ty : Ty) : StoreHalf :=
  { sc := 0, seed := 0, ovf := false, mode := .rne, inTy := ty, red := .none }

/-- The offsets of a scatter, for the check of R115 at its start; none while an entry cannot be read, whose fault then
cuts the command at the first element that reads it (R239, log 80). -/
def scatterOffs (x : Cmd) (lvl : Nat) : M (Option (List Int)) :=
  let m := x.map.view
  peekM ((upFrom 0 m.count).mapM fun i => gatherOff m x.idxBase lvl i)

/-- TSCT, one element (R249). -/
def stepTsct (ty : Ty) (o lvl : BitVec 3) (x : Cmd) : M (Cmd × Option Trap) :=
  let m := x.map.view
  let n := x.cursor
  let q := 8 + o.toNat
  beginTiles x (if pathOf x.src = 6 then do
      match ← scatterOffs x lvl.toNat with
      | some l => checkTiles x.src ty l
      | none => pure ()
    else pure ())
    (xvCut (some q) x (do
      let es ← popElems q 1
      let y ← atElem n (m.idx n) (do
        let (off, y) ← walkOff m lvl.toNat n x
        limitIf (es.any fun e => e.ty != ty)
        match es with
        | e :: _ =>
          storeOne coreTile (coreStore x.src) x.src { y with regions := [] } n off ty (plainHalf ty)
            e.bits.toNat e.poison
        | [] => return y)
      let last := n + 1 == m.count
      let z ← xvFlush 0 (y.openTiles x) m.idx fun _ => !last
      return ({ z with cursor := n + 1, done := last, popped := waiting z es
                       regions := if last then [] else
                         z.regions ++ entryRegion x.idxBase ((m.digits n).getD lvl.toNat 0) }, none)))

/-! ## The copy engine -/

/-- TZERO, one element (R250). -/
def stepTzero (ty : Ty) (x : Cmd) : M (Cmd × Option Trap) :=
  let m := x.map.view
  let n := x.cursor
  beginTiles x (checkTiles x.src ty m.offs) (xvCut none x (do
    let y ← atElem n (m.idx n)
      (storeOne coreTile (coreStore x.src) x.src { x with regions := [] } n (m.off n) ty (plainHalf ty) 0 false)
    let z ← xvFlush 0 (y.openTiles x) m.idx (xvLater m x.src ty n)
    let last := n + 1 == m.count
    return ({ z with cursor := n + 1, done := last, regions := if last then [] else z.regions }, none)))

/-- A trap of a port's pass as a trap of the command. -/
def liftTrap {α : Type} (r : Except Trap α) : M α :=
  match r with
  | .ok a => pure a
  | .error t => trapWith t

def storeOf (ty : Ty) (half : CpyHalf) : StoreHalf :=
  match half with
  | .load _ => plainHalf (cpyDstTy half ty)
  | .store o => o

/-- One source element on its path through the load half, CI and CO: what reaches the store half, none where a
program drops it (R248, R290). -/
def copyOne (rd : ByteReader) (core : Nat) (ty : Ty) (half : CpyHalf) (x : Cmd) (i : Nat) :
    M (Cmd × Option StoreIn) := do
  let lo := loadOf ty half
  let m := loadMap x.map.view lo
  let off := m.off i
  let sty := cpySrcTy half ty
  let sbase := match half with | .load _ => some x.sbase | .store _ => none
  let (r, x) ← atElem i (m.idx i) (readElem rd x.src sbase off sty x)
  let (v, scale, fl) := loadValue sty lo r
  let e : QElem := { ty := cpyPortTy half ty, bits := BitVec.ofNat 128 v, scale := scale, poison := r.poison
                     idx := m.idx i }
  let (pa, a) ← cutAt i (liftTrap (passPort { port := .ci, core := core } x.pa e))
  let x := { x with
    pa := pa, fl := x.fl ||| fl ||| a.fl
    regions := x.regions ++ regionsOf (elemAddr x.src off sty.bits) (elemBytes off sty.bits) ++
      (match sbase with | some sb => if sty.isMx then regionsOf (scaleAddr sb off) 1 else [] | none => []) }
  match a.prim with
  | [] => return (x, none)
  | e :: _ =>
    let (pb, b) ← cutAt i (liftTrap (passPort { port := .co, core := core } x.pb e))
    let x := { x with pb := pb, fl := x.fl ||| b.fl }
    match b.prim with
    | [] => return (x, none)
    | e :: _ => return (x, some ⟨e.bits.toNat, e.poison, e.scale⟩)

/-- The elements i, i + 1, … of a block. -/
def copyMany (rd : ByteReader) (core : Nat) (ty : Ty) (half : CpyHalf) :
    Nat → Nat → Cmd → M (Cmd × List (Option StoreIn))
  | 0, _, x => return (x, [])
  | k + 1, i, x => do
    let (x, e) ← copyOne rd core ty half x i
    let (x, es) ← copyMany rd core ty half k (i + 1) x
    return (x, e :: es)

/-- TCPY, one element or one block of an MX destination (R248). A store half whose two types are one MX type
names no scales of its source: what it writes for them is a free value. -/
def copyStep (rd : ByteReader) (wr wrScale : ByteWriter) (core : Nat) (ty : Ty) (half : CpyHalf) (x : Cmd) :
    M Cmd := do
  let m := x.map.view
  let n := x.cursor
  let dty := cpyDstTy half ty
  let sh := storeOf ty half
  let k := if dty.isMx then 32 else 1
  let (y, es) ← copyMany rd core ty half k n { x with regions := [] }
  let off := m.off n
  atElem n (m.idx n) (do
    if dty.isMx then
      let scales := match half with | .load _ => false | .store _ => true
      let es ← if scales && sh.inTy == dty then do
          let w ← freeWord
          pure (es.map fun e => e.map fun e => { e with scale := w.setWidth 8 })
        else pure es
      storeBlock rd wr wrScale x.dst scales y n off dty sh es
    else
      match es with
      | some e :: _ => storeOne rd wr x.dst y n off dty sh e.bits e.poison
      | _ => return y)

/-- A trap of a block's element cuts an MX copy at the block's first element (R245). -/
def cutBlock (n : Nat) (m : M Cmd) : M Cmd := cutAt n m

def stepTcpy (ty : Ty) (half : CpyHalf) (x : Cmd) : M (Cmd × Option Trap) :=
  let m := x.map.view
  let n := x.cursor
  let dty := cpyDstTy half ty
  let k := if dty.isMx then 32 else 1
  beginTiles x (checkTiles x.dst dty m.offs) (xvCut none x (do
    let core ← me
    let y ← cutBlock n (copyStep coreTile (coreStore x.dst) (scaleStore x.sbase) core ty half x)
    let z ← xvFlush x.sbase (y.openTiles x) m.idx (xvLater m x.dst dty (n + k - 1))
    let last := n + k ≥ m.count
    return ({ z with cursor := n + k, done := last, regions := if last then [] else z.regions }, none)))

/-! ## Remote transfers (R252) -/

/-- The local side accepts G, N, LS and CL. -/
def localPath (kind : AKind) (va : Word) : M Unit :=
  if pathOf va = 6 then trapWith (xtrap kind 8 va) else tilePath kind false va

def remoteOff (va : Word) : Word := BitVec.ofNat 64 (offOf va % 2 ^ 48)

/-- RCPY.wr, one element: local to remote. -/
def stepRcpyWr (log2 : BitVec 2) (x : Cmd) : M (Cmd × Option Trap) := do
  let m := x.map.view
  let n := x.cursor
  let len := 2 ^ log2.toNat
  atElem n (m.idx n) (do
    let l := elemAddr x.src (m.off n) (8 * len)
    let r := elemAddr x.dst (m.off n) (8 * len)
    samePath .read x.src l
    localPath .read l
    alignedAt l len
    let (bs, bad) ← tileRead l len
    if pathOf x.dst != 8 then trapWith (xtrap .write 8 x.dst)
    samePath .write x.dst r
    alignedAt r len
    let (ident, fabric) ← peerAt .write r
    modify fun s => s.output (.peerWrite fabric ident (remoteOff r) bs bad)
    let last := n + 1 == m.count
    return ({ x with begun := true, cursor := n + 1, done := last
                     regions := if last then [] else regionsOf l len }, none))

/-- RCPY.rd, one element: remote to local. What the peer answers is not this machine's (log 15). -/
def stepRcpyRd (log2 : BitVec 2) (x : Cmd) : M (Cmd × Option Trap) := do
  let m := x.map.view
  let n := x.cursor
  let len := 2 ^ log2.toNat
  atElem n (m.idx n) (do
    let l := elemAddr x.src (m.off n) (8 * len)
    let r := elemAddr x.dst (m.off n) (8 * len)
    if pathOf x.dst != 8 then trapWith (xtrap .read 8 x.dst)
    samePath .read x.dst r
    alignedAt r len
    let (ident, fabric) ← peerAt .read r
    let s ← get
    set { s with fresh := s.fresh + 1 }
    let bs := (upFrom 0 len).map fun i =>
      Config.peerByte fabric ident (remoteOff r + BitVec.ofNat 64 i) s.fresh
    samePath .write x.src l
    localPath .write l
    alignedAt l len
    let x ← storeBytes .write x l (marked bs (Config.peerPoison fabric ident (remoteOff r) s.fresh))
    let last := n + 1 == m.count
    return ({ x with begun := true, cursor := n + 1, done := last
                     regions := if last then [] else regionsOf l len }, none))

/-! ## Words (R129, R160) -/

/-- The aligned 8-byte word, by its number, that element n of a writing command lies in, or, for an MX type, the word of
its scale byte; none where an element is a whole word or more, or waits in a tile of the XV path. -/
def wordOf (base sbase : Word) (ty : Ty) (off : Int) : Option Nat :=
  let va := if ty.isMx then scaleAddr sbase off else elemAddr base off ty.bits
  if pathOf base = 6 || (!ty.isMx && 64 ≤ ty.bits) then none else some (va.toNat / 8)

/-- That word of a command's element n. -/
def Cmd.word (x : Cmd) (n : Nat) : M (Option Nat) :=
  let m := x.map.view
  match x.inst with
  | .tst _ _ ty .. => pure (wordOf x.src x.sbase ty (m.off n))
  | .tstCoil _ _ ty .. => pure (wordOf 0 x.sbase ty (m.off n))
  | .tsct _ _ ty _ _ _ _ lvl _ => do
    match ← peekM (gatherOff m x.idxBase lvl.toNat n) with
    | some off => return wordOf x.src 0 ty off
    | none => return none
  | .tcpy _ _ ty _ _ _ _ _ half => pure (wordOf x.dst x.sbase (cpyDstTy half ty) (m.off n))
  | .tzero _ _ ty .. => pure (wordOf x.src 0 ty (m.off n))
  | .rcpyRd _ _ _ _ _ log2 =>
    let bytes := 2 ^ log2.toNat
    pure (if bytes < 8 then some ((elemAddr x.src (m.off n) (8 * bytes)).toNat / 8) else none)
  | _ => pure none

/-- The consecutive elements of a command that lie in one aligned 8-byte word are performed in one step, so that no other
agent's write comes between them (R129, R160; log 83). A trap commits those before it. fuel bounds their number. -/
def wordGroup (step : Cmd → M (Cmd × Option Trap)) : Nat → Cmd → M (Cmd × Option Trap)
  | 0, x => step x
  | fuel + 1, x => do
    let (y, t) ← step x
    if t.isSome || y.done || y.cursor ≤ x.cursor then return (y, t)
    let a ← x.word x.cursor
    if a.isNone || (← y.word y.cursor) != a then return (y, none)
    fun s => match (wordGroup step fuel y).run s with
      | .error (.trap t) => .ok ((y, some t), s)
      | r => r

/-- The strides of a walk rise: every level steps beyond all that the levels below it reach, r. -/
def climbs : List Nat → List Int → Int → Bool
  | e :: es, s :: ss, r => (decide (e ≤ 1) || decide (r < s)) && climbs es ss (r + (e - 1 : Nat) * s)
  | _, _, _ => true

/-- A command that may come back to a word which it has left: its walk does not rise throughout. -/
def Cmd.returns (x : Cmd) : Bool :=
  match x.inst with
  | .tsct .. => true
  | _ =>
    let m := x.map.view
    !(decide (4 < m.ring) && climbs m.ext m.stride 0)

/-- The elements of one word: at most eight of a byte. A command that does not come back to it, or is done, is then no
longer among the word's writers (R160). -/
def byWords (step : Cmd → M (Cmd × Option Trap)) (x : Cmd) : M (Cmd × Option Trap) := do
  let (y, t) ← wordGroup step 7 x
  if t.isNone && !y.words.isEmpty && (y.done || !y.returns) then
    modify (·.leaveWords y)
    if ((← get).specOn (← me)).isSome then setSpec fun z => { z with parts := y.leave z.parts }
    return ({ y with words := [] }, t)
  else return (y, t)

end Sys2Proof.Machine
end

