-- ==== Sys2Proof/Machine/Matrix.lean ====
section
/-! DEFINITION. Machine/Matrix: accumulator lines (R120, R256), matrix dot products (R82 to R87), the
down-converter (R88, R89) and the arithmetic of MFACT (R270). -/

namespace Sys2Proof.Machine

/-! ## Accumulator lines -/

/-- Lines of a row (R120). -/
def modeLines : Lines → Nat | .f32 => 4 | .f64 | .c64 => 1

/-- Values of a row as the engines see them: FP32, or FP64 (a .c64 row as 32 parts). -/
def modeVals : Lines → Nat | .f32 => 256 | .f64 | .c64 => 32

/-- The line mode of a weight format (R256). -/
def lineMode : Ty → Lines | .f64 => .f64 | .c64 => .c64 | _ => .f32

def accWord (c : CoreSt) (k : Nat) : Nat × Bool := ((cget 0 c.stores.acc k).toNat, cget false c.stores.accPoison k)

def setAccWord (c : CoreSt) (k v : Nat) (bad : Bool) : CoreSt :=
  { c with stores := { c.stores with
      acc := cset 0 c.stores.acc k (BitVec.ofNat 32 v), accPoison := cset false c.stores.accPoison k bad } }

/-- Value n of the row that starts at a line, with its poison bit (R120, R414). -/
def rowVal (c : CoreSt) (mode : Lines) (line n : Nat) : Nat × Bool :=
  match mode with
  | .f32 => accWord c (64 * line + n)
  | .f64 | .c64 =>
    let lo := accWord c (64 * line + 2 * n)
    let hi := accWord c (64 * line + 2 * n + 1)
    (lo.1 + hi.1 * 2 ^ 32, lo.2 || hi.2)

def putRowVal (c : CoreSt) (mode : Lines) (line n : Nat) (v : Nat × Bool) : CoreSt :=
  match mode with
  | .f32 => setAccWord c (64 * line + n) v.1 v.2
  | .f64 | .c64 =>
    setAccWord (setAccWord c (64 * line + 2 * n) (v.1 % 2 ^ 32) v.2) (64 * line + 2 * n + 1) (v.1 / 2 ^ 32) v.2

/-- The values of a row. -/
def rowVals (c : CoreSt) (mode : Lines) (line : Nat) : List (Nat × Bool) :=
  (upFrom 0 (modeVals mode)).map (rowVal c mode line)

/-- Write the first values of a row. -/
def putRow (c : CoreSt) (mode : Lines) (line : Nat) (vs : List (Nat × Bool)) : CoreSt :=
  vs.zipIdx.foldl (fun c v => putRowVal c mode line v.2 v.1) c

/-- A range keeps the row alignment of a line mode (R120, R256). -/
def rangeFits (z : ZRange) (mode : Lines) : Bool :=
  rangeOk z.first.toNat z.count (modeLines mode)

def rowsOf (z : ZRange) (mode : Lines) : Nat := z.count / modeLines mode

/-! ## Dot products -/

/-- Weight and activation formats that a matrix command may pair (R82). -/
def pairOk (w a : Ty) : Bool :=
  match w with
  | .bf16 | .f16 => a == .bf16 || a == .f16
  | .f32 => a == .f32
  | .f64 => a == .f64
  | .c64 => a == .c64
  | _ => w.isMx && a.isMx

/-- A value without its block's scale (R83). -/
def plainVal (t : Ty) (bits : Nat) : FVal :=
  if t.isMx then mxVal t bits else match fmtOf t with | some f => unpackF f bits | none => .nan

/-- An activation value with the scale of its block. -/
structure Act1 where
  bits : Nat
  scale : Byte
  deriving DecidableEq, Repr, Inhabited

/-- A group of products with the scales of its two blocks; void marks the positions above a down-converted row,
which add +0 products (R262). -/
structure Group where
  prods : List (FVal × Bool)
  ea : Byte
  eb : Byte
  void : Bool
  deriving DecidableEq, Repr

/-- R84's words for its second rounding: a term that is not zero and rounds to zero records underflow as well. -/
def tinyTerm (t r : Nat) : Flags := if t % 2 ^ 31 ≠ 0 ∧ r % 2 ^ 31 = 0 then flUnderflow else 0

/-- The term of one group: the exact sum, rounded, and in the MX modes scaled and rounded again (R83, R84). -/
def groupTerm (mx : Bool) (g : Group) : Nat × Flags :=
  if mx && (g.ea == 0xFF || g.eb == 0xFF) then (fmt32.cnan, 0)
  else if g.void then (0, 0)
  else
    let s := exactSum g.prods
    let t := roundNE fmt32 s.1
    if mx then
      let r := roundNE fmt32 ((unpackF fmt32 t.1).scale ((g.ea.toNat : Int) + g.eb.toNat - 254))
      (r.1, s.2 ||| t.2 ||| r.2 ||| tinyTerm t.1 r.1)
    else (t.1, s.2 ||| t.2)

/-- Accumulate the groups of one result value (R83); fresh says that the first term overwrites. -/
def accumulate (mx : Bool) : Bool → Nat → List Group → Nat × Flags
  | _, acc, [] => (acc, 0)
  | fresh, acc, g :: r =>
    let t := groupTerm mx g
    let a := if fresh then (t.1, 0) else addF fmt32 (unpackF fmt32 acc) (unpackF fmt32 t.1)
    let o := accumulate mx false a.1 r
    (o.1, t.2 ||| a.2 ||| o.2)

/-- The columns of a tile, each with k ascending (R243). -/
def tileColumns (t : Tile) : List (List TileElem) := chunksOf (latchDims t.fmt).1 t.vals

/-- Group length (R82). -/
def groupLen (w : Ty) : Nat := if w = .f32 then 8 else 32

/-- The groups of a column. -/
def columnGroups (t : Tile) (ty : Ty) (act : List Act1) (voidFrom : Nat) (column : List TileElem) : List Group :=
  let g := groupLen t.fmt
  (upFrom 0 ((latchDims t.fmt).1 / g)).map fun i =>
    let as := (act.drop (g * i)).take g
    let ws := (column.drop (g * i)).take g
    { prods := (as.zip ws).map fun p => mulV (plainVal ty p.1.bits) (plainVal t.fmt p.2.bits.toNat)
      ea := (as.headD ⟨0, 127⟩).scale
      eb := (ws.headD ⟨0, 127, false⟩).scale
      void := decide (voidFrom ≤ g * i) }

/-- A chain of fused multiply-adds in FP64 (R85). -/
def chain64 : Bool → Nat → List (Nat × Nat) → Nat × Flags
  | _, acc, [] => (acc, 0)
  | fresh, acc, (a, w) :: r =>
    let x := unpackF fmt64 a
    let y := unpackF fmt64 w
    let t := if fresh then mulF fmt64 x y else fmaF fmt64 x y (unpackF fmt64 acc)
    let o := chain64 false t.1 r
    (o.1, t.2 ||| o.2)

def loHalf (v : Nat) : Nat := v % 2 ^ 64
def hiHalf (v : Nat) : Nat := v / 2 ^ 64 % 2 ^ 64

/-- The inverted sign of an FP64 encoding. -/
def neg64 (v : Nat) : Nat := v ^^^ 2 ^ 63

/-- The products of result part r of a .c64 column (R86). -/
def complexPairs (act : List Act1) (column : List TileElem) (r : Nat) : List (Nat × Nat) :=
  (act.zip column).flatMap fun p =>
    let w := p.2.bits.toNat
    if r = 0 then [(loHalf p.1.bits, loHalf w), (hiHalf p.1.bits, neg64 (hiHalf w))]
    else [(loHalf p.1.bits, hiHalf w), (hiHalf p.1.bits, loHalf w)]

/-- The number of values of a result row as the lines hold them (R261). -/
def resultVals (w : Ty) : Nat := if w = .c64 then 32 else (latchDims w).2

/-- The column of a result value. -/
def columnOf (w : Ty) (i : Nat) : Nat := if w = .c64 then i / 2 else i

/-- Result value i of a row, from its column of weights and the value that its lines hold (R83, R85, R86). -/
def resultVal (t : Tile) (ty : Ty) (act : List Act1) (voidFrom : Nat) (ow : Bool) (w : List TileElem) (acc i : Nat) :
    Nat × Flags :=
  match t.fmt with
  | .f64 => chain64 ow acc ((act.zip w).map fun p => (p.1.bits, p.2.bits.toNat))
  | .c64 => chain64 ow acc (complexPairs act w (i % 2))
  | f => accumulate f.isMx ow acc (columnGroups t ty act voidFrom w)

/-- A result row: values with their poison bits (R263: of the activations, of a weight that feeds the column, of
the line), and the conditions recorded. -/
def resultRow (t : Tile) (ty : Ty) (act : List Act1) (voidFrom : Nat) (actBad ow : Bool)
    (line : List (Nat × Bool)) : List (Nat × Bool) × Flags :=
  let cols := tileColumns t
  let vs := (upFrom 0 (resultVals t.fmt)).map fun i =>
    let a := line.getD i (0, false)
    let w := cols.getD (columnOf t.fmt i) []
    let r := resultVal t ty act voidFrom ow w a.1 i
    ((r.1, actBad || w.any (·.poison) || (!ow && a.2)), r.2)
  (vs.map (·.1), (vs.map (·.2)).foldl (· ||| ·) 0)

/-! ## The down-converter (R88) -/

/-- An activation value with its poison bit. -/
abbrev ActP := Act1 × Bool

/-- One block of 32 FP32 values quantised with RNE and saturation; poison in it poisons all of it. -/
def downBlock (ty : Ty) (vs : List (Nat × Bool)) : List ActP × Flags :=
  let xs := vs.map fun v => unpackF fmt32 v.1
  let scale := quantScale ty xs
  let bad := vs.any (·.2)
  let qs := xs.map fun x => if scale = 0xFF then (0, (0 : Flags)) else quantElem ty scale .rne .sat 0 x
  (qs.map fun q => (⟨q.1, scale⟩, bad), (qs.map (·.2)).foldl (· ||| ·) 0)

/-- A row of lines in the declared format. -/
def downConvert (ty : Ty) (vs : List (Nat × Bool)) : List ActP × Flags :=
  match ty with
  | .f32 | .f64 => (vs.map fun v => (⟨v.1, 127⟩, v.2), 0)
  | .c64 => ((chunksOf 2 vs).map fun p =>
      let a := p.headD (0, false)
      let b := (p.drop 1).headD (0, false)
      (⟨a.1 + b.1 * 2 ^ 64, 127⟩, a.2 || b.2), 0)
  | .bf16 | .f16 =>
    let f := if ty = .bf16 then fmtB16 else fmt16
    let qs := vs.map fun v => (convF fmt32 f .rne .none 0 v.1, v.2)
    (qs.map fun q => (⟨q.1.1, 127⟩, q.2), (qs.map (·.1.2)).foldl (· ||| ·) 0)
  | _ =>
    let bs := (chunksOf 32 vs).map (downBlock ty)
    (bs.flatMap (·.1), (bs.map (·.2)).foldl (· ||| ·) 0)

/-- The activation row of an MMAC: K values, those above the row's 256 void (R262). -/
def downRow (w ty : Ty) (vs : List (Nat × Bool)) : List ActP × Flags :=
  let k := (latchDims w).1
  let used := if w = .f32 then vs.take 128 else vs
  let r := downConvert ty used
  (r.1 ++ List.replicate (k - r.1.length) (⟨0, 0⟩, false), r.2)

/-! ## MFACT (R270) -/

/-- A matrix value: one FP64 encoding, or two for .c64, with a poison bit. -/
structure MVal where
  re : Nat
  im : Nat
  bad : Bool
  deriving DecidableEq, Repr, Inhabited

/-- Results of FP64 arithmetic carry their conditions along. -/
abbrev Noted := StateM Flags

def noted (r : Nat × Flags) : Noted Nat := do
  modify (· ||| r.2)
  return r.1

def v64 (a : Nat) : FVal := unpackF fmt64 a

def mul64 (a b : Nat) : Noted Nat := noted (mulF fmt64 (v64 a) (v64 b))

/-- a × b + c, fused. -/
def fma64 (a b c : Nat) : Noted Nat := noted (fmaF fmt64 (v64 a) (v64 b) (v64 c))

/-- A quotient rounded once: of ±0 by ±0 or of infinities it is a NaN with invalid; of a finite value that is
not zero by ±0 it is an infinity, of which the conditions of R81 name nothing for division. -/
def divV (f : Fmt) (x d : FVal) : Nat × Flags :=
  match x, d with
  | .nan, _ => (f.cnan, 0)
  | _, .nan => (f.cnan, 0)
  | .inf _, .inf _ => (f.cnan, flInvalid)
  | .inf s, .fin t _ _ => (infBits f (s != t), 0)
  | .fin s _ _, .inf t => (signBit f (s != t), 0)
  | .fin s m e, .fin t n g =>
    if n = 0 then (if m = 0 then (f.cnan, flInvalid) else (infBits f (s != t), 0))
    else
      let k := bitLen n + f.m + 8
      roundFin f .rne .none 0 (s != t) (m * 2 ^ k / n) (e - g - k) (m * 2 ^ k % n != 0)

def div64 (a b : Nat) : Noted Nat := noted (divV fmt64 (v64 a) (v64 b))

def abs64 (a : Nat) : Nat := a % 2 ^ 63

/-- Mag of R270. -/
def magOf (cplx : Bool) (x : MVal) : Noted Nat :=
  if cplx then noted (addF fmt64 (v64 (abs64 x.re)) (v64 (abs64 x.im))) else return abs64 x.re

/-- Div of R270. -/
def matDiv (cplx : Bool) (x d : MVal) : Noted MVal := do
  if cplx then
    let h ← mul64 d.re d.re
    let h ← fma64 d.im d.im h
    let wr ← div64 d.re h
    let wi ← div64 (neg64 d.im) h
    let re ← mul64 x.re wr
    let re ← fma64 (neg64 x.im) wi re
    let im ← mul64 x.re wi
    let im ← fma64 x.im wr im
    return ⟨re, im, x.bad || d.bad⟩
  else return ⟨← div64 x.re d.re, 0, x.bad || d.bad⟩

/-- Sub of R270: x − l × u. -/
def matSub (cplx : Bool) (x l u : MVal) : Noted MVal := do
  let bad := x.bad || l.bad || u.bad
  let re ← fma64 (neg64 l.re) u.re x.re
  if cplx then
    let re ← fma64 l.im u.im re
    let im ← fma64 (neg64 l.re) u.im x.im
    let im ← fma64 (neg64 l.im) u.re im
    return ⟨re, im, bad⟩
  else return ⟨re, 0, bad⟩

/-- x > y for magnitudes: a NaN is never greater. -/
def greater64 (x y : Nat) : Bool :=
  let a := v64 x
  let b := v64 y
  !a.isNan && !b.isNan && cmpV a b == .gt

abbrev Mat := List (List MVal)

def matAt (a : Mat) (i k : Nat) : MVal := (a.getD i []).getD k default

/-- The pivot row of column j: the row of the largest magnitude, a tie keeping the lower row. -/
def pivotRow (cplx : Bool) (a : Mat) (j : Nat) : Noted Nat := do
  let m ← magOf cplx (matAt a j j)
  let r ← (upFrom (j + 1) (a.length - (j + 1))).foldlM (fun (b : Nat × Nat) i => do
    let m ← magOf cplx (matAt a i j)
    return if greater64 m b.1 then (m, i) else b) (m, j)
  return r.2

def MVal.zero (cplx : Bool) (x : MVal) : Bool :=
  (v64 x.re).isZero && (!cplx || (v64 x.im).isZero)

/-- One row below the pivot. -/
def eliminate (cplx : Bool) (j : Nat) (pivot row : List MVal) : Noted (List MVal) := do
  let l ← matDiv cplx (row.getD j default) (pivot.getD j default)
  row.zipIdx.mapM fun x => do
    if x.2 < j then return x.1
    else if x.2 = j then return l
    else matSub cplx x.1 l (pivot.getD x.2 default)

/-- Column step j: the matrix after it, the pivot row, and whether the pivot is zero. -/
def columnStep (cplx : Bool) (a : Mat) (j : Nat) : Noted (Mat × Nat × Bool) := do
  let p ← pivotRow cplx a j
  let a := exch a j p
  if (matAt a j j).zero cplx then return (a, p, true)
  else
    let pivot := a.getD j []
    let b ← a.zipIdx.mapM fun r => if r.2 ≤ j then return r.1 else eliminate cplx j pivot r.1
    return (b, p, false)

end Sys2Proof.Machine
end

