-- ==== Sys2Proof/Machine/Engines.lean ====
section
/-! DEFINITION. Machine/Engines: the instructions of C but the macro operations (R260 to R274, R284, R285): their
issue, and what the matrix, reduction and pass engines do between two boundaries (R258). -/

namespace Sys2Proof.Machine

/-! ## Issue -/

/-- A double of C (R162): its command goes to an engine. -/
def sendC (h : Hdr) (wait : Option Sem) (u : CUnit) (mk : M Cmd) (s : State) : Result :=
  runSeq onC 16 false h (sendCmd wait u mk) s

/-- A command of C that runs programs at its two ports; slot 63 is none. -/
def portCmd (i : Instr) (a b : BitVec 6) : M Cmd := do
  let x ← newCmd i
  let pa ← instOf a
  let pb ← instOf b
  return { x with pa := pa, pb := pb }

/-- R260. -/
def execMlw (h : Hdr) (f : Sem) (ty : Ty) (w : BitVec 1) (q : BitVec 3) (s : State) : Result :=
  sendC h (some f) .mat (newCmd (.mlw h f ty w q)) s

/-- R261. -/
def execMma (h : Hdr) (f : Sem) (ty : Ty) (ow : Bool) (w : BitVec 1) (q : BitVec 3) (slot : BitVec 6) (z : ZRange)
    (s : State) : Result :=
  sendC h (some f) .mat (portCmd (.mma h f ty ow w q slot z) slot 63) s

/-- R262. -/
def execMmac (h : Hdr) (f : Sem) (ty : Ty) (ow : Bool) (w : BitVec 1) (slot : BitVec 6) (z : ZRange)
    (src : BitVec 11) (s : State) : Result :=
  sendC h (some f) .mat (portCmd (.mmac h f ty ow w slot z src) slot 63) s

/-- R264. -/
def execMzero (h : Hdr) (f : Sem) (ty : Ty) (z : ZRange) (s : State) : Result :=
  sendC h (some f) .mat (newCmd (.mzero h f ty z)) s

/-- R265. -/
def execMdrain (h : Hdr) (f : Sem) (ty : Ty) (o : BitVec 3) (slot : BitVec 6) (z : ZRange) (lines : Lines)
    (s : State) : Result :=
  sendC h (some f) .mat (portCmd (.mdrain h f ty o slot z lines) slot 63) s

/-- The two checks at the issue of an MDRAINX (R267). -/
def peerReady (mem : BitVec 3) : M Unit := do
  let s ← get
  let core ← me
  let together := match (s.core core).task with
    | some t => match s.launch? t.job t.launch with | some l => l.cores | none => false
    | none => false
  limitIf (!together || !s.sameLaunch core (peerOf core mem))

/-- R266, R267: its wait field names a semaphore of the peer, which it tests once it starts. -/
def execMdrainx (h : Hdr) (f : Sem) (ty : Ty) (mem : BitVec 3) (slot : BitVec 6) (z : ZRange) (peer : BitVec 11)
    (s : State) : Result :=
  sendC h none .mat (do
    peerReady mem
    portCmd (.mdrainx h f ty mem slot z peer) slot 63) s

/-- R274. -/
def execTred (h : Hdr) (f : Sem) (ty : Ty) (o q : BitVec 3) (ri ro : BitVec 6) (op : RedOp) (levels : BitVec 3)
    (s : State) : Result :=
  sendC h (some f) .red (do
    let x ← portCmd (.tred h f ty o q ri ro op levels) ri ro
    let level := match x.pa with | some i => i.prog.carry | none => 0
    limitIf (op == .chain && level + 1 != levels.toNat)
    return x) s

/-- R273. -/
def execTpass (h : Hdr) (f : Sem) (ty : Ty) (o q : BitVec 3) (pi po : BitVec 6) (s : State) : Result :=
  sendC h (some f) .pass (portCmd (.tpass h f ty o q pi po) pi po) s

/-- MSTAT (R271): the statistic goes to K and is cleared. -/
def execMstat (h : Hdr) (code : BitVec 3) (s : State) : Result :=
  runSeq onC 8 false h (do
    drained
    let v := cget 0 (← myCore).stores.stats code.toNat
    modMe (·.setStat code.toNat 0)
    return { val := some (.k, v) }) s

/-- PSTATE (R285). -/
def execPstate (h : Hdr) (port k : BitVec 3) (s : State) : Result :=
  runSeq onC 8 false h (do
    drained
    let v := (cget [] (← myCore).stores.lastK port.toNat).getD k.toNat {}
    if v.poison then trapWith { cause := 0x0E, reason := 4 }
    return { val := some (.k, v.bits.setWidth 64) }) s

/-! ## Bindings (R182, R186, R284) -/

/-- The bytes of a record of the kernel's .pp section, from its first one on; none beyond its end. -/
def State.ppRecord (s : State) (core rec : Nat) : Option (List Byte) := do
  let t ← (s.core core).task
  let l ← s.launch? t.job t.launch
  let j ← s.job? t.job
  let k ← cfind j.kernels l.kernel
  let o ← k.pp[rec]?
  return k.ppBytes.drop o

def word32 (bs : List Byte) (o : Nat) : BitVec 32 := BitVec.ofNat 32 (leNat ((bs.drop o).take 4))

def zeroFrom (bs : List Byte) (o n : Nat) : Bool := ((bs.drop o).take n).all (· == 0)

/-- The cause that PBIND raises for a program record: illegal before reserved before limit (R182). -/
def programCause (bs : List Byte) : Option Nat :=
  let n := (bs.getD 1 0).toNat
  let words := (upFrom 0 16).map fun i => word32 bs (40 + 4 * i)
  let errs := (words.take n).filterMap fun w => match decodeElem w with | .error e => some e.cause | .ok _ => none
  let reserved := !zeroFrom bs 3 5 || !zeroFrom bs 104 24 || (words.drop n).any (· != 0)
  let limit := n = 0 || decide (n > 16) || decide ((bs.getD 2 0).toNat > 4)
  if errs.contains 1 then some 1
  else if errs.contains 2 || reserved then some 2
  else if errs.contains 3 || limit then some 3
  else none

def programOf (bs : List Byte) : Program :=
  let n := (bs.getD 1 0).toNat
  { carry := (bs.getD 2 0).toNat
    kinit := (upFrom 0 8).map fun i => word32 bs (8 + 4 * i)
    words := (upFrom 0 n).map fun i => word32 bs (40 + 4 * i) }

/-- The record that a PBIND names, when it has the form's kind. -/
def recordOf (rec : BitVec 18) (kind : Nat) : M (List Byte) := do
  drained
  let s ← get
  match s.ppRecord (← me) rec.toNat with
  | none => limitTrap
  | some bs =>
    limitIf ((bs.getD 0 0).toNat != kind)
    return bs

/-- R284. -/
def execPbind (h : Hdr) (slot : BitVec 6) (rec : BitVec 18) (s : State) : Result :=
  runSeq onC 8 false h (plain (do
    let bs ← recordOf rec 1
    match programCause bs with
    | some n => trapWith { cause := n }
    | none => modMe fun c => { c with stores := { c.stores with
        slots := cput c.stores.slots slot.toNat (programOf bs) } })) s

/-- R284. -/
def execPbindTable (h : Hdr) (table : BitVec 2) (rec : BitVec 18) (s : State) : Result :=
  runSeq onC 8 false h (plain (do
    let bs ← recordOf rec 2
    if !zeroFrom bs 1 7 then trapWith { cause := 2 }
    modMe fun c => { c with stores := { c.stores with
      tables := cput c.stores.tables table.toNat ((upFrom 0 256).map fun i => word32 bs (8 + 4 * i)) } })) s

/-! ## The matrix engine -/

/-- MLW, one element (R260). -/
def stepMlw (ty : Ty) (q : BitVec 3) (x : Cmd) : M (Cmd × Option Trap) := do
  let n := x.cursor
  let es ← popElems q.toNat 1
  cutAt n (limitIf (es.any fun e => e.ty != ty))
  return ({ x with
    begun := true, cursor := n + 1, done := n + 1 == latchCount ty
    staged := (es.map fun e => ⟨e.bits, e.scale, e.poison⟩).reverse ++ x.staged }, none)

/-- The tile that a matrix command has begun with. -/
def latchTile (w : BitVec 1) : M Tile := do
  match ((← myCore).latch w.toNat).cur with
  | some t => return t
  | none => limitTrap

/-- The start of a command on a latch: a loaded tile is taken first (R243), then the checks of R261. -/
def beginMat (w : BitVec 1) (ok : Tile → Bool) (x : Cmd) : M (Cmd × Option Trap) := do
  waitFor ((← myCore).latch w.toNat).pending.isNone
  let t ← latchTile w
  limitIf (!ok t)
  return ({ x with begun := true }, none)

/-- The MA program on the values of a row (R257). -/
def passMa (core : Nat) (ty : Ty) (r : Nat) : Option PortInst → Nat → List ActP →
    Except Trap (Option PortInst × List ActP × Flags)
  | i, _, [] => .ok (i, [], 0)
  | i, k, a :: l =>
    let e : QElem :=
      { ty := ty, bits := BitVec.ofNat 128 a.1.bits, scale := a.1.scale, poison := a.2, idx := idxOf [k, r] }
    match passPort { port := .ma, core := core } i e with
    | .error t => .error t
    | .ok (i', o) =>
      let b := o.prim.headD e
      match passMa core ty r i' (k + 1) l with
      | .error t => .error t
      | .ok (i'', bs, fl) => .ok (i'', (⟨b.bits.toNat, b.scale⟩, b.poison) :: bs, o.fl ||| fl)

/-- The poison-consumed trap of a row (R263). -/
def rowTrap (r : Nat) : Trap :=
  { cause := 0x0E, reason := 3, cursor := r + 1, rowbase := 512 * (r / 512)
    rowpoison := BitVec.twoPow 512 (r % 512) }

/-- One activation row against a latch (R261 to R263). An activation whose poison the MA program has removed cuts nothing:
what counts is what the product takes in (DESIGN CHOICE, log 93). -/
def matRow (t : Tile) (ty : Ty) (ow : Bool) (z : ZRange) (voidFrom : Nat) (acts : List ActP) (fl : Flags)
    (x : Cmd) : M (Cmd × Option Trap) := do
  let core ← me
  let r := x.cursor
  let mode := lineMode t.fmt
  let line := z.first.toNat + modeLines mode * r
  let (pa, as, fl1) ← cutAt r (liftTrap (passMa core ty r x.pa 0 acts))
  let bad := as.any (·.2)
  let old := rowVals (← myCore) mode line
  let (vs, fl2) := resultRow t ty (as.map (·.1)) voidFrom bad ow old
  modMe fun c => (putRow c mode line vs).orStat 0 (fl ||| fl1 ||| fl2)
  let x := { x with pa := pa, cursor := r + 1 }
  if bad || t.vals.any (·.poison) then return (x, some (rowTrap r))
  else return ({ x with done := r + 1 == rowsOf z mode }, none)

/-- MMA, its start or one row (R261). -/
def stepMma (ty : Ty) (ow : Bool) (w : BitVec 1) (q : BitVec 3) (z : ZRange) (x : Cmd) : M (Cmd × Option Trap) := do
  if !x.begun then
    beginMat w (fun t => pairOk t.fmt ty && rangeFits z (lineMode t.fmt)) x
  else
    let t ← latchTile w
    let k := (latchDims t.fmt).1
    let es ← popElems q.toNat k
    cutAt x.cursor (limitIf (es.any fun e => e.ty != ty))
    matRow t ty ow z k (es.map fun e => (⟨e.bits.toNat, e.scale⟩, e.poison)) 0 x

/-- A source range starts at a multiple of the row size (R120, R262). -/
def sourceFits (src : BitVec 11) (mode : Lines) : Bool := src.toNat % modeLines mode == 0

/-- MMAC, its start or one row (R262). -/
def stepMmac (ty : Ty) (ow : Bool) (w : BitVec 1) (z : ZRange) (src : BitVec 11) (x : Cmd) :
    M (Cmd × Option Trap) := do
  if !x.begun then
    beginMat w (fun t =>
      pairOk t.fmt ty && rangeFits z (lineMode t.fmt) && sourceFits src (lineMode t.fmt)) x
  else
    let t ← latchTile w
    let mode := lineMode t.fmt
    let vs := rowVals (← myCore) mode (src.toNat + modeLines mode * x.cursor)
    let (acts, fl) := downRow t.fmt ty vs
    matRow t ty ow z (if t.fmt.isMx then 256 else (latchDims t.fmt).1) acts fl x

/-- Lines of the instruction's type (R256). -/
def typeMode : Ty → Lines | .f64 => .f64 | .c64 => .c64 | _ => .f32

/-- All values of n lines become +0, unpoisoned. -/
def CoreSt.zeroLines (c : CoreSt) (line n : Nat) : CoreSt :=
  (upFrom (64 * line) (64 * n)).foldl (fun c k => setAccWord c k 0 false) c

/-- MZERO, one row (R264). -/
def stepMzero (ty : Ty) (z : ZRange) (x : Cmd) : M (Cmd × Option Trap) := do
  let mode := typeMode ty
  let r := x.cursor
  modMe (·.zeroLines (z.first.toNat + modeLines mode * r) (modeLines mode))
  return ({ x with begun := true, cursor := r + 1, done := r + 1 == rowsOf z mode }, none)

/-- Element type of a line mode's values. -/
def modeTy : Lines → Ty | .f32 => .f32 | .f64 => .f64 | .c64 => .c64

/-- The values that a drain reads from a row: the parts of a .c64 value together (R265). -/
def drainVals (c : CoreSt) (lines : Lines) (line : Nat) : List (Nat × Bool) :=
  let vs := rowVals c lines line
  match lines with
  | .f32 | .f64 => vs
  | .c64 => (chunksOf 2 vs).map fun p =>
      let a := p.headD (0, false)
      let b := (p.drop 1).headD (0, false)
      (a.1 + b.1 * 2 ^ 64, a.2 || b.2)

/-- The MD program on the values of a row, from value v on; cx holds what the command lets a program do. -/
def passMd (cx : PassCtx) (ty : Ty) (r total rows : Nat) : Option PortInst → Nat → List (Nat × Bool) →
    Except Trap (Option PortInst × List PassOut)
  | i, _, [] => .ok (i, [])
  | i, v, a :: l =>
    let rowEnd := v + 1 == total
    let cmdEnd := rowEnd && r + 1 == rows
    let carry := match i with | some i => i.prog.carry | none => 0
    let e : QElem := { ty := ty, bits := BitVec.ofNat 128 a.1, poison := a.2, idx := idxOf [v, r], last := cmdEnd }
    match passPort { cx with lastOfChain := if carry = 0 then rowEnd else cmdEnd, lastOfCmd := cmdEnd } i e with
    | .error t => .error t
    | .ok (i', o) =>
      match passMd cx ty r total rows i' (v + 1) l with
      | .error t => .error t
      | .ok (i'', os) => .ok (i'', o :: os)

/-- Outputs, each with its queue, fit into the room that the queues have. -/
def fitsAll (room : Nat → Nat) (l : List (Nat × QElem)) : Bool :=
  ((l.map (·.1)).eraseDups).all fun q => decide (((l.filter (·.1 == q)).map (·.2.ty.bits)).sum ≤ room q)

/-- The outputs of one boundary go out together, once every queue has room for its own: a cut at the boundary has put
out nothing of them (R258, R310, log 85). -/
def putAll (l : List (Nat × QElem)) : M Unit := do
  let c ← myCore
  waitFor (fitsAll (fun q => queueBits - (c.queue q).used) l)
  modMe fun c => l.foldl (fun c p => c.putElem p.1 p.2) c

/-- The pending outputs of a command go out: together where empty queues could hold them, else one at a time. -/
def flush (x : Cmd) : M Cmd := do
  if fitsAll (fun _ => queueBits) x.pend then
    putAll x.pend
    return { x with pend := [] }
  else
    match x.pend with
    | [] => return x
    | (q, e) :: r =>
      putWhenRoom q e
      return { x with pend := r }

/-- MDRAIN, one row (R265, R310). -/
def stepMdrain (ty : Ty) (o : BitVec 3) (z : ZRange) (lines : Lines) (x : Cmd) : M (Cmd × Option Trap) := do
  let rows := rowsOf z lines
  let core ← me
  let r := x.cursor
  let vs := drainVals (← myCore) lines (z.first.toNat + modeLines lines * r)
  let cx : PassCtx := { port := .md, core := core, tapOwn := some o.toNat }
  let (pa, os) ← cutAt r (liftTrap (passMd cx (modeTy lines) r vs.length rows x.pa 0 vs))
  let conv (e : QElem) : QElem × Flags :=
    let v := convertTo (modeTy lines) ty .rne .none 0 e.bits.toNat
    ({ e with ty := ty, bits := BitVec.ofNat 128 v.1 }, v.2)
  putAll (os.flatMap fun p =>
    (p.prim.map fun e => (8 + o.toNat, (conv e).1)) ++ p.taps.map fun t => (8 + t.1, t.2))
  modMe (·.orStat 0 (os.foldl (fun fl p => p.prim.foldl (fun fl e => fl ||| (conv e).2) (fl ||| p.fl)) 0))
  return ({ x with begun := true, pa := pa, cursor := r + 1, done := r + 1 == rows }, none)

/-- An MDRAINX may start: its peer's semaphore has reached the threshold, which acquires at .clu (R133, R150), or the
peer holds no task of the launch any more (R266, R267). -/
def peerOpen (peer : Nat) (f : Sem) : M Unit := do
  let s ← get
  let core ← me
  if f.thresh != 0 && s.sameLaunch core peer then
    waitFor (s.semMet peer f.waitsem f.thresh.toNat)
    modMe fun c => (c.takeCopy .c (s.semOldOf peer f.waitsem).copy).dropCache

/-- The additions of one row at the peer (R267, R268), with their conditions. -/
def addRow (c : CoreSt) (mode : Lines) (line : Nat) (xs : List (Nat × Bool)) : CoreSt :=
  let f := match mode with | .f32 => fmt32 | .f64 | .c64 => fmt64
  let rs := (rowVals c mode line).zip xs |>.map fun p =>
    (addF f (unpackF f p.1.1) (unpackF f p.2.1), p.1.2 || p.2.2)
  let c := putRow c mode line (rs.map fun p => (p.1.1, p.2))
  (c.orStat 0 ((rs.map (·.1.2)).foldl (· ||| ·) 0)).addStat 6 xs.length

/-- MDRAINX, its start or one row (R267, R310). -/
def stepMdrainx (f : Sem) (ty : Ty) (mem : BitVec 3) (z : ZRange) (dst : BitVec 11) (x : Cmd) :
    M (Cmd × Option Trap) := do
  let core ← me
  let peer := peerOf core mem
  if !x.begun then
    peerOpen peer f
    return ({ x with begun := true }, none)
  else
    let mode := typeMode ty
    let r := x.cursor
    let rows := rowsOf z mode
    let vs := rowVals (← myCore) mode (z.first.toNat + modeLines mode * r)
    let cx : PassCtx := { port := .md, core := core, tapOk := false }
    let (pa, os) ← cutAt r (liftTrap (passMd cx (modeTy mode) r vs.length rows x.pa 0 vs))
    let xs := os.flatMap fun p => p.prim.map fun e => (e.bits.toNat, e.poison)
    modMe (·.orStat 0 (os.foldl (fun fl p => fl ||| p.fl) 0))
    let s ← get
    if s.sameLaunch core peer then
      waitFor ((s.core peer).frozen == 0)
      modify fun s => s.modCore peer fun c => addRow c mode (dst.toNat + modeLines mode * r) xs
    return ({ x with cursor := r + 1, pa := pa, done := r + 1 == rows }, none)

/-! ## The pass and reduction engines -/

/-- What a TPASS or a TRED is, for the steps that they share. -/
structure Stream where
  core : Nat
  q : Nat
  o : Nat
  inPort : Port
  outPort : Port
  red : Option (RedOp × Nat)   -- of a TRED: its operation, and its levels
  ty : Ty
  deriving DecidableEq, Repr

/-- Whether the last output may stay unknown until the command ends: some program can suppress an element
(R273). -/
def mayDrop (x : Cmd) : Bool := drops x.pa || drops x.pb

/-- Outputs go out: where an output may turn out to be the last one only at the end, it is held back (R273, log 85). One
that has gone out without the mark is then the last output no more. -/
def emitOut (st : Stream) (hold : Bool) (prim : List QElem) (taps : List (Nat × QElem)) (x : Cmd) : M Cmd := do
  let ts := taps.map fun t => (8 + t.1, t.2)
  let x :=
    if hold then
      let l := x.out.toList ++ prim
      { x with
        pend := x.pend ++ (l.dropLast.map fun e => (8 + st.o, e)) ++ ts, out := l.getLast?
        gave := if prim.isEmpty then x.gave else none }
    else { x with pend := x.pend ++ (prim.map fun e => (8 + st.o, e)) ++ ts }
  let x ← flush x
  return if x.pend.isEmpty then { x with cursor := x.complete } else x

/-- The first element that waits at the output port belongs to the oldest window with elements left. -/
def settleWin (prim : List QElem) (taps : List (Nat × QElem)) (before : Option PortInst) : List Win → List Win
  | [] => []
  | w :: r =>
    if w.left = 0 then w :: settleWin prim taps before r
    else
      { w with
        left := w.left - 1, prim := w.prim ++ prim, taps := w.taps ++ taps
        entered := true, beforeB := if w.entered then w.beforeB else before } :: r

/-- Of the taps to one queue that carry a last mark, the last one keeps it (R296): seen are the queues that have
theirs. -/
def oneMark (seen : List Nat) (ts : List (Nat × QElem)) : List (Nat × QElem) × List Nat :=
  ts.foldr (fun t p =>
    if !t.2.last then (t :: p.1, p.2)
    else if p.2.contains t.1 then ((t.1, { t.2 with last := false }) :: p.1, p.2)
    else (t :: p.1, t.1 :: p.2)) ([], seen)

/-- The programs of both ports may tap one queue: its last output alone carries the last mark (R296). -/
def oneMarkEach (ws : List Win) : List Win :=
  (ws.foldr (fun w p =>
    let ts := oneMark p.2 w.taps
    ({ w with taps := ts.1 } :: p.1, ts.2)) ([], ([] : List Nat))).1

/-- The output that is held back goes out, without a mark, before a cut: everything before the cursor is complete (R258,
R310; log 85). The step that follows meets the fault again. -/
def giveOut (st : Stream) (x : Cmd) (e : QElem) : M (Cmd × Option Trap) := do
  let y ← emitOut st false [e] [] { x with out := none }
  return ({ y with gave := some e }, none)

/-- A fault at the output port cuts the command at the first element of the oldest window: what has been popped
since stands again at the head of the queue (R258, R310). -/
def cutBack (st : Stream) (x : Cmd) (t : Trap) : M (Cmd × Option Trap) := do
  match x.out with
  | some e => giveOut st x e
  | none =>
    modMe fun c => c.returnElems st.q (x.wins.flatMap (·.els))
    return (x.backToWindow, some { t with cursor := x.complete })

/-- The element that waits longest passes the output port; next is the one that enters after it (R294). -/
def outPass (st : Stream) (x : Cmd) (e : QElem) (next : Option QElem) : M (Cmd × Option Trap) := do
  let carry := match x.pb with | some i => i.prog.carry | none => 0
  let cx : PassCtx :=
    { port := st.outPort, core := st.core, tapOwn := some st.o
      lastOfChain := match next with | some n => !agreeAbove carry e.idx n.idx | none => true
      lastOfCmd := next.isNone }
  match passPort cx x.pb e with
  | .error t => cutBack st x t
  | .ok (pb, o) =>
    modMe (·.notePort st.outPort o.fl)
    return ({ x with
      pb := pb, held := x.held.drop 1
      wins := oneMarkEach (settleWin o.prim o.taps x.pb x.wins) }, none)

/-- A reduced set or an element has its output: to the output port, or out, with the taps of its pass. -/
def deliver (st : Stream) (hold : Bool) (prim : List QElem) (taps : List (Nat × QElem)) (x : Cmd) : M Cmd :=
  if x.pb.isSome then
    match x.wins.getLast? with
    | some w =>
      return { x with
        held := x.held ++ prim
        wins := x.wins.dropLast ++ [{ w with left := prim.length, closed := true }] }
    | none => return x
  else emitOut st hold prim taps x

/-- The reduced set so far with one more surviving element (R274). The first is taken as it stands: a set of one
element delivers its bits, those of a non-canonical NaN too, in add, max and min alike (log 84). -/
def reduceOne (ty : Ty) (op : RedOp) (acc : Option (BitVec 64 × Bool)) (e : QElem) : (BitVec 64 × Bool) × Flags :=
  let v := e.bits.toNat
  let f := if ty = .f64 then fmt64 else fmt32
  match acc with
  | none => ((BitVec.ofNat 64 v, e.poison), 0)
  | some (a, p) =>
    let r := match op with
      | .add => addF f (unpackF f a.toNat) (unpackF f v)
      | .max => (minmaxF f true a.toNat v, 0)
      | .min => (minmaxF f false a.toNat v, 0)
      | .chain => (v, 0)
    ((BitVec.ofNat 64 r.1, p || e.poison), r.2)

/-- The output of a reduced set: none when every element of it was dropped (R274). -/
def setOutput (st : Stream) (op : RedOp) (levels : Nat) (x : Cmd) : List QElem :=
  match x.acc, x.first with
  | some (v, p), some i =>
    let k := match x.pa with | some n => n.ks.getD 0 {} | none => {}
    let (v, p) := if op = .chain then (k.bits.setWidth 64, k.poison) else (v, p)
    [{ ty := st.ty, bits := v.setWidth 128, poison := p, idx := idxFrom levels i, last := x.atEnd }]
  | _, _ => []

/-- An element as it enters a TPASS or a TRED: TRED widens exactly to its type (R274). -/
def entering (st : Stream) (e : QElem) : QElem :=
  match st.red with
  | none => e
  | some _ => if st.ty = .f32 then { e with ty := .f32, bits := (widenElem e).setWidth 128 } else e

def acceptsElem (st : Stream) (t : Ty) : Bool :=
  match st.red with
  | none => t == st.ty
  | some _ => if st.ty = .f32 then t == .f16 || t == .bf16 || t == .f32 else t == .f64

/-- Whether a popped element starts a window: every element of a TPASS, the first of a reduced set. -/
def newWindow (st : Stream) (x : Cmd) : Bool := st.red.isNone || x.first.isNone

/-- The element joins the newest window. -/
def joinWin (e : QElem) (taps : List (Nat × QElem)) (ws : List Win) : List Win :=
  match ws.getLast? with
  | some w => ws.dropLast ++ [{ w with els := w.els ++ [e], taps := w.taps ++ taps }]
  | none => ws

/-- What a fault at the input port of a TPASS or a TRED does at a popped element: it stays in its queue, and the command
is cut there, once the last output of the earlier elements, without a mark, and the taps that those of the open set have
left have gone out (R310). Where an earlier element still waits for what enters the output port after it, which only this
element can show, the cut is at the first such element: all before the cursor is complete (R258; DEDUCED, log 85). -/
def inputFault (st : Stream) (x : Cmd) (t : Trap) : M (Cmd × Option Trap) := do
  match x.out with
  | some e => giveOut st x e
  | none =>
    if !x.held.isEmpty || x.wins.any (·.closed) then cutBack st x t
    else
      match x.wins.flatMap (·.taps) with
      | [] => return ({ x with cursor := x.read }, some { t with cursor := x.read })
      | ts =>
        let y ← flush { x with
          wins := x.wins.map fun w => { w with taps := [] }, tapped := x.read, pend := ts.map fun t => (8 + t.1, t.2) }
        return (y, none)

/-- Pop one element and pass it through the input port. A program with EMIT.last there needs the next element's
indices first (R294). -/
def popOne (st : Stream) (x : Cmd) : M (Cmd × Option Trap) := do
  match ((← myCore).queue st.q).elems with
  | [] => stall
  | e :: rest =>
    let next := rest.head?
    if needsLast x.pa && !e.last then waitFor next.isSome
    let carry := match x.pa with | some i => i.prog.carry | none => 0
    let cx : PassCtx :=
      { port := st.inPort, core := st.core, tapOwn := some st.o, lastOfCmd := e.last
        lastOfChain := e.last || (match next with | some n => !agreeAbove carry e.idx n.idx | none => false) }
    let hold := mayDrop x
    let passed := if acceptsElem st e.ty then passPort cx x.pa (entering st e) else .error { cause := 0x03 }
    match passed with
    | .error t => inputFault st x t
    | .ok (pa, o) =>
      let _ ← popElems st.q 1
      modMe (·.notePort st.inPort o.fl)
      let taps := if x.read < x.tapped then [] else o.taps
      let wins := if x.pb.isNone then []
        else joinWin e taps (if newWindow st x then x.wins ++ [{ els := [], before := x.pa }] else x.wins)
      let y := { x with begun := true, pa := pa, read := x.read + 1, atEnd := e.last, wins := wins }
      match st.red with
      | none => return (← deliver st hold o.prim taps y, none)
      | some (op, _) =>
        let z := o.prim.foldl (fun (p : Option (BitVec 64 × Bool) × Flags) e =>
          let r := reduceOne st.ty op p.1 e
          (some r.1, p.2 ||| r.2)) (y.acc, 0)
        modMe (·.orStat 1 z.2)
        let y := { y with acc := z.1, first := some (y.first.getD e.idx) }
        return (← if x.pb.isNone then emitOut st hold [] taps y else pure y, none)

/-- The reduced set is complete: the last element has been read, or the next one differs at a level from r up
(R274). -/
def setOver (st : Stream) (x : Cmd) (next : Option QElem) : Bool :=
  match st.red, x.first with
  | some (_, levels), some i =>
    x.atEnd || (match next with
      | some n => (idxList i).drop levels != (idxList n.idx).drop levels
      | none => false)
  | _, _ => false

/-- Whether the output port's program needs to know what enters next: for EMIT.last, and for the last mark of a TAP
(R294, R296). -/
def needsNext (i : Option PortInst) : Bool :=
  PortInst.holds i fun j => match j with | .emitLast _ | .tap .. => true | _ => false

/-- What enters the output port after an element that waits there, where it is known: the outer none says that it is not,
the inner one that nothing does. An input port that drops nothing puts out the element at the head of the queue, or the
output of the set that is open. -/
def follower (st : Stream) (x : Cmd) (e : QElem) (rest : List QElem) (head : Option QElem) : Option (Option QElem) :=
  let levels := match st.red with | some (_, n) => n | none => 0
  match rest with
  | f :: _ => some (some f)
  | [] =>
    if x.atEnd && x.first.isNone || !needsNext x.pb then some none
    else if drops x.pa then none
    else (x.first.orElse fun _ => head.map (·.idx)).map fun i => some { e with idx := idxFrom levels i }

/-- The newest element of a queue that equals e gets the last mark: an output that has gone out without it turns out to be
the command's last, and still stands in its queue (R273, log 85). -/
def CoreSt.markLast (c : CoreSt) (i : Nat) (e : QElem) : CoreSt :=
  let q := c.queue i
  match q.elems.reverse.findIdx? (· == e) with
  | some k =>
    let n := q.elems.length - 1 - k
    c.setQueue i { q with elems := q.elems.set n { e with last := true } }
  | none => c

/-- One step of a TPASS or TRED. -/
def stepStream (st : Stream) (x : Cmd) : M (Cmd × Option Trap) := do
  let hold := mayDrop x
  let next := ((← myCore).queue st.q).elems.head?
  if !x.pend.isEmpty then
    let y ← flush x
    return (if y.pend.isEmpty then { y with cursor := y.complete } else y, none)
  else if (match x.wins with | w :: _ => w.closed && w.left == 0 | [] => false) then
    match x.wins with
    | w :: r => return (← emitOut st hold w.prim w.taps { x with wins := r }, none)
    | [] => return (x, none)
  else
    match x.held with
    | e :: r =>
      match follower st x e r next with
      | some n => outPass st x e n
      | none => if setOver st x next then closeSet hold else popOne st x
    | [] =>
      if setOver st x next then closeSet hold
      else if x.atEnd && x.first.isNone then
        match x.out with
        | some e => return (← emitOut st false [{ e with last := true }] [] { x with out := none }, none)
        | none =>
          match x.gave with
          | some e => modMe (·.markLast (8 + st.o) e)
          | none => pure ()
          return ({ x with done := true }, none)
      else popOne st x
where
  closeSet (hold : Bool) : M (Cmd × Option Trap) := do
    let l := match st.red with
      | some (op, levels) => setOutput st op levels x
      | none => []
    return (← deliver st hold l [] { x with acc := none, first := none }, none)

/-- TPASS (R273). -/
def stepTpass (ty : Ty) (o q : BitVec 3) (x : Cmd) : M (Cmd × Option Trap) := do
  stepStream ⟨← me, q.toNat, o.toNat, .pi, .po, none, ty⟩ x

/-- TRED (R274). -/
def stepTred (ty : Ty) (o q : BitVec 3) (op : RedOp) (levels : BitVec 3) (x : Cmd) : M (Cmd × Option Trap) := do
  stepStream ⟨← me, q.toNat, o.toNat, .ri, .ro, some (op, levels.toNat), ty⟩ x

end Sys2Proof.Machine
end

