-- ==== Sys2Proof/Machine/Macro.lean ====
section
/-! DEFINITION. Machine/Macro: the macro operations MFACT, ATTN and ATTNM (R269, R270, R275 to R283), one macro step
at a time. -/

namespace Sys2Proof.Machine

/-! ## Issue -/

/-- R269. -/
def execMfact (h : Hdr) (f : Sem) (ty : Ty) (z : ZRange) (piv : BitVec 11) (s : State) : Result :=
  sendC h (some f) .mac (newCmd (.mfact h f ty z piv)) s

/-- Both weight latches become empty (R275). -/
def CoreSt.emptyLatches (c : CoreSt) : CoreSt := { c with stores := { c.stores with w0 := {}, w1 := {} } }

/-! ## MFACT (R270) -/

/-- The matrix that lies in n lines from a first one. -/
def readMatrix (c : CoreSt) (cplx : Bool) (first n : Nat) : Mat :=
  (upFrom first n).map fun line =>
    let v := rowVal c .f64 line
    (upFrom 0 n).map fun k =>
      if cplx then
        let a := v (2 * k)
        let b := v (2 * k + 1)
        ⟨a.1, b.1, a.2 || b.2⟩
      else
        let a := v k
        ⟨a.1, 0, a.2⟩

def writeMatrix (cplx : Bool) (first : Nat) (a : Mat) (c : CoreSt) : CoreSt :=
  a.zipIdx.foldl (fun c r =>
    putRow c .f64 (first + r.2) (r.1.flatMap fun x =>
      if cplx then [(x.re, x.bad), (x.im, x.bad)] else [(x.re, x.bad)])) c

/-- The values of the pivot line (R270). -/
def pivotLine (piv : List Nat) : List (Nat × Bool) := (upFrom 0 32).map fun i => (piv.getD i 0, false)

/-- MFACT, one column step; mac.ck is 1 once this command has recorded a zero pivot. -/
def stepMfact (ty : Ty) (z : ZRange) (line : BitVec 11) (x : Cmd) : M (Cmd × Option Trap) := do
  let n := z.count
  let j := x.cursor
  let cplx := ty == .c64
  let a := readMatrix (← myCore) cplx z.first.toNat n
  let ((b, p, zero), fl) := (columnStep cplx a j).run 0
  let piv := x.mac.piv ++ [p]
  let last := j + 1 == n
  modMe fun c =>
    let c := (writeMatrix cplx z.first.toNat b c.emptyLatches).orStat 0 fl
    let c := if zero && x.mac.ck == 0 then c.setStat 5 (BitVec.ofNat 64 (2 ^ 63 + j)) else c
    if last then putRow c .f64 line.toNat (pivotLine piv) else c
  return ({ x with
    begun := true, cursor := j + 1, done := last
    mac := { x.mac with piv := piv, ck := if zero then 1 else x.mac.ck } }, none)

/-! ## FP32 arithmetic with its conditions -/

def add32 (a b : Nat) : Noted Nat := noted (addF fmt32 (val32 a) (val32 b))
def sub32 (a b : Nat) : Noted Nat := noted (addF fmt32 (val32 a) (val32 b).neg)
def mul32 (a b : Nat) : Noted Nat := noted (mulF fmt32 (val32 a) (val32 b))
def exp32 (a : Nat) : Noted Nat := noted (fexp2_32 a)
def max32 (a b : Nat) : Nat := minmaxF fmt32 true a b

/-- −∞ in FP32. -/
def negInf : Nat := 0xFF800000

/-- L2E of R278. -/
def l2e : Nat := 0x3FB8AA3B

/-- FEXP2 of (a − b) × L2E (R278). -/
def expDiff (a b : Nat) : Noted Nat := do
  let d ← sub32 a b
  exp32 (← mul32 d l2e)

/-- The factor of a row whose maximum was m: +0 while m = −∞ (R278). -/
def rescale (m mb : Nat) : Noted Nat := if m = negInf then return 0 else expDiff m mb

/-- Add of R278. -/
def addComp (comp : Bool) (l c p : Nat) : Noted (Nat × Nat) := do
  let s ← add32 l p
  if comp then
    let bp ← sub32 s l
    let ap ← sub32 s bp
    let x ← sub32 l ap
    let y ← sub32 p bp
    let e ← add32 x y
    return (s, ← add32 c e)
  else return (s, c)

/-! ## Request blocks -/

def blkField (bs : List Byte) (o n : Nat) : Nat := leNat ((bs.drop o).take n)

/-- The fields of R276. -/
structure AttnReq where
  q : Word
  out : Word
  kcoil : Word
  vcoil : Word
  kslot : Nat
  vslot : Nat
  nkeys : Nat
  koff : Nat
  voff : Nat
  kscoff : Nat
  vscoff : Nat
  qpos : Int
  kpos : Int
  bitmap : Word
  bmrow : Nat
  window : Nat
  scale : Nat
  rows : Nat
  d : Nat
  qty : Option Ty
  kvty : Option Ty
  oty : Option Ty
  pfmt : Nat
  mask : Nat
  part : Bool
  comp : Bool
  zwork : Nat
  ml : Word
  deriving DecidableEq, Repr

def attnReq (bs : List Byte) : AttnReq where
  q := BitVec.ofNat 64 (blkField bs 0 8)
  out := BitVec.ofNat 64 (blkField bs 8 8)
  kcoil := BitVec.ofNat 64 (blkField bs 16 8)
  vcoil := BitVec.ofNat 64 (blkField bs 24 8)
  kslot := blkField bs 32 8
  vslot := blkField bs 40 8
  nkeys := blkField bs 48 8
  koff := blkField bs 56 4
  voff := blkField bs 60 4
  kscoff := blkField bs 64 4
  vscoff := blkField bs 68 4
  qpos := toInt true 64 (blkField bs 72 8)
  kpos := toInt true 64 (blkField bs 80 8)
  bitmap := BitVec.ofNat 64 (blkField bs 88 8)
  bmrow := blkField bs 96 4
  window := blkField bs 100 4
  scale := blkField bs 104 4
  rows := blkField bs 108 1 + 1
  d := 32 * (blkField bs 109 1 + 1)
  qty := Ty.fromNat (blkField bs 110 1)
  kvty := Ty.fromNat (blkField bs 111 1)
  oty := Ty.fromNat (blkField bs 112 1)
  pfmt := blkField bs 113 1
  mask := blkField bs 114 1
  part := bitOf (blkField bs 115 1) 0
  comp := bitOf (blkField bs 115 1) 1
  zwork := blkField bs 116 2
  ml := BitVec.ofNat 64 (blkField bs 120 8)

/-- A reserved bit of the block is not 0. -/
def attnReserved (bs : List Byte) : Bool :=
  blkField bs 115 1 / 4 != 0 || !zeroFrom bs 118 2 || !zeroFrom bs 128 128

/-- Types that an output tile may have; FP32 in partial mode. -/
def outTyOk (part : Bool) (t : Option Ty) : Bool := t == some .f32 || (!part && (t == some .bf16 || t == some .f16))

/-- The limits of R276 and R278. -/
def attnOk (r : AttnReq) : Bool :=
  decide (1 ≤ r.nkeys) && decide (r.nkeys ≤ 2 ^ 32) && decide (r.d ≤ 256) && decide (r.mask ≤ 3) &&
  decide (1 ≤ r.window) && r.bmrow % 8 == 0 && decide ((r.nkeys + 7) / 8 ≤ r.bmrow) &&
  (r.qty == some .bf16 || r.qty == some .f16) && outTyOk r.part r.oty &&
  (if r.pfmt = 0 then r.kvty == some .bf16 || r.kvty == some .f16
   else r.pfmt == 1 && (r.kvty == some .e4m3 || r.kvty == some .e5m2)) &&
  r.zwork % 4 == 0 && decide (r.zwork + 8 * r.rows ≤ 2048)

/-- The fields of R282. -/
structure MergeReq where
  out : Word
  ml : Word
  list : Word
  n : Nat
  rows : Nat
  d : Nat
  oty : Option Ty
  part : Bool
  zwork : Nat
  deriving DecidableEq, Repr

def mergeReq (bs : List Byte) : MergeReq where
  out := BitVec.ofNat 64 (blkField bs 0 8)
  ml := BitVec.ofNat 64 (blkField bs 8 8)
  list := BitVec.ofNat 64 (blkField bs 16 8)
  n := blkField bs 24 4
  rows := blkField bs 28 1 + 1
  d := 32 * (blkField bs 29 1 + 1)
  oty := Ty.fromNat (blkField bs 30 1)
  part := bitOf (blkField bs 31 1) 0
  zwork := blkField bs 32 2

def mergeReserved (bs : List Byte) : Bool := blkField bs 31 1 / 2 != 0 || !zeroFrom bs 34 222

def mergeOk (r : MergeReq) : Bool :=
  decide (2 ≤ r.n) && decide (r.n ≤ 64) && decide (r.d ≤ 256) && outTyOk r.part r.oty &&
  r.zwork % 4 == 0 && decide (r.zwork + 4 * r.rows ≤ 2048)

/-- The request block, read through LS as a read of C (R275). -/
def readBlock (blk : BitVec 13) : M (List Byte × Bool) := tileRead (lsAddr (256 * blk.toNat)) 256

/-! ## Tiles -/

/-- n bytes of an input on the paths of R276. -/
def macRead (va : Word) (n : Nat) : M (List Byte × Bool) := do
  tilePath .read false va
  tileRead va n

/-- n elements of a type other than the packed ones, one after the other. -/
def macElems (va : Word) (ty : Ty) (n : Nat) : M (List Nat × Bool) := do
  let k := ty.bits / 8
  let (bs, bad) ← macRead va (k * n)
  return ((chunksOf k bs).map leNat, bad)

/-- Rows lo, lo + 1, … of Q. -/
def readRows (va : Word) (ty : Ty) (d n : Nat) : M (List (List Nat × Bool)) :=
  (upFrom 0 n).mapM fun i => macElems (va + BitVec.ofNat 64 (i * d * (ty.bits / 8))) ty d

/-- One vector of a coil's slot in the format of the array: MX elements are dequantised to BF16 (R79, R278). -/
def coilVec (handle : Word) (slot off scoff : Nat) (ty : Ty) (d : Nat) : M (List Nat × Bool × Flags) := do
  let a ← caddrOf handle (BitVec.ofNat 64 slot)
  let (vs, bad) ← macElems (a + BitVec.ofNat 64 off) ty d
  if ty.isMx then
    let (scs, sbad) ← macRead (a + BitVec.ofNat 64 scoff) (d / 32)
    let qs := vs.zipIdx.map fun v => dequant ty fmtB16 (scs.getD (v.2 / 32) 127) v.1
    return (qs.map (·.1), bad || sbad, (qs.map (·.2)).foldl (· ||| ·) 0)
  else return (vs, bad, 0)

/-- Format of a latched vector. -/
def latchedTy (kv : Ty) : Ty := if kv.isMx then .bf16 else kv

/-- A list of values padded with +0 to a length. -/
def padTo (n : Nat) (l : List Nat) : List Nat := l ++ List.replicate (n - l.length) 0

def plainElems (l : List Nat) : List TileElem := l.map fun v => ⟨BitVec.ofNat 128 v, 127, false⟩

/-- One product of R83 against a column, over the whole depth of the latch. -/
def dotColumn (fmt aty : Ty) (act : List Act1) (column : List TileElem) (voidFrom : Nat) (fresh : Bool) (acc : Nat) :
    Noted Nat :=
  noted (accumulate fmt.isMx fresh acc (columnGroups ⟨fmt, []⟩ aty act voidFrom column))

/-! ## ATTN (R276 to R281) -/

/-- What a block step has read: query rows, keys, values, and the mask's bytes by row, with their poison. -/
structure Block where
  q : List (List Nat × Bool)
  keys : List (List Nat × Bool)
  vals : List (List Nat × Bool)
  bits : List (List Byte × Bool)
  deriving DecidableEq, Repr

/-- Keys of block b. -/
def blockKeys (r : AttnReq) (b : Nat) : Nat := min 256 (r.nkeys - 256 * b)

/-- The reads of block b (R278). -/
def readKv (r : AttnReq) (b : Nat) : M (Block × Flags) := do
  let qty := r.qty.getD .bf16
  let kv := r.kvty.getD .bf16
  let js := upFrom (256 * b) (blockKeys r b)
  let q ← readRows r.q qty r.d r.rows
  let ks ← js.mapM fun j => coilVec r.kcoil (r.kslot + j) r.koff r.kscoff kv r.d
  let vs ← js.mapM fun j => coilVec r.vcoil (r.vslot + j) r.voff r.vscoff kv r.d
  let bits ← if r.mask = 3 then
      (upFrom 0 r.rows).mapM fun i =>
        macRead (r.bitmap + BitVec.ofNat 64 (i * r.bmrow + 32 * b)) ((blockKeys r b + 7) / 8)
    else pure []
  return (⟨q, ks.map fun k => (k.1, k.2.1), vs.map fun v => (v.1, v.2.1), bits⟩,
    (ks ++ vs).foldl (fun fl k => fl ||| k.2.2) 0)

/-- Visible of R277: row i and key k of block b. -/
def visible (r : AttnReq) (b : Nat) (x : Block) (i k : Nat) : Bool :=
  let key := r.kpos + ((256 * b + k : Nat) : Int)
  let row := r.qpos + (i : Int)
  match r.mask with
  | 0 => true
  | 1 => decide (key ≤ row)
  | 2 => decide (row - (r.window : Int) < key) && decide (key ≤ row)
  | _ => (((x.bits.getD i ([], false)).1).getD (k / 8) 0).getLsbD (k % 8)

/-- What a step leaves of a row: m, l, c, O, the scores, the counts of statistics 3 and 4, poison. -/
structure RowOut where
  m : Nat
  l : Nat
  c : Nat
  o : List Nat
  p : List Nat
  lost : Nat
  seen : Nat
  bad : Bool
  deriving DecidableEq, Repr

/-- P of a row in the format of the array (R278): BF16 values, or E4M3 blocks of 32 consecutive keys. -/
def quantP (pfmt : Nat) (p : List Nat) : List ActP × Flags :=
  downConvert (if pfmt = 0 then .bf16 else .e4m3) ((padTo 256 p).map fun v => (v, false))

/-- The values of a block, column by column, as weights (R278): as they are, or quantised to E4M3 over 32
consecutive keys. -/
def valueColumns (r : AttnReq) (x : Block) : List (List TileElem) × Flags :=
  let cols := (upFrom 0 r.d).map fun d => padTo 256 (x.vals.map fun v => v.1.getD d 0)
  if r.pfmt = 0 then (cols.map plainElems, 0)
  else
    let qs := cols.map fun c =>
      let b := (chunksOf 32 (c.map fun v => (widen fmtB16 fmt32 v, false))).map (downBlock .e4m3)
      (b.flatMap fun e => e.1.map fun a => (⟨BitVec.ofNat 128 a.1.bits, a.1.scale, false⟩ : TileElem),
        (b.map (·.2)).foldl (· ||| ·) 0)
    (qs.map fun q => q.1 ++ List.replicate 256 ⟨0, 0, false⟩, (qs.map (·.2)).foldl (· ||| ·) 0)

/-- The keys of a block as weights: column j is key j of the block (R278). -/
def keyTile (r : AttnReq) (x : Block) : Tile where
  fmt := latchedTy (r.kvty.getD .bf16)
  vals := (upFrom 0 256).flatMap fun j =>
    let k := x.keys.getD j ([], false)
    (padTo 256 k.1).map fun v => ⟨BitVec.ofNat 128 v, 127, k.2⟩

/-- The values of a block as weights, from their columns, and as many columns of +0 as the latch has beyond them (R278).
A value that a poisoned one is quantised with is poisoned (R240). -/
def valueTile (r : AttnReq) (x : Block) (cols : List (List TileElem)) : Tile :=
  let bad (j : Nat) : Bool :=
    if r.pfmt = 0 then (x.vals.getD j ([], false)).2 else ((x.vals.drop (j / 32 * 32)).take 32).any (·.2)
  let void : List TileElem := if r.pfmt = 0 then List.replicate 256 ⟨0, 127, false⟩ else List.replicate 512 ⟨0, 0, false⟩
  { fmt := if r.pfmt = 0 then r.kvty.getD .bf16 else .e4m3
    vals := (upFrom 0 256).flatMap fun d =>
      ((cols[d]?).getD void).zipIdx.map fun e => { e.1 with poison := bad e.2 } }

/-- Between its steps an ATTN holds the contents of its last block in the latches (R275, R283, R413): keys in w0 and values
in w1 (DESIGN CHOICE, log 93). -/
def CoreSt.latchBlock (r : AttnReq) (x : Block) (cols : List (List TileElem)) (c : CoreSt) : CoreSt :=
  { c with stores := { c.stores with
      w0 := { c.stores.w0 with cur := some (keyTile r x) }, w1 := { c.stores.w1 with cur := some (valueTile r x cols) } } }

/-- The scores of a row (R278): the product over the latch's depth, where keys are padded with +0, times the
scale; −∞ for a key that is not visible. -/
def rowScores (r : AttnReq) (b : Nat) (x : Block) (i : Nat) (q : List Nat) : Noted (List Nat) :=
  let qty := r.qty.getD .bf16
  let fmt := latchedTy (r.kvty.getD .bf16)
  let act := (padTo 256 q).map fun v => (⟨v, 127⟩ : Act1)
  x.keys.zipIdx.mapM fun k => do
    let s ← dotColumn fmt qty act (plainElems (padTo 256 k.1.1)) r.d true 0
    let s ← mul32 s r.scale
    return if visible r b x i k.2 then s else negInf

/-- Block step b for row i (R278, R281). -/
def attnRow (r : AttnReq) (b : Nat) (x : Block) (cols : List (List TileElem)) (i : Nat) (st : RowOut) :
    Noted RowOut := do
  let q := x.q.getD i ([], false)
  let vis := (upFrom 0 x.keys.length).map (visible r b x i)
  let seen := vis.countP id
  let s ← rowScores r b x i q.1
  let mb := s.foldl max32 st.m
  let bad := st.bad || q.2 || (x.bits.getD i ([], false)).2 || (x.keys.zip vis).any (fun k => k.1.2 && k.2)
  if mb = negInf then return { st with p := padTo 256 [], lost := 0, seen := seen, bad := bad }
  else
    let a ← rescale st.m mb
    let bad := bad || x.vals.any (·.2)
    let p ← (s.zip vis).mapM fun v => if v.2 then expDiff v.1 mb else pure 0
    let l ← mul32 st.l a
    let c ← mul32 st.c a
    let o ← st.o.mapM fun v => mul32 v a
    let (l, c) ← p.foldlM (fun (lc : Nat × Nat) v => addComp r.comp lc.1 lc.2 v) (l, c)
    let (qp, fl) := quantP r.pfmt p
    modify (· ||| fl)
    let gone := (p.zip qp).countP fun v =>
      !(val32 v.1).isNan && !(val32 v.1).isZero && !(val32 v.1).sign && (mxOrPlain r.pfmt v.2.1).isZero
    let pty : Ty := if r.pfmt = 0 then .bf16 else .e4m3
    let vty : Ty := if r.pfmt = 0 then r.kvty.getD .bf16 else .e4m3
    let act := qp.map (·.1) ++ (if r.pfmt = 0 then [] else List.replicate 256 ⟨0, 0⟩)
    let o ← (o.zip cols).mapM fun v => dotColumn vty pty act v.2 (if r.pfmt = 0 then 512 else 256) false v.1
    return ⟨mb, l, c, o, padTo 256 p, gone, seen, bad⟩
where
  mxOrPlain (pfmt : Nat) (a : Act1) : FVal :=
    if pfmt = 0 then unpackF fmtB16 a.bits else mxVal .e4m3 a.bits

/-- Row i of the work area: O, and its scores. -/
def oLine (zwork i : Nat) : Nat := zwork + 4 * i
def sLine (zwork rows i : Nat) : Nat := zwork + 4 * rows + 4 * i

def pregOf (v : Nat) (bad : Bool) : PReg := ⟨BitVec.ofNat 32 v, bad⟩

/-- The row's state before a step. -/
def rowBefore (c : CoreSt) (zwork d i : Nat) (s : RowState) : RowOut :=
  let o := (upFrom 0 d).map (rowVal c .f32 (oLine zwork i))
  { m := s.m.bits.toNat, l := s.l.bits.toNat, c := s.c.bits.toNat, o := o.map (·.1), p := [], lost := 0, seen := 0
    bad := s.m.poison || s.l.poison || s.c.poison || o.any (·.2) }

def rowAfter (x : RowOut) : RowState := ⟨pregOf x.m x.bad, pregOf x.l x.bad, pregOf x.c x.bad⟩

/-- The rows of O (and of the scores) after a step. -/
def putRows (zwork rows : Nat) (scores : Bool) (xs : List RowOut) (c : CoreSt) : CoreSt :=
  xs.zipIdx.foldl (fun c x =>
    let c := putRow c .f32 (oLine zwork x.2) (x.1.o.map fun v => (v, x.1.bad))
    if scores then putRow c .f32 (sLine zwork rows x.2) (x.1.p.map fun v => (v, x.1.bad)) else c) c

/-- O of every row is +0 (R278, R282). -/
def zeroO (zwork rows d : Nat) (bad : Bool) (c : CoreSt) : CoreSt :=
  (upFrom 0 rows).foldl (fun c i => putRow c .f32 (oLine zwork i) (List.replicate d (0, bad))) c

/-- The bytes of a row of outputs, converted under R78 with RNE. -/
def outBytes (oty : Ty) (vs : List Nat) : Noted (List Byte) := do
  let bs ← vs.mapM fun v => do
    let w ← noted (convertTo .f32 oty .rne .none 0 v)
    return leBytes (oty.bits / 8) w
  return bs.flatten

/-- A row as the final write step has it (R279): its output values, and lout. -/
def finalRow (part : Bool) (x : RowOut) : Noted (List Nat × Nat) := do
  let lout ← add32 x.l x.c
  if part then return (x.o, lout)
  else if lout = 0 then return (x.o.map fun _ => 0, lout)
  else
    let f ← noted (frcp32 lout)
    let o ← x.o.mapM fun v => mul32 v f
    return (o, lout)

/-- Bytes of an output; a unit of poison that the command has covered whole is then clear (R107, R111). -/
def macWrite (x : Cmd) (va : Word) (bs : Marked) : M Cmd := do
  tilePath .write false va
  walkBytes .write va bs
  coverBytes (clearUnit .tile .write) x va bs

/-- The final write step (R279): the output tile, and in partial mode m and lout. -/
def writeOut (out ml : Word) (d : Nat) (oty : Ty) (part : Bool) (rows : List RowOut) (x : Cmd) : M (Cmd × Flags) :=
  rows.zipIdx.foldlM (fun (p : Cmd × Flags) r => do
    let ((o, lout), fl) := (finalRow part r.1).run 0
    let (bs, fl') := (outBytes oty o).run fl
    let x ← macWrite p.1 (out + BitVec.ofNat 64 (r.2 * d * (oty.bits / 8))) (marked bs r.1.bad)
    let x ← if part then
        macWrite x (ml + BitVec.ofNat 64 (8 * r.2)) (marked (leBytes 4 r.1.m ++ leBytes 4 lout) r.1.bad)
      else pure x
    return (x, p.2 ||| fl')) (x, 0)

/-- The start of an ATTN (R275, R276). -/
def beginAttn (blk : BitVec 13) (x : Cmd) : M (Cmd × Option Trap) := do
  let (bs, bad) ← readBlock blk
  if attnReserved bs then trapWith { cause := 2 }
  let r := attnReq bs
  limitIf (!attnOk r)
  let k ← coilOf r.kcoil
  readLength r.kcoil k
  acquireCoil k
  let v ← coilOf r.vcoil
  readLength r.vcoil v
  acquireCoil v
  limitIf (decide (r.kslot + r.nkeys > k.c) || decide (r.vslot + r.nkeys > v.c))
  modMe fun c => zeroO r.zwork r.rows r.d bad c.emptyLatches
  let row : RowState := ⟨pregOf negInf bad, pregOf 0 bad, pregOf 0 bad⟩
  return ({ x with
    begun := true
    mac := { block := bs, ck := k.c, cv := v.c, rows := List.replicate r.rows row } }, none)

/-- ATTN, one macro step. -/
def stepAttn (blk : BitVec 13) (x : Cmd) : M (Cmd × Option Trap) := do
  if !x.begun then beginAttn blk x
  else
    let r := attnReq x.mac.block
    let b := x.cursor
    let c ← myCore
    let olds := x.mac.rows.zipIdx.map fun s => rowBefore c r.zwork r.d s.2 s.1
    if 256 * b < r.nkeys then
      let (k, fl0) ← cutAt b (readKv r b)
      let (cols, fl1) := valueColumns r k
      let (xs, fl) := (olds.zipIdx.mapM fun o => attnRow r b k cols o.2 o.1).run (fl0 ||| fl1)
      modMe fun c =>
        ((((putRows r.zwork r.rows true xs c).latchBlock r k cols).orStat 0 fl).addStat 3 ((xs.map (·.lost)).sum)).addStat 4
          ((xs.map (·.seen)).sum)
      return ({ x with cursor := b + 1, mac := { x.mac with rows := xs.map rowAfter } }, none)
    else
      let (x, fl) ← cutAt b (writeOut r.out r.ml r.d (r.oty.getD .f32) r.part olds x)
      modMe fun c => c.emptyLatches.orStat 0 fl
      return ({ x with cursor := b + 1, done := true }, none)

/-! ## ATTNM (R282) -/

/-- Entry k of the list: the input's O and ml addresses. -/
def mergeEntry (r : MergeReq) (k : Nat) : M (Word × Word × Bool) := do
  let (bs, bad) ← macRead (r.list + BitVec.ofNat 64 (16 * k)) 16
  return (BitVec.ofNat 64 (blkField bs 0 8), BitVec.ofNat 64 (blkField bs 8 8), bad)

/-- m and l of every row of an input. -/
def mergeMl (r : MergeReq) (ml : Word) : M (List (Nat × Nat × Bool)) :=
  (upFrom 0 r.rows).mapM fun i => do
    let (bs, bad) ← macRead (ml + BitVec.ofNat 64 (8 * i)) 8
    return (blkField bs 0 4, blkField bs 4 4, bad)

/-- M of every row: the maximum over all inputs (R282). -/
def mergeMax (r : MergeReq) : M (List (Nat × Bool)) := do
  let ms ← (upFrom 0 r.n).mapM fun k => do
    let (_, ml, bad) ← mergeEntry r k
    let v ← mergeMl r ml
    return v.map fun x => (x.1, bad || x.2.2)
  return (upFrom 0 r.rows).map fun i =>
    let l := ms.map fun v => v.getD i (negInf, false)
    (match l with
      | a :: t => t.foldl (fun m v => max32 m v.1) a.1
      | [] => negInf, l.any (·.2))

/-- One input merged into a row (R282). A poisoned O_k or l_k poisons the row where M = −∞ skips the input too: the step has
read it (DESIGN CHOICE, log 93). -/
def mergeRow (x : RowOut) (m l : Nat) (o : List Nat) (bad : Bool) : Noted RowOut := do
  let x := { x with bad := x.bad || bad }
  if x.m = negInf then return x
  else
    let a ← expDiff m x.m
    let la ← mul32 l a
    let l ← add32 x.l la
    let o ← (x.o.zip o).mapM fun v => do
      let w ← mul32 v.2 a
      add32 v.1 w
    return { x with l := l, o := o }

/-- The start of an ATTNM. -/
def beginAttnm (blk : BitVec 13) (x : Cmd) : M (Cmd × Option Trap) := do
  let (bs, bad) ← readBlock blk
  if mergeReserved bs then trapWith { cause := 2 }
  let r := mergeReq bs
  limitIf (!mergeOk r)
  modMe fun c => zeroO r.zwork r.rows r.d bad c.emptyLatches
  let row : RowState := ⟨pregOf negInf bad, pregOf 0 bad, {}⟩
  return ({ x with begun := true, mac := { block := bs, rows := List.replicate r.rows row } }, none)

/-- ATTNM, one macro step: step 0 also finds M. -/
def stepAttnm (blk : BitVec 13) (x : Cmd) : M (Cmd × Option Trap) := do
  if !x.begun then beginAttnm blk x
  else
    let r := mergeReq x.mac.block
    let k := x.cursor
    let c ← myCore
    let olds := x.mac.rows.zipIdx.map fun s => rowBefore c r.zwork r.d s.2 s.1
    if k < r.n then
      let (ins, olds) ← cutAt k (do
        let olds ← if k = 0 then do
            let ms ← mergeMax r
            pure ((olds.zip ms).map fun p => { p.1 with m := p.2.1, bad := p.1.bad || p.2.2 })
          else pure olds
        let (o, ml, bad) ← mergeEntry r k
        let mls ← mergeMl r ml
        let os ← readRows o .f32 r.d r.rows
        return ((mls.zip os).map fun p => (p.1.1, p.1.2.1, p.2.1, bad || p.1.2.2 || p.2.2), olds))
      let (xs, fl) := ((olds.zip ins).mapM fun p => mergeRow p.1 p.2.1 p.2.2.1 p.2.2.2.1 p.2.2.2.2).run 0
      modMe fun c => (putRows r.zwork r.rows false xs c).orStat 0 fl
      return ({ x with cursor := k + 1, mac := { x.mac with rows := xs.map rowAfter } }, none)
    else
      let (x, fl) ← cutAt k (writeOut r.out r.ml r.d (r.oty.getD .f32) r.part (olds.map fun o => { o with c := 0 }) x)
      modMe (·.orStat 0 fl)
      return ({ x with cursor := k + 1, done := true }, none)

/-! ## Issue -/

/-- What an action answers in a state; nothing of it stays. -/
def peekIn {α : Type} (s : State) (m : M α) : Option α :=
  match m.run s with
  | .ok (a, _) => some a
  | .error _ => none

/-- n bytes from an address, as a side. -/
def plainSide (writes : Bool) (va : Word) (n : Nat) : Side := ⟨pathOf va, writes, some [(va, n)]⟩

/-- The reads of a coil's vectors of an ATTN (R278). -/
def vectorSides (s : State) (handle : Word) (slot n off scoff : Nat) (ty : Ty) (d : Nat) : List Side :=
  (upFrom slot n).flatMap fun j =>
    match peekIn s (caddrOf handle (BitVec.ofNat 64 j)) with
    | some a => plainSide false (a + BitVec.ofNat 64 off) (d * (ty.bits / 8)) ::
        scaleIf ty (plainSide false (a + BitVec.ofNat 64 scoff) (d / 32))
    | none => []

/-- The writes of a final write step (R279). -/
def outSides (out ml : Word) (rows d : Nat) (oty : Option Ty) (part : Bool) : List Side :=
  plainSide true out (rows * d * ((oty.getD .f32).bits / 8)) :: if part then [plainSide true ml (8 * rows)] else []

/-- What an ATTN reads and writes, as its request block stands. -/
def attnSides (s : State) (bs : List Byte) : List Side :=
  let r := attnReq bs
  let kv := r.kvty.getD .bf16
  let fits (h : Word) (slot : Nat) : Bool := match s.coil? h with | some c => decide (slot + r.nkeys ≤ c.c) | none => false
  if attnReserved bs || !attnOk r || !fits r.kcoil r.kslot || !fits r.vcoil r.vslot then []
  else
    plainSide false r.q (r.rows * r.d * ((r.qty.getD .bf16).bits / 8)) ::
      vectorSides s r.kcoil r.kslot r.nkeys r.koff r.kscoff kv r.d ++
      vectorSides s r.vcoil r.vslot r.nkeys r.voff r.vscoff kv r.d ++
      (if r.mask = 3 then (upFrom 0 r.rows).map fun i =>
          plainSide false (r.bitmap + BitVec.ofNat 64 (i * r.bmrow)) ((r.nkeys + 7) / 8)
        else []) ++
      outSides r.out r.ml r.rows r.d r.oty r.part

/-- What an ATTNM reads and writes, as its request block and its list stand. -/
def attnmSides (s : State) (bs : List Byte) : List Side :=
  let r := mergeReq bs
  if mergeReserved bs || !mergeOk r then []
  else
    plainSide false r.list (16 * r.n) ::
      ((upFrom 0 r.n).flatMap fun k =>
        match peekIn s (mergeEntry r k) with
        | some (o, ml, _) => [plainSide false o (r.rows * r.d * 4), plainSide false ml (8 * r.rows)]
        | none => []) ++
      outSides r.out r.ml r.rows r.d r.oty r.part

/-- A speculative task parks at the issue of an ATTN or ATTNM, as what it names stands then (R392, log 93). -/
def State.macParks (s : State) (core : Nat) (blk : BitVec 13) (sides : State → List Byte → List Side) : Bool :=
  match s.specOn core with
  | none => false
  | some (_, l, _) =>
    (plainSide false (lsAddr (256 * blk.toNat)) 256 ::
      sides s ((s.core core).spBytes (256 * blk.toNat) 256)).any (s.sideParks core l)

/-- The command of an ATTN or ATTNM at its issue. -/
def macCmd (i : Instr) (blk : BitVec 13) (sides : State → List Byte → List Side) : M Cmd := do
  if (← get).macParks (← me) blk sides then stop .spec
  newCmd i

/-- R275. -/
def execAttn (h : Hdr) (f : Sem) (blk : BitVec 13) (s : State) : Result :=
  sendC h (some f) .mac (macCmd (.attn h f blk) blk attnSides) s

/-- R275. -/
def execAttnm (h : Hdr) (f : Sem) (blk : BitVec 13) (s : State) : Result :=
  sendC h (some f) .mac (macCmd (.attnm h f blk) blk attnmSides) s

end Sys2Proof.Machine
end

