-- ==== Sys2Proof/Machine/Units.lean ====
section
/-! DEFINITION. Machine/Units: which command of a core may run in its unit, and its step (R23, R237, R259). -/

namespace Sys2Proof.Machine

/-- The step of a command, by the instruction that it came from. -/
def stepCmd (x : Cmd) : M (Cmd × Option Trap) :=
  match x.inst with
  | .tld _ _ ty dst _ _ _ o => stepTld ty dst o x
  | .tgth _ _ ty q _ _ _ lvl _ => stepTgth ty q lvl x
  | .tst _ _ ty o _ _ _ sh => byWords (stepTst ty o sh false) x
  | .tstCoil _ _ ty o _ _ _ sh => byWords (stepTst ty o sh true) x
  | .tsct _ _ ty o _ _ _ lvl _ => byWords (stepTsct ty o lvl) x
  | .tcpy _ _ ty _ _ _ _ _ half => byWords (stepTcpy ty half) x
  | .tzero _ _ ty _ _ _ => byWords (stepTzero ty) x
  | .rcpyWr _ _ _ _ _ log2 => stepRcpyWr log2 x
  | .rcpyRd _ _ _ _ _ log2 => byWords (stepRcpyRd log2) x
  | .mlw _ _ ty _ q => stepMlw ty q x
  | .mma _ _ ty ow w q _ z => stepMma ty ow w q z x
  | .mmac _ _ ty ow w _ z src => stepMmac ty ow w z src x
  | .mzero _ _ ty z => stepMzero ty z x
  | .mdrain _ _ ty o _ z lines => stepMdrain ty o z lines x
  | .mdrainx _ f ty mem _ z peer => stepMdrainx f ty mem z peer x
  | .tred _ _ ty o q _ _ op levels => stepTred ty o q op levels x
  | .tpass _ _ ty o q _ _ => stepTpass ty o q x
  | .mfact _ _ ty z piv => stepMfact ty z piv x
  | .attn _ _ blk => stepAttn blk x
  | .attnm _ _ blk => stepAttnm blk x
  | _ => return ({ x with done := true }, none)

/-- One step of a unit. -/
def unitStep (core : Fin 448) (u : CUnit) (s : State) : Result :=
  if (s.core core).engineFree u && !s.heldHead core u then unitRun core u stepCmd s else .next s

end Sys2Proof.Machine
end

