-- ==== Sys2Proof/Machine/Host.lean ====
section
/-! DEFINITION. Machine/Host: power, the boot ROM and the bring-up page (R349, R361 to R366), and the operations of
the transport (R144, R350 to R356). -/

namespace Sys2Proof.Machine

/-! ## Start -/

/-- Place and size of the push window (R104, R362). -/
def pushPa : Nat := 0xF78000000
def pushSize : Nat := 0x4000000

/-- What power-good leaves (R361, R366, log 3): nothing of an earlier run but the model's own fields. Port 0 is
up (R349). -/
def State.powerCycled (s : State) (stage : Nat) (ports : BitVec 12) : State :=
  { State.reset with
    sched := s.sched, cur := s.cur, fresh := s.fresh, outputs := s.outputs
    boot := { powered := true, stage := stage, ports := ports } }

/-- R361: power-good, also after power has been cycled. -/
def execPowerGood (s : State) : Result := .next (s.powerCycled 0 1)

/-- The module enters stage 2 once all dies have joined and all ports are up (R361). -/
def State.stage2 (s : State) : State :=
  if s.boot.stage = 1 && s.boot.dies == 0xFF && s.boot.ports == 0xFFF then
    { s with boot := { s.boot with stage := 2 } }
  else s

/-- R361: a die joins in stage 1 once its memory is trained, which goes in ascending order; one that has been passed
over has failed and never joins. -/
def execDieMemoryJoin (die : Fin 8) (s : State) : Result :=
  event s (
    if s.boot.stage = 1 && s.boot.dies.toNat < 2 ^ die.val then
      some { s with boot := { s.boot with dies := setBit s.boot.dies die.val true } }.stage2
    else none)

/-- The lowest port that is down. -/
def State.nextPort (s : State) : Option Nat := (upFrom 0 12).find? fun p => !s.boot.ports.getLsbD p

/-- R349: ports come up in ascending order in stage 1. -/
def execPortUp (s : State) : Result :=
  event s (
    if s.boot.stage = 1 then
      s.nextPort.map fun p => { s with boot := { s.boot with ports := setBit s.boot.ports p true } }.stage2
    else none)

/-! ## The firmware check (R364, R365) -/

/-- Bytes of the push window. -/
def State.window (s : State) (a n : Nat) : List Byte := bytesAt s.memory.mem (pushPa + a) n

/-- Bytes lo to hi of a list. -/
def sliceB (l : List Byte) (lo hi : Nat) : List Byte := (l.drop lo).take (hi + 1 - lo)

def fieldN (l : List Byte) (lo hi : Nat) : Nat := leNat (sliceB l lo hi)

/-- Check of R365: the fused key slot and the digest, or the reason of the failure. -/
def State.checkImage (s : State) : Except Nat (Nat × BitVec 384) :=
  let h := s.window 0 256
  let n := fieldN h 8 11
  if fieldN h 0 3 != 0x4E4C494B || fieldN h 12 15 != 0 || fieldN h 209 255 != 0 || n % 128 != 0 ||
      n < 128 || 0x3FFFF00 < n then .error 1
  else if fieldN h 4 7 < Config.fusedMinVersion then .error 2
  else
    let key := sliceB h 112 208
    match [0, 1, 2, 3].find? fun k => Config.fusedKeyHash k == some (Config.sha384 key) with
    | none => .error 3
    | some k =>
      let d := Config.sha384 (sliceB h 0 11 ++ s.window 256 n)
      if Config.ecdsaVerify key d (sliceB h 16 111) then .ok (k, d) else .error 4

/-- Mi extended by a digest (R366). -/
def State.extend (s : State) (i : Nat) (d : BitVec 384) : State :=
  { s with boot := { s.boot with
      m := cset 0 s.boot.m i (Config.sha384 (digest (cget 0 s.boot.m i) ++ digest d)) } }

/-- Firmware extends one of M1 to M7 (R366). When it does, and by which digest, is the firmware's: the schedule names
both (log 88). -/
def State.measure (s : State) (i : Fin 7) (d : BitVec 384) : State :=
  if s.boot.stage = 1 || s.boot.stage = 2 then s.extend (i.val + 1) d else s

/-- R365: the check ends. A pass also gives the management list its first initiator (R358) and clears the sync
window (R122). -/
def execFirmwareCheckEnd (s : State) : Result :=
  event s (
    match s.boot.checking with
    | none => none
    | some who =>
      match s.checkImage with
      | .error c => some { s with boot := { s.boot with
          checking := none, lastfail := BitVec.ofNat 4 c
          fails := if s.boot.fails = 0xFFFF then 0xFFFF else s.boot.fails + 1 } }
      | .ok (k, d) =>
        let s := s.extend 0 d
        some { s with
          boot := { s.boot with
            checking := none, keyslot := BitVec.ofNat 4 k, lock := true, stage := 1
            mgmt := [(who, s.boot.checkPort)] }
          memory := { s.memory with sw := [], swVec := [], swJob := [] }
          todo := s.todo ++ [.dieMemoryJoin 0, .dieMemoryJoin 1, .dieMemoryJoin 2, .dieMemoryJoin 3,
            .dieMemoryJoin 4, .dieMemoryJoin 5, .dieMemoryJoin 6, .dieMemoryJoin 7] ++
            List.replicate 11 .portUp })

/-! ## The bring-up page (R362, R363) -/

/-- bootstat. -/
def Boot.stat (b : Boot) : Word :=
  BitVec.ofNat 64 (b.stage % 16 + b.keyslot.toNat * 2 ^ 8 + b.lastfail.toNat * 2 ^ 12 + b.fails.toNat * 2 ^ 16 +
    b.dies.toNat * 2 ^ 32 + b.ports.toNat * 2 ^ 40)

/-- What the page holds, by offset; bootctl reads 0, and so does every byte that is not listed. -/
def State.bringupPage (s : State) : List (Nat × List Byte) :=
  [(0, leBytes 8 s.boot.stat.toNat), (0x10, leBytes 8 (if s.boot.lock then 1 else 0)),
   (0x40, leBytes 8 Config.serial.toNat), (0x300, dkPublic.take 97),
   (0x380, (kaPublic (cget 0 s.boot.m 0)).take 97)] ++
  (upFrom 0 8).map fun i => (0x100 + 48 * i, digest (cget 0 s.boot.m i))

def State.bringupByte (s : State) (off : Nat) : Byte :=
  match s.bringupPage.find? fun p => decide (p.1 ≤ off) && decide (off < p.1 + p.2.length) with
  | some p => p.2.getD (off - p.1) 0
  | none => 0

/-! ## Arrival (R144, R350, R351) -/

/-- The flow that an operation belongs to. -/
def Flow.is (f : Flow) (t : Xfer) : Bool :=
  f.port == t.port.val && f.initiator == t.initiator && f.ident == t.ident

def State.flow (s : State) (t : Xfer) : Flow :=
  (s.flows.find? (·.is t)).getD { port := t.port.val, initiator := t.initiator, ident := t.ident }

def Flow.seen (f : Flow) (n : Nat) : Bool := decide (n < f.next) || f.extra.contains n

/-- Numbers delivered beyond the next one become part of the run that begins at 0. -/
def Flow.settle (f : Flow) : Nat → Flow
  | 0 => f
  | n + 1 =>
    if f.extra.contains f.next then
      Flow.settle { f with next := f.next + 1, extra := f.extra.filter (· != f.next) } n
    else f

def Flow.deliver (f : Flow) (n : Nat) : Flow :=
  let g := { f with extra := n :: f.extra }
  g.settle (g.extra.length)

/-- A held OI write whose earlier remote writes are visible (R354). -/
def State.releasable (s : State) (h : OiHold) : Bool := (s.flow h.xfer).next == h.xfer.tseq

/-- An operation is delivered and, for a write, visible: held OI writes that waited for it are due. -/
def State.delivered (s : State) (t : Xfer) : State :=
  let f := (s.flow t).deliver t.tseq
  let s := { s with flows := f :: s.flows.filter fun g => !g.is t }
  (s.held.filter s.releasable).foldl (fun s h => s.due (.oiWriteVisible h.id)) s

def State.complete (s : State) (t : Xfer) (ok : Bool) (reason : Nat) (data : List Byte) : State :=
  s.output (.completion t.port.val t.initiator ok reason data)

/-- The reason of a refusal that carries none (log 2). -/
def noReason : Nat := 255

/-- A refusal: an error completion, and the telemetry page counts it (R351, R372). -/
def State.refuse (s : State) (t : Xfer) (reason : Nat) : State :=
  let p := t.port.val
  { s with mon := { s.mon with refused := cset 0 s.mon.refused p (cget 0 s.mon.refused p + 1) } }.complete t false
    reason []

/-- A port carries operations while it is up. -/
def State.portOpen (s : State) (p : Fin 12) : Bool :=
  s.boot.powered && s.boot.stage != 0xF && s.boot.ports.getLsbD p.val

/-- An operation arrives (R350): once, in sequence under ordered delivery or where ordered says so, and in a
delivery mode that is accepted. act performs it. -/
def arrive (t : Xfer) (ordered : Bool) (act : State → Option State) (s : State) : Result :=
  event s (
    let f := s.flow t
    if !s.portOpen t.port || f.seen t.tseq || s.held.any (fun h => h.xfer == t) ||
        ((ordered || t.mode == .rod) && f.next != t.tseq) then none
    else
      match t.mode with
      | .rudi | .uud => some ((s.refuse t noReason).delivered t)
      | .rod | .rud => act s)

/-- The job that an identifier names (R351). -/
def State.boundJob (s : State) (ident : BitVec 24) : Option Nat :=
  (s.jobs.find? fun j => j.2.ident == ident).map (·.1)

/-- Operations are at most 64 MiB (R352). -/
def maxXfer : Nat := 0x4000000

/-! ## Identifier 0 (R362) -/

/-- A write of go = 1 starts the check; it is ignored while a check runs and after stage 0 (R363). -/
def State.go (s : State) (t : Xfer) : State :=
  if s.boot.stage = 0 && s.boot.checking.isNone then
    { s with boot := { s.boot with checking := some t.initiator, checkPort := t.port.val } }.due .firmwareCheckEnd
  else s

/-- A refusal under identifier 0: the telemetry page counts only those of R350 to R356 (R372). -/
def State.refuseZero (s : State) (t : Xfer) : State := s.complete t false noReason []

/-- A remote write under identifier 0. -/
def State.writeZero (s : State) (t : Xfer) (off : Nat) (data : List Byte) : State :=
  let n := data.length
  if off + n ≤ pushSize then
    if s.boot.stage = 0 && s.boot.checking.isNone then
      { s with memory := { s.memory with mem := setBytes s.memory.mem (pushPa + off) data } }.complete t true 0 []
    else s.refuseZero t
  else if pushSize ≤ off && off + n ≤ pushSize + 4096 then
    let starts := decide (off ≤ pushSize + 8) && decide (pushSize + 8 < off + n) &&
      (data.getD (pushSize + 8 - off) 0).getLsbD 0
    (if starts then s.go t else s).complete t true 0 []
  else s.refuseZero t

/-- A remote read under identifier 0. -/
def State.readZero (s : State) (t : Xfer) (off n : Nat) : State :=
  if off + n ≤ pushSize then
    if s.boot.stage = 0 then s.complete t true 0 (s.window off n) else s.refuseZero t
  else if pushSize ≤ off && off + n ≤ pushSize + 4096 then
    s.complete t true 0 ((upFrom (off - pushSize) n).map s.bringupByte)
  else s.refuseZero t

/-! ## Remote accesses of a job -/

/-- A plain remote write (R352, R158). -/
def State.remotePut (s : State) (t : Xfer) (va : Word) (data : List Byte) : State :=
  match s.boundJob t.ident with
  | none => s.refuse t noReason
  | some job =>
    if pathOf va != 0 || maxXfer < data.length then s.refuse t noReason
    else
      match s.agentWrite job (portAgent t.port.val) 0 (BitVec.ofNat 64 (offOf va)) data with
      | .done s' => s'.complete t true 0 []
      | .refused r => s.refuse t r
      | .exhausted => (s.complete t false noReason []).record ⟨job, 0x10, 0, 0, 0, va, []⟩

/-- A remote write of any kind but OI. -/
def State.anyPut (s : State) (t : Xfer) (va : Word) (data : List Byte) : State :=
  (if t.ident = 0 then s.writeZero t va.toNat data else s.remotePut t va data).delivered t

/-- A name for a new held write. -/
def State.nextHold (s : State) : Nat := (s.held.map (·.id)).foldl Nat.max 0 + 1

/-- An OI write is accepted and held (R354); while its port holds 256, it is not accepted yet. -/
def State.oiPut (s : State) (t : Xfer) (va : Word) (data : List Byte) : Option State :=
  let n := data.length
  let refused (r : Nat) : Option State := some ((s.refuse t r).delivered t)
  match s.boundJob t.ident with
  | none => refused noReason
  | some job =>
    if n = 0 || 64 < n || va.toNat / 64 != (va.toNat + n - 1) / 64 then refused noReason
    else
      match s.translate job (offOf va) .write with
      | .error r => refused r
      | .ok (pa, slot, chk) =>
        if 256 ≤ (s.held.filter fun h => h.xfer.port == t.port).length then none
        else
          let h : OiHold := ⟨s.nextHold, t, job, BitVec.ofNat 64 (offOf va), pa, slot, chk, data⟩
          let s := { s with held := s.held ++ [h] }
          some (if s.releasable h then s.due (.oiWriteVisible h.id) else s)

/-- A remote write, on the path that its address names. -/
def State.hostPut (t : Xfer) (va : Word) (data : List Byte) (s : State) : Option State :=
  if t.ident != 0 && pathOf va = 9 then s.oiPut t va data else some (s.anyPut t va data)

/-- R352. -/
def execRemoteWrite (t : Xfer) (va : Word) (data : List Byte) (s : State) : Result :=
  arrive t false (State.hostPut t va data) s

/-- R354. -/
def execOiWrite (t : Xfer) (va : Word) (data : List Byte) (s : State) : Result :=
  arrive t false (State.hostPut t va data) s

/-- R362. -/
def execPushWindowWrite (t : Xfer) (off : Nat) (data : List Byte) (s : State) : Result :=
  arrive t false (State.hostPut t (BitVec.ofNat 64 off) data) s

/-- R363, R365. -/
def execBootctlGo (t : Xfer) (value : Word) (s : State) : Result :=
  arrive t false (State.hostPut t (BitVec.ofNat 64 (pushSize + 8)) (leBytes 8 value.toNat)) s

/-- R363. -/
def execBringupRegisterWrite (t : Xfer) (off : Nat) (data : List Byte) (s : State) : Result :=
  arrive t false (State.hostPut t (BitVec.ofNat 64 (pushSize + off)) data) s

/-- A held OI write becomes visible (R144, R147, R148, R354): stamped under the flag as it stood, then the agent's
flag, the waiter test and the head-slot test. A write to a job that has ended is refused. -/
def State.oiShow (s : State) (h : OiHold) : State :=
  let s := { s with held := s.held.filter fun x => x.id != h.id }
  let agent := portAgent h.xfer.port.val
  let n := h.data.length
  let s := match s.job? h.job with
    | none => s.refuse h.xfer noReason
    | some _ =>
      match s.stampBy h.job agent 1 (if h.chk then blocksOf 128 h.pa n else []) with
      | none => (s.complete h.xfer false noReason []).record ⟨h.job, 0x10, 0, 0, 0, h.off, []⟩
      | some s1 =>
        let s2 := (s1.devWrite h.slot h.pa h.data false).setPending h.job agent
        ((s2.testTouched false h.pa n).pokeQueues h.job h.off.toNat n).complete h.xfer true 0 []
  s.recheck.delivered h.xfer

/-- R354: due once every earlier remote write of its flow is visible. -/
def execOiWriteVisible (n : Nat) (s : State) : Result :=
  event s (
    match s.held.find? fun h => h.id == n with
    | some h => if s.releasable h then some (s.oiShow h) else none
    | none => none)

/-! ## Remote reads (R353) -/

/-- A byte that a remote read returns: 0 in a unit whose poison mark is set. -/
def State.hostByte (s : State) (key : BitVec 512) (pa : Nat) : Byte :=
  if cget false s.memory.poison (pa / 64) then 0 else s.devByte key pa

/-- A remote read of a job. -/
def State.remoteGet (s : State) (t : Xfer) (va : Word) (n : Nat) : State :=
  match s.boundJob t.ident with
  | none => s.refuse t noReason
  | some job =>
    if pathOf va != 0 || maxXfer < n then s.refuse t noReason
    else match s.agentParts job (BitVec.ofNat 64 (offOf va)) n with
      | .error r => s.refuse t r
      | .ok ps =>
        let data := ps.flatMap fun p => match p with
          | .inl bs => bs
          | .inr (pa, slot, k) => (upFrom pa k).map (s.hostByte ((s.keyOf slot).getD 0))
        if ps.any fun p => match p with | .inl _ => false | .inr (pa, _, k) => s.devPoison pa k then
          s.output (.poisoned t.port.val t.initiator data)
        else s.complete t true 0 data

/-- R353; R362 under identifier 0. -/
def execRemoteRead (t : Xfer) (va : Word) (len : Nat) (s : State) : Result :=
  arrive t false (fun s => some
    ((if t.ident = 0 then s.readZero t va.toNat len else s.remoteGet t va len).delivered t)) s

/-! ## Transport atomics (R355) -/

/-- New value of a transport atomic's word; none for no write. -/
def tatomNew (op : TAtom) (w4 : Bool) (v o : Word) : Option Word :=
  match op with
  | .amo f => some (amoNewW f w4 o v)
  | .cas e => if o = lowW w4 e then some v else none
  | .other => none

/-- The operation and the width are ones that the sync window takes (R315, R355). -/
def tatomOk (op : TAtom) (width : Nat) : Bool :=
  match op with
  | .amo (.plain .fadd) => width == 4
  | .amo _ | .cas _ => width == 4 || width == 8
  | .other => false

/-- A transport atomic of a bound job: a release of the port's ingress agent. -/
def State.remoteAmo (s : State) (t : Xfer) (va : Word) (op : TAtom) (width : Nat) (v : Word) (fetch : Bool) :
    State :=
  match s.boundJob t.ident with
  | none => s.refuse t noReason
  | some job =>
    if pathOf va != 7 || !tatomOk op width || va.toNat % width != 0 then s.refuse t noReason
    else
      let w4 := width == 4
      match s.syncAt job va .write with
      | .error r => s.refuse t r
      | .ok a =>
        match s.agentAmo job (portAgent t.port.val) a w4 (tatomNew op w4 v) with
        | none => s.refuse t noReason
        | some (o, s') => s'.complete t true 0 (if fetch then leBytes (wBytes w4) o.toNat else [])

/-- R355: performed only after every earlier remote write of its flow is visible. -/
def execTransportAtomic (t : Xfer) (va : Word) (op : TAtom) (width : Nat) (operand : Word) (fetch : Bool)
    (s : State) : Result :=
  arrive t true (fun s => some ((s.remoteAmo t va op width operand fetch).delivered t)) s

end Sys2Proof.Machine
end

