-- ==== Sys2Proof/Machine/Background.lean ====
section
/-! DEFINITION. Machine/Background: what runs beside the work of jobs: power and temperature (R371), the scrubs and
retraining (R370), the freeze of a core (R417), the watchdog (R409), and the release of coil blocks (R339). -/

namespace Sys2Proof.Machine

/-! ## Power and temperature (R371) -/

/-- 5,800 W in mW, and 105 °C and 120 °C in units of 1/16 °C. -/
def powerLimit : Nat := 5800000
def warmTemp : Int := 1680
def stopTemp : Int := 1920

/-- Readings of power and of the dies' temperatures; a list lists dies from 0 up. -/
def Monitors.read (m : Monitors) (power : Word) (temps : List (BitVec 16)) : Monitors :=
  { m with power := power, dietemp := (upFrom 0 8).foldl (fun d i => cset 0 d i (temps.getD i 0)) [] }

def Monitors.warm (m : Monitors) (t : Int) : Bool := m.dietemp.any fun d => decide (t ≤ d.2.toInt)

/-- The issue limit after 10 ms: tighter while a bound is exceeded, lighter once both readings are below. -/
def Monitors.limit (m : Monitors) : Monitors :=
  if powerLimit < m.power.toNat || m.warm warmTemp then
    if m.issueLimit < 16 then { m with issueLimit := m.issueLimit + 1, limitSteps := m.limitSteps + 1 } else m
  else if m.power.toNat < powerLimit then { m with issueLimit := m.issueLimit - 1 }
  else m

/-- Kiln runs. -/
def State.kilnUp (s : State) : Bool := s.boot.powered && s.boot.stage != 0xF

def execPowerLimitTick (power : Word) (temps : List (BitVec 16)) (s : State) : Result :=
  event s (
    if !s.kilnUp then none
    else
      let m := (s.mon.read power temps).limit
      let hot := (List.finRange 8).filter fun d => decide (stopTemp ≤ (cget 0 m.dietemp d.val).toInt)
      some { s with mon := m, todo := s.todo ++ hot.map .thermalStop })

/-- R371: everything is lost, and only power brings the module back. -/
def execThermalStop (die : Fin 8) (s : State) : Result :=
  event s (
    if s.kilnUp && decide (stopTemp ≤ (cget 0 s.mon.dietemp die.val).toInt) then some (s.powerCycled 0xF 0) else none)

/-! ## Errors of a store (R107, R111, R370, R417) -/

/-- A correctable error is found in a core's SRAM (R417). Errors of one cycle share a freeze. -/
def CoreSt.eccError (c : CoreSt) (now : Nat) : CoreSt :=
  if c.errAt = some now then c
  else
    let c := { c with errAt := some now }
    if c.frozen = 0 then
      { c with frozen := now + 25, regs := { c.regs with sp := { c.regs.sp with freeze := c.regs.sp.freeze + 1 } } }
    else { c with freezeNext := true }

/-- An uncorrectable error poisons a word of the scratchpad, or both halves of one of the accumulators (R111). -/
def CoreSt.poisonSp (c : CoreSt) (w : Nat) : CoreSt :=
  { c with stores := { c.stores with spPoison := cset false c.stores.spPoison w true } }

def CoreSt.poisonAcc (c : CoreSt) (w : Nat) : CoreSt :=
  { c with stores := { c.stores with
      accPoison := cset false (cset false c.stores.accPoison (2 * w) true) (2 * w + 1) true } }

/-- Words of 8 bytes of a scratchpad and of an accumulator. -/
def spWords : Nat := 196608
def accWords : Nat := 65536

/-- An error of an on-chip store of a die is counted (R370). -/
def State.countSram (s : State) (die : Nat) (bad : Bool) : State :=
  let m := s.mon
  { s with mon :=
      if bad then { m with sramUncorr := cset 0 m.sramUncorr die (cget 0 m.sramUncorr die + 1) }
      else { m with sramCorr := cset 0 m.sramCorr die (cget 0 m.sramCorr die + 1) } }

/-- What the scrub finds and does (R107, R370). Errors of on-chip stores have counters of their own, which the page of
R372 does not hold; no mark stands for sync engine storage (log 89). -/
def State.scrub (s : State) (loc : ScrubLoc) (bad : Bool) : State :=
  match loc with
  | .mem pa =>
    let d := pa / 2 ^ 36
    if 8 ≤ d || !s.boot.dies.getLsbD d then s
    else if bad then
      { s with
        memory := { s.memory with poison := cset false s.memory.poison (pa / 64) true }
        mon := { s.mon with memUncorr := cset 0 s.mon.memUncorr d (cget 0 s.mon.memUncorr d + 1) } }
    else
      { s with mon := { s.mon with memCorr := cset 0 s.mon.memCorr d (cget 0 s.mon.memCorr d + 1) } }
  | .scratch core w =>
    if spWords ≤ w then s
    else (s.countSram (dieOf core.val) bad).modCore core.val fun c => if bad then c.poisonSp w else c.eccError s.cycle
  | .acc core w =>
    if accWords ≤ w then s
    else (s.countSram (dieOf core.val) bad).modCore core.val fun c => if bad then c.poisonAcc w else c.eccError s.cycle
  | .sync die => s.countSram die.val bad

/-- R370: an error that the scrub, or an access, finds; from stage 1 on. -/
def execPatrolScrub (loc : ScrubLoc) (uncorrectable : Bool) (s : State) : Result :=
  event s (
    if s.boot.stage = 1 || s.boot.stage = 2 then some (s.scrub loc uncorrectable) else none)

/-- R370: a pause of a channel changes timing only. -/
def execMemoryRetraining (_die : Fin 8) (_channel : Nat) (s : State) : Result := .next s

/-- R417, R409: the freeze has lasted its 24 cycles, and each of them counts as progress. -/
def execFreezeEnd (core : Fin 448) (s : State) : Result :=
  event s (
    let c := s.core core.val
    if c.frozen = 0 || s.cycle < c.frozen then none
    else
      let c := { c with progress := Nat.max c.progress c.frozen, freezeNext := false }
      some (s.setCore core.val (
        if (s.core core.val).freezeNext then
          { c with
            frozen := c.frozen + 24
            regs := { c.regs with sp := { c.regs.sp with freeze := c.regs.sp.freeze + 1 } } }
        else { c with frozen := 0 })))

/-! ## The watchdog (R409) -/

def watchdogCycles : Nat := 2 ^ 31

/-- A sequencer is stalled at issue: a parked one is not (R57, R392). -/
def State.stalledAt (s : State) (core : Nat) (q : Seq) : Bool :=
  let x := (s.core core).seq q
  x.cond == .run && x.stalled && !x.specPark && !s.parkedAt core q

/-- The lowest sequencer that is stalled at issue. -/
def State.stalledSeq (s : State) (core : Nat) : Nat :=
  match [Seq.k, .l, .c, .s].find? (s.stalledAt core) with
  | some q => q.idx
  | none => 0xFFFF

/-- R409: due after 2^31 cycles without progress. ipc names no instruction, so nothing constrains it (log 2). -/
def execWatchdog (core : Fin 448) (s : State) : Result :=
  event s (
    let c := s.core core.val
    if c.task.isNone || c.frozen != 0 || s.cycle < c.progress + watchdogCycles then none
    else
      let t : Trap := { cause := 0x15, code := s.stalledSeq core.val, ipc := Config.freeWord s.fresh }
      some ({ s with fresh := s.fresh + 1 }.trapOn core.val t none))

/-! ## Blocks of dropped coils (R339) -/

/-- A coil store that has passed its check against a handle and has not been performed. -/
def CoreSt.storesInto (c : CoreSt) (h : Word) : Bool :=
  c.units.store.any fun x =>
    match x.inst with
    | .tstCoil .. => x.slot.isSome && x.src == h
    | _ => false

/-- Such a store of a running or a pre-empted task of a job. -/
def State.storesLeft (s : State) (job : Nat) (h : Word) : Bool :=
  (s.cores.any fun c => c.2.job == job && c.2.storesInto h) ||
  match s.job? job with
  | some j => j.launches.any fun l => l.2.images.any fun i => i.saved.storesInto h
  | none => false

/-- R339: due for a dropped descriptor that no such store is left for. -/
def execCoilBlockRelease (n : Nat) (s : State) : Result :=
  event s (
    match s.memory.dropped.find? fun d => d.id == n with
    | none => none
    | some d =>
      if s.storesLeft d.job d.handle then none
      else
        let s := { s with memory := { s.memory with dropped := s.memory.dropped.filter fun x => x.id != n } }
        some (s.modJob d.job fun j => { j with pool := d.blocks.foldl Pool.unref j.pool }))

end Sys2Proof.Machine
end

