-- ==== Sys2Proof/Machine/Kernels.lean ====
section
/-! DEFINITION. Machine/Kernels: the Ebmen object that KREG registers (R183 to R189). An object is registered where
it lies in the job's memory (log 11): its text runs there, its relocations are applied there, and its .link section is
reached there through the constant path. -/

namespace Sys2Proof.Machine

/-- A record of the section table (R184). -/
structure Sect where
  kind : Nat
  task : Nat
  off : Nat
  size : Nat
  deriving DecidableEq, Repr

/-- A record of the symbol table (R188). -/
structure Sym where
  name : Nat
  sect : Nat
  kind : Nat
  binding : Nat
  value : Nat
  deriving DecidableEq, Repr

/-- An object that keeps the limits of R183 to R188. -/
structure Obj where
  linked : Bool
  flags : Nat
  sects : List Sect
  syms : List Sym
  deriving DecidableEq, Repr

/-- Task ordinal of a section that the object's tasks share (R184). -/
def sharedTask : Nat := 0xFFFFFFFF

/-- Field of a record that begins at r. -/
def recF (b : List Byte) (r lo hi : Nat) : Nat := fieldN b (r + lo) (r + hi)

/-- Starts of the n records of a size from an offset on. -/
def recsAt (off size n : Nat) : List Nat := (upFrom 0 n).map fun i => off + size * i

/-! ## Sections -/

/-- A section record, when it keeps R184. -/
def sectAt (b : List Byte) (r : Nat) : Option Sect :=
  let k := recF b r 0 3
  let al := recF b r 24 24
  let off := recF b r 8 15
  let size := recF b r 16 23
  if 1 ≤ k && k ≤ 14 && recF b r 25 31 == 0 && 3 ≤ al && al ≤ 12 && off % 2 ^ al == 0 && off + size ≤ b.length then
    some ⟨k, recF b r 4 7, off, size⟩
  else none

/-- Record offsets of a .pp section (R186), from an offset in it; fuel bounds the records. -/
def ppOffsets (b : List Byte) (size : Nat) : Nat → Nat → Option (List Nat)
  | 0, _ => none
  | f + 1, o =>
    if o = size then some []
    else
      let n := if (b.getD o 0) = 1 then 128 else 1032
      let ok :=
        if (b.getD o 0) = 1 then
          let len := (b.getD (o + 1) 0).toNat
          1 ≤ len && len ≤ 16 && decide ((b.getD (o + 2) 0).toNat ≤ 4) && recF b o 3 7 == 0 && recF b o 104 127 == 0
        else (b.getD o 0) == 2 && recF b o 1 7 == 0
      if ok && o + n ≤ size then (ppOffsets b size f (o + n)).map (o :: ·) else none

def symAt (b : List Byte) (r : Nat) : Sym :=
  ⟨recF b r 0 3, recF b r 4 5, recF b r 6 6, recF b r 7 7, recF b r 8 15⟩

/-- Bytes from an offset on are zeros. -/
def zerosAt (b : List Byte) (o n : Nat) : Bool := (sliceB b o (o + n - 1)).all (· == 0) || n == 0

/-- Whether a .launch section is a run of records (R187): a name in .strtab, the symbol of a stage, and the arguments
padded with zeros. -/
def launchRecs (b : List Byte) (strs : Nat) (syms : List Sym) (lim : Nat) : Nat → Nat → Bool
  | 0, _ => false
  | f + 1, o =>
    let args := recF b o 16 19
    let size := (args + 7) / 8 * 8
    o == lim ||
    (decide (o + 20 ≤ lim) && decide (recF b o 0 3 < strs) &&
      (match syms[recF b o 4 7]? with | some y => y.kind == 8 | none => false) &&
      recF b o 8 8 ≤ 7 && recF b o 9 15 == 0 && decide (o + 20 + size ≤ lim) &&
      zerosAt b (o + 20 + args) (size - args) && launchRecs b strs syms lim f (o + 20 + size))

/-- The limits that a section's records keep (R185 to R188); strs is the size of .strtab. -/
def sectOk (b : List Byte) (strs : Nat) (syms : List Sym) (x : Sect) : Bool :=
  let rs (size : Nat) : List Nat := recsAt x.off size (x.size / size)
  let whole (size : Nat) : Bool := x.size % size == 0
  match x.kind with
  | 1 | 2 | 3 | 4 => x.size % 8 == 0
  | 5 => (ppOffsets (sliceB b x.off (x.off + x.size - 1)) x.size (x.size + 1) 0).isSome || x.size == 0
  | 6 => whole 8 &&
    (rs 8).all (fun r => recF b r 0 0 ≤ 11 && recF b r 1 1 ≤ 1 && recF b r 2 3 == 0) &&
    decide ((rs 8).map fun r => (recF b r 0 0, recF b r 1 1)).Nodup
  | 7 => whole 16 && (rs 16).all fun r =>
      decide (recF b r 0 3 < strs) && (Ty.fromNat (recF b r 8 8)).isSome && recF b r 9 15 == 0
  | 9 => whole 16 && (rs 16).all fun r =>
      (match syms[recF b r 0 3]? with | some y => y.binding == 2 | none => false) && recF b r 4 7 == 0
  | 10 => whole 24
  | 11 => x.size == 0 || recF b x.off (x.size - 1) (x.size - 1) == 0
  | 12 => whole 24
  | 13 => whole 16 && (rs 16).all fun r =>
      decide (recF b r 0 3 < strs) && recF b r 4 7 == 0 && recF b r 8 15 % 128 == 0
  | 14 => launchRecs b strs syms (x.off + x.size) (x.size + 1) x.off
  | _ => true

/-- The section of a kind, the first of its kind. -/
def firstOf (xs : List Sect) (k : Nat) : Option Sect := xs.find? fun x => x.kind == k

/-- An object as R183 and R184 give it; none where a limit is broken. -/
def parseObj (b : List Byte) : Option Obj :=
  let flags := recF b 0 6 7
  let n := recF b 0 8 11
  let tab := recF b 0 16 23
  if b.length < 64 || recF b 0 0 3 != 0x004F4245 || recF b 0 4 5 != 1 || 3 < flags || recF b 0 12 15 != 0 ||
      recF b 0 24 63 != 0 || n < 1 || 65535 < n || tab % 8 != 0 || b.length < tab + 32 * n then none
  else
    match (recsAt tab 32 n).mapM (sectAt b) with
    | none => none
    | some xs =>
      let strs := match firstOf xs 11 with | some x => x.size | none => 0
      let syms := (xs.filter fun x => x.kind == 10).flatMap fun x => (recsAt x.off 24 (x.size / 24)).map (symAt b)
      let text : List (Nat × Nat) := (xs.filter fun x => decide (x.kind ≤ 4)).map fun x => (x.kind, x.task)
      let symOk (y : Sym) : Bool :=
        decide (y.name < strs) && (y.sect == 0xFFFF || decide (y.sect < n)) && decide (y.kind ≤ 9) &&
        decide (y.binding ≤ 2)
      if decide (text.Nodup) && xs.all (sectOk b strs syms) && syms.all symOk then
        some ⟨flags / 2 % 2 == 1, flags, xs, syms⟩
      else none

/-! ## Placement -/

/-- Where a section lies: .link on the constant path, every other section on the G path (R187, log 11). -/
def Sect.placed (base : Word) (x : Sect) : Word :=
  (if x.kind = 9 then BitVec.ofNat 64 (2 * 2 ^ 60) else 0) + base + BitVec.ofNat 64 x.off

/-- A symbol's value after placement (R188, R189): the place of its section plus its value, of a tile symbol too whose
section is .tiles (DESIGN CHOICE, log 95). -/
def Obj.symVal (o : Obj) (base : Word) (y : Sym) : Word :=
  match o.sects[y.sect]? with
  | some x => x.placed base + BitVec.ofNat 64 y.value
  | none => BitVec.ofNat 64 y.value

/-- A name of .strtab without its zero byte (R187). -/
def Obj.nameOf (o : Obj) (b : List Byte) (n : Nat) : List Byte :=
  match firstOf o.sects 11 with
  | some x => (sliceB b (x.off + n) (x.off + x.size - 1)).takeWhile (· != 0)
  | none => []

/-! ## Relocation (R189) -/

/-- Bytes replaced at an offset. -/
def patchB (b : List Byte) (o : Nat) (v : List Byte) : List Byte := b.take o ++ v ++ b.drop (o + v.length)

/-- The instructions that read imm18 signed: offsets, displacements and the immediates that are sign-extended (R198, R210,
R213, R216 to R221, R229 to R231, R241 to R250). -/
def immSigned : Instr → Bool
  | .br .. | .call .. | .addi .. | .andi .. | .ori .. | .xori .. | .li .. | .ld .. | .st .. | .ldm .. | .stm ..
  | .aaddi .. | .ali .. | .lda .. | .sta .. | .tld .. | .tst .. | .tgth .. | .tsct .. | .tprf .. | .tzero .. => true
  | .cmpi _ c .. | .acmpi _ c .. => !unsignedCond c
  | _ => false

/-- Whether the instruction of a stream whose doublewords stand at an offset reads imm18, or fields in it, unsigned. The
place may still hold a value that decodes to nothing: the instruction is the one that some single bit of imm18 gives. Where
no bit does, and 0 does, the instruction reads nothing there. -/
def immUnsigned (q : Seq) (b : List Byte) (o : Nat) : Bool :=
  let w (i : Nat) : Word := BitVec.ofNat 64 (fieldN b (o + 8 * i) (o + 8 * i + 7))
  let holding (v : BitVec 18) := (decode q { Fields.unpack (w 0) with imm := v }.pack (w 1) (w 2) (w 3)).toOption
  match (upFrom 0 18).findSome? fun k => holding (BitVec.twoPow 18 k) with
  | some i => !immSigned i
  | none => (holding 0).isNone

/-- imm18 of the instruction at an offset gets a value; none where it does not fit. -/
def putImm (b : List Byte) (o : Nat) (isUns : Bool) (v : Int) : Option (List Byte) :=
  if (-131072 ≤ v && v < 131072) || (isUns && 0 ≤ v && v < 262144) then
    let f := Fields.unpack (BitVec.ofNat 64 (fieldN b o (o + 7)))
    some (patchB b o (leBytes 8 { f with imm := BitVec.ofInt 18 v }.pack.toNat))
  else none

/-- JMP's 36-bit offset (R173). -/
def putJmp (b : List Byte) (o : Nat) (v : Int) : Option (List Byte) :=
  if -34359738368 ≤ v && v < 34359738368 then
    let f := Fields.unpack (BitVec.ofNat 64 (fieldN b o (o + 7)))
    let x := BitVec.ofInt 36 v
    some (patchB b o (leBytes 8 { f with imm := x.extractLsb' 0 18, a := x.extractLsb' 18 6, b := x.extractLsb' 24 6
                                         c := x.extractLsb' 30 6 }.pack.toNat))
  else none

/-- Stream of a text section. -/
def streamOf (k : Nat) : Seq := match k with | 1 => .k | 2 => .l | 3 => .c | _ => .s

/-- Record offsets of all .pp sections, and their bytes: where an object has several, the records are numbered through them
in the order of the section table (DESIGN CHOICE, log 95). -/
def Obj.pp (o : Obj) (b : List Byte) : List Nat × List Byte :=
  (o.sects.filter fun x => x.kind == 5 && x.size != 0).foldl (fun acc x =>
    let bs := sliceB b x.off (x.off + x.size - 1)
    (acc.1 ++ ((ppOffsets bs x.size (x.size + 1) 0).getD []).map (· + acc.2.length), acc.2 ++ bs)) ([], [])

/-- Offset of a symbol's record among the bytes of all .pp sections. -/
def Obj.ppPlace (o : Obj) (y : Sym) : Nat :=
  (((o.sects.take y.sect).filter fun x => x.kind == 5).map (·.size)).sum + y.value

/-- One relocation record at r (R189); none where it fails, as it does where an external symbol, which has no value until
it is linked, stands for anything but its .link entry (DESIGN CHOICE, log 92). -/
def relocate (o : Obj) (base : Word) (b : List Byte) (r : Nat) : Option (List Byte) := do
  let x ← o.sects[recF b r 8 9]?
  let y ← o.syms[recF b r 12 15]?
  let add : Int := (BitVec.ofNat 64 (recF b r 16 23)).toInt
  let off := recF b r 0 7
  let place := x.off + off
  let ty := recF b r 10 11
  let n := if ty = 6 then 32 else 8
  if x.size < off + n || (y.binding = 2 && ty != 7) then none
  else
    let s : Int := (o.symVal base y).toInt
    let p : Int := (x.placed base + BitVec.ofNat 64 off).toInt
    let q := streamOf x.kind
    let uns := immUnsigned q b place
    match ty with
    | 1 => if (s + add - p) % 8 = 0 then putImm b place uns ((s + add - p) / 8) else none
    | 2 => if (s + add - p) % 8 = 0 then putJmp b place ((s + add - p) / 8) else none
    | 3 =>
      if -(2 ^ 63) ≤ s + add && s + add < 2 ^ 63 then
        some (patchB b place (leBytes 8 (BitVec.ofInt 64 (s + add)).toNat))
      else none
    | 4 => putImm b place uns (s + add)
    | 5 =>
      match firstIdx (fun k => k == o.ppPlace y) 0 (o.pp b).1 with
      | some i => putImm b place uns (Int.ofNat i)
      | none => none
    | 6 =>
      match o.sects[y.sect]? with
      | some z => some (patchB b (place + 8) (sliceB b (z.off + y.value) (z.off + y.value + 23)))
      | none => none
    | 7 =>
      match firstOf o.sects 9 with
      | some z =>
        match firstIdx (fun i => recF b (z.off + 16 * i) 0 3 == recF b r 12 15) 0 (upFrom 0 (z.size / 16)) with
        | some i => putImm b place uns (Int.ofNat (16 * i))
        | none => none
      | none => none
    | _ => none

/-- All relocations in order. -/
def relocateAll (o : Obj) (base : Word) : List Nat → List Byte → Option (List Byte)
  | [], b => some b
  | r :: rs, b => (relocate o base b r).bind (relocateAll o base rs)

/-! ## Linking (R187, R188) -/

/-- The address of an external name: that of a global symbol of the name in a kernel that the job has registered.
Where several have it, and where none has it, nothing constrains the answer (log 11). -/
def State.resolve (s : State) (j : Job) (name : List Byte) : Word × State :=
  let hits := j.kernels.flatMap fun k => (k.2.globals.filter fun g => g.1 == name).map (·.2)
  match hits with
  | [a] => (a, s)
  | l =>
    let w := Config.freeWord s.fresh
    (if l.isEmpty then w else l.getD (w.toNat % l.length) 0, { s with fresh := s.fresh + 1 })

/-- The entry addresses of a .link section are written. -/
def State.linkAll (j : Job) (o : Obj) : List Nat → State × List Byte → State × List Byte
  | [], a => a
  | r :: rs, (s, b) =>
    let name := match o.syms[recF b r 0 3]? with | some y => o.nameOf b y.name | none => []
    let (v, s) := s.resolve j name
    State.linkAll j o rs (s, patchB b (r + 8) (leBytes 8 v.toNat))

/-! ## Registration -/

/-- Task ordinals of an object (R184, R188); a stage table names one in one byte (R380). -/
def Obj.taskCount (o : Obj) : Nat :=
  Nat.max (((o.sects.filter fun x => x.task != sharedTask).map fun x => x.task + 1).foldl Nat.max 0)
    (o.syms.countP fun y => y.kind == 1)

/-- The kernel that an object's bytes make. -/
def Obj.kernel (o : Obj) (base : Word) (b : List Byte) : Kernel where
  base := base
  size := b.length
  flags := BitVec.ofNat 16 o.flags
  tasks := (upFrom 0 (Nat.min o.taskCount 256)).map fun t => [1, 2, 3, 4].map fun k =>
    (o.sects.find? fun x => x.kind == k && x.task == t).map (·.placed base)
  pp := (o.pp b).1
  ppBytes := (o.pp b).2
  sync := (o.sects.filter fun x => x.kind == 6).flatMap fun x =>
    (recsAt x.off 8 (x.size / 8)).map fun r => (x.task, recF b r 0 0, recF b r 1 1, recF b r 4 7)
  globals := (o.syms.filter fun y => y.binding == 1).map fun y => (o.nameOf b y.name, o.symVal base y)
  link := (firstOf o.sects 9).map (·.placed base)

/-- An object of a job that its memory holds is checked, relocated, linked and registered: the state with the
kernel's handle, or none where it is refused (R184, R189). Its base may be any G address: it is registered where it lies,
whatever its alignment (DESIGN CHOICE, log 95). -/
def State.registerObj (s : State) (job : Nat) (j : Job) (base : Word) (len : Nat) : Option (State × Nat) := do
  if pathOf base != 0 then none
  let b ← s.jobRead job base len
  let o ← parseObj b
  let rels := (o.sects.filter fun x => x.kind == 12).flatMap fun x => recsAt x.off 24 (x.size / 24)
  let links := (o.sects.filter fun x => x.kind == 9).flatMap fun x => recsAt x.off 16 (x.size / 16)
  if o.linked && !rels.isEmpty then none
  let b1 ← relocateAll o base rels b
  let (s1, b2) := State.linkAll j o links (s, b1)
  let s2 ← if b2 = b then some s1 else
    match s1.agentWrite job kilnAgent 0 base b2 with
    | .done s' => some s'
    | .refused _ | .exhausted => none
  let h := j.nextKernel
  some (s2.modJob job fun j => { j with kernels := cput j.kernels h (o.kernel base b2), nextKernel := h + 1 }, h)

end Sys2Proof.Machine
end

