-- ==== Sys2Proof/Machine/Manage.lean ====
section
/-! DEFINITION. Machine/Manage: the management endpoint of Kiln (R356 to R360, R367 to R369, R372), the completion
of a page-table change (R101), and the installation of work queues (R373). -/

namespace Sys2Proof.Machine

/-! ## Requests and replies (R357) -/

/-- The 64-byte header of a reply (R357). -/
def replyHeader (r : Req) (status len : Nat) : List Byte :=
  [r.opcode ||| 0x80, BitVec.ofNat 8 status, 0, 0] ++ leBytes 4 r.tag.toNat ++ leBytes 4 len ++ leBytes 4 r.job.toNat ++
    leBytes 48 0

/-- The reply to a request. -/
def State.reply (s : State) (r : Req) (status : Nat) (body : List Byte) : State :=
  s.output (.reply r.xfer.port.val r.xfer.initiator (replyHeader r status body.length ++ body))

/-- The request that a message carries: a 64-byte header and a body. -/
def parseReq (t : Xfer) (m : List Byte) : Req where
  xfer := t
  opcode := m.getD 0 0
  tag := BitVec.ofNat 32 (fieldN m 4 7)
  job := BitVec.ofNat 32 (fieldN m 12 15)
  reservedZero := fieldN m 1 3 == 0 && fieldN m 16 63 == 0
  lenField := BitVec.ofNat 32 (fieldN m 8 11)
  body := m.drop 64

/-- The command of an opcode (R359). -/
def commandOf (r : Req) : Option Instr :=
  match r.opcode.toNat with
  | 1 => some (.attest r) | 2 => some (.keyload r) | 3 => some (.keyclear r) | 4 => some (.jobnew r)
  | 5 => some (.jobend r) | 6 => some (.ptset r) | 7 => some (.qset r) | 8 => some (.peerset r)
  | 9 => some (.kreg r) | 10 => some (.swclear r) | 11 => some (.mgrant r) | 12 => some (.telem r)
  | _ => none

/-- An initiator is on the management list (R358). -/
def State.managed (s : State) (r : Req) : Bool :=
  s.boot.mgmt.contains (r.xfer.initiator, r.xfer.port.val)

/-- Statuses that stand whatever else is wrong with a request: 2 in a stage that its row does not list, and 5 for an
initiator that is not on the management list (R358, R359). -/
def State.barred (s : State) (r : Req) (stages : List Nat) (anyone : Bool) : List Nat :=
  (if stages.contains s.boot.stage then [] else [2]) ++ (if anyone || s.managed r then [] else [5])

/-- Statuses that the header of a request gives besides (R357). -/
def headerFaults (r : Req) : List Nat :=
  (if r.reservedZero then [] else [3]) ++
  (if r.lenField.toNat ≤ 4096 && r.lenField.toNat == r.body.length then [] else [4])

/-- A request is answered: with a status that stands first, else with one of the others that apply, where there is
one; where several apply, nothing says which it receives (log 20). With none it is performed. -/
def answer (r : Req) (first faults : List Nat) (act : State → State) (s : State) : State :=
  match (if first.isEmpty then headerFaults r ++ faults else first).eraseDups with
  | [] => act s
  | [c] => s.reply r c []
  | l =>
    { s with fresh := s.fresh + 1 }.reply r (l.getD ((Config.freeWord s.fresh).toNat % l.length) 0) []

/-! ## The order of requests (R358) -/

/-- The job that the header of a request names. -/
def reqJob (r : Req) : Nat := r.job.toNat

/-- The job that a request is about: that of a JOBNEW's body, or of the header. -/
def reqAbout (r : Req) : Option Nat :=
  match r.opcode.toNat with
  | 4 => some (fieldN r.body 0 1)
  | 5 | 6 | 7 | 8 | 9 => some (reqJob r)
  | _ => none

/-- Requests that have begun and are not finished: a JOBEND whose job has tasks, and a PTSET whose change is not
complete. -/
def State.begun (s : State) : List Req := s.jobs.filterMap (·.2.ending) ++ s.memory.ptPending.map (·.2.2)

/-- An earlier request goes before a later one: both are from one initiator on one port, or about one job. -/
def reqBefore (a b : Req) : Bool :=
  (a.xfer.initiator == b.xfer.initiator && a.xfer.port == b.xfer.port) ||
  match reqAbout a with | some j => reqAbout b == some j | none => false

/-- A request that has reached Kiln is the next of its initiator and of its job: no earlier one waits or is unfinished. -/
def State.turnOf (s : State) (r : Req) : Bool :=
  s.reqs.contains r && !((s.begun ++ s.reqs.takeWhile (· != r)).any fun a => reqBefore a r)

/-- A request leaves the list of those that wait. -/
def State.dropReq (s : State) (r : Req) : State := { s with reqs := s.reqs.erase r }

/-- Requests whose turn it is are due; one of an opcode that the table does not hold is answered at once. -/
def State.wakeRequests (s : State) : State :=
  s.reqs.foldl (fun s r =>
    if !s.turnOf r then s
    else match commandOf r with
      | some e => s.due e
      | none => answer r (s.barred r [0, 1, 2] false) [1] id (s.dropReq r)) s

/-- A request is performed whole when its turn has come (R358); Kiln answers nothing before power-good and in stage
0xF. -/
def manage (r : Req) (act : State → State) (s : State) : Result :=
  event s (
    if !s.boot.powered || s.boot.stage = 0xF || !s.turnOf r then none
    else some (act (s.dropReq r)).wakeRequests)

/-- R356: a send to Kiln, in transport sequence order (R358). A message shorter than the 64-byte header, on which the
spec is silent, is refused with an error completion and counted (DESIGN CHOICE, log 95). -/
def execSend (t : Xfer) (msg : List Byte) (s : State) : Result :=
  arrive t true (fun s => some (
    let s :=
      if t.ident != 0 || msg.length < 64 || 4160 < msg.length then s.refuse t noReason
      else
        let s := s.complete t true 0 []
        { s with reqs := s.reqs ++ [parseReq t msg] }.wakeRequests
    s.delivered t)) s

/-- A body of fixed length. -/
def bodyLen (r : Req) (n : Nat) : List Nat := if r.body.length = n then [] else [4]

def faultIf (b : Bool) (c : Nat) : List Nat := if b then [c] else []

/-- Exactly n bytes of a list. -/
def exactB (n : Nat) (l : List Byte) : List Byte := (upFrom 0 n).map fun i => l.getD i 0

/-! ## Identity and keys -/

/-- The report of R368 without its signature. -/
def State.report (s : State) (nonce : List Byte) : List Byte :=
  nonce ++ leBytes 8 Config.serial.toNat ++ leBytes 8 s.boot.stat.toNat ++
  (upFrom 0 8).flatMap (fun i => digest (cget 0 s.boot.m i)) ++
  exactB 97 (kaPublic (cget 0 s.boot.m 0)) ++ leBytes 7 0

/-- R368. -/
def execAttest (r : Req) (s : State) : Result :=
  manage r (answer r (s.barred r [0, 1, 2] true) (bodyLen r 48) fun s =>
    let b := s.report r.body
    s.reply r 0 (b ++ exactB 96 (Config.ecdsaSign dkScalar (Config.sha384 b)))) s

/-- R369. -/
def execKeyload (r : Req) (s : State) : Result :=
  let slot := fieldN r.body 0 0
  let key := unwrapKey (cget 0 s.boot.m 0) slot (sliceB r.body 8 104) (sliceB r.body 112 183)
  let faults := bodyLen r 184 ++ faultIf (63 < slot) 4 ++
    faultIf (fieldN r.body 1 7 != 0 || fieldN r.body 105 111 != 0) 3 ++ faultIf key.isNone 6 ++
    faultIf (s.keyOf slot).isSome 7 ++
    (match key with
      | some k => faultIf (k.extractLsb' 0 256 == k.extractLsb' 256 256) 4
      | none => [])
  manage r (answer r (s.barred r [1, 2] false) faults fun s =>
    match key with
    | some k => { s with keys := cput s.keys slot k }.reply r 0 []
    | none => s) s

/-- R359: copies of the slot's data leave the caches (R105). -/
def execKeyclear (r : Req) (s : State) : Result :=
  let slot := fieldN r.body 0 0
  manage r (answer r (s.barred r [1, 2] false) (bodyLen r 1 ++ faultIf (63 < slot) 4 ++
      faultIf (s.jobs.any fun j => j.2.keySlot == slot) 7) fun s =>
    { s with
      keys := cerase s.keys slot
      cores := cmap s.cores fun _ c =>
        { c with stores := { c.stores with kcache := ckeep c.stores.kcache fun k _ => k % 64 != slot } } }.reply r 0 []) s

/-! ## Jobs -/

/-- The limits of R359 and R360 that a JOBNEW breaks. -/
def State.jobnewFaults (s : State) (b : List Byte) : List Nat :=
  let job := fieldN b 0 1
  let ident := fieldN b 2 5
  let p := fieldN b 7 7
  let base := fieldN b 16 23
  let fpa := fieldN b 24 31
  let fva := fieldN b 32 39
  let ipa := fieldN b 40 47
  let n := fieldN b 48 49
  let fsz := 0x40000
  let isz := n * 2 ^ 24
  let shared (a m : Nat) : Bool := s.jobs.any fun j =>
    overlaps a m j.2.framePa fsz || overlaps a m j.2.imagePa (j.2.imageSlots * 2 ^ 24)
  faultIf ((s.job? job).isSome || s.jobs.any fun j => j.2.ident.toNat == ident) 7 ++
  faultIf (job = 0 || ident = 0 || 2 ^ 24 ≤ ident || (s.keyOf (fieldN b 6 6)).isNone || p < 16 || 39 < p ||
    fieldN b 8 15 % 4096 != 0 || 2 ^ 39 ≤ fieldN b 8 15 || base % 2 ^ p != 0 || 2 ^ 60 ≤ base ||
    fpa % fsz != 0 || 2 ^ 39 < fpa + fsz || s.carved fpa fsz || fva % fsz != 0 || 2 ^ 60 ≤ fva ||
    ipa % 65536 != 0 || 2 ^ 39 < ipa + isz || s.carved ipa isz || 4096 < n || overlaps fpa fsz ipa isz ||
    shared fpa fsz || shared ipa isz) 4

/-- The job that a JOBNEW body makes (R157, R332, R359, R360). -/
def newJob (b : List Byte) : Job where
  ident := BitVec.ofNat 24 (fieldN b 2 5)
  keySlot := fieldN b 6 6
  root := fieldN b 8 15
  poolLog2 := fieldN b 7 7
  poolBase := BitVec.ofNat 64 (fieldN b 16 23)
  framePa := fieldN b 24 31
  frameVa := BitVec.ofNat 64 (fieldN b 32 39)
  imagePa := fieldN b 40 47
  imageSlots := fieldN b 48 49
  imageCap :=
    let n := fieldN b 48 49 * 2 ^ 24
    { base := BitVec.ofNat 64 (fieldN b 40 47), len := n, rd := true, wr := true, kind := .images, tag := true
      spans := [(fieldN b 40 47, fieldN b 6 6, false, n)] }
  pool := Pool.fresh (fieldN b 7 7)

/-- R359. -/
def execJobnew (r : Req) (s : State) : Result :=
  let job := fieldN r.body 0 1
  manage r
    (answer r (s.barred r [2] false) (bodyLen r 50 ++ s.jobnewFaults r.body) fun s =>
      ((s.setJob job (newJob r.body)).renormalise job).reply r 0 []) s

/-- Whether a task of the job is placed. -/
def State.jobPlaced (s : State) (job : Nat) : Bool :=
  s.cores.any fun c => match c.2.task with | some t => t.job == job | none => false

/-- A request's status when the job it names does not exist. -/
def State.noJob (s : State) (r : Req) : List Nat := faultIf (s.job? (reqJob r)).isNone 8

/-- R359: the job is cancelled under R39; the reply follows once no task of it is placed. -/
def execJobend (r : Req) (s : State) : Result :=
  manage r (answer r (s.barred r [2] false) (bodyLen r 0 ++ s.noJob r) fun s =>
    ((s.cancelJob (reqJob r)).modJob (reqJob r) fun j => { j with ending := some r }).due (.jobendDone (reqJob r))) s

/-- The number that stands for a job that has ended, as a scratchpad's owner: no job has it (R109). -/
def endedJob : Nat := 65536

/-- A job's queues end (R373): state 3 in their records. -/
def State.endQueues (s : State) (job : Nat) : State :=
  let s := (s.queues.filter fun q => q.2.job == job).foldl (fun s q => s.saveWq q.1 { q.2 with state := 3 }) s
  { s with queues := s.queues.filter fun q => q.2.job != job
           recent := s.recent.filter fun n => match s.queue? n with | some q => q.job != job | none => true }

/-- A job leaves the module: its identifier, descriptors, queues and areas (R157, R359, R360). Its OI writes that are still
held become those of no job: they are refused at visibility, whatever job has its number by then (R351, log 33). -/
def State.removeJob (s : State) (job : Nat) : State :=
  let s := (s.endQueues job).clearStamps job false
  let s := (s.memory.coils.filter fun c => c.2.job == job).foldl (fun s c => s.freeCoil c.1) s
  let s := s.stopTransforms fun x => x.job == job
  let drop (x : Disp) : Disp := { x with
    assigned := x.assigned.filter fun a => a.2.job != job
    deficits := x.deficits.filter fun e => e.1.1 != job
    ring := x.ring.filter fun e => e.1 != job
    busy := x.busy.filter fun e => e.1.1 != job
    probes := x.probes.filter fun e => e.job != job
    reports := x.reports.filter fun e => e.job != job
    last := match x.last with | some k => if k.1 = job then none else some k | none => none }
  { s with
    jobs := cerase s.jobs job
    disp := s.disp.filterMap fun d => if drop d.2 = {} then none else some (d.1, drop d.2)
    cores := cmap s.cores fun _ c => if c.owner = some job then { c with owner := some endedJob } else c
    held := s.held.map fun h => if h.job = job then { h with job := endedJob } else h
    memory := { s.memory with
      waiters := s.memory.waiters.filter fun w => w.job != job
      dropped := s.memory.dropped.filter fun d => d.job != job } }

/-- R359: due once no task of the ending job is placed. -/
def execJobendDone (job : Nat) (s : State) : Result :=
  event s (
    match (s.job? job).bind fun j => j.ending with
    | none => none
    | some r => if s.jobPlaced job then none else some (((s.removeJob job).recheck.reply r 0 []).wakeRequests))

/-! ## Page tables (R101, R359) -/

/-- Addresses of the entries that a walk reads (R100). -/
def walkPath (rd : Nat → Nat) (f : Nat) : Nat → Nat → List Nat
  | 0, t => [t + 8 * tableIdx f 0]
  | n + 1, t =>
    let a := t + 8 * tableIdx f (n + 1)
    let e := rd a
    a :: (if bitOf e 0 && bitOf e 1 && !pteMalformed e (n + 1) then walkPath rd f n (pteAddr e) else [])

/-- Entries on the translation path of an offset of a job. -/
def State.pathEntries (s : State) (job off : Nat) : List Nat :=
  match s.job? job with
  | some j => walkPath (s.pteRead j.keySlot) off 3 j.root
  | none => []

/-- Speculative launches that a change of an entry touches (R394, reason 4). -/
def State.specOnEntry (s : State) (pa : Nat) : List Nat :=
  s.specKeys fun job _ x => x.vpages.any fun p => (s.pathEntries job (p.1 * 65536)).contains pa

/-- Pairs of a PTSET body. -/
def ptPairs (b : List Byte) (n : Nat) : List (Nat × Nat) :=
  (upFrom 0 n).map fun i => (fieldN b (4 + 16 * i) (11 + 16 * i), fieldN b (12 + 16 * i) (19 + 16 * i))

/-- Write one entry with the job's key slot. What stood there before, an earlier change of the entry among it, stays in
use until the change is complete (R101). -/
def State.putEntry (s : State) (r : Req) (slot pa e : Nat) : State :=
  let old := BitVec.ofNat 64 (leNat (s.devRead slot pa 8))
  let s := s.discardAll (s.specOnEntry pa) 4
  let s := s.devWrite slot pa (leBytes 8 e) false
  { s with memory := { s.memory with ptPending := s.memory.ptPending ++ [(pa, old, r)] } }

/-- R359. -/
def execPtset (r : Req) (s : State) : Result :=
  let n := fieldN r.body 0 3
  let ps := ptPairs r.body (Nat.min n 256)
  let faults := s.noJob r ++
    faultIf (n < 1 || 256 < n || r.body.length != 4 + 16 * n ||
      ps.any fun p => p.1 % 8 != 0 || decide (2 ^ 39 ≤ p.1) || s.carved p.1 8) 4
  manage r (answer r (s.barred r [2] false) faults fun s =>
    match s.job? (reqJob r) with
    | none => s
    | some j => (ps.foldl (fun s p => s.putEntry r j.keySlot p.1 p.2) s).due .pageTableChangeComplete) s

/-- Streams in execution that have been translated through an entry (R101, R103). -/
def State.entryInUse (s : State) (pa : Nat) : Bool :=
  let uses (job : Nat) (x : Cmd) : Bool :=
    !x.done && x.regions.any fun g => (s.pathEntries job (g * 65536 % 2 ^ 60)).contains pa
  s.cores.any (fun c => allUnits.any fun u => match c.2.unit u with | [] => false | x :: _ => uses c.2.job x) ||
  s.engines.any (fun e => uses e.2.job e.2.cmd) ||
  s.held.any fun h => (s.pathEntries h.job h.off.toNat).contains pa

/-- R101: the first change that has not been reported is complete once no access translated through its old
entries is left. -/
def execPageTableChangeComplete (s : State) : Result :=
  event s (
    match s.memory.ptPending with
    | [] => none
    | (_, _, r) :: _ =>
      let mine (p : Nat × Word × Req) : Bool := p.2.2 == r
      if s.memory.ptPending.any fun p => mine p && s.entryInUse p.1 then none
      else
        let rest := s.memory.ptPending.filter fun p => !mine p
        let s := ({ s with memory := { s.memory with ptPending := rest } }.reply r 0 []).wakeRequests
        some (if rest.isEmpty then s else s.due .pageTableChangeComplete))

/-! ## Work queues (R373) -/

/-- The capabilities for a queue's record, which lies on pages with chk = 0, and for its ring, which Kiln writes where
the device feeds it (R373, R374). -/
def State.queueCaps (s : State) (job : Nat) (b : List Byte) : Option (Cap × Cap) := do
  let record ← s.derive job .record (BitVec.ofNat 64 (fieldN b 32 39)) 256 true
  let ring ← s.derive job .ring (BitVec.ofNat 64 (fieldN b 8 15)) (128 * 2 ^ Nat.min (fieldN b 16 16) 20)
    ((b.getD 17 0).getLsbD 1)
  if record.spans.any fun p => p.2.2.1 then none else return (record, ring)

/-- The limits that a queue record breaks. -/
def State.qsetFaults (s : State) (r : Req) : List Nat :=
  let b := r.body
  let q := fieldN b 0 3
  let ring := BitVec.ofNat 64 (fieldN b 8 15)
  let order := fieldN b 16 16
  let flags := b.getD 17 0
  let ev := fieldN b 24 31
  let rec_ := BitVec.ofNat 64 (fieldN b 32 39)
  let size := 128 * 2 ^ Nat.min order 20
  let evPath := ev / 2 ^ 60
  faultIf (fieldN b 7 7 != 0 || flags.toNat / 16 != 0 || fieldN b 40 63 != 0) 3 ++
  faultIf (131071 < q || order < 1 || 20 < order || ring.toNat % size != 0 || pathOf ring != 0 ||
    pathOf rec_ != 0 || rec_.toNat % 256 != 0 || ev % 8 != 0 || (evPath != 0 && evPath != 7) ||
    fieldN b 18 19 != (reqJob r) || flags.getLsbD 1 == flags.getLsbD 2 || (s.queueCaps (reqJob r) b).isNone) 4 ++
  (match s.queue? q with
    | none => []
    | some x =>
      let same := x.host.set 17 (x.host.getD 17 0 ||| 1) == b.set 17 (b.getD 17 0 ||| 1)
      faultIf ((x.state = 1 && !same) || x.job != (reqJob r)) 7)

/-- A queue as a QSET installs it. What an earlier installation accepted runs on (R378), and its history and its
policy stand (R346, R388). -/
def newWq (b : List Byte) (caps : Cap × Cap) (old : Option WQ) : WQ :=
  let q : WQ := {
    host := b
    job := fieldN b 18 19
    ring := BitVec.ofNat 64 (fieldN b 8 15)
    order := fieldN b 16 16
    flags := b.getD 17 0
    event := BitVec.ofNat 64 (fieldN b 24 31)
    self := BitVec.ofNat 64 (fieldN b 32 39)
    next := BitVec.ofNat 32 (fieldN b 20 23)
    prod := BitVec.ofNat 32 (fieldN b 20 23)
    recCap := caps.1
    ringCap := caps.2 }
  match old with
  | none => q
  | some o => { q with
      live := o.live, events := o.events, hold := o.hold, signals := o.signals, vector := o.vector
      policy := o.policy, history := o.history }

/-- The record as QSET writes it: host part, device part, zeros (R373). -/
def WQ.record (q : WQ) : List Byte := q.host ++ q.devPart ++ leBytes 80 0

/-- R373, R359. -/
def execQset (r : Req) (s : State) : Result :=
  manage r
    (answer r (s.barred r [2] false) (bodyLen r 64 ++ s.noJob r ++ s.qsetFaults r) fun s =>
      let n := fieldN r.body 0 3
      let install (old : Option WQ) : State :=
        match s.queueCaps (reqJob r) r.body with
        | some caps =>
          let x := newWq r.body caps old
          (s.setWq n x).capWrite x.job x.recCap 0 x.record
        | none => s
      let s := match s.queue? n with
        | some q =>
          if q.state = 1 then
            (s.setWq n { q with host := r.body, flags := r.body.getD 17 0 }).capWrite q.job q.recCap 0 r.body
          else install (some q)
        | none => install none
      (s.due .queuePollTick).reply r 0 []) s

/-! ## The other requests -/

/-- R359, R123. -/
def execPeerset (r : Req) (s : State) : Result :=
  let b := r.body
  let e := fieldN b 0 1
  manage r
    (answer r (s.barred r [2] false) (bodyLen r 16 ++ s.noJob r ++ faultIf (fieldN b 2 3 != 0) 3 ++
        faultIf (4095 < e || 2 ^ 24 ≤ fieldN b 4 7) 4) fun s =>
      (s.modJob (reqJob r) fun j => { j with
        peers := cput j.peers e (fieldN b 4 7, BitVec.ofNat 64 (fieldN b 8 15)) }).reply r 0 []) s

/-- R359, R183 to R189. -/
def execKreg (r : Req) (s : State) : Result :=
  let base := BitVec.ofNat 64 (fieldN r.body 0 7)
  let made := (s.job? (reqJob r)).bind fun j => s.registerObj (reqJob r) j base (fieldN r.body 8 15)
  manage r
    (answer r (s.barred r [2] false) (bodyLen r 16 ++
        (match s.job? (reqJob r) with | none => [8] | some _ => faultIf made.isNone 4)) fun s =>
      match made with
      | some (s', h) => s'.reply r 0 (leBytes 8 h)
      | none => s) s

/-- R359, R122. -/
def execSwclear (r : Req) (s : State) : Result :=
  manage r
    (answer r (s.barred r [2] false) (bodyLen r 0 ++ faultIf (!s.jobs.isEmpty) 7) fun s =>
      { s with memory := { s.memory with sw := [], swVec := [], swJob := [] } }.reply r 0 []) s

/-- R359, R358. -/
def execMgrant (r : Req) (s : State) : Result :=
  let who := BitVec.ofNat 64 (fieldN r.body 0 7)
  let port := fieldN r.body 8 8
  let known := s.boot.mgmt.contains (who, port)
  manage r
    (answer r (s.barred r [1, 2] false) (bodyLen r 9 ++ faultIf (11 < port) 4 ++
        faultIf (16 ≤ s.boot.mgmt.length) 4) fun s =>
      let s := if known then s else { s with boot := { s.boot with mgmt := s.boot.mgmt ++ [(who, port)] } }
      s.reply r 0 []) s

/-- The telemetry page (R372). -/
def State.telemetry (s : State) : List Byte :=
  let m := s.mon
  let freezes (d : Nat) : Nat := ((upFrom (56 * d) 56).map fun c => (s.core c).regs.sp.freeze.toNat).sum
  let page := leBytes 8 m.power.toNat ++ leBytes 2 m.coolIn.toNat ++ leBytes 2 m.coolOut.toNat ++
    (upFrom 0 8).flatMap (fun d => leBytes 2 (cget 0 m.dietemp d).toNat) ++ leBytes 8 m.limitSteps.toNat ++
    (upFrom 0 8).flatMap (fun d => leBytes 4 (cget 0 m.memCorr d).toNat ++ leBytes 4 (cget 0 m.memUncorr d).toNat) ++
    (upFrom 0 8).flatMap (fun d => leBytes 8 (freezes d)) ++
    (upFrom 0 12).flatMap (fun p => leBytes 8 (cget 0 m.refused p).toNat) ++
    (upFrom 0 12).flatMap fun p => leBytes 8 (cget 0 m.linkErr p).toNat
  exactB 4096 page

/-- What a TELEM finds at the monitors that no other step sets: the coolant's temperatures and the lane errors since
the last look (log 5). -/
def State.sampled (s : State) : State :=
  let v (i : Nat) : Word := Config.freeWord (s.fresh + i)
  { s with
    fresh := s.fresh + 13
    mon := { s.mon with
      coolIn := (v 0).setWidth 16, coolOut := ((v 0) >>> 16).setWidth 16
      linkErr := (upFrom 0 12).foldl (fun m p => cset 0 m p (cget 0 m p + v (p + 1))) s.mon.linkErr } }

/-- R372. -/
def execTelem (r : Req) (s : State) : Result :=
  manage r (answer r (s.barred r [1, 2] false) (bodyLen r 0) fun s =>
    let s := s.sampled
    s.reply r 0 s.telemetry) s

end Sys2Proof.Machine
end

