-- ==== Sys2Proof/Machine/WorkInstr.lean ====
section
/-! DEFINITION. Machine/WorkInstr: the work instructions of K (R341 to R346) and the span planner (R347,
R348). -/

namespace Sys2Proof.Machine

/-! ## Stage queues -/

/-- The launch of the moving core's task. -/
def myLaunch : M (Option (Task × Launch)) := do
  let s ← get
  match (s.core (← me)).task with
  | none => return none
  | some t => return (s.launch? t.job t.launch).map fun l => (t, l)

/-- Room for a push (R341, R62): fewer entries than the capacity, or the reserve entry granted to the task. -/
def SQueue.room (q : SQueue) (t : Task) (n : Nat) : Bool :=
  q.entries.length < q.cap || t.reserve == some n

/-- Append an entry; the queue numbers it (R43). -/
def SQueue.append (q : SQueue) (bytes : List Byte) : SQueue :=
  { q with entries := q.entries ++ [{ idx := q.next, bytes := bytes }], next := q.next + 1 }

/-- A push that has room: a release at .dev into the launch vector (R134, R150, R341). -/
def pushEntry (t : Task) (n : Nat) (q : SQueue) (va : Word) : M Unit := do
  let ws ← readList va 8
  let bytes := ws.flatMap fun w => leBytes 8 w.toNat
  let core ← me
  modMe fun c => { c with task := c.task.map fun t => { t with
    reserve := if t.reserve = some n then none else t.reserve } }
  modify fun s =>
    let had := match s.launch? t.job t.launch with | some l => l.work q.consumer | none => 1
    let s := s.modLaunch t.job t.launch fun l => { l with
      queues := cput l.queues n (q.append bytes), vector := s.released core l.vector }
    (s.flagCore core).wantPass t.job t.launch q.consumer (had == 0)

/-- A probe of a launch that starts at a queue (R61). -/
def State.probe (s : State) (job launch : Nat) (l : Launch) (n : Nat) : State :=
  let d := l.dieSet.headD 0
  let x := cget {} s.disp d
  let p : Probe := { job := job, launch := launch, queue := n, at_ := s.cycle }
  { s with disp := cset {} s.disp d { x with probes := x.probes ++ [p] } }.due (.probeWalk job launch n)

/-- A task that ends on a full queue sends a probe (R61). -/
def sendProbe (t : Task) (l : Launch) (n : Nat) : M Unit := modify fun s => s.probe t.job t.launch l n

/-- R341: the first test parks nothing; once it has failed, K waits for L, C and S before it tests again (R57). A push
that is performed is the release. -/
def execSqpush (h : Hdr) (b c : BitVec 6) (queue : BitVec 4) (s : State) : Result :=
  runSeq onK 8 false h (do
    let va ← xOf b
    let mask ← xOf c
    let n := queue.toNat
    checkWaiting mask
    aligned va 8
    match ← myLaunch with
    | none => limitTrap
    | some (t, l) =>
      match cfind l.queues n with
      | none => limitTrap
      | some q =>
        limitIf (!q.producers.getLsbD t.stage)
        let again := (← myCore).regs.k.pushPark
        if again then waitParked
        if q.room t n then
          releaseWait
          pushEntry t n q va
          return {}
        else
          if !again then stop .park
          let pc ← myPc
          let _ ← endWaiting 3 pc mask (.blocked n)
          sendProbe t l n
          return gone) s

/-! ## Yielding and pre-emption -/

/-- Image slots of a job that are in use (R360). -/
def Job.slotsUsed (j : Job) : List Nat := j.launches.flatMap fun l => l.2.images.map (·.slot)

/-- The free image slots of a job, lowest first. -/
def Job.freeSlots (j : Job) : List Nat :=
  (upFrom 0 j.imageSlots).filter fun i => !j.slotsUsed.contains i

/-- Cores of a job whose pre-emption has been requested: each will take an image slot. -/
def State.slotsPromised (s : State) (job : Nat) : Nat :=
  s.cores.countP fun c => c.2.job == job && c.2.task.isSome && c.2.preempt != .none

/-- The cores whose tasks stop together with a core's, as far as they do not stop yet (R55, R410): all of a co-resident
launch's. -/
def State.stopGroup (s : State) (core : Nat) : List Nat :=
  match (s.core core).task with
  | none => []
  | some t =>
    match s.launch? t.job t.launch with
    | some l =>
      if l.cores then
        (s.cores.filter fun c => c.2.preempt == .none && match c.2.task with
          | some u => u.job == t.job && u.launch == t.launch
          | none => false).map (·.1)
      else [core]
    | none => [core]

/-- An image slot is free for each core of a list, in the job of its task (R360, R410). -/
def State.haveSlots (s : State) (cs : List Nat) : Bool :=
  let jobs := cs.map fun c => (s.core c).job
  jobs.all fun n => match s.job? n with
    | some j => decide (s.slotsPromised n + jobs.countP (· == n) ≤ j.freeSlots.length)
    | none => false

/-- The idle cores of a co-resident launch become free: it is pre-empted whole (R55). -/
def State.freeIdle (s : State) (job launch : Nat) : State :=
  { s with disp := cmap s.disp fun _ x => { x with
      assigned := x.assigned.filter fun a =>
        !(a.2.job == job && a.2.launch == launch && (s.core a.1).task.isNone) } }

/-- Pre-emption requests of cores. why names the stage that a dispatcher stops them for. -/
def State.stopCores (s : State) (cs : List Nat) (why : Option (Nat × Nat × Nat)) : State :=
  cs.foldl (fun s c =>
    let s := match (s.core c).task.bind fun t => (s.launch? t.job t.launch).map fun l => (t, l) with
      | some (t, l) => if l.cores then s.freeIdle t.job t.launch else s
      | none => s
    let s := s.modCore c fun k => { k with preempt := .requested, preemptFor := why }
    if h : c < 448 then s.due (.preemptionRequest ⟨c, h⟩) else s) s

/-- A pre-emption request of a core, made only when an image slot is free for each core that stops (R410);
a speculative launch is never pre-empted (R55). -/
def State.requestPreempt (s : State) (core : Nat) (why : Option (Nat × Nat × Nat)) : State :=
  match (s.core core).task with
  | none => s
  | some t =>
    let cs := (s.stopGroup core).filter fun c => (s.core c).preempt == .none
    if t.spec || !s.haveSlots cs then s else s.stopCores cs why

/-- A launch has ready work that waits for a core (R342). -/
def Launch.waits (l : Launch) : Bool :=
  l.started && (!l.images.isEmpty || l.conts.any (fun k => k.state == .ready) ||
    l.queues.any fun q => !q.2.entries.isEmpty)

/-- Work of a class or a higher one is ready on a die. A launch that runs on prediction is below every class (R55, R390). -/
def State.workOn (s : State) (die cls : Nat) : Bool :=
  (cget {} s.disp die).ring.any fun k =>
    match s.launch? k.1 k.2 with
    | some l => l.spec.isNone && decide (cls ≤ l.cls) && l.waits
    | none => false

/-- R342: a task that is pre-empted at its YIELD issues nothing behind it before it is resumed. -/
def execYield (h : Hdr) (s : State) : Result :=
  runSeq onK 8 false h (plain (do
    limitIf (← myCore).handler
    let core ← me
    modify fun s => s.modCore core fun c => { c with task := c.task.map fun t => { t with since := s.cycle } }
    match ← myLaunch with
    | none => pure ()
    | some (_, l) =>
      if (← get).workOn (dieOf core) l.cls then
        modify fun s => s.requestPreempt core none
        modMe fun c => { c with yielded := c.preempt == .requested })) s

/-! ## Packets from the device -/

/-- CRC-16/CCITT-FALSE, one bit (R375). -/
def crcBit (v : BitVec 16) : BitVec 16 := if v.msb then (v <<< 1) ^^^ 0x1021 else v <<< 1

def crcByte (v : BitVec 16) (b : Byte) : BitVec 16 :=
  (upFrom 0 8).foldl (fun v _ => crcBit v) (v ^^^ (b.setWidth 16 <<< 8))

/-- CRC-16/CCITT-FALSE of bytes in ascending order. -/
def crc16 (bs : List Byte) : BitVec 16 := bs.foldl crcByte 0xFFFF

/-- The check of a packet (R375): over bytes [1:0] and then [127:4]. -/
def packetCheck (p : List Byte) : BitVec 16 := crc16 (p.take 2 ++ p.drop 4)

/-- A packet with its sequence number and check filled in (R343). -/
def stampPacket (p : List Byte) (seq : BitVec 32) : List Byte :=
  let p := p.take 4 ++ leBytes 4 seq.toNat ++ p.drop 8
  p.take 2 ++ leBytes 2 (packetCheck p).toNat ++ p.drop 4

/-- Offset in the ring of the slot of a sequence number (R375). -/
def WQ.slotAt (q : WQ) (seq : BitVec 32) : Nat := 128 * (seq.toNat % 2 ^ q.order)

/-- R343. -/
def execLaunch (h : Hdr) (b c : BitVec 6) (s : State) : Result :=
  runRel true onK 8 true h (plain (do
    let va ← xOf b
    let n ← xOf c
    aligned va 8
    limitIf (n.toNat > 131071)
    let job ← myJob
    match (← get).queue? n.toNat with
    | none => limitTrap
    | some q =>
      limitIf (q.job != job || !q.flags.getLsbD 1)
      waitFor ((q.prod - q.next).toNat != 2 ^ q.order)
      let ws ← readList va 16
      let p := stampPacket (ws.flatMap fun w => leBytes 8 w.toNat) q.prod
      let core ← me
      modify fun s =>
        let s := s.capWrite job q.ringCap (q.slotAt q.prod) p
        let s := s.saveWq n.toNat { q with prod := q.prod + 1 }
        (s.flagCore core).pokeQueues job (q.ring.toNat + q.slotAt q.prod) 128)) s

/-! ## Levels -/

/-- The levels of R344. -/
inductive Level where
  | launch (n : Nat) | graph (p g : Nat) | phase (p : Nat) | job
  deriving DecidableEq, Repr

/-- The level that a selector names; none when a bit that must be 0 is set (R344). -/
def levelOf (level : Nat) (x : Word) : Option Level :=
  let v := x.toNat
  match level with
  | 0 => if v / 2 ^ 32 = 0 then some (.launch v) else none
  | 1 => if v / 2 ^ 48 = 0 then some (.graph (v / 2 ^ 32) (v % 2 ^ 32)) else none
  | 2 => if v / 2 ^ 16 = 0 then some (.phase v) else none
  | _ => if v = 0 then some .job else none

/-- The launch of a job that carries a launch number; a speculative launch has none until it is claimed. -/
def Job.byNumber (j : Job) (n : Nat) : Option (Nat × Launch) :=
  j.launches.find? fun l => l.2.num == n && l.2.spec.isNone

/-- Cancel a level (R39, R345). -/
def State.cancelLevel (s : State) (job : Nat) : Level → State
  | .launch n =>
    match (s.job? job).bind fun j => j.byNumber n with
    | some (k, _) => s.cancelLaunch job k
    | none => s
  | .graph p g => s.cancelGraph job p g
  | .phase p => s.cancelPhase job p
  | .job => s.cancelJob job

/-- Counter, completion flag and cancelled flag of a level (R36); none for a level that the job does not
hold. -/
def State.levelWord (s : State) (job : Nat) (l : Level) : Option (BitVec 32 × Bool × Bool) :=
  match s.job? job with
  | none => none
  | some j =>
    match l with
    | .launch n => (j.byNumber n).map fun l => (l.2.counter, l.2.complete, l.2.cancelled)
    | .graph p g => (s.graph? job p g).map fun x => (x.counter, x.complete, x.cancelled)
    | .phase p =>
      if p > j.openPhase then none
      else some ((j.phase p).counter, (j.phase p).complete, (j.phase p).cancelled)
    | .job => some (j.counter, j.complete, j.cancelled)

/-- The launches that a level counts. -/
def Job.launchesOf (j : Job) (l : Level) : List Launch :=
  (j.launches.filter fun x => x.2.spec.isNone && (match l with
    | .launch n => x.2.num == n
    | .graph p g => x.2.phase == p && x.2.graph == g
    | .phase p => x.2.phase == p
    | .job => true)).map (·.2)

/-- The level of a CANCEL or CCNT: x0 names the task's own (R344). -/
def selectLevel (b : BitVec 6) (level : BitVec 2) : M Level := do
  if b = 0 then
    match ← myLaunch with
    | none => return .job
    | some (_, l) =>
      return match level.toNat with
        | 0 => .launch l.num
        | 1 => .graph l.phase l.graph
        | 2 => .phase l.phase
        | _ => .job
  else
    match levelOf level.toNat (← xOf b) with
    | none => limitTrap
    | some l => return l

/-- R344, R345: when the level holds the issuing task, that task has stopped. -/
def execCancel (h : Hdr) (b : BitVec 6) (level : BitVec 2) (s : State) : Result :=
  runSeq onK 8 true h (do
    let l ← selectLevel b level
    let job ← myJob
    modify fun s => s.cancelLevel job l
    return if (← myCore).task.isNone then gone else {}) s

/-- The doubleword that CCNT returns (R345). -/
def countWord (c : BitVec 32) (complete cancelled : Bool) : Word :=
  BitVec.ofNat 64 (c.toNat + (if complete then 2 ^ 32 else 0) + (if cancelled then 2 ^ 33 else 0))

/-- An acquire of a core from the ends of every task that a level counted (R345). -/
def State.acquireLevel (s : State) (core job : Nat) (l : Level) : State :=
  match s.job? job with
  | none => s
  | some j => (j.launchesOf l).foldl (fun s x => s.acquired core x.vector) s

/-- R345. -/
def execCcnt (h : Hdr) (d b : BitVec 6) (level : BitVec 2) (s : State) : Result :=
  runSeq onK 8 true h (plain (do
    let l ← selectLevel b level
    let job ← myJob
    match (← get).levelWord job l with
    | none => modMe (·.setX d (BitVec.allOnes 64))
    | some (n, complete, cancelled) =>
      if complete then
        let core ← me
        discardFor (some .dev)
        modify fun s => s.acquireLevel core job l
      modMe (·.setX d (countWord n complete cancelled)))) s

/-- R346. -/
def execPhint (h : Hdr) (b : BitVec 6) (policy : BitVec 2) (s : State) : Result :=
  runSeq onK 8 true h (plain (do
    let n := (← xOf b).toNat
    let job ← myJob
    limitIf (n > 131071)
    match (← get).queue? n with
    | none => limitTrap
    | some q =>
      limitIf (q.job != job)
      let q := { q with policy := policy.toNat, history := if policy = 2 then [] else q.history }
      modify fun s =>
        let s := s.setWq n q
        if policy = 1 then s.discardAll (s.specKeys fun _ _ x => x.queue == n && x.real.isNone) 6 else s)) s

/-! ## The span planner -/

/-- A sequence of the batch: first slot, keys, blocks (R348). -/
structure PlanSeq where
  first : Nat
  keys : Nat
  blocks : Nat
  deriving DecidableEq, Repr

/-- A span (R348). -/
structure Span where
  worker : Nat
  seq : Nat
  first : Nat
  keys : Nat
  deriving DecidableEq, Repr

/-- The spans of one worker's blocks lo to lo + cnt − 1, over the sequences from number i on whose blocks
start at base. -/
def workerSpans (w lo cnt : Nat) : Nat → Nat → List PlanSeq → List Span
  | _, _, [] => []
  | i, base, q :: r =>
    let a := max lo base
    let b := min (lo + cnt) (base + q.blocks)
    let rest := workerSpans w lo cnt (i + 1) (base + q.blocks) r
    if a < b then
      ⟨w, i, q.first + 256 * (a - base), min (256 * (b - a)) (q.keys - 256 * (a - base))⟩ :: rest
    else rest

/-- All spans, by worker and then sequence (R348). -/
def planSpans (p : Nat) (qs : List PlanSeq) : List Span :=
  let b := (qs.map (·.blocks)).sum
  (upFrom 0 p).flatMap fun w =>
    let cnt := b / p + (if w < b % p then 1 else 0)
    let lo := w * (b / p) + min w (b % p)
    workerSpans w lo cnt 0 0 qs

/-- The doublewords of the span table (R348). The spec gives a sequence without spans the count 0 and no index; the
index written is 0 (DESIGN CHOICE, log 95). -/
def planTable (qs : List PlanSeq) (spans : List Span) : List Word :=
  let w2 (a b : Nat) : Word := BitVec.ofNat 64 (a % 2 ^ 32 + b * 2 ^ 32)
  [w2 spans.length qs.length, w2 ((qs.map (·.blocks)).sum) 0] ++
  spans.zipIdx.flatMap (fun (x, i) => [w2 x.worker x.seq, BitVec.ofNat 64 x.first, w2 x.keys i, 0]) ++
  qs.zipIdx.flatMap fun (_, i) =>
    [w2 ((firstIdx (fun x : Span => x.seq == i) 0 spans).getD 0) (spans.countP fun x => x.seq == i), 0]

/-- The sequences of a batch table, each coil's length read as CLEN reads it (R347, R348). -/
def planSeqs (va : Word) : Nat → M (List PlanSeq)
  | 0 => return []
  | n + 1 => do
    let e ← readList va 4
    let k := e.getD 0 0
    let v := e.getD 1 0
    limitIf (e.getD 3 0 != 0)
    let ck ← coilOf k
    readLength k ck
    acquireCoil ck
    let cv ← coilOf v
    readLength v cv
    acquireCoil cv
    let s0 := (e.getD 2 0).toNat
    let keys := min ck.c cv.c - s0
    return ⟨s0, keys, (keys + 255) / 256⟩ :: (← planSeqs (va + 32) n)

/-- The span table is written with ordinary stores of K through G, N or LS (R347). -/
def writeTable (va : Word) : List Word → M Unit
  | [] => pure ()
  | v :: r => do
    pathGuard (fun p => p == 0 || p == 1 || p == 4) .read va
    coreWrite .store .write va (leBytes 8 v.toNat) false
    writeTable (va + 8) r

/-- R347, R348. -/
def execPlan (h : Hdr) (a b c : BitVec 6) (s : State) : Result :=
  runSeq onK 8 false h (plain (do
    let p := (← xOf a).toNat
    let batch ← xOf b
    let table ← xOf c
    aligned batch 8
    aligned table 8
    limitIf (p = 0 || p > 4096)
    let hd := (← readList batch 1).getD 0 0
    let n := hd.toNat % 2 ^ 13
    limitIf (n = 0 || n > 4096 || hd.toNat / 2 ^ 13 != 0)
    let qs ← planSeqs (batch + 8) n
    writeTable table (planTable qs (planSpans p qs)))) s

end Sys2Proof.Machine
end

