-- ==== Sys2Proof/Machine/Place.lean ====
section
/-! DEFINITION. Machine/Place: starting tasks and continuations (R45 to R48, R60), the dispatchers' re-division steps
and grant passes (R50 to R55), and probes (R61 to R64). -/

namespace Sys2Proof.Machine

/-! ## The start of a task -/

/-- Text addresses of the four streams of a stage, none for a stream without text (R184). -/
def State.textOf (s : State) (job : Nat) (l : Launch) (st : Nat) : List (Option Word) :=
  match s.job? job, l.stages[st]? with
  | some j, some x =>
    match cfind j.kernels l.kernel with
    | some k => (k.tasks[x.ord]?).getD []
    | none => []
  | _, _ => []

/-- Initial count of FIFO i (R47). -/
def tokenCount (t : BitVec 48) (i : Nat) : Nat := t.toNat / 2 ^ (4 * i) % 16

/-- The initial tokens (R46 to R48): plain ones. -/
def startFifos (t : BitVec 48) : Cells (List Tok) :=
  (upFrom 0 12).foldl (fun m i => cset [] m i (List.replicate (tokenCount t i) {})) []

/-- A sequencer at its start: at an address, or, without text, at its END at once (R48, R184). -/
def startSeq (pc : Option Word) (e : BitVec 23) : SeqSt where
  cond := match pc with | some _ => .run | none => .ended
  pc := pc.getD 0
  endPc := pc.getD 0
  lvec := lall e

/-- The special registers at a start (R206); what is not set per task stays. page is the argument page that the task
gets (log 12). -/
def startSpecial (old : Special) (core page : Nat) (j : Job) (l : Launch) (t : Task) (ident : Word) : Special :=
  { old with
    argbase := argBase (argBlock page)
    argptr := l.argptr
    entry := t.entry.setWidth 64
    stage := BitVec.ofNat 64 t.stage
    jobid := BitVec.ofNat 64 (t.job % 2 ^ 16 + t.phase % 2 ^ 16 * 2 ^ 16)
    launchid := ident
    cont := BitVec.ofNat 64 t.kind
    linkbase := match cfind j.kernels l.kernel with | some k => k.link.getD 0 | none => 0
    tframe := j.frameVa + BitVec.ofNat 64 (512 * core)
    hvec := 0, xvtab := 0, xvpool := 0 }

/-- The clear of R45 when a task of another job is placed; nothing of that job's vectors stays (R148, R157). -/
def CoreSt.takeOver (c : CoreSt) (job : Nat) : CoreSt :=
  if c.owner = some job then c else { c.clear45 with owner := some job, frontier := [] }

/-- The state of a core at the start of a task or continuation (R46). -/
def CoreSt.start (c : CoreSt) (t : Task) (sp : Special) (xs : Cells Word) (pcs : List (Option Word))
    (tokens : BitVec 48) (e : BitVec 23) (now : Nat) : CoreSt :=
  { c with
    task := some { t with since := now, placed := now }
    regs := {
      x := xs, sp := sp
      k := startSeq (pcs.getD 0 none) e, l := startSeq (pcs.getD 1 none) e
      c := startSeq (pcs.getD 2 none) e, s := startSeq (pcs.getD 3 none) e }
    couple := { fifos := startFifos tokens }
    stores := { c.stores with
      slots := [], tables := [], lastK := [], w0 := {}, w1 := {}, stats := [], kcache := [] }
    units := {}
    arrival := none
    handler := false
    cut := none
    preempt := .none
    progress := now
    yielded := false }

/-- launchid of a task; the numbers of a launch that runs on prediction are not known yet (log 22). -/
def State.launchIdent (s : State) (l : Launch) : Word × State :=
  match l.spec with
  | none => (BitVec.ofNat 64 (l.num % 2 ^ 32 + l.graph % 2 ^ 32 * 2 ^ 32), s)
  | some _ => (Config.freeWord s.fresh, { s with fresh := s.fresh + 1 })

/-- No other launch that ran on prediction keeps a core in its list once a task of launch key is placed there. -/
def State.claimCore (s : State) (core job key : Nat) : State :=
  { s with jobs := cmap s.jobs fun jn j => { j with launches := cmap j.launches fun k l =>
      match l.spec with
      | none => l
      | some x =>
        if jn = job && k = key then { l with spec := some { x with ran := core :: x.ran.filter (· != core) } }
        else if x.ran.contains core then { l with spec := some { x with ran := x.ran.filter (· != core) } }
        else l } }

/-- Nothing that an earlier task did in this cycle reaches the next one. -/
def State.dropCycle (s : State) (core : Nat) : State :=
  { s with
    semAdds := s.semAdds.filter fun p => p.1 != core
    semBase := s.semBase.filter fun p => p.1 != core
    semSets := s.semSets.filter fun p => p.1 != core
    semOld := s.semOld.filter fun p => p.1 != core
    endLog := s.endLog.filter fun p => p.1 != core
    mtsLog := s.mtsLog.filter fun p => p.1 != core }

/-- A task is placed and starts (R45 to R48, R150): xs are its live registers, acq what it acquires besides the
launch vector. -/
def State.startTask (s : State) (core : Nat) (t : Task) (xs : Cells Word) (pcs : List (Option Word))
    (acq : Frontier) : State :=
  match s.job? t.job, s.launch? t.job t.launch with
  | some j, some l =>
    let (ident, s) := s.launchIdent l
    let s := ((s.claimCore core t.job t.launch).dropCycle core).modCore core (·.takeOver t.job)
    let s := s.acquired core (fmaxV l.vector acq)
    let e := s.epoch t.job core
    let page := s.freePage t.job core
    let s := s.modCore core fun c =>
      c.start t (startSpecial c.regs.sp core page j l t ident) xs pcs l.tokens e s.cycle
    if h : core < 448 then
      if (s.core core).ended then s.due (.taskEnd ⟨core, h⟩) else s
    else s
  | _, _ => s

/-! ## Which work a core takes (R51, R53) -/

/-- A task of a launch is being pre-empted. -/
def State.stopping (s : State) (job key : Nat) : Bool :=
  s.cores.any fun c => c.2.preempt != .none &&
    match c.2.task with | some t => t.job == job && t.launch == key | none => false

/-- A core is assigned to a launch. -/
def State.assignedTo (s : State) (core job key : Nat) : Bool :=
  match cfind (cget {} s.disp (dieOf core)).assigned core with
  | some a => a.job == job && a.launch == key
  | none => false

/-- A co-resident launch is placed: it holds all its cores, and none of its tasks is being pre-empted (R44, R55). -/
def State.whole (s : State) (job key : Nat) (l : Launch) : Bool :=
  !s.stopping job key && l.home.all fun c => s.assignedTo c job key

/-- The assignment of an idle core that may take work; a core of a co-resident launch takes none before all of them may
(R55). -/
def State.idleFor (s : State) (core : Nat) : Option (Assign × Launch) :=
  if (s.core core).task.isSome then none
  else
    match cfind (cget {} s.disp (dieOf core)).assigned core with
    | some a =>
      if a.marked then none
      else (s.launch? a.job a.launch).bind fun l =>
        if l.started && !l.complete && (!l.cores || s.whole a.job a.launch l) then some (a, l) else none
    | none => none

/-- An idle, unmarked core of the launch's dies is assigned to a stage. -/
def State.hasIdle (s : State) (job launch : Nat) (l : Launch) (st : Nat) : Bool :=
  l.dieSet.any fun d => (cget {} s.disp d).assigned.any fun a =>
    a.2.job == job && a.2.launch == launch && a.2.stage == st && !a.2.marked && (s.core a.1).task.isNone

/-- Whether a core assigned to stage own may take work of stage st: its own, or that of a stage that has no idle core
(R53). -/
def State.mayServe (s : State) (a : Assign) (l : Launch) (st : Nat) : Bool :=
  st == a.stage || !s.hasIdle a.job a.launch l st

/-- The core then counts as held by the work's stage (R53). -/
def State.assignTo (s : State) (core : Nat) (a : Assign) (st : Nat) : State :=
  let d := dieOf core
  let x := cget {} s.disp d
  { s with disp := cset {} s.disp d { x with assigned := cput x.assigned core { a with stage := st } } }

/-- The stage of a pre-empted task. -/
def Image.stage (i : Image) : Nat := match i.saved.task with | some t => t.stage | none => 0

/-- Pre-empted tasks of a launch that a core may resume, and ready continuations that it may start (R44, R53). -/
def Launch.savedFor (l : Launch) (core : Nat) : List Image := l.images.filter fun i => !l.cores || i.core == core

def Launch.readyFor (l : Launch) (core : Nat) : List Cont :=
  l.conts.filter fun k => k.state == .ready && (!l.cores || k.origin == core)

/-- A stage may take a new entry: there is one, and no pre-empted task or ready continuation of the stage comes
before it (R53). -/
def Launch.takes (l : Launch) (st : Nat) : Bool :=
  !(l.conts.any fun c => c.stage == st && c.state == .ready) && !(l.images.any fun i => i.stage == st) &&
  match l.stages[st]? with
  | some x => match cfind l.queues x.input with | some q => !q.entries.isEmpty | none => false
  | none => false

/-- A stage has work of any kind for a core. -/
def Launch.workFor (l : Launch) (core st : Nat) : Bool :=
  (l.savedFor core).any (fun i => i.stage == st) || (l.readyFor core).any (fun k => k.stage == st) || l.takes st

/-- Of the items of one kind that a core may take, one of its own stage; where its own stage has work of no kind, the
first of another (R51). -/
def Launch.pick {α : Type} (l : Launch) (core own : Nat) (stage : α → Nat) (xs : List α) : Option α :=
  match xs.find? fun x => stage x == own with
  | some x => some x
  | none => if l.workFor core own then none else xs.head?

/-! ## The resumption of a task (R415, R416) -/

/-- A restored scratchpad granule: stamps of the saved core become the new core's (R416). -/
def restamp (old new : Nat) (e : BitVec 23) (t : Stamp) : Stamp :=
  if t.agent.toNat = old && t.epoch != 0 then { t with agent := BitVec.ofNat 9 new, epoch := e } else t

/-- The registers of the core that no image carries stay (R206); tframe names the new core's frame. -/
def Special.onto (saved here : Special) (frame : Word) : Special :=
  { saved with
    tframe := frame, freeze := here.freeze
    coretemp := here.coretemp, coredroop := here.coredroop, coreproc := here.coreproc }

/-- The image on a core; e is the core's epoch in the job, f the frontier of R416. -/
def CoreSt.restore (c : CoreSt) (core : Nat) (i : Image) (t : Task) (frame : Word) (e : BitVec 23) (f : Frontier)
    (now : Nat) : CoreSt :=
  let z := i.saved
  let vec (q : SeqSt) : SeqSt := { q with lvec := lall e }
  { c with
    task := some { t with since := now, placed := now }
    regs := { z.regs with
      k := vec z.regs.k, l := vec z.regs.l, c := vec z.regs.c, s := vec z.regs.s
      sp := z.regs.sp.onto c.regs.sp frame }
    couple := z.couple
    stores := { z.stores with
      kcache := []
      spStamp := if i.core = core then z.stores.spStamp else z.stores.spStamp.map fun p => (p.1, restamp i.core core e p.2) }
    units := z.units
    frontier := f
    arrival := z.arrival
    handler := false
    cut := none
    preempt := .none
    preemptAt := 0
    progress := now
    yielded := false }

/-- R416: the core's epoch after a pending advance; the flag is set afterwards. An exhausted epoch stays, and the
next checked write meets R158. -/
def State.resumeEpoch (s : State) (job core : Nat) : State :=
  ((s.advance job core).getD s).setPending job core

/-- Events that the restored state has due. -/
def State.dueAgain (s : State) (core : Fin 448) : State :=
  let c := s.core core.val
  let s := if c.stores.w0.pending.isSome then s.due (.latchTake core 0) else s
  let s := if c.stores.w1.pending.isSome then s.due (.latchTake core 1) else s
  if c.ended then s.due (.taskEnd core) else s

/-- A pre-empted task resumes on an idle core that is assigned to its launch, from its image, whose slot is free
again (R411, R415, R416). -/
def State.resumeTask (s : State) (core : Fin 448) (a : Assign) (i : Image) : Option State :=
  match i.saved.task, s.job? a.job, s.launch? a.job a.launch with
  | some t, some j, some l =>
    let s := s.modLaunch a.job a.launch fun l => { l with images := l.images.filter fun x => x.slot != i.slot }
    let s := ((s.assignTo core.val a t.stage).claimCore core.val a.job a.launch).dropCycle core.val
    let s := (s.modCore core.val (·.takeOver a.job)).resumeEpoch a.job core.val
    let f := fmaxV (fmaxV (s.core core.val).frontier i.saved.frontier) l.vector
    let frame := j.frameVa + BitVec.ofNat 64 (512 * core.val)
    let s := s.modCore core.val fun c => c.restore core.val i t frame (s.epoch a.job core.val) f s.cycle
    some (s.dueAgain core)
  | _, _, _ => none

/-! ## New work -/

/-- R60, R53, R44: a ready continuation starts. -/
def execContinuationStart (core : Fin 448) (s : State) : Result :=
  event s (
    match s.idleFor core with
    | none => none
    | some (a, l) =>
      match l.pick core.val a.stage (·.stage) ((l.readyFor core.val).filter fun k => s.mayServe a l k.stage) with
      | none => none
      | some k =>
        let s := s.modLaunch a.job a.launch fun l => { l with conts := l.conts.filter fun x => x.id != k.id }
        let s := s.assignTo core a k.stage
        let text := s.textOf a.job l k.stage
        let pcs := (text.zip [k.kpc, k.lpc, k.cpc, k.spc]).map fun p => p.1.map fun _ => p.2
        let live := ((upFrom 0 64).filter fun i => k.live.getLsbD i).zip k.xs
        let xs := live.foldl (fun m p => cset 0 m p.1 p.2) []
        let t : Task := {
          job := a.job, phase := l.phase, graph := l.graph, launch := a.launch, stage := k.stage
          entry := k.entry, kind := k.kind, args := k.args, own := k.own, spec := l.spec.isSome
          reserve := k.reserve }
        some (s.startTask core t xs pcs k.acq))

/-- Producers that a queue blocks are resumed once it holds fewer entries than its capacity (R56). -/
def State.unblock (s : State) (job launch n : Nat) : State :=
  match s.launch? job launch with
  | none => s
  | some l =>
    match cfind l.queues n with
    | none => s
    | some q =>
      if q.entries.length < q.cap then
        (l.conts.filter fun k => k.state == .blocked n).foldl (fun s k => s.readyCont job launch k.id []) s
      else s

/-- The reserve entry of queue n is free again: whoever holds its grant without having used it no longer does
(R63). -/
def State.freeReserve (s : State) (job launch n : Nat) : State :=
  let free (t : Task) : Task :=
    if t.job = job && t.launch = launch && t.reserve == some n then { t with reserve := none } else t
  let s := { s with cores := cmap s.cores fun _ c => { c with task := c.task.map free } }
  s.modLaunch job launch fun l => { l with
    queues := cmap l.queues fun k q => if k = n then { q with reserveUsed := false } else q
    conts := l.conts.map fun c => if c.reserve == some n then { c with reserve := none } else c
    images := l.images.map fun i => { i with saved := { i.saved with task := i.saved.task.map free } } }

/-- An entry leaves a queue, whose reserve entry is in use only while it holds its capacity at least (R41, R63). -/
def State.popEntry (s : State) (job launch n : Nat) : State :=
  let s := s.modLaunch job launch fun l =>
    match cfind l.queues n with
    | none => l
    | some q => { l with queues := cput l.queues n { q with entries := q.entries.drop 1 } }
  let s :=
    match (s.launch? job launch).bind fun l => cfind l.queues n with
    | some q => if q.reserveUsed && decide (q.entries.length < q.cap) then s.freeReserve job launch n else s
    | none => s
  let s := if n = 0 then s.due (.initialEntryFill job launch) else s
  s.unblock job launch n

/-- A core takes the first entry of a stage's input queue (R42, R45 to R48). -/
def State.takeEntry (s : State) (core : Nat) (a : Assign) (l : Launch) (st : Nat) : Option State :=
  match l.stages[st]? with
  | none => none
  | some x =>
    match (cfind l.queues x.input).bind fun q => q.entries.head? with
    | none => none
    | some e =>
      let t : Task := {
        job := a.job, phase := l.phase, graph := l.graph, launch := a.launch, stage := st
        entry := e.idx, args := e.bytes, own := e.own, spec := l.spec.isSome }
      some ((s.startTask core t [] (s.textOf a.job l st) []).popEntry a.job a.launch x.input)

/-- R42, R51, R53: an idle core takes an entry of its own stage by preference, else of the lowest stage of its launch
that has no idle core (log 41). -/
def execTaskStart (core : Fin 448) (s : State) : Result :=
  event s (
    match s.idleFor core with
    | none => none
    | some (a, l) =>
      match l.pick core.val a.stage id ((upFrom 0 l.stages.length).filter fun st => l.takes st && s.mayServe a l st) with
      | none => none
      | some st => s.takeEntry core a l st)

/-- Initial entries that fit into queue 0 (R41). -/
def Launch.fill (l : Launch) : Launch :=
  match cfind l.queues 0 with
  | none => l
  | some q =>
    let n := Nat.min l.left (q.cap - q.entries.length)
    let es := (upFrom (l.count - l.left) n).map fun i =>
      ({ idx := BitVec.ofNat 32 i, bytes := l.args, own := true } : SEntry)
    { l with left := l.left - n, queues := cput l.queues 0 { q with entries := q.entries ++ es } }

/-- R41: due while initial entries are left and queue 0 has room. -/
def execInitialEntryFill (job launch : Nat) (s : State) : Result :=
  event s (
    match s.launch? job launch with
    | none => none
    | some l =>
      let l' := l.fill
      if !l.started || l.complete || l'.left = l.left then none
      else
        let st := match cfind l.queues 0 with | some q => q.consumer | none => 0
        some ((s.setLaunch job launch l').wantPass job launch st (l.work st == 0)))

/-! ## Shares of a die (R50) -/

/-- The die set of a launch from queue q (R50). -/
def dieSetOf (q sum : Nat) : List Nat :=
  (upFrom 0 (Nat.min 8 ((sum + 55) / 56))).map fun j => (q + j) % 8

def shareOf (total n j : Nat) : Nat := total / n + (if j < total % n then 1 else 0)

/-- min and max of a stage on a die. -/
def Launch.bounds (l : Launch) (die : Nat) (x : Stage) : Nat × Nat :=
  let n := l.dieSet.length
  let j := (firstIdx (fun d => d == die) 0 l.dieSet).getD 0
  (shareOf x.min n j, shareOf x.max n j)

/-- A stage of a launch on a die, as a step or a grant pass sees it (R51). -/
structure Row where
  job : Nat
  key : Nat
  cores : Bool
  cls : Nat               -- class + 1; 0 for a launch that runs on prediction (R55)
  st : Nat
  lo : Nat
  held : Nat
  pend : Nat
  target : Nat
  barred : Bool := false  -- a co-resident launch that its cores are not free for
  deriving DecidableEq, Repr

/-- Tasks of a stage on a die. -/
def State.activeOn (s : State) (die job launch st : Nat) : Nat :=
  s.cores.countP fun c => dieOf c.1 == die &&
    (match c.2.task with | some t => t.job == job && t.launch == launch && t.stage == st | none => false)

/-- Some output queue of a stage is full (R51). -/
def Launch.backed (l : Launch) (st : Nat) : Bool :=
  l.queues.any fun q => q.2.producers.getLsbD st && decide (q.2.cap ≤ q.2.entries.length)

/-- The target of a stage (R51). -/
def targetOf (lo hi held active pend : Nat) (backed : Bool) : Nat :=
  let demand := if backed then active else active + pend
  let want := Nat.min (Nat.max demand lo) hi
  let far := decide (want ≥ held + 2) || decide (held ≥ want + 2)
  if far || (held == 0 && 1 ≤ want) || held < lo || hi < held || want == 0 then want else held

/-- The stages of the launches on a die. -/
def State.rowsOn (s : State) (die : Nat) : List Row :=
  (cget {} s.disp die).ring.flatMap fun k =>
    match s.launch? k.1 k.2 with
    | none => []
    | some l => l.stages.zipIdx.map fun (x, i) =>
      let (lo, hi) := l.bounds die x
      let held := (s.heldBy die k.1 k.2 i).length
      let n := l.dieSet.length
      let pend := (l.work i + n - 1) / n
      { job := k.1, key := k.2, cores := l.cores, cls := if l.spec.isSome then 0 else l.cls + 1, st := i, lo := lo
        held := held, pend := pend
        target := targetOf lo hi held (s.activeOn die k.1 k.2 i) pend (l.backed i) }

def Row.short (r : Row) : Nat := r.target - r.held

/-! ## Granting cores (R52, R54) -/

/-- Free cores of a die. -/
def State.freeCores (s : State) (die : Nat) : List Nat :=
  (upFrom (56 * die) 56).filter fun c =>
    (s.core c).task.isNone && (cfind (cget {} s.disp die).assigned c).isNone

/-- The core that a launch is granted: the lowest free one in a cluster that holds a task of it, else the lowest
(R52). -/
def State.chooseCore (s : State) (die job key : Nat) : Option Nat :=
  let free := s.freeCores die
  let near (c : Nat) : Bool := (upFrom (c / 8 * 8) 8).any fun m =>
    match (s.core m).task with | some t => t.job == job && t.launch == key | none => false
  match free.find? near with
  | some c => some c
  | none => free.head?

def State.assign (s : State) (core job key st : Nat) : State :=
  let d := dieOf core
  let x := cget {} s.disp d
  { s with disp := cset {} s.disp d { x with assigned := cput x.assigned core ⟨job, key, st, false⟩ } }

/-- Quantum and cap of a deficit (R54). -/
def quantum : Int := 229376
def deficitCap : Int := 458752

/-- Every launch of a list gains the quantum as often as it takes one of them to have a positive deficit. -/
def gain (ks : List (Nat × Nat)) (m : List ((Nat × Nat) × Int)) : List ((Nat × Nat) × Int) :=
  let need (k : Nat × Nat) : Nat := ((1 - kfind 0 m k + quantum - 1) / quantum).toNat
  let n := (ks.map need).foldl Nat.min ((ks.map need).headD 0)
  ks.foldl (fun m k => kset m k (min (kfind 0 m k + n * quantum) deficitCap)) m

/-- Ring order from behind the launch that was last granted a core, of whatever class (R54; DESIGN CHOICE, log 90). -/
def Disp.order (x : Disp) : List (Nat × Nat) :=
  match x.last with
  | none => x.ring
  | some k =>
    match firstIdx (fun e => e == k) 0 x.ring with
    | some i => x.ring.drop (i + 1) ++ x.ring.take (i + 1)
    | none => x.ring

/-- The launch that receives the next core among those with a shortfall (R54). -/
def Disp.nextLaunch (x : Disp) (ks : List (Nat × Nat)) : Option (Nat × Nat) × Disp :=
  let m := if ks.any fun k => 0 < kfind 0 x.deficits k then x.deficits else gain ks x.deficits
  ((x.order.filter fun k => ks.contains k).find? fun k => 0 < kfind 0 m k, { x with deficits := m })

/-- The cores of a list start one task each of a co-resident launch, whose initial entries come as queue 0 takes
them (R41, R44). -/
def State.startWhole (s : State) (job key : Nat) (cs : List Nat) : State :=
  cs.foldl (fun s c =>
    let s := s.modLaunch job key Launch.fill
    match s.launch? job key with
    | some l => (s.takeEntry c ⟨job, key, 0, false⟩ l 0).getD s
    | none => s) s

/-- The tasks of a co-resident launch resume, all together (R55, R415). -/
def State.resumeWhole (s : State) (job key : Nat) (is : List Image) : State :=
  is.foldl (fun s i => if h : i.core < 448 then (s.resumeTask ⟨i.core, h⟩ ⟨job, key, 0, false⟩ i).getD s else s) s

/-- Cores for a co-resident launch, all of them at once: its share on every die, on which its tasks start, or, once it
has had them, the same cores again, on which its pre-empted tasks resume and its continuations may start (R44, R55,
R415); none where one is missing. -/
def State.grantWhole (s : State) (job key : Nat) (l : Launch) : Option State :=
  if l.home.isEmpty then
    match l.stages with
    | [] => none
    | x :: _ =>
      if l.dieSet.all fun d => decide ((l.bounds d x).1 ≤ (s.freeCores d).length) then
        let (cs, s) := l.dieSet.foldl (fun (a : List Nat × State) d =>
          (upFrom 0 (l.bounds d x).1).foldl (fun (a : List Nat × State) _ =>
            match a.2.chooseCore d job key with
            | some c => (a.1 ++ [c], a.2.assign c job key 0)
            | none => a) a) ([], s)
        some ((s.modLaunch job key fun l => { l with home := cs }).startWhole job key cs)
      else none
  else if !s.stopping job key && l.home.all fun c => (s.freeCores (dieOf c)).contains c || s.assignedTo c job key then
    some ((l.home.foldl (fun s c => s.assign c job key 0) s).resumeWhole job key l.images)
  else none

/-- A real launch awaits the free cores of the die: speculative ones receive none (R390). -/
def awaited (rows : List Row) : Bool := rows.any fun r => r.cls != 0 && 0 < r.short

/-- Grant free cores of a die one at a time (R52); fuel bounds the grants. Launches that run on prediction receive a
core only while no other stage has a shortfall (R390). A co-resident launch that does not find all its cores free is passed
over, and none is held for it (DESIGN CHOICE, log 90). -/
def State.grants (die : Nat) : Nat → List Row → State → List Row × State
  | 0, rows, s => (rows, s)
  | f + 1, rows, s =>
    if (s.freeCores die).isEmpty then (rows, s)
    else
      let cand := rows.filter fun r => 0 < r.short && !r.barred && (r.cls != 0 || !awaited rows)
      let top := (cand.map (·.cls)).foldl Nat.max 0
      let cand := cand.filter fun r => r.cls == top
      let x := cget {} s.disp die
      let (k, x') := x.nextLaunch ((cand.map fun r => (r.job, r.key)).eraseDups)
      match k with
      | none => (rows, s)
      | some k =>
        let s := { s with disp := cset {} s.disp die x' }
        let mine := cand.filter fun r => (r.job, r.key) == k
        let best := mine.foldl (fun b r => match b with
          | none => some r
          | some b => if b.short < r.short then some r else some b) none
        match best with
        | none => (rows, s)
        | some r =>
          let granted (s : State) : State :=
            let x := cget {} s.disp die
            { s with disp := cset {} s.disp die { x with last := some k } }
          if r.cores then
            match (s.launch? r.job r.key).bind fun l => s.grantWhole r.job r.key l with
            | some s' => State.grants die f (rows.map fun y => if y = r then { y with held := y.target } else y) (granted s')
            | none => State.grants die f (rows.map fun y => if y = r then { y with barred := true } else y) s
          else
            match s.chooseCore die r.job r.key with
            | none => (rows, s)
            | some c =>
              State.grants die f (rows.map fun y => if y = r then { y with held := y.held + 1 } else y)
                (granted (s.assign c r.job r.key r.st))

/-- Idle cores that are assigned take work. -/
def State.offerAll (s : State) : State :=
  s.disp.foldl (fun s d => d.2.assigned.foldl (fun s a =>
    if (s.core a.1).task.isNone && !a.2.marked then s.offer a.1 else s) s) s

/-- A real stage lacks more cores than are free: a launch that runs on prediction gives way (R394, reason 5). -/
def State.needCores (s : State) (die : Nat) (rows : List Row) : State :=
  if rows.any fun r => r.cls != 0 && decide ((s.freeCores die).length < r.short) then
    match ((cget {} s.disp die).assigned.reverse.find? fun a =>
        match s.launch? a.2.job a.2.launch with | some l => l.spec.isSome | none => false) with
    | some a => s.discardAll [a.2.launch] 5
    | none => s
  else s

/-- R51: due when a launch has started on the die or a coreless stage has gained work. -/
def execGrantPass (die : Fin 8) (s : State) : Result :=
  event s (
    let x := cget {} s.disp die
    if !x.passDue then none
    else
      let s := { s with disp := cset {} s.disp die { x with passDue := false } }
      let (rows, s) := State.grants die 512 (s.rowsOn die) s
      some ((s.needCores die rows).offerAll))

/-! ## The re-division step -/

/-- Deficits fall by the core-cycles of the past step (R54). -/
def State.chargeDie (s : State) (die : Nat) : State :=
  let x := cget {} s.disp die
  let running := (s.cores.filter fun c => dieOf c.1 == die).filterMap fun c =>
    c.2.task.map fun t => ((t.job, t.launch), s.occupied c.1)
  let used (k : Nat × Nat) : Nat :=
    kfind 0 x.busy k + ((running.filter fun r => r.1 == k).map (·.2)).sum
  { s with disp := cset {} s.disp die { x with
      deficits := x.deficits.map fun e => (e.1, e.2 - used e.1), busy := [], lastStep := s.cycle } }

/-- A stage releases its highest-numbered cores beyond the target; an idle one becomes free at once (R52). A mark stays,
whatever a later step makes of the target (DESIGN CHOICE, log 90). -/
def State.release (s : State) (die : Nat) (r : Row) : State :=
  let cs := (s.heldBy die r.job r.key r.st).reverse.take (r.held - r.target)
  cs.foldl (fun s c =>
    let x := cget {} s.disp die
    if (s.core c).task.isNone then
      { s with disp := cset {} s.disp die { x with assigned := cerase x.assigned c } }
    else
      { s with disp := cset {} s.disp die { x with
          assigned := x.assigned.map fun a => if a.1 = c then (a.1, { a.2 with marked := true }) else a } }) s

/-- Tasks on a die that may be pre-empted: core, class, and cycle since which the task runs. -/
def State.victims (s : State) (die : Nat) : List (Nat × Nat × Nat) :=
  (s.cores.filter fun c => dieOf c.1 == die && c.2.preempt == .none).filterMap fun c =>
    match c.2.task with
    | none => none
    | some t =>
      if t.spec then none else (s.launch? t.job t.launch).map fun l => (c.1, l.cls, t.since)

/-- Cores of a die whose task is being pre-empted, of those that a test selects. -/
def State.stopped (s : State) (die : Nat) (p : CoreSt → Bool) : Nat :=
  s.cores.countP fun c => dieOf c.1 == die && c.2.task.isSome && c.2.preempt != .none && p c.2

/-- Idle cores of a die that become free with the stop of a core: those of its co-resident launch. -/
def State.idleWith (s : State) (die core : Nat) : Nat :=
  match (s.core core).task.bind fun t => (s.launch? t.job t.launch).map fun l => (t, l) with
  | some (t, l) =>
    if l.cores then
      (cget {} s.disp die).assigned.countP fun a =>
        a.2.job == t.job && a.2.launch == t.launch && (s.core a.1).task.isNone
    else 0
  | none => 0

/-- The cores that stop so that n cores of a die come free: of a list, one after the other, each with those that stop with
it (R55). -/
def State.stopList (s : State) (die n : Nat) (cs : List Nat) : List Nat :=
  (cs.foldl (fun (acc : List Nat × Nat) c =>
    if n ≤ acc.2 || acc.1.contains c then acc
    else
      let g := s.stopGroup c
      (acc.1 ++ g, acc.2 + g.countP (fun k => dieOf k == die) + s.idleWith die c)) ([], 0)).1

/-- Pre-emption between classes for a stage: of the lowest class that has a task below the stage's, the highest-numbered
cores, until its shortfall n is covered (R55). The answer is none where an image slot is missing for one of them: then
nothing is pre-empted for the stage (R410). Once the tasks of that class are taken, those of the next class are left alone
in this step (DESIGN CHOICE, log 90). -/
def State.preemptBelow (s : State) (die n : Nat) (r : Row) : Option State :=
  let vs := (s.victims die).filter fun v => v.2.1 < r.cls - 1
  match vs with
  | [] => some s
  | v :: _ =>
    let low := (vs.map (·.2.1)).foldl Nat.min v.2.1
    let cs := s.stopList die n ((vs.filter fun v => v.2.1 == low).map (·.1)).reverse
    if s.haveSlots cs then some (s.stopCores cs (some (r.job, r.key, r.st))) else none

/-- 1 ms in cycles of the arithmetic clock (R3, R55). -/
def msCycles : Nat := 1100000

/-- Pre-emption within a class for a stage (R55): the task of the class that has run longest, if for 1 ms at least; of
several, the one on the lowest-numbered core (DESIGN CHOICE, log 87). -/
def State.preemptWithin (s : State) (die : Nat) (r : Row) : Option State :=
  let vs := (s.victims die).filter fun v => v.2.1 == r.cls - 1 && decide (v.2.2 + msCycles ≤ s.cycle)
  match vs with
  | [] => none
  | v :: vs =>
    let best := vs.foldl (fun b v => if v.2.2 < b.2.2 then v else b) v
    let s' := s.requestPreempt best.1 (some (r.job, r.key, r.st))
    if (s'.core best.1).preempt == .none then none else some s'

/-- Pre-emptions of a step (R55), made while no core of the die is free. A stage for which an image slot was missing gets
none at that step (R410). -/
def State.preemptions (s : State) (die : Nat) (rows : List Row) : State :=
  if !(s.freeCores die).isEmpty then s
  else
    let needy := rows.filter fun r => r.cls != 0 && (r.held < r.lo || (r.held == 0 && 0 < r.pend))
    let (s, ok) := needy.foldl (fun (a : State × List Row) r =>
      let coming := a.1.stopped die fun c => c.preemptFor == some (r.job, r.key, r.st)
      match a.1.preemptBelow die (Nat.max (r.lo - r.held) 1 - coming) r with
      | some s => (s, a.2 ++ [r])
      | none => a) (s, [])
    (ok.filter fun r => r.held == 0 && 0 < r.pend).foldl (fun (a : Bool × State) r =>
      if a.1 then a
      else match a.2.preemptWithin die r with
        | some s' => (true, s')
        | none => a) (false, s) |>.2

/-- Probes that are sent again at a step: every full queue with a blocked producer (R61). -/
def State.reprobe (s : State) (die : Nat) : State :=
  (cget {} s.disp die).ring.foldl (fun s k =>
    match s.launch? k.1 k.2 with
    | none => s
    | some l =>
      if l.dieSet.headD 0 != die then s
      else (l.queues.filter fun q => decide (q.2.cap ≤ q.2.entries.length) &&
          l.conts.any fun c => c.state == .blocked q.1).foldl (fun s q => s.probe k.1 k.2 l q.1) s) s

/-- Cycles between two steps (R51). -/
def stepCycles : Nat := 4096

/-- R51 to R55: due every 4,096 cycles. -/
def execRedivisionStep (die : Fin 8) (s : State) : Result :=
  event s (
    if s.cycle < (cget {} s.disp die).lastStep + stepCycles then none
    else
      let s := s.chargeDie die
      let rows := s.rowsOn die
      let s := rows.foldl (fun s r => s.release die r) s
      let (rows, s) := State.grants die 512 rows s
      let s := (s.needCores die rows).preemptions die rows
      some ((s.reprobe die).offerAll))

/-! ## Probes (R61 to R64) -/

/-- A queue is full and has a blocked producer. -/
def Launch.stuck (l : Launch) (n : Nat) : Bool :=
  (match cfind l.queues n with | some q => decide (q.cap ≤ q.entries.length) | none => false) &&
  l.conts.any fun c => c.state == .blocked n

/-- The queue that a probe at a queue moves to: every task of the consumer stage has ended on a full queue, and no
pre-empted task or ready continuation of it is left. -/
def State.probeNext (s : State) (job key : Nat) (l : Launch) (n : Nat) : Option Nat :=
  match cfind l.queues n with
  | none => none
  | some q =>
    let st := q.consumer
    let ks := l.conts.filter fun c => c.stage == st
    let full (c : Cont) : Option Nat := match c.state with
      | .blocked m => if l.stuck m then some m else none
      | .ready | .waiting => none
    let placed := s.cores.any fun c => match c.2.task with
      | some t => t.job == job && t.launch == key && t.stage == st
      | none => false
    let saved := l.images.any fun i => match i.saved.task with | some t => t.stage == st | none => false
    if placed || saved || ks.isEmpty || ks.any fun c => (full c).isNone then none
    else
      let ms := ks.filterMap full
      some (ms.foldl Nat.min (ms.headD 0))

/-- The cycle that a probe from a queue reports, if any; path holds the queues passed, fuel bounds them. A probe that
comes again to a queue other than its first is dropped (DESIGN CHOICE, log 87). -/
def State.probePath (s : State) (job key : Nat) (l : Launch) (start : Nat) : Nat → Nat → List Nat → Option (List Nat)
  | 0, _, _ => none
  | f + 1, n, path =>
    match s.probeNext job key l n with
    | none => none
    | some m =>
      if m = start then some path
      else if path.contains m then none
      else State.probePath s job key l start f m (path ++ [m])

/-- A launch has deadlocked (R62). One that runs on prediction has no graph yet to fail: it leaves the error record and is
discarded with reason 8 (DESIGN CHOICE, log 91). -/
def State.deadlock (s : State) (job key : Nat) (l : Launch) : State :=
  if l.spec.isSome then
    (s.record ⟨job, 0x1A, 0, 0, l.queue, 0, l.conts.map fun c => c.record job l⟩).discardAll [key] 8
  else s.failLaunch job key 0x1A 0 0

/-- A reserve entry for the first queue of a cycle that has one free (R62), or the failure of the launch. -/
def State.grantReserve (s : State) (job key : Nat) (l : Launch) (cyc : List Nat) : State :=
  match cyc.find? fun n => match cfind l.queues n with | some q => !q.reserveUsed | none => false with
  | none => s.deadlock job key l
  | some n =>
    let ks := l.conts.filter fun c => c.state == .blocked n
    match ks with
    | [] => s
    | k :: r =>
      let k := r.foldl (fun b c => if c.seq.toNat < b.seq.toNat then c else b) k
      let s := s.modLaunch job key fun l => { l with
        queues := match cfind l.queues n with
          | some q => cput l.queues n { q with reserveUsed := true }
          | none => l.queues
        conts := l.conts.map fun c => if c.id = k.id then { c with reserve := some n } else c }
      s.readyCont job key k.id []

/-- One probe is handled before another (R64). -/
def Probe.before (p r : Probe) : Bool := p.at_ < r.at_ || (p.at_ == r.at_ && p.queue ≤ r.queue)

/-- The probe of a launch that is handled next (R64). -/
def Disp.nextProbe (x : Disp) (job launch : Nat) : Option Probe :=
  match x.probes.filter fun p => p.job == job && p.launch == launch with
  | [] => none
  | p :: r => some (r.foldl (fun b p => if b.before p then b else p) p)

/-- The queues of a cycle, ascending. -/
def cycleSet (cyc : List Nat) : List Nat := (upFrom 0 16).filter cyc.contains

/-- A cycle report (R62, R64): dropped where one of its queues is no longer full and blocked, or where a probe that was
sent in the same clock cycle has reported the same queues; a probe of a later cycle is acted on again (DESIGN CHOICE, log
91). -/
def State.actOn (s : State) (p : Probe) (l : Launch) (cyc : List Nat) : State :=
  let d := l.dieSet.headD 0
  let x := cget {} s.disp d
  let r : Report := ⟨p.job, p.launch, p.at_, cycleSet cyc⟩
  if !cyc.all l.stuck || x.reports.contains r then s
  else
    let old := x.reports.filter fun o => !(o.job == p.job && o.launch == p.launch && o.at_ != p.at_)
    let s := { s with disp := cset {} s.disp d { x with reports := old ++ [r] } }
    s.grantReserve p.job p.launch l cyc

/-- R61, R64: due for each probe; those of a launch are handled one at a time, by the cycles in which they were sent
and then by their queues, once that cycle is over. -/
def execProbeWalk (job launch queue : Nat) (s : State) : Result :=
  event s (
    match s.launch? job launch with
    | none => none
    | some l =>
      let d := l.dieSet.headD 0
      let x := cget {} s.disp d
      match x.nextProbe job launch with
      | none => none
      | some p =>
        if p.queue != queue || s.cycle ≤ p.at_ then
          if x.probes.any fun r => r.job == job && r.launch == launch && r.queue == queue then
            some (s.due (.probeWalk job launch queue))
          else none
        else
          let s := { s with disp := cset {} s.disp d { x with probes := x.probes.erase p } }
          match s.probePath job launch l queue 17 queue [queue] with
          | none => some s
          | some cyc => some (s.actOn p l cyc))

end Sys2Proof.Machine
end

