-- ==== Sys2Proof/Machine/Graphs.lean ====
section
/-! DEFINITION. Machine/Graphs: the completion of packets (R377, R378), the waits of R382, graphs and their nodes
(R383, R384), the start of a launch (R386), transforms (R385), and the events of completion and of the phase boundary
(R37, R156). -/

namespace Sys2Proof.Machine

/-! ## What a packet waits for (R382) -/

/-- The packet is the earliest of its queue that is not complete. -/
def WQ.first (q : WQ) (seq : BitVec 32) : Bool := q.live.head? == some seq

/-- Work of a phase may start. -/
def Job.begun (j : Job) (p : Nat) : Bool := p == 0 || (j.phase p).ready

/-- The waits of a packet's work are over. -/
def WQ.mayWork (q : WQ) (j : Job) (seq : BitVec 32) (barrier : Bool) (p : Nat) : Bool :=
  j.begun p && (!barrier || q.first seq)

/-! ## Nodes and graphs -/

def State.modGraph (s : State) (job ph g : Nat) (f : Graph → Graph) : State :=
  match s.graph? job ph g with
  | some x => s.setGraph job ph g (f x)
  | none => s

def Graph.modNode (x : Graph) (n : Nat) (f : Node → Node) : Graph :=
  { x with nodes := x.nodes.zipIdx.map fun (y, i) => if i = n then f y else y }

/-- The launch that runs on prediction for a queue and whose real packet is a given one. -/
def State.specFor (s : State) (queue : Nat) (pkt : BitVec 32) : List Nat :=
  s.specKeys fun _ _ x => x.queue == queue && x.real == some pkt.toNat

/-- A node is dispatched (R384): the launch vector passes to it, and it waits for its claim, its start or an
engine. -/
def State.dispatchNode (s : State) (job ph g n : Nat) : State :=
  match s.graph? job ph g with
  | none => s
  | some x =>
    match x.nodes[n]? with
    | none => s
    | some y =>
      let s := s.setGraph job ph g (x.modNode n fun y => { y with dispatched := true })
      match y.kind with
      | .launch num =>
        let s := s.modLaunch job num fun l => { l with vector := fmaxV l.vector y.vector }
        if x.lone && !(s.specFor x.queue x.pkt).isEmpty then s.due (.claim x.queue)
        else s.due (.launchStart job num)
      | .transform body =>
        let d := x.queue % 8
        let w : Xform := { job := job, phase := ph, graph := g, node := n, body := body, cmd := default }
        let s := { s with xwait := s.xwait ++ [(d, w)] }
        s.due (.transformEngineStart ⟨d, Nat.mod_lt _ (by decide)⟩)

/-- A graph starts: nodes that wait for none are dispatched in ascending order (R384). A graph that is not a LAUNCH
packet's is a mismatch for a launch that runs on prediction (R393). -/
def State.startGraph (s : State) (job ph g : Nat) (x : Graph) : State :=
  let s := s.setGraph job ph g { x with started := true }
  let s := if x.lone then s else s.discardAll (s.specFor x.queue x.pkt) 1
  x.nodes.zipIdx.foldl (fun s y => if y.1.deps = 0 then s.dispatchNode job ph g y.2 else s) s

def Graph.canStart (x : Graph) (s : State) (j : Job) (ph : Nat) : Bool :=
  !x.started && !x.complete &&
  match s.queue? x.queue with
  | some q => q.mayWork j x.pkt x.barrier ph
  | none => false

/-- The graphs of a job whose waits are over start. -/
def State.startGraphs (s : State) (job : Nat) : State :=
  match s.job? job with
  | none => s
  | some j => j.phases.foldl (fun s p => p.2.graphs.foldl (fun s g =>
      if g.2.canStart s j p.1 then s.startGraph job p.1 g.1 g.2 else s) s) s

/-- Whatever of a job's packets may have waited is tested again. -/
def State.retest (s : State) (job : Nat) : State :=
  let s := (s.queues.filter fun q => q.2.job == job).foldl (fun s q =>
    let s := if q.2.signals.isEmpty then s else s.due (.signalPacket q.1)
    match q.2.hold with
    | some (_, b) => s.due (if b.getD 0 0 = 4 then .waitcnt q.1 else .fencePacket q.1)
    | none => s) s
  s.startGraphs job

/-- A packet completes (R377, R378): its event write, and what waited for it. -/
def State.completePacket (s : State) (qn : Nat) (seq : BitVec 32) : State :=
  match s.queue? qn with
  | none => s
  | some q =>
    let told := q.events.contains seq
    let q := { q with live := q.live.erase seq, events := q.events.erase seq }
    let s := s.setWq qn q
    let s := if told then s.eventWrite qn q seq 1 else s
    s.retest q.job

/-- Some graph of a job carries a packet and has completed unreported: its place. -/
def Job.finished (j : Job) (qn : Nat) (seq : BitVec 32) : Option (Nat × Nat) :=
  j.phases.findSome? fun p =>
    (p.2.graphs.find? fun g => g.2.queue == qn && g.2.pkt == seq && g.2.complete && !g.2.reported).map
      fun g => (p.1, g.1)

/-- R377: due once the packet's graph is complete. -/
def execPacketComplete (queue : Nat) (seq : BitVec 32) (s : State) : Result :=
  event s (
    match s.queue? queue with
    | none => none
    | some q =>
      if !q.live.contains seq then none
      else
        match (s.job? q.job).bind fun j => j.finished queue seq with
        | none => none
        | some (p, g) =>
          some ((s.modGraph q.job p g fun x => { x with reported := true }).completePacket queue seq))

/-! ## Launches -/

/-- The node of a launch has been dispatched. -/
def State.dispatched (s : State) (job : Nat) (l : Launch) : Bool :=
  match (s.graph? job l.phase l.graph).bind fun x => x.nodes[l.node]? with
  | some y => y.dispatched
  | none => false

/-- A launch goes to its dies, with its initial entries (R41, R50, R54). -/
def State.placeLaunch (s : State) (job key : Nat) (l : Launch) : State :=
  let dies := dieSetOf l.queue ((l.stages.map (·.max)).sum)
  let queues := match cfind l.queues 0 with
    | some q => cput l.queues 0 { q with next := BitVec.ofNat 32 l.count }
    | none => l.queues
  let l' : Launch := { l with started := true, dieSet := dies, queues := queues }
  let s := s.setLaunch job key l'.fill
  dies.foldl (fun s d =>
    let x := cget {} s.disp d
    let s := { s with disp := cset {} s.disp d { x with
      ring := x.ring ++ [(job, key)], deficits := kset x.deficits (job, key) 0, passDue := true } }
    if h : d < 8 then s.due (.grantPass ⟨d, h⟩) else s) s

/-- R386: due once the launch's node has been dispatched and no prediction is left for it. -/
def execLaunchStart (job launch : Nat) (s : State) : Result :=
  event s (
    match s.launch? job launch with
    | none => none
    | some l =>
      if l.started || l.complete || l.spec.isSome || !s.dispatched job l || !(s.specFor l.queue l.pkt).isEmpty then none
      else some (s.placeLaunch job launch l))

/-- R49: due when every sequencer has reached END and every command has retired. -/
def execTaskEnd (core : Fin 448) (s : State) : Result :=
  event s (
    let c := s.core core.val
    if !c.ended then none else some ((s.leaveTask core.val).retest c.job))

/-- R37: due when a launch is over. -/
def execLaunchComplete (job launch : Nat) (s : State) : Result :=
  event s (
    match s.launch? job launch with
    | none => none
    | some l =>
      if !s.launchOver job launch l then none
      else
        let s := (s.setLaunch job launch { l with complete := true }).leaveDies job launch
        some (s.due (.nodeComplete job l.phase l.graph l.node)))

/-! ## The completion of a node (R384) -/

/-- A dispatched node has done its work. -/
def State.nodeOver (s : State) (job ph g n : Nat) (y : Node) : Bool :=
  y.dispatched && !y.done &&
  match y.kind with
  | .launch num => match s.launch? job num with | some l => l.complete | none => true
  | .transform _ =>
    let mine (x : Xform) : Bool := x.job == job && x.phase == ph && x.graph == g && x.node == n
    !(s.engines.any fun e => mine e.2) && !(s.xwait.any fun e => mine e.2)

/-- What a completed node passes on (R150): the launch vector; a transform's own writes carry Kiln's epoch. -/
def State.nodeVector (s : State) (job : Nat) (y : Node) : Frontier :=
  match y.kind with
  | .launch num => match s.launch? job num with | some l => l.vector | none => []
  | .transform _ => cset 0 y.vector kilnAgent (bmax (cget 0 y.vector kilnAgent) (s.epoch job kilnAgent))

/-- One successor loses a dependency, and is dispatched when none is left. -/
def State.stepSucc (s : State) (job ph g : Nat) (v : Frontier) (n : Nat) : State :=
  let s := s.modGraph job ph g fun x => x.modNode n fun y => { y with deps := y.deps - 1, vector := fmaxV y.vector v }
  match (s.graph? job ph g).bind fun x => x.nodes[n]? with
  | some y => if y.deps = 0 && !y.dispatched then s.dispatchNode job ph g n else s
  | none => s

/-- A graph all of whose nodes are done is complete (R36, R37). -/
def State.finishGraph (s : State) (job ph g : Nat) : State :=
  match s.graph? job ph g with
  | none => s
  | some x =>
    if x.complete || !x.nodes.all (·.done) then s
    else
      let s := s.setGraph job ph g { x with complete := true }
      let s := s.modJob job fun j =>
        let p := j.phase ph
        { j with phases := cput j.phases ph { p with counter := p.counter + 1 } }
      (s.duePacket x.queue x.pkt).checkPhases job

/-- R384. -/
def execNodeComplete (job phase graph node : Nat) (s : State) : Result :=
  event s (
    match s.graph? job phase graph with
    | none => none
    | some x =>
      match x.nodes[node]? with
      | none => none
      | some y =>
        if x.complete || !s.nodeOver job phase graph node y then none
        else
          let v := s.nodeVector job y
          let s := match y.kind with | .launch _ => s | .transform _ => s.setPending job kilnAgent
          let s := s.setGraph job phase graph
            { x.modNode node (fun y => { y with done := true }) with counter := x.counter + 1 }
          let s := y.succs.foldl (fun s n => s.stepSucc job phase graph v n) s
          some ((s.finishGraph job phase graph).retest job))

/-! ## The phase boundary (R37, R156) -/

/-- A task of the job is placed that does not run on prediction. -/
def State.jobRuns (s : State) (job : Nat) : Bool :=
  s.cores.any fun c => match c.2.task with | some t => t.job == job && !t.spec | none => false

/-- R156: due when a phase is complete and the next one, open or closed, has not been made ready. -/
def execPhaseBoundary (job : Nat) (s : State) : Result :=
  event s (
    match s.job? job with
    | none => none
    | some j =>
      match (upFrom 1 j.openPhase).find? fun p => !(j.phase p).ready with
      | none => none
      | some p =>
        if !(j.phase (p - 1)).complete || s.jobRuns job then none
        else
          let s := (s.renormalise job).modJob job fun j =>
            { j with phases := cput j.phases p { j.phase p with ready := true } }
          some ((s.checkPhases job).retest job))

/-! ## Transforms (R385) -/

/-- Bytes of a body by their offsets in the packet. -/
def bodyN (body : List Byte) (lo hi : Nat) : Nat := leNat ((body.drop (lo - 8)).take (hi + 1 - lo))

/-- Type and half of a transform. -/
def xformType (body : List Byte) : Option (Ty × CpyHalf) := do
  let n := bodyN body 48 48
  if 32 ≤ n then none
  let ty ← Ty.ofCode (BitVec.ofNat 5 n)
  let half ← CpyHalf.ofEng (BitVec.ofNat 24 (bodyN body 50 52))
  return (ty, half)

/-- The record that a transform names as its program. -/
def State.xformRecord (s : State) (job : Nat) (body : List Byte) : Option (List Byte) := do
  let j ← s.job? job
  let k ← cfind j.kernels (bodyN body 56 63)
  let o ← k.pp[bodyN body 64 65]?
  return k.ppBytes.drop o

/-- The instance of a transform's program; a program that PBIND would refuse fails the node with PBIND's cause. -/
def State.xformProgram (s : State) (job : Nat) (body : List Byte) : Except Nat (Option PortInst) :=
  if bodyN body 56 63 = 0 then .ok none
  else
    match s.xformRecord job body with
    | none => .error 3
    | some bs =>
      match programCause bs with
      | some c => .error c
      | none =>
        let p := programOf bs
        .ok (some { slot := 0, prog := p, tables := [], ks := p.kinit.map fun v => ⟨v, false⟩ })

/-- The copy of a transform, with the checks of R236; an error is the cause that fails the node. -/
def State.xformCmd (s : State) (job : Nat) (body : List Byte) : Except Nat Cmd :=
  match xformType body with
  | none => .error 3
  | some (ty, half) =>
    match s.xformProgram job body with
    | .error c => .error c
    | .ok p =>
      let m : MapReg := { payload := BitVec.ofNat 192 (bodyN body 24 47) }
      let src := BitVec.ofNat 64 (bodyN body 8 15)
      let dst := BitVec.ofNat 64 (bodyN body 16 23)
      let ok (t : Ty) (base : Word) : Bool := mapOk m.view && (!t.isMx || mxMapOk m.view base)
      if !(ok (cpySrcTy half ty) src && ok (cpyDstTy half ty) dst && cpyFits half ty p.isSome) then .error 3
      else
        let ci := bodyN body 49 49 = 6
        let h : Hdr := default
        .ok { inst := .tcpy h default ty 0 0 0 63 63 half, seq := .l, ipc := 0, num := 0
              map := m, src := src, dst := dst, sbase := BitVec.ofNat 64 (bodyN body 80 87)
              rng := srSeed (BitVec.ofNat 32 (bodyN body 72 75))
              pa := if ci then p else none, pb := if ci then none else p }

/-- The paths that Kiln reaches for a transform: G and N; it stands on no core. -/
def xformPath (kind : AKind) (va : Word) : M Unit := do
  let p := pathOf va
  if p = 3 || p ≥ 10 then trapWith (xtrap kind 0 va)
  else if 1 < p then trapWith (xtrap kind 8 va)

/-- Where an access of Kiln for a transform lands: translated once as its stream enters a 64 KiB region (R103). -/
def kilnPlace (job : Nat) (kind : AKind) (va : Word) : M (Nat × Nat × Bool) := do
  let s ← get
  let region := va.toNat / 65536
  match s.xlat.bind (·.trans.find? fun x => x.region == region && x.kind == kind) with
  | some x => return (x.pa + va.toNat % 65536, x.slot, x.chk)
  | none =>
    match s.translate job (offOf va) kind with
    | .error r => trapWith (xtrap kind r va)
    | .ok (pa, slot, chk) =>
      set { s with xlat := s.xlat.map fun (l : Streams) =>
        { l with trans := ⟨region, kind, pa - va.toNat % 65536, slot, chk⟩ :: l.trans } }
      return (pa, slot, chk)

/-- Kiln's read of tile bytes; a task's argument page is read as it stands (R128). -/
def kilnRead (job : Nat) : ByteReader := fun kind va n => do
  xformPath kind va
  let s ← get
  match if kind == .read then s.argRead job (offOf va) n else none with
  | some bs => return (bs, false)
  | none =>
    let rs ← (wordPieces va n).mapM fun (a, k) => do
      let (pa, slot, _) ← kilnPlace job kind a
      let s ← get
      pure (s.devRead slot pa k, s.devPoison pa k)
    return (rs.flatMap (·.1), rs.any (·.2))

/-- Kiln's write of tile bytes: stamped, not checked (R146). -/
def kilnPut (job : Nat) (va : Word) (bs : Marked) : M Unit :=
  (wordPieces va bs.length).forM fun (a, n) => do
    let w := (bs.drop (a - va).toNat).take n
    let (pa, slot, chk) ← kilnPlace job .write a
    match (← get).stampBy job kilnAgent 0 (if chk then [pa / 128] else []) with
    | none => trapWith { cause := 0x10, addr := gaddr a }
    | some s' => set (s'.devWrite slot pa (w.map (·.1)) (w.any (·.2)))

/-- A unit of poison that a transform has covered whole (R107). -/
def kilnClear (job : Nat) (va : Word) : M Unit := do
  let (pa, _, _) ← kilnPlace job .write va
  modify fun s => { s with memory := { s.memory with poison := cset false s.memory.poison (pa / 64) false } }

/-- The bytes of a piece that a transform has lost (R160). -/
def kilnTake (job : Nat) (va : Word) (n : Nat) (x : Cmd) : M (Cmd × List Bool) := do
  let (pa, _, chk) ← kilnPlace job .write va
  if chk then return (x, List.replicate n false) else takeAt pa n x

def kilnWriter (job : Nat) (base : Word) : ByteWriter := fun x _ b bs => do
  let va := base + BitVec.ofInt 64 b
  samePath .write base va
  xformPath .write va
  let x ← storeWith (kilnTake job) (kilnPut job) (kilnClear job) x va bs
  return { x with regions := regionsOf va bs.length ++ x.regions }

/-- The lowest free engine of a die. -/
def State.freeEngine (s : State) (die : Nat) : Option Nat := (upFrom (4 * die) 4).find? fun e => (cfind s.engines e).isNone

/-- R385: due when a transform waits for the die and an engine of it is free. -/
def execTransformEngineStart (die : Fin 8) (s : State) : Result :=
  event s (
    match s.xwait.find? fun e => e.1 == die.val, s.freeEngine die.val with
    | some (d, x), some e =>
      let s := { s with xwait := s.xwait.erase (d, x) }
      match s.xformCmd x.job x.body with
      | .error c => some (s.failNode x.job x.phase x.graph c 0 0 0)
      | .ok cmd =>
        let s := { s with engines := cput s.engines e { x with cmd := cmd } }
        some (if s.xwait.any fun y => y.1 == die.val then s.due (.transformEngineStart die) else s)
    | _, _ => none)

/-- One element of a transform, or one block (R248). -/
def xformElem (job : Nat) (ty : Ty) (half : CpyHalf) (x : Cmd) : M (Cmd × Option Trap) := do
  let w := kilnWriter job
  let y ← copyStep (kilnRead job) (w x.dst) (w x.sbase) 0 ty half x
  let n := x.cursor + (if (cpyDstTy half ty).isMx then 32 else 1)
  let last := decide (x.map.view.count ≤ n)
  return ({ y with cursor := n, begun := true, done := last, regions := if last then [] else y.regions }, none)

/-- A step of an engine: the elements of one word (R129). A fault fails the node. -/
def xformStep (die : Fin 8) (engine : Fin 4) (s : State) : Result :=
  let e := 4 * die.val + engine.val
  match cfind s.engines e with
  | none => .next s
  | some x =>
    match x.cmd.inst with
    | .tcpy _ _ ty _ _ _ _ _ half =>
      if x.cmd.done then .next (s.due (.transformComplete die engine))
      else
        let failed (s : State) (t : Trap) : Result :=
          let s := { s with engines := cerase s.engines e }
          .next ((s.failNode x.job x.phase x.graph t.cause t.code 0 t.addr).due (.transformEngineStart die))
        match (byWords (xformElem x.job ty half) x.cmd).run { s with xlat := some { trans := x.cmd.trans } } with
        | .ok ((y, t), s1) =>
          let y := { y with trans := (s1.xlat.getD {}).trans.filter fun e => y.regions.contains e.region }
          let s1 : State := { s1 with xlat := none, engines := cput s1.engines e { x with cmd := y } }
          match t with
          | some t => failed s1 t
          | none => .next (if y.done then s1.due (.transformComplete die engine) else s1)
        | .error (.trap t) => failed s t
        | .error (.fault f) => .fault f
        | .error .stall | .error .spec | .error (.held _) | .error .park | .error (.discard _) => .next s
    | _ => .next s

/-- R384, R385: due when an engine has finished. -/
def execTransformComplete (die : Fin 8) (engine : Fin 4) (s : State) : Result :=
  event s (
    let e := 4 * die.val + engine.val
    match cfind s.engines e with
    | none => none
    | some x =>
      if !x.cmd.done then none
      else
        let s := { s with engines := cerase s.engines e }
        some (((s.due (.nodeComplete x.job x.phase x.graph x.node)).due (.transformEngineStart die)).recheck))

end Sys2Proof.Machine
end

