-- ==== Sys2Proof/Machine/Integer.lean ====
section
/-! DEFINITION. Machine/Integer: integer, compare, select and predicate instructions of K (R208 to R215). -/

namespace Sys2Proof.Machine

/-- An instruction of K that writes x register d with a function of the core's state. -/
def runX (h : Hdr) (d : BitVec 6) (f : CoreSt → Word) (s : State) : Result :=
  runSeq onK 8 false h (plain (modMe fun c => c.setX d (f c))) s

/-- An instruction of K that writes predicate p. -/
def runP (h : Hdr) (p : BitVec 5) (f : CoreSt → Bool) (s : State) : Result :=
  runSeq onK 8 false h (plain (modMe fun c => c.setPred .k p (f c))) s

/-- Bits [127:64] of a product of 128-bit values. -/
def mulHigh (b c : BitVec 128) : Word := (b * c).extractLsb' 64 64

/-- R209. -/
def divS (b c : Word) : Word := if c = 0 then BitVec.allOnes 64 else b.sdiv c
/-- R209. -/
def divU (b c : Word) : Word := if c = 0 then BitVec.allOnes 64 else b.udiv c
/-- R209: the sign of b. -/
def remS (b c : Word) : Word := if c = 0 then b else b.srem c
/-- R209. -/
def remU (b c : Word) : Word := if c = 0 then b else b.umod c

/-- Shift amount c[5:0] (R208). -/
def shAmt (c : Word) : Nat := (c.setWidth 6).toNat

/-- Count of leading zeros. -/
def clz64 (v : Word) : Word := BitVec.ofNat 64 (64 - bitLen v.toNat)

/-- Count of trailing zeros from bit i up. -/
def ctzFrom (v : Word) : Nat → Nat → Nat
  | 0, i => i
  | n + 1, i => if v.getLsbD i then i else ctzFrom v n (i + 1)

def ctz64 (v : Word) : Word := BitVec.ofNat 64 (ctzFrom v 64 0)

def popc64 (v : Word) : Word := BitVec.ofNat 64 ((upFrom 0 64).countP fun i => v.getLsbD i)

/-- Byte i moved to byte 7 − i (R211). -/
def bswap64 (v : Word) : Word :=
  (v.extractLsb' 0 8) ++ (v.extractLsb' 8 8) ++ (v.extractLsb' 16 8) ++ (v.extractLsb' 24 8) ++
  (v.extractLsb' 32 8) ++ (v.extractLsb' 40 8) ++ (v.extractLsb' 48 8) ++ (v.extractLsb' 56 8)

/-- The low n bits set. -/
def lowMask (n : Nat) : Word := if n ≥ 64 then BitVec.allOnes 64 else BitVec.twoPow 64 n - 1

/-- EXT (R212). -/
def extBits (v : Word) (lo width : Nat) : Word := (v >>> lo) &&& lowMask width

/-- INS (R212). -/
def insBits (old v : Word) (lo width : Nat) : Word :=
  (old &&& ~~~(lowMask width <<< lo)) ||| ((v &&& lowMask width) <<< lo)

def execAdd (h : Hdr) (d b c : BitVec 6) (s : State) : Result := runX h d (fun k => k.x b + k.x c) s
def execSub (h : Hdr) (d b c : BitVec 6) (s : State) : Result := runX h d (fun k => k.x b - k.x c) s
def execMul (h : Hdr) (d b c : BitVec 6) (s : State) : Result := runX h d (fun k => k.x b * k.x c) s
def execMulh (h : Hdr) (d b c : BitVec 6) (s : State) : Result :=
  runX h d (fun k => mulHigh ((k.x b).signExtend 128) ((k.x c).signExtend 128)) s
def execMulhn (h : Hdr) (d b c : BitVec 6) (s : State) : Result :=
  runX h d (fun k => mulHigh ((k.x b).setWidth 128) ((k.x c).setWidth 128)) s
def execDiv (h : Hdr) (d b c : BitVec 6) (s : State) : Result := runX h d (fun k => divS (k.x b) (k.x c)) s
def execDivn (h : Hdr) (d b c : BitVec 6) (s : State) : Result := runX h d (fun k => divU (k.x b) (k.x c)) s
def execRem (h : Hdr) (d b c : BitVec 6) (s : State) : Result := runX h d (fun k => remS (k.x b) (k.x c)) s
def execRemn (h : Hdr) (d b c : BitVec 6) (s : State) : Result := runX h d (fun k => remU (k.x b) (k.x c)) s
def execAnd (h : Hdr) (d b c : BitVec 6) (s : State) : Result := runX h d (fun k => k.x b &&& k.x c) s
def execOr (h : Hdr) (d b c : BitVec 6) (s : State) : Result := runX h d (fun k => k.x b ||| k.x c) s
def execXor (h : Hdr) (d b c : BitVec 6) (s : State) : Result := runX h d (fun k => k.x b ^^^ k.x c) s
def execAndn (h : Hdr) (d b c : BitVec 6) (s : State) : Result := runX h d (fun k => k.x b &&& ~~~(k.x c)) s
def execOrn (h : Hdr) (d b c : BitVec 6) (s : State) : Result := runX h d (fun k => k.x b ||| ~~~(k.x c)) s
def execShl (h : Hdr) (d b c : BitVec 6) (s : State) : Result := runX h d (fun k => k.x b <<< shAmt (k.x c)) s
def execShr (h : Hdr) (d b c : BitVec 6) (s : State) : Result := runX h d (fun k => k.x b >>> shAmt (k.x c)) s
def execSar (h : Hdr) (d b c : BitVec 6) (s : State) : Result :=
  runX h d (fun k => (k.x b).sshiftRight (shAmt (k.x c))) s
def execRol (h : Hdr) (d b c : BitVec 6) (s : State) : Result :=
  runX h d (fun k => (k.x b).rotateLeft (shAmt (k.x c))) s
def execMin (h : Hdr) (d b c : BitVec 6) (s : State) : Result :=
  runX h d (fun k => if (k.x b).sle (k.x c) then k.x b else k.x c) s
def execMax (h : Hdr) (d b c : BitVec 6) (s : State) : Result :=
  runX h d (fun k => if (k.x b).sle (k.x c) then k.x c else k.x b) s
def execMinn (h : Hdr) (d b c : BitVec 6) (s : State) : Result :=
  runX h d (fun k => if (k.x b).ule (k.x c) then k.x b else k.x c) s
def execMaxn (h : Hdr) (d b c : BitVec 6) (s : State) : Result :=
  runX h d (fun k => if (k.x b).ule (k.x c) then k.x c else k.x b) s

def execAddi (h : Hdr) (d b : BitVec 6) (imm : BitVec 18) (s : State) : Result :=
  runX h d (fun k => k.x b + imm.signExtend 64) s
def execAndi (h : Hdr) (d b : BitVec 6) (imm : BitVec 18) (s : State) : Result :=
  runX h d (fun k => k.x b &&& imm.signExtend 64) s
def execOri (h : Hdr) (d b : BitVec 6) (imm : BitVec 18) (s : State) : Result :=
  runX h d (fun k => k.x b ||| imm.signExtend 64) s
def execXori (h : Hdr) (d b : BitVec 6) (imm : BitVec 18) (s : State) : Result :=
  runX h d (fun k => k.x b ^^^ imm.signExtend 64) s
def execShli (h : Hdr) (d b : BitVec 6) (sh : BitVec 6) (s : State) : Result :=
  runX h d (fun k => k.x b <<< sh.toNat) s
def execShri (h : Hdr) (d b : BitVec 6) (sh : BitVec 6) (s : State) : Result :=
  runX h d (fun k => k.x b >>> sh.toNat) s
def execSari (h : Hdr) (d b : BitVec 6) (sh : BitVec 6) (s : State) : Result :=
  runX h d (fun k => (k.x b).sshiftRight sh.toNat) s
def execLi (h : Hdr) (d : BitVec 6) (imm : BitVec 18) (s : State) : Result :=
  runX h d (fun _ => imm.signExtend 64) s
def execLih (h : Hdr) (d : BitVec 6) (imm : BitVec 18) (s : State) : Result :=
  runX h d (fun k => (k.x d <<< 18) ||| imm.setWidth 64) s

def execClz (h : Hdr) (d b : BitVec 6) (s : State) : Result := runX h d (fun k => clz64 (k.x b)) s
def execCtz (h : Hdr) (d b : BitVec 6) (s : State) : Result := runX h d (fun k => ctz64 (k.x b)) s
def execPopc (h : Hdr) (d b : BitVec 6) (s : State) : Result := runX h d (fun k => popc64 (k.x b)) s
def execBrev (h : Hdr) (d b : BitVec 6) (s : State) : Result := runX h d (fun k => (k.x b).reverse) s
def execBswap (h : Hdr) (d b : BitVec 6) (s : State) : Result := runX h d (fun k => bswap64 (k.x b)) s
def execExt (h : Hdr) (d b : BitVec 6) (lo widthM1 : BitVec 6) (s : State) : Result :=
  runX h d (fun k => extBits (k.x b) lo.toNat (widthM1.toNat + 1)) s
def execIns (h : Hdr) (d b : BitVec 6) (lo widthM1 : BitVec 6) (s : State) : Result :=
  runX h d (fun k => insBits (k.x d) (k.x b) lo.toNat (widthM1.toNat + 1)) s

def execCmp (h : Hdr) (cond : Cond) (pd : BitVec 5) (b c : BitVec 6) (s : State) : Result :=
  runP h pd (fun k => condOn cond (k.x b) (k.x c)) s
def execCmpi (h : Hdr) (cond : Cond) (pd : BitVec 5) (b : BitVec 6) (imm : BitVec 18) (s : State) : Result :=
  runP h pd (fun k => condOn cond (k.x b) (cmpImm cond imm)) s
def execSel (h : Hdr) (d b c : BitVec 6) (pn : BitVec 5) (s : State) : Result :=
  runX h d (fun k => if k.pred .k pn then k.x b else k.x c) s
def execPand (h : Hdr) (pd pa pb : BitVec 5) (s : State) : Result :=
  runP h pd (fun k => k.pred .k pa && k.pred .k pb) s
def execPor (h : Hdr) (pd pa pb : BitVec 5) (s : State) : Result :=
  runP h pd (fun k => k.pred .k pa || k.pred .k pb) s
def execPxor (h : Hdr) (pd pa pb : BitVec 5) (s : State) : Result :=
  runP h pd (fun k => k.pred .k pa != k.pred .k pb) s
def execPandn (h : Hdr) (pd pa pb : BitVec 5) (s : State) : Result :=
  runP h pd (fun k => k.pred .k pa && !k.pred .k pb) s
def execPnot (h : Hdr) (pd pa : BitVec 5) (s : State) : Result := runP h pd (fun k => !k.pred .k pa) s
def execPmov (h : Hdr) (pd pa : BitVec 5) (s : State) : Result := runP h pd (fun k => k.pred .k pa) s

end Sys2Proof.Machine
end

