-- ==== Sys2Proof/Machine/Checks.lean ====
section
/-! DEFINITION. Machine/Checks: the checks that Kiln makes of a packet before it accepts it (R377 to R381, R383,
R385, and R40, R44, R185 as R378 applies them). A check that fails gives a stop code with its detail; every one that
fails is listed. -/

namespace Sys2Proof.Machine

/-- A stop code and its detail (R378). -/
abbrev Bad := Nat × Nat

def badIf (b : Bool) (code detail : Nat) : List Bad := if b then [(code, detail)] else []

/-- Offsets lo to hi. -/
def offs (lo hi : Nat) : List Nat := upFrom lo (hi + 1 - lo)

/-- Reserved bytes that are not 0; o is what the detail adds to an offset. -/
def reservedBytes (b : List Byte) (o : Nat) (l : List Nat) : List Bad :=
  (l.filter fun i => b.getD i 0 != 0).map fun i => (3, o + i)

/-- Field of a packet. -/
def pktN (b : List Byte) (lo hi : Nat) : Nat := leNat ((b.drop lo).take (hi + 1 - lo))

/-- Reserved flag bits of a header (R375). -/
def flagFaults (b : List Byte) : List Bad := badIf ((b.getD 1 0).toNat / 8 != 0) 3 1

/-! ## Kernels and tokens -/

def State.kernelOf (s : State) (job handle : Nat) : Option Kernel := (s.job? job).bind fun j => cfind j.kernels handle

/-- The initial counts break R185 for a task of the kernel. -/
def Kernel.tokensBad (k : Kernel) (ord : Nat) (tokens : BitVec 48) : Bool :=
  let rs := k.sync.filter fun r => r.1 == ord || r.1 == sharedTask
  (upFrom 0 12).any fun i =>
    let mine := rs.filter fun r => r.2.1 == i
    (tokenCount tokens i != 0 && mine.isEmpty) ||
    mine.any fun r => r.2.2.1 == 1 && decide (15 < tokenCount tokens i + r.2.2.2)

/-! ## Stage tables (R380) -/

/-- The bytes of a stage table; none where its whole range has no translation (R374). Counts beyond their limits end
the table with its header. -/
def State.tableBytes (s : State) (job : Nat) (stab : Word) : Option (List Byte) :=
  let read (len : Nat) : Option (List Byte) := (s.derive job .stages stab len false).bind fun c => s.capRead c 0 len
  match read 8 with
  | none => none
  | some h =>
    let n := (h.getD 0 0).toNat
    let m := (h.getD 1 0).toNat
    if n = 0 || 8 < n || 16 < m then some h else read (8 + 8 * (n + m))

/-- Stages and queues that a table declares. -/
def tableStages (t : List Byte) : List Stage :=
  (upFrom 0 (t.getD 0 0).toNat).map fun i =>
    let r := 8 + 8 * i
    { ord := pktN t r r, input := pktN t (r + 1) (r + 1), min := pktN t (r + 2) (r + 3), max := pktN t (r + 4) (r + 5) }

/-- Queue 0 where none is declared (R379, R380). -/
def implicitQueues : Cells SQueue := [(0, { cap := 65536, consumer := 0, producers := 0 })]

def tableQueues (t : List Byte) : Cells SQueue :=
  let n := (t.getD 0 0).toNat
  let m := (t.getD 1 0).toNat
  if m = 0 then implicitQueues
  else (upFrom 0 m).map fun j =>
    let r := 8 + 8 * (n + j)
    (j, { cap := 2 ^ pktN t r r, consumer := pktN t (r + 1) (r + 1), producers := BitVec.ofNat 8 (pktN t (r + 2) (r + 2)) })

/-- Limits that stage i of a table breaks. -/
def stageFaults (k : Option Kernel) (qs : Cells SQueue) (t : List Byte) (i : Nat) (x : Stage) : List Bad :=
  let r := 8 + 8 * i
  let d := 0x100 + r
  reservedBytes t 0x100 [r + 6, r + 7] ++
  badIf (match k with | some k => decide (k.tasks.length ≤ x.ord) | none => false) 4 d ++
  badIf (match cfind qs x.input with
    | some q => q.consumer != i || (i == 0 && x.input != 0)
    | none => true) 4 (d + 1) ++
  badIf (x.min = 0 || decide (448 < x.min)) 4 (d + 2) ++
  badIf (x.max < x.min || decide (448 < x.max)) 4 (d + 4)

/-- Limits that queue j of a table breaks: its consumer must be the stage that names it as input (R380; log 23). -/
def queueFaults (xs : List Stage) (t : List Byte) (j : Nat) : List Bad :=
  let n := xs.length
  let r := 8 + 8 * (n + j)
  let d := 0x100 + r
  let lg := pktN t r r
  reservedBytes t 0x100 (offs (r + 3) (r + 7)) ++
  badIf (lg = 0 || decide (16 < lg)) 4 d ++
  badIf (match xs[pktN t (r + 1) (r + 1)]? with | some x => x.input != j | none => true) 4 (d + 1) ++
  badIf (pktN t (r + 2) (r + 2) / 2 ^ n != 0) 4 (d + 2)

/-- The faults of a table's own bytes. -/
def tableFaults (k : Option Kernel) (t : List Byte) : List Bad :=
  let n := (t.getD 0 0).toNat
  let m := (t.getD 1 0).toNat
  let head := badIf (n = 0 || decide (8 < n)) 4 0x100 ++ badIf (decide (16 < m)) 4 0x101 ++ reservedBytes t 0x100 (offs 2 7)
  if n = 0 || 8 < n || 16 < m then head
  else
    let xs := tableStages t
    let qs := tableQueues t
    head ++ xs.zipIdx.flatMap (fun (x, i) => stageFaults k qs t i x) ++
      (upFrom 0 m).flatMap fun j => queueFaults xs t j

/-! ## LAUNCH (R379) -/

/-- A LAUNCH body read: stages, queues, and the stop codes that apply. b is a packet, or a node's body in the places
of a packet's; o is what a detail adds. -/
structure LaunchRead where
  stages : List Stage
  queues : Cells SQueue
  bad : List Bad
  deriving DecidableEq, Repr

/-- The conditions of R44. What it says of several fields may be laid to any of them (log 20). -/
def coresidentFaults (b : List Byte) (o : Nat) (xs : List Stage) (table : Bool) : List Bad :=
  if !(b.getD 42 0).getLsbD 3 then []
  else
    let minAt := if table then 0x10A else o + 44
    let maxAt := if table then 0x10C else o + 46
    match xs with
    | [x] =>
      (if x.min = x.max then [] else [(4, o + 42), (4, minAt), (4, maxAt)]) ++
      (if pktN b 40 41 + 1 = x.min then [] else [(4, o + 40), (4, o + 42), (4, minAt)])
    | _ => [(4, o + 42), (4, 0x100)]

def State.readLaunch (s : State) (job : Nat) (b : List Byte) (o : Nat) : LaunchRead :=
  let k := s.kernelOf job (pktN b 8 15)
  let stab := BitVec.ofNat 64 (pktN b 16 23)
  let own := reservedBytes b o ([43] ++ offs 50 63) ++
    badIf ((b.getD 42 0).toNat / 16 != 0) 3 (o + 42) ++ badIf ((b.getD 49 0).toNat / 2 != 0) 3 (o + 49) ++
    badIf k.isNone 6 0
  let tokens := BitVec.ofNat 48 (pktN b 32 37)
  let tok (xs : List Stage) : List Bad :=
    badIf (match k with | some k => xs.any fun x => k.tokensBad x.ord tokens | none => false) 4 (o + 32)
  if stab = 0 then
    let lo := pktN b 44 45
    let hi := pktN b 46 47
    let xs : List Stage := [{ ord := 0, input := 0, min := lo, max := hi }]
    ⟨xs, implicitQueues, own ++ badIf (lo = 0 || decide (448 < lo)) 4 (o + 44) ++
      badIf (hi < lo || decide (448 < hi)) 4 (o + 46) ++
      badIf (match k with | some k => k.tasks.isEmpty | none => false) 4 (o + 8) ++
      coresidentFaults b o xs false ++ tok xs⟩
  else
    let own := own ++ reservedBytes b o (offs 44 47)
    if stab.toNat % 8 != 0 || pathOf stab != 0 then ⟨[], [], own ++ [(4, o + 16)]⟩
    else
      match s.tableBytes job stab with
      | none => ⟨[], [], own ++ [(5, o + 16)]⟩
      | some t =>
        let xs := tableStages t
        let f := tableFaults k t
        ⟨xs, tableQueues t, own ++ f ++ (if t.length = 8 then [] else coresidentFaults b o xs true ++ tok xs)⟩

/-! ## TRANSFORM (R385) -/

/-- The limits of a map payload (R167), whose ring level stands in its bytes 21 and 22 and whose ring length in 22 and
23. The field that a detail names may be the map or the one within it (log 20). -/
def mapFaults (payload : BitVec 192) (o : Nat) : List Bad :=
  let lvl := (payload.extractLsb' 175 3).toNat
  (if lvl = 5 || lvl = 6 then [(4, o), (4, o + 21)] else []) ++
  (if lvl = 7 && payload.extractLsb' 178 14 != 0 then [(4, o), (4, o + 22)] else [])

def State.transformFaults (s : State) (job : Nat) (b : List Byte) (o : Nat) : List Bad :=
  let body := b.drop 8
  let eng := BitVec.ofNat 24 (pktN b 50 52)
  let ty := if pktN b 48 48 < 32 then Ty.ofCode (BitVec.ofNat 5 (pktN b 48 48)) else none
  let half := CpyHalf.ofEng eng
  let set (x : CpyHalf) : Bool := match x with
    | .load h => h.sc != 0
    | .store h => h.sc != 0 || h.seed != 0
  let handle := pktN b 56 63
  reservedBytes b o (offs 53 55 ++ offs 66 71 ++ offs 76 79 ++ offs 88 127) ++
  mapFaults (BitVec.ofNat 192 (pktN b 24 47)) (o + 24) ++ badIf ty.isNone 4 (o + 48) ++
  badIf (pktN b 49 49 != 6 && pktN b 49 49 != 7) 4 (o + 49) ++
  badIf (ty.isSome && CpyHalf.reserved ty eng) 3 (o + 50) ++
  badIf (match half with | some x => set x | none => true) 4 (o + 50) ++
  badIf (handle != 0 && (s.kernelOf job handle).isNone) 6 0 ++
  badIf (handle != 0 && (s.kernelOf job handle).isSome &&
    (match s.xformRecord job body with | some r => r.getD 0 0 != 1 | none => true)) 4 (o + 64)

/-! ## GRAPH (R383) -/

/-- A node record: its kind, successors, dependency count, and its body in the places of a packet's. -/
structure NodeRec where
  raw : List Byte
  kind : Nat
  count : Nat
  deps : Nat
  succs : List Nat
  body : List Byte
  deriving DecidableEq, Repr

def nodeRec (r : List Byte) : NodeRec where
  raw := r
  kind := pktN r 0 0
  count := pktN r 1 1
  deps := pktN r 2 3
  succs := (upFrom 0 (Nat.min 8 (pktN r 1 1))).map fun i => pktN r (8 + 2 * i) (9 + 2 * i)
  body := List.replicate 8 0 ++ (r.drop 32).take 120

/-- Faults of one record, apart from the shape of the graph. -/
def State.nodeFaults (s : State) (job : Nat) (x : NodeRec) : List Bad :=
  reservedBytes x.raw 0 (offs 4 7 ++ offs 24 31 ++ offs 152 159) ++
  badIf (x.kind != 1 && x.kind != 2) 4 0 ++ badIf (decide (8 < x.count)) 4 1 ++
  ((offs (Nat.min 8 x.count) 7).filter fun i => pktN x.raw (8 + 2 * i) (9 + 2 * i) != 0).map (fun i => (4, 8 + 2 * i)) ++
  (match x.kind with
    | 1 => (s.readLaunch job x.body 24).bad
    | 2 => s.transformFaults job x.body 24
    | _ => [])

/-- Nodes left when those without a predecessor among them are taken away, again and again; fuel bounds the rounds. -/
def peel (xs : List (Nat × List Nat)) : Nat → List (Nat × List Nat)
  | 0 => xs
  | f + 1 =>
    let hit := xs.flatMap (·.2)
    let ys := xs.filter fun x => hit.contains x.1
    if ys.length = xs.length then xs else peel ys f

/-- Nodes that lie on a cycle or lead from one cycle to another. -/
def cyclic (xs : List NodeRec) : List Nat :=
  let fwd := peel (xs.zipIdx.map fun (x, i) => (i, x.succs)) xs.length
  let inside := fwd.map (·.1)
  let back := fwd.map fun x => (x.1, inside.filter fun i => (fwd.any fun y => y.1 == i && y.2.contains x.1))
  (peel back fwd.length).map (·.1)

/-- A graph whose shape R383 refuses: code 7 with a node's index. -/
def graphShape (xs : List NodeRec) : List Bad :=
  let n := xs.length
  xs.zipIdx.flatMap (fun (x, i) =>
    badIf (x.succs.any fun y => decide (n ≤ y)) 7 i ++
    badIf (x.succs.eraseDups.length != x.succs.length) 7 i ++
    badIf (x.deps != xs.countP fun y => y.succs.contains i) 7 i) ++
  (cyclic xs).map fun i => (7, i)

/-- The records of a node table, none where its range has no translation (R374). -/
def State.nodeTable (s : State) (job : Nat) (tab : Word) (n : Nat) : Option (List NodeRec) :=
  ((s.derive job .nodes tab (160 * n) false).bind fun c => s.capRead c 0 (160 * n)).map fun bs => (upFrom 0 n).map fun i => nodeRec ((bs.drop (160 * i)).take 160)

/-- Records and faults of a GRAPH. -/
def State.readGraph (s : State) (job : Nat) (b : List Byte) : List NodeRec × List Bad :=
  let tab := BitVec.ofNat 64 (pktN b 8 15)
  let n := pktN b 16 17
  let own := reservedBytes b 0 (offs 18 127) ++
    badIf (tab.toNat % 32 != 0 || pathOf tab != 0) 4 8 ++ badIf (n = 0 || decide (4096 < n)) 4 16
  if tab.toNat % 32 != 0 || pathOf tab != 0 || n = 0 || 4096 < n then ([], own)
  else
    match s.nodeTable job tab n with
    | none => ([], own ++ [(5, 8)])
    | some xs => (xs, own ++ xs.flatMap (s.nodeFaults job) ++ graphShape xs)

/-! ## The other packets (R381) -/

/-- The level that a WAITCNT names. -/
def waitLevel (b : List Byte) : Option Level :=
  if pktN b 16 16 ≤ 3 then levelOf (pktN b 16 16) (BitVec.ofNat 64 (pktN b 8 15)) else none

def State.waitcntFaults (s : State) (job : Nat) (b : List Byte) : List Bad :=
  reservedBytes b 0 (offs 17 19 ++ offs 24 127) ++ badIf (decide (3 < pktN b 16 16)) 4 16 ++
  badIf (pktN b 16 16 ≤ 3 && ((waitLevel b).bind fun l => s.levelWord job l).isNone) 4 8

def signalFaults (b : List Byte) : List Bad :=
  let va := BitVec.ofNat 64 (pktN b 8 15)
  reservedBytes b 0 (offs 25 127) ++
  badIf (va.toNat % 8 != 0 || (pathOf va != 0 && pathOf va != 7)) 4 8 ++ badIf (decide (1 < pktN b 24 24)) 4 24

/-- The faults of a packet by its opcode; an unknown opcode is one (R377). -/
def State.packetFaults (s : State) (job : Nat) (b : List Byte) : List Bad :=
  flagFaults b ++
  match pktN b 0 0 with
  | 0 | 6 => reservedBytes b 0 (offs 8 127)
  | 1 => (s.readLaunch job b 0).bad
  | 2 => (s.readGraph job b).2
  | 3 => s.transformFaults job b 0
  | 4 => s.waitcntFaults job b
  | 5 => signalFaults b
  | op => [(2, op)]

end Sys2Proof.Machine
end

