-- ==== Sys2Proof/Machine/Predict.lean ====
section
/-! DEFINITION. Machine/Predict: the launches that packets make (R379, R382), the launch predictor (R388 to R390), the
claim of a speculative launch (R393, R155) and its discard (R394). -/

namespace Sys2Proof.Machine

/-! ## Launches -/

/-- The launch vector at acceptance: every port's epoch and Kiln's (R150), and what the queue's WAITCNTs have acquired
(R381). -/
def State.acceptVector (s : State) (job qn : Nat) : Frontier :=
  let own := (((upFrom 0 12).map portAgent) ++ [kilnAgent]).foldl (fun m a => cset 0 m a (s.epoch job a)) []
  match s.queue? qn with | some q => fmaxV own q.vector | none => own

/-- The launch that a body makes; b holds it in the places of a packet's bytes. -/
def State.mkLaunch (s : State) (job qn : Nat) (pkt : BitVec 32) (num ph g n : Nat) (b : List Byte) : Launch :=
  let r := s.readLaunch job b 0
  { num := num, phase := ph, graph := g, node := n, queue := qn, pkt := pkt, kernel := pktN b 8 15
    stages := r.stages, queues := r.queues, argptr := BitVec.ofNat 64 (pktN b 24 31)
    tokens := BitVec.ofNat 48 (pktN b 32 37), hints := BitVec.ofNat 16 (pktN b 38 39)
    cls := pktN b 42 42 % 8, cores := (b.getD 42 0).getLsbD 3, args := (b.drop 64).take 64
    body := (b.drop 8).take 120, smask := BitVec.ofNat 16 (pktN b 48 49)
    count := pktN b 40 41 + 1, left := pktN b 40 41 + 1, vector := s.acceptVector job qn }

/-! ## History (R388) -/

/-- A LAUNCH body's bytes [63:8] without argptr. -/
def fixedPart (body : List Byte) : List Byte := (body.take 56).take 16 ++ (body.take 56).drop 24

/-- A queue's history after a body. -/
def newHistory (h : List (List Byte)) (body : List Byte) : List (List Byte) :=
  match h.getLast? with
  | some x => if fixedPart x = fixedPart body then (h ++ [body]).drop ((h ++ [body]).length - 3) else [body]
  | none => [body]

/-- Queues that have a history. -/
def historyQueues : Nat := 4096

/-- A queue has accepted a LAUNCH: it joins the set, in which it is then the most recently active. -/
def State.noteLaunch (s : State) (qn : Nat) (body : List Byte) : State :=
  let inSet := s.recent.contains qn
  let rest := s.recent.filter (· != qn)
  let s := if inSet || rest.length < historyQueues then { s with recent := rest ++ [qn] }
    else
      let s' : State := match rest with
        | old :: _ => match s.queue? old with
          | some x => s.setWq old { x with history := [] }
          | none => s
        | [] => s
      { s' with recent := rest.drop 1 ++ [qn] }
  match s.queue? qn with
  | some q => s.setWq qn { q with history := newHistory (if inSet then q.history else []) body }
  | none => s

/-! ## Prediction (R389, R390) -/

/-- The words that smask may mark, by their offsets in a body from byte 8 on: inline words 0 to 7, and argptr. -/
def wordAt (i : Nat) : Nat := if i = 8 then 16 else 56 + 8 * i

def bodyWord (body : List Byte) (i : Nat) : Word := BitVec.ofNat 64 (leNat ((body.drop (wordAt i)).take 8))

/-- Predicted value of a word from its three last values; none when it is unpredictable. -/
def predictWord (x1 x2 x3 : Word) : Option Word :=
  if x1 = x2 && x2 = x3 then some x3
  else if x2 - x1 = x3 - x2 then some (x3 + (x3 - x2))
  else none

/-- The words that a mask marks. -/
def marked9 (m : BitVec 16) : List Nat := (upFrom 0 9).filter fun i => m.getLsbD i

def smaskOf (body : List Byte) : BitVec 16 := BitVec.ofNat 16 (leNat ((body.drop 40).take 2))

/-- The predicted body of three bodies. -/
def predictBody (a b c : List Byte) : Option (List Byte) :=
  (marked9 (smaskOf c)).foldl (fun p i => p.bind fun body =>
    (predictWord (bodyWord a i) (bodyWord b i) (bodyWord c i)).map fun v => patchLine body (wordAt i) (leBytes 8 v.toNat))
    (some c)

def State.specCount (s : State) : Nat := (s.specKeys fun _ _ _ => true).length

/-- The prediction of an eligible queue. -/
def State.predicted (s : State) (qn : Nat) : Option (WQ × List Byte) := do
  let q ← s.queue? qn
  match q.history with
  | [a, b, c] =>
    let k ← s.kernelOf q.job (leNat (c.take 8))
    let body ← predictBody a b c
    if q.flags.getLsbD 3 && (q.policy == 0 || q.policy == 2) && !k.flags.getLsbD 0 && !(c.getD 34 0).getLsbD 3 &&
        (s.specKeys fun _ _ x => x.queue == qn).isEmpty && s.specCount < 8 then some (q, body) else none
  | _ => none

/-- A body in the places of a packet's bytes. -/
def asPacket (body : List Byte) : List Byte := List.replicate 8 0 ++ body

/-- R390: a launch starts on prediction. Its key and number name no launch; its stage table is read as it stands. -/
def State.predict (s : State) (qn : Nat) : State :=
  match s.predicted qn with
  | none => s
  | some (q, body) =>
    if !(s.readLaunch q.job (asPacket body) 0).bad.isEmpty then s
    else
      let key := 2 ^ 32 + s.fresh
      let s := { s with fresh := s.fresh + 1 }
      let q := { q with predicted := q.predicted + 1 }
      let s := s.saveWq qn q
      match s.job? q.job with
      | none => s
      | some j =>
        let l := s.mkLaunch q.job qn 0 key j.openPhase j.nextGraph 0 (asPacket body)
        let l : Launch := { l with spec := some { queue := qn, body := body, started := s.cycle } }
        s.placeLaunch q.job key l

/-! ## Discards (R394) -/

/-- The cores that run or have run a launch are left and cleared (R45, R394). -/
def State.dropSpecCores (s : State) (job key : Nat) (ran : List Nat) : State :=
  let s := s.stopTasks fun t => t.job == job && t.launch == key
  ran.foldl (fun s c => s.modCore c CoreSt.clear45) s

/-- Grant passes are due on dies. -/
def State.duePasses (s : State) (dies : List Nat) : State :=
  dies.foldl (fun s d =>
    let x := cget {} s.disp d
    let s := { s with disp := cset {} s.disp d { x with passDue := true } }
    if h : d < 8 then s.due (.grantPass ⟨d, h⟩) else s) s

/-- The real launch of a packet, once dispatched, may start. -/
def State.dueReal (s : State) (job qn : Nat) (real : Option Nat) : State :=
  match s.job? job, real with
  | some j, some r => (j.launches.filter fun l =>
      l.2.queue == qn && l.2.pkt.toNat == r && l.2.spec.isNone && !l.2.started).foldl
        (fun s l => s.due (.launchStart job l.1)) s
  | _, _ => s

/-- R394: due for the reason that came first. -/
def execSpeculativeDiscard (spec reason : Nat) (s : State) : Result :=
  event s (
    match s.findSpec spec with
    | none => none
    | some (job, l) =>
      match l.spec with
      | none => none
      | some x =>
        if x.dead != some reason then none
        else
          let s := s.dropSpecCores job spec x.ran
          let s := (s.leaveDies job spec).modJob job fun j => { j with launches := cerase j.launches spec }
          let s := match s.queue? x.queue with
            | some q => s.saveWq x.queue { q with discarded := cset 0 q.discarded reason (cget 0 q.discarded reason + 1) }
            | none => s
          some ((s.duePasses l.dieSet).dueReal job x.queue x.real))

/-- 10 ms in cycles (R3, R394). -/
def predictionCycles : Nat := 11000000

/-- R394, reason 7. -/
def execPredictionTimeout (spec : Nat) (s : State) : Result :=
  event s (
    match (s.findSpec spec).bind fun p => p.2.spec with
    | none => none
    | some x =>
      if x.real.isNone && x.dead.isNone && x.started + predictionCycles ≤ s.cycle then some (s.discardAll [spec] 7)
      else none)

/-! ## The claim (R393) -/

/-- The bodies agree where they are compared. -/
def bodiesMatch (real pred : List Byte) : Bool :=
  fixedPart real == fixedPart pred && (marked9 (smaskOf pred)).all fun i => bodyWord real i == bodyWord pred i

/-- Revalidation: every page still has its generation, and every coil its committed length. -/
def State.stillValid (s : State) (x : Spec) : Bool :=
  x.readSet.all (fun p => cget 0 s.memory.gens p.1 == p.2) &&
  x.coilSet.all fun p => match s.coil? (BitVec.ofNat 64 p.1) with | some c => c.c == p.2 | none => false

/-- Physical pages all of whose granules were written. -/
def Spec.wholePages (x : Spec) : List Nat :=
  ((x.shadow.map fun g => g.1 / 512).eraseDups).filter fun p => (upFrom (512 * p) 512).all fun g => (cfind x.shadow g).isSome

/-- The bytes of one 64-byte half of a granule come to memory. -/
def State.publishHalf (s : State) (slot g h : Nat) (sh : Shadow) : State :=
  let bs := sh.bytes.filter fun b => b.1 / 64 == h
  let bad := (sh.poison &&& Shadow.halfMask h) != 0
  if bs.length = 64 then s.devPut slot (128 * g + 64 * h) (bs.map (·.2)) bad
  else bs.foldl (fun s b => s.devPut slot (128 * g + b.1) [b.2] bad) s

/-- Bytes m of a word are written at once: the tile commands among the word's writers lose them (R160). -/
def State.overwrite (s : State) (w : Nat) (m : BitVec 8) : State :=
  match cfind s.memory.parts w with
  | none => s
  | some l => { s with memory := { s.memory with
      parts := cput s.memory.parts w (l.map fun p => { p with lost := p.lost ||| m }) } }

/-- The bytes of word i of a granule that a launch wrote. -/
def Shadow.wordMask (sh : Shadow) (i : Nat) : BitVec 8 :=
  sh.bytes.foldl (fun m b => if b.1 / 8 = i then m ||| byteMask (b.1 % 8) 1 else m) 0

/-- A published granule of unchecked memory against the writes of other agents' tile commands (R160, R393). -/
def State.overwriteGranule (s : State) (g : Nat) (sh : Shadow) : State :=
  if sh.chk then s else (upFrom 0 16).foldl (fun s i => s.overwrite (16 * g + i) (sh.wordMask i)) s

/-- One granule is published: one write (R393). -/
def State.publishGranule (s : State) (slot g : Nat) (sh : Shadow) : State :=
  (((s.publishHalf slot g 0 sh).publishHalf slot g 1 sh).pageWritten (g / 512)).overwriteGranule g sh

/-- The launch's tile commands that may come back to their words join the words' writers, as the last comers (R160). -/
def State.publishParts (s : State) (x : Spec) : State :=
  { s with memory := { s.memory with
      parts := x.parts.foldl (fun m p => cset [] m p.1 (cget [] m p.1 ++ p.2)) s.memory.parts } }

/-- Other speculative launches whose read or write set holds an exchanged page (R394, reason 4). -/
def State.touchPages (s : State) (pages : List Nat) : State :=
  s.discardAll (s.specKeys fun _ _ x =>
    pages.any fun p => (cfind x.readSet p).isSome || x.shadow.any fun g => g.1 / 512 == p) 4

/-- Cores whose tasks wrote checked granules. -/
def Spec.writers (x : Spec) : List Nat := ((x.shadow.filter fun g => g.2.chk).map fun g => g.2.core).eraseDups

/-- Every writer's pending advance is applied (R155); an epoch that cannot rise stays (log 24). -/
def State.advanceAll (s : State) (job : Nat) (cores : List Nat) : State :=
  cores.foldl (fun s c => (s.advance job c).getD s) s

/-- Stamps of the published granules (R155). -/
def State.stampShadow (s : State) (job : Nat) (x : Spec) : State :=
  x.shadow.foldl (fun s g =>
    if g.2.chk then
      s.setStamp (.dev g.1) ⟨BitVec.ofNat 9 g.2.core, s.epoch job g.2.core, g.2.tag, job⟩
    else s) s

/-- The launch's vector after the claim: what it has gained, with the real packet's, raised for every writer (R150,
R155). -/
def State.claimVector (s : State) (job : Nat) (v : Frontier) (x : Spec) : Frontier :=
  x.writers.foldl (fun v c => cset 0 v c (bmax (cget 0 v c) (s.epoch job c))) v

/-- The local vectors of a core cover its own published writes: a placed task of the launch covers the stamps (R155;
DEDUCED, log 24). -/
def CoreSt.coverOwn (c : CoreSt) (e : BitVec 23) : CoreSt :=
  let up (q : SeqSt) : SeqSt := { q with lvec := lmax q.lvec (lall e) }
  { c with regs := { c.regs with k := up c.regs.k, l := up c.regs.l, c := up c.regs.c, s := up c.regs.s } }

/-- A queue entry, task or continuation that holds the packet's inline block holds the real one. -/
def SQueue.realArgs (q : SQueue) (args : List Byte) : SQueue :=
  let es := q.entries.map fun e => if e.own then { e with bytes := args } else e
  { q with entries := es }

/-- The launch goes on as the real one (R393, step 4). -/
def Launch.asReal (l real : Launch) (v : Frontier) : Launch :=
  { l with
    num := real.num, phase := real.phase, graph := real.graph, node := real.node, pkt := real.pkt
    argptr := real.argptr, args := real.args, body := real.body, vector := v, spec := none
    queues := cmap l.queues fun _ q => q.realArgs real.args
    conts := l.conts.map fun k => if k.own then { k with args := real.args } else k }

/-- A placed task goes on as one of the real launch; its parked sequencers resume. -/
def CoreSt.asReal (c : CoreSt) (key : Nat) (real : Launch) : CoreSt :=
  match c.task with
  | none => c
  | some t =>
    let t : Task := { t with
      launch := key, phase := real.phase, graph := real.graph, spec := false
      args := if t.own then real.args else t.args }
    let sp : Special := { c.regs.sp with
      argptr := real.argptr
      launchid := BitVec.ofNat 64 (real.num % 2 ^ 32 + real.graph % 2 ^ 32 * 2 ^ 32)
      jobid := BitVec.ofNat 64 (t.job % 2 ^ 16 + real.phase % 2 ^ 16 * 2 ^ 16) }
    let go (q : SeqSt) : SeqSt := { q with specPark := false }
    { c with
      task := some t
      regs := { c.regs with
        sp := sp, k := go c.regs.k, l := go c.regs.l, c := go c.regs.c, s := go c.regs.s } }

/-- A placed task of a claimed launch acquires from the launch vector, and goes on as one of the real launch (R393). -/
def State.claimCoreAt (s : State) (job key : Nat) (real : Launch) (v : Frontier) (x : Spec) (core : Nat) : State :=
  (s.acquired core v).modCore core fun c =>
    (if x.writers.contains core then c.coverOwn (s.epoch job core) else c).asReal key real

/-- The dispatchers know the launch by its new key. -/
def Disp.rename (x : Disp) (job old new : Nat) : Disp :=
  let k (p : Nat × Nat) : Nat × Nat := if p = (job, old) then (job, new) else p
  { x with
    assigned := cmap x.assigned fun _ a => if a.job = job && a.launch = old then { a with launch := new } else a
    deficits := x.deficits.map fun e => (k e.1, e.2)
    ring := x.ring.map k
    last := x.last.map k
    busy := x.busy.map fun e => (k e.1, e.2)
    probes := x.probes.map fun p => { p with launch := (k (p.job, p.launch)).2 }
    reports := x.reports.map fun p => { p with launch := (k (p.job, p.launch)).2 } }

/-- Steps of the launch that may have been due under its old key. -/
def State.dueClaimed (s : State) (job key : Nat) (l : Launch) : State :=
  let s := s.due (.initialEntryFill job key)
  let s := l.queues.foldl (fun s q => if l.stuck q.1 then s.due (.probeWalk job key q.1) else s) s
  s.checkLaunch job key

/-- R393, from the revalidation on. -/
def State.claimAt (s : State) (job qn old : Nat) (l : Launch) (x : Spec) (key : Nat) (real : Launch) : State :=
  let s := s.modJob job fun j => { j with launches := cerase j.launches old }
  let slot := match s.job? job with | some j => j.keySlot | none => 0
  let s := s.touchPages x.wholePages
  let s := ((x.shadow.foldl (fun s g => s.publishGranule slot g.1 g.2) s).publishParts x).advanceAll job x.writers
  let s := s.stampShadow job x
  let v := s.claimVector job (fmaxV l.vector real.vector) x
  let s := s.setLaunch job key (l.asReal real v)
  let mine (c : CoreSt) : Bool := match c.task with | some t => t.job == job && t.launch == old | none => false
  let s := (s.cores.filter fun c => mine c.2).foldl (fun s c => s.claimCoreAt job key real v x c.1) s
  let s := { s with disp := cmap s.disp fun _ d => d.rename job old key }
  let s := match s.queue? qn with
    | some q => s.saveWq qn { q with claimed := q.claimed + 1 }
    | none => s
  s.dueClaimed job key (l.asReal real v)

/-- R393: due when the work of the real packet would start. -/
def execClaim (queue : Nat) (s : State) : Result :=
  event s (
    match (s.specKeys fun _ _ x => x.queue == queue).head?.bind s.findSpec with
    | none => none
    | some (job, l) =>
      match l.spec, s.job? job with
      | some x, some j =>
        match (j.launches.find? fun r =>
            r.2.spec.isNone && r.2.queue == queue && x.real == some r.2.pkt.toNat && !r.2.started && !r.2.complete) with
        | none => none
        | some (key, real) =>
          let lone := match s.graph? job real.phase real.graph with | some g => g.lone | none => false
          if x.dead.isSome || !lone || !s.dispatched job real then none
          else if !bodiesMatch real.body x.body then some (s.discardAll [l.num] 1)
          else if !s.stillValid x then some (s.discardAll [l.num] 3)
          else some (s.claimAt job queue l.num l x key real)
      | _, _ => none)

end Sys2Proof.Machine
end

