-- ==== Sys2Proof/Machine/Packets.lean ====
section
/-! DEFINITION. Machine/Packets: tests of head slots (R375, R376), acceptance (R378, R382) and the single packets
(R377, R381). -/

namespace Sys2Proof.Machine

/-! ## Head slots (R375, R376) -/

/-- A queue that may accept a packet: running, not held up, and its job goes on. -/
def State.accepting (s : State) (q : WQ) : Bool :=
  s.kilnUp && q.state == 1 && q.hold.isNone &&
  match s.job? q.job with | some j => j.ending.isNone | none => false

/-- A queue from which Kiln may fetch: it is enabled as well (R373). -/
def State.runnable (s : State) (q : WQ) : Bool := s.accepting q && q.flags.getLsbD 0

/-- The head slot's 128 bytes, read through the ring's capability (R374), when its mark is next. -/
def State.headSlot (s : State) (q : WQ) : Option (List Byte) :=
  if !s.runnable q then none
  else
    match s.capRead q.ringCap (q.slotAt q.next) 128 with
    | none => none
    | some p => if BitVec.ofNat 32 (pktN p 4 7) = q.next then some p else none

/-- The check of a packet holds (R375). -/
def checkOk (p : List Byte) : Bool := packetCheck p == BitVec.ofNat 16 (pktN p 2 3)

/-- The event that an opcode calls for. -/
def packetEvent (op qn : Nat) : Option Instr :=
  match op with
  | 0 => some (.nopPacket qn) | 1 => some (.launchPacket qn) | 2 => some (.graphPacket qn)
  | 3 => some (.transformPacket qn) | 4 => some (.waitcnt qn) | 5 => some (.signalPacket qn)
  | 6 => some (.fencePacket qn) | _ => none

/-- A packet whose check holds is not accepted: one of the codes that apply (R378, log 20). -/
def State.refusePacket (s : State) (qn : Nat) (q : WQ) (bad : List Bad) : State :=
  match bad.eraseDups with
  | [] => s
  | [(c, d)] => s.stopQueue qn c d q.next 0
  | l =>
    let (c, d) := l.getD ((Config.freeWord s.fresh).toNat % l.length) (0, 0)
    { s with fresh := s.fresh + 1 }.stopQueue qn c d q.next 0

/-- A present packet whose check holds is taken with the bytes that the read returned (R376): its event is due, or its
unknown opcode stops the queue. -/
def State.takePacket (s : State) (qn : Nat) (q : WQ) (p : List Byte) : State :=
  let q := { q with rereads := 0, taken := some p }
  let s := s.setWq qn q
  match packetEvent (pktN p 0 0) qn with
  | some e => s.due e
  | none => s.refusePacket qn q (s.packetFaults q.job p)

/-- One test of a head slot; while a re-read of it is due, a failed check adds none. -/
def State.testSlot (s : State) (qn : Nat) (q : WQ) : State :=
  if q.taken.isSome then s
  else
    match s.headSlot q with
    | none => s.setWq qn { q with rereads := 0 }
    | some p =>
      if checkOk p then s.takePacket qn q p
      else if q.rereads = 0 then (s.setWq qn { q with rereads := 1 }).due (.packetReread qn)
      else s

/-- R376: every queue's head slot is tested, and what waited is tested again. -/
def execQueuePollTick (s : State) : Result :=
  event s (
    if !s.kilnUp then none
    else
      let s := s.queues.foldl (fun s q => match s.queue? q.1 with | some x => s.testSlot q.1 x | none => s) s
      some (s.jobs.foldl (fun s j => s.retest j.1) s))

/-- Re-reads of a slot (R376). -/
def maxRereads : Nat := 8

/-- R376: due while a re-read is. -/
def execPacketReread (queue : Nat) (s : State) : Result :=
  event s (
    match s.queue? queue with
    | none => none
    | some q =>
      if q.rereads = 0 || q.taken.isSome then none
      else
        match s.headSlot q with
        | none => some (s.setWq queue { q with rereads := 0 })
        | some p =>
          if checkOk p then some (s.takePacket queue q p)
          else if q.rereads < maxRereads then
            some ((s.setWq queue { q with rereads := q.rereads + 1 }).due (.packetReread queue))
          else some ((s.setWq queue { q with rereads := 0 }).stopQueue queue 1 0 q.next 0))

/-! ## Acceptance (R382) -/

/-- The open phase closes, and the next one opens (R37). -/
def State.closePhase (s : State) (job : Nat) : State :=
  let s := s.modJob job fun j => { j with
    phases := cput j.phases j.openPhase { j.phase j.openPhase with closed := true }
    openPhase := j.openPhase + 1, nextGraph := 0 }
  (s.discardAll (s.specKeys fun k _ x => k == job && x.real.isNone) 6).checkPhases job

/-- The packet is the first that its queue accepts since a prediction was started. -/
def State.markReal (s : State) (qn : Nat) (seq : BitVec 32) : State :=
  let mark (x : Spec) : Spec :=
    if x.queue = qn && x.real.isNone then { x with real := some seq.toNat } else x
  let marks (j : Job) : Job :=
    let ls := cmap j.launches fun _ l => { l with spec := l.spec.map mark }
    { j with launches := ls }
  { s with jobs := cmap s.jobs fun _ j => marks j }

/-- A packet is accepted: its phase with the state. -/
def State.accept (s : State) (qn : Nat) (q : WQ) (p : List Byte) : Nat × State :=
  let fl := p.getD 1 0
  let seq := q.next
  let s := if fl.getLsbD 1 then s.closePhase q.job else s
  let q : WQ := { q with
    next := seq + 1, accepted := q.accepted + 1, rereads := 0, live := q.live ++ [seq]
    events := if fl.getLsbD 2 then q.events ++ [seq] else q.events }
  let s := ((s.saveWq qn q).markReal qn seq).due .queuePollTick
  (match s.job? q.job with | some j => j.openPhase | none => 0, s)

/-- The packet that a queue has taken, of an opcode, is accepted, or stops the queue. -/
def withHead (op qn : Nat) (s : State) (f : WQ → List Byte → State → State) : Option State :=
  match s.queue? qn with
  | none => none
  | some q =>
    match q.taken with
    | none => none
    | some p =>
      if pktN p 0 0 != op || !s.accepting q then none
      else
        let q := { q with taken := none }
        let s := s.setWq qn q
        let bad := s.packetFaults q.job p
        if bad.isEmpty then some (f q p s) else some (s.refusePacket qn q bad)

/-- A graph joins a phase (R382); in one that has been cancelled it is cancelled at once (R39). -/
def State.addGraph (s : State) (job ph : Nat) (x : Graph) : State :=
  match s.job? job with
  | none => s
  | some j =>
    let g := j.nextGraph
    let s := (s.setJob job { j with nextGraph := g + 1 }).setGraph job ph g x
    if j.cancelled || (j.phase ph).cancelled then s.cancelGraph job ph g else s

/-- A launch gets the next number of its job. -/
def State.addLaunch (s : State) (job qn : Nat) (pkt : BitVec 32) (ph g n : Nat) (b : List Byte) : Nat × State :=
  match s.job? job with
  | none => (0, s)
  | some j =>
    let num := j.nextLaunch
    let l := s.mkLaunch job qn pkt num ph g n b
    (num, (s.setJob job { j with nextLaunch := num + 1 }).setLaunch job num l)

def State.nextGraphOf (s : State) (job : Nat) : Nat := match s.job? job with | some j => j.nextGraph | none => 0

/-! ## The packets -/

def barrierOf (p : List Byte) : Bool := (p.getD 1 0).getLsbD 0
def seqOf (p : List Byte) : BitVec 32 := BitVec.ofNat 32 (pktN p 4 7)

/-- The packet's work starts; where it is no LAUNCH, a launch that runs on prediction for it is discarded (R393). -/
def State.notLaunch (s : State) (qn : Nat) (seq : BitVec 32) : State := s.discardAll (s.specFor qn seq) 1

/-- R377: complete at acceptance. -/
def execNopPacket (queue : Nat) (s : State) : Result :=
  event s (withHead 0 queue s fun q p s =>
    (((s.accept queue q p).2).notLaunch queue (seqOf p)).completePacket queue (seqOf p))

/-- R379, R382, R386. -/
def execLaunchPacket (queue : Nat) (s : State) : Result :=
  event s (withHead 1 queue s fun q p s =>
    let (ph, s) := s.accept queue q p
    let g := s.nextGraphOf q.job
    let (num, s) := s.addLaunch q.job queue (seqOf p) ph g 0 p
    let s := s.addGraph q.job ph {
      nodes := [{ kind := .launch num, succs := [], deps := 0 }]
      queue := queue, pkt := seqOf p, barrier := barrierOf p, lone := true }
    let s := s.noteLaunch queue ((p.drop 8).take 120)
    (s.retest q.job).predict queue)

/-- The nodes of a graph, with its launches numbered in ascending order of their nodes. -/
def State.addNodes (s : State) (job qn : Nat) (pkt : BitVec 32) (ph g : Nat) :
    Nat → List NodeRec → List Node × State
  | _, [] => ([], s)
  | i, x :: r =>
    let (k, s) : NodeKind × State :=
      if x.kind = 1 then
        let (num, s) := s.addLaunch job qn pkt ph g i x.body
        (.launch num, s)
      else (.transform (x.body.drop 8), s)
    let (ns, s) := State.addNodes s job qn pkt ph g (i + 1) r
    ({ kind := k, succs := x.succs, deps := x.deps } :: ns, s)

/-- R383, R384. -/
def execGraphPacket (queue : Nat) (s : State) : Result :=
  event s (withHead 2 queue s fun q p s =>
    let xs := (s.readGraph q.job p).1
    let (ph, s) := s.accept queue q p
    let g := s.nextGraphOf q.job
    let (ns, s) := s.addNodes q.job queue (seqOf p) ph g 0 xs
    (s.addGraph q.job ph { nodes := ns, queue := queue, pkt := seqOf p, barrier := barrierOf p }).retest q.job)

/-- R385. -/
def execTransformPacket (queue : Nat) (s : State) : Result :=
  event s (withHead 3 queue s fun q p s =>
    let (ph, s) := s.accept queue q p
    (s.addGraph q.job ph {
      nodes := [{ kind := .transform ((p.drop 8).take 120), succs := [], deps := 0 }]
      queue := queue, pkt := seqOf p, barrier := barrierOf p }).retest q.job)

/-- The condition of a WAITCNT holds (R381). -/
def State.counted (s : State) (job : Nat) (p : List Byte) : Bool :=
  match (waitLevel p).bind fun l => s.levelWord job l with
  | some (n, complete, _) => complete || decide ((n - BitVec.ofNat 32 (pktN p 20 23)).toNat < 2 ^ 31)
  | none => false

/-- What a WAITCNT acquires: the ends of every task that its level counted, as CCNT does (R345, R381; log 86). -/
def State.waitcntVector (s : State) (job : Nat) (p : List Byte) : Frontier :=
  match waitLevel p, s.job? job with
  | some l, some j => (j.launchesOf l).foldl (fun v x => fmaxV v x.vector) []
  | _, _ => []

/-- A WAITCNT or FENCE that holds up acceptance: once its waits are over, a launch that runs on prediction for it is
discarded (R393); it completes when its condition holds as well. -/
def State.tryHold (s : State) (qn : Nat) : Option State :=
  match s.queue? qn with
  | none => none
  | some q =>
    match q.hold, s.job? q.job with
    | some (ph, p), some j =>
      let holds := if pktN p 0 0 = 4 then s.counted q.job p else q.first (seqOf p)
      if !q.mayWork j (seqOf p) (barrierOf p) ph then none
      else if holds then
        let v := if pktN p 0 0 = 4 then fmaxV q.vector (s.waitcntVector q.job p) else q.vector
        some ((((s.setWq qn { q with hold := none, vector := v }).notLaunch qn (seqOf p)).completePacket qn (seqOf p)).due
          .queuePollTick)
      else some (s.notLaunch qn (seqOf p))
    | _, _ => none

/-- A packet that holds up acceptance is accepted. -/
def State.holdPacket (s : State) (qn : Nat) (q : WQ) (p : List Byte) : State :=
  let (ph, s) := s.accept qn q p
  let s := match s.queue? qn with | some q => s.setWq qn { q with hold := some (ph, p) } | none => s
  (s.tryHold qn).getD s

def State.holds (s : State) (qn op : Nat) : Bool :=
  match (s.queue? qn).bind fun q => q.hold with
  | some (_, p) => pktN p 0 0 == op
  | none => false

/-- R381: due for a WAITCNT at the queue's head, or one whose condition has come to hold. -/
def execWaitcnt (queue : Nat) (s : State) : Result :=
  event s (
    if s.holds queue 4 then s.tryHold queue else withHead 4 queue s fun q p s => s.holdPacket queue q p)

/-- R381: due for a FENCE at the queue's head, or one before which everything is complete. -/
def execFencePacket (queue : Nat) (s : State) : Result :=
  event s (
    if s.holds queue 6 then s.tryHold queue else withHead 6 queue s fun q p s => s.holdPacket queue q p)

/-- The atomic of a SIGNAL (R381). One that fails stops the queue and does not complete (log 25). -/
def State.doSignal (s : State) (qn job : Nat) (p : List Byte) : State :=
  let s := s.notLaunch qn (seqOf p)
  let va := BitVec.ofNat 64 (pktN p 8 15)
  let v := BitVec.ofNat 64 (pktN p 16 23)
  match s.kilnAmo job va (if pktN p 24 24 = 1 then .swap else .plain .add) v with
  | .ok s' => s'.completePacket qn (seqOf p)
  | .error c => s.stopQueue qn 8 c (seqOf p) 0

/-- The first waiting SIGNAL of a queue whose waits are over. -/
def State.readySignal (s : State) (qn : Nat) : Option (WQ × Nat × List Byte) := do
  let q ← s.queue? qn
  let j ← s.job? q.job
  let x ← q.signals.find? fun x => q.mayWork j (seqOf x.2) (barrierOf x.2) x.1
  return (q, x)

/-- The first ready SIGNAL acts. -/
def State.trySignal (s : State) (qn : Nat) : Option State :=
  match s.readySignal qn with
  | none => none
  | some (q, x) => some ((s.setWq qn { q with signals := q.signals.erase x }).doSignal qn q.job x.2)

/-- R381: due for a SIGNAL whose waits are over, or one at the queue's head. -/
def execSignalPacket (queue : Nat) (s : State) : Result :=
  event s (
    match s.trySignal queue with
    | some s' => some s'
    | none => withHead 5 queue s fun q p s =>
      let (ph, s) := s.accept queue q p
      let s := match s.queue? queue with
        | some q => s.setWq queue { q with signals := q.signals ++ [(ph, p)] }
        | none => s
      (s.trySignal queue).getD s)

end Sys2Proof.Machine
end

