-- ==== Sys2Proof/Machine/Images.lean ====
section
/-! DEFINITION. Machine/Images: the bytes of a context image (R411 to R414). A place of the image for which no rule gives
the contents holds a free byte (log 70). -/

namespace Sys2Proof.Machine

/-- A part of an image: bytes, or a number of bytes that nothing constrains. -/
inductive Piece where
  | bytes (l : List Byte)
  | gap (n : Nat)

/-- The bytes of a section from an offset of the image on; the free byte at an offset is named by it and a start. -/
def render (start : Nat) : Nat → List Piece → List Byte
  | _, [] => []
  | o, .bytes l :: r => l ++ render start (o + l.length) r
  | o, .gap n :: r => (upFrom (start + o) n).map Config.freeByte ++ render start (o + n) r

/-- Numbers of given widths in bits, packed from the low bit up. -/
def packBits : List (Nat × Nat) → Nat
  | [] => 0
  | (w, v) :: r => v % 2 ^ w + 2 ^ w * packBits r

/-- Bits of a list of flags, the first the lowest, as n bytes. -/
def flagBytes (n : Nat) (l : List Bool) : List Byte := leBytes n (packBits (l.map fun b => (1, b.toNat)))

/-! ## The fixed part (R412) -/

/-- A token FIFO: its count, the mask of its value tokens, and their values in order. -/
def fifoPieces (f : List Tok) : List Piece :=
  let vs := f.filterMap (·.val)
  [.bytes (leBytes 1 f.length), .gap 1, .bytes (flagBytes 2 (f.map (·.val.isSome))), .gap 4,
   .bytes (vs.flatMap fun v => leBytes 8 v.toNat), .gap (56 - 8 * vs.length)]

/-- A map register: its payload and ring start. -/
def mapPieces (m : MapReg) : List Piece := [.bytes (leBytes 24 m.payload.toNat ++ leBytes 2 m.start.toNat), .gap 6]

/-- An entry of a command queue: the command's doublewords; in the places of log 70, its issuing sequencer, its cursor
and its stochastic register (R76, R413). -/
def cmdPieces (x : Cmd) : List Piece :=
  let ws := (encode x.inst).flatMap fun w => leBytes 8 w.toNat
  [.bytes ws, .gap (32 - ws.length),
   .bytes (leBytes 1 x.seq.idx), .gap 7, .bytes (leBytes 8 x.cursor ++ leBytes 4 x.rng.toNat), .gap 12]

/-- The entries of one command queue. -/
def queuePieces (n : Nat) (l : List Cmd) : List Piece := (l.take n).flatMap cmdPieces ++ [.gap (64 * (n - l.length))]

/-- The stochastic register of a unit's command in execution; 0 without one (R76). -/
def CoreSt.rngOf (c : CoreSt) (u : CUnit) : BitVec 32 := ((c.unit u).head?.map (·.rng)).getD 0

/-- The arrival record: the barrier's address, the phase, and whether there is one (R326; log 70). -/
def arrivalPieces : Option (Word × BitVec 16) → List Piece
  | none => [.bytes (leBytes 16 0)]
  | some (a, p) => [.bytes (leBytes 8 a.toNat ++ leBytes 2 p.toNat ++ leBytes 6 1)]

/-- The encoded base of a rotating field: the field as the body's instruction has it (R287). -/
def Wheel.baseOf (w : Wheel) (r : Rot) : Nat :=
  match w.body[r.posM1.toNat]? with
  | none => 0
  | some i => fieldOf ((encode i.2).headD 0) r.fld

/-- How a wheel stands: 0 none is in progress, 1 saved at its WHEEL after a drain (R288), 2 stopped at a slot. -/
def Wheel.stopKind (w : Wheel) : Nat := if w.drained then 1 else if w.active then 2 else 0

/-- The wheel of a sequencer: its word of R400 with state and step, i0, T, the stop kind, the descriptors and the encoded
bases (R412; log 70). -/
def CoreSt.wheelPieces (c : CoreSt) (q : Seq) : List Piece :=
  let w := (c.seq q).wheel
  [.bytes (leBytes 8 (c.wheelWord q) ++ leBytes 4 w.i0 ++ leBytes 4 w.trip ++ leBytes 1 w.stopKind ++
     leBytes 1 w.rots.length), .gap 6,
   .bytes (leBytes 24 (rotsPayload w.rots) ++ leBytes 12 (packBits (w.rots.map fun r => (6, w.baseOf r)))), .gap 4]

/-- The instance at a port of the commands in execution (R170, R290): the first of a command at MA, RI, PI and CI, and at MD
of an MDRAIN or MDRAINX; the second at the others. -/
def CoreSt.portInst (c : CoreSt) (p : Port) : Option PortInst :=
  match c.unit (portUnit p) with
  | [] => none
  | x :: _ =>
    let drains := match x.inst with | .mdrain .. | .mdrainx .. => true | _ => false
    match p with
    | .ma => if drains then none else x.pa
    | .md => if drains then x.pa else none
    | .ri | .pi | .ci => x.pa
    | .ro | .po | .co => x.pb

/-- The indices of the element that enters a port next, where they are known: the values of a row follow one another, and a
program before the port that drops nothing lets every element through. -/
def CoreSt.nextIdx (c : CoreSt) (p : Port) : Option Idx := do
  let x ← (c.unit (portUnit p)).head?
  if x.done then none
  else
    let m := match x.inst with
      | .tcpy _ _ ty _ _ _ _ _ half => loadMap x.map.view (loadOf ty half)
      | _ => x.map.view
    let levels := match x.inst with | .tred _ _ _ _ _ _ _ _ n => n.toNat | _ => 0
    let head := (queuePopped x.inst).bind fun q => (c.queue q).elems.head?.map (·.idx)
    match p with
    | .ma | .md => some (idxOf [0, x.cursor])
    | .ci => some (m.idx x.cursor)
    | .co => if drops x.pa then none else some (m.idx x.cursor)
    | .ri | .pi => head
    | .ro | .po => if drops x.pa then none else head.map (idxFrom levels)

/-- The instance at a port as it stands at the cursor: at a chain's first element its state is the initial one (R310). -/
def CoreSt.instAt (c : CoreSt) (p : Port) : Option PortInst :=
  (c.portInst p).map fun i => match c.nextIdx p with | some x => i.enter x | none => i

/-- A program as a record of the .pp section holds it (R186). -/
def programBytes (g : Program) : List Byte :=
  leBytes 1 1 ++ leBytes 1 g.words.length ++ leBytes 1 g.carry ++ leBytes 5 0 ++
  g.kinit.flatMap (fun k => leBytes 4 k.toNat) ++
  (upFrom 0 16).flatMap (fun i => leBytes 4 ((g.words[i]?).getD 0).toNat) ++ leBytes 24 0

/-- Registers of a program: their bits, and then a poison bit each (R292). -/
def pregBytes (l : List PReg) (n : Nat) : List Byte :=
  (l.flatMap fun r => leBytes 4 r.bits.toNat) ++ flagBytes n (l.map (·.poison))

/-- A port instance: its bound record, k0 to k7, the three values of each LAG's history, newest first, and the chain
number (R294, R295, R412; log 70). -/
def instPieces : Option PortInst → List Piece
  | none => [.bytes (leBytes 512 0)]
  | some i =>
    let hist := (upFrom 1 16).flatMap fun p =>
      let h := cget [] i.hist p
      (upFrom 0 3).map fun d => (h[d]?).getD {}
    [.bytes (programBytes i.prog ++ pregBytes ((upFrom 0 8).map fun n => (i.ks[n]?).getD {}) 1 ++ pregBytes hist 6 ++
       leBytes 4 i.chain), .gap 149]

/-- The state sections from 0x200 to 0xFFFF, with their offsets. -/
def CoreSt.stateSections (c : CoreSt) (epoch : BitVec 23) (pending : Bool) : List (Nat × List Piece) :=
  let words (n : Nat) (f : Nat → Word) : List Piece := [.bytes ((upFrom 0 n).flatMap fun i => leBytes 8 (f i).toNat)]
  let r := c.regs
  let lvec (v : LVec) : List Byte :=
    leBytes 4 v.k.toNat ++ leBytes 4 v.l.toNat ++ leBytes 4 v.c.toNat ++ leBytes 4 v.s.toNat
  [(0x200, words 64 fun i => cget 0 r.x i),
   (0x400, words 32 (fun i => cget 0 r.al i) ++ words 32 fun i => cget 0 r.as_ i),
   (0x600, (upFrom 0 16).flatMap (fun i => mapPieces (cget {} r.ml i)) ++
      (upFrom 0 16).flatMap fun i => mapPieces (cget {} r.ms i)),
   (0xA00, [.bytes ([r.k, r.l, r.c, r.s].flatMap fun q => leBytes 4 q.preds.toNat)]),
   (0xC00, [.bytes ((upFrom 0 256).flatMap fun i => leBytes 2 (cget {} c.couple.sems i).val.toNat)]),
   (0xE00, (upFrom 0 12).flatMap fun i => fifoPieces (cget [] c.couple.fifos i)),
   (0x1100, [.bytes (leBytes 8 r.sp.xvtab.toNat ++ leBytes 8 r.sp.xvpool.toNat ++ leBytes 8 r.sp.hvec.toNat)] ++
      words 8 (fun i => cget 0 c.stores.stats i) ++
      [.bytes (allUnits.flatMap fun u => leBytes 4 (c.rngOf u).toNat)] ++ arrivalPieces c.arrival ++ [.gap 124]),
   (0x1200, [Seq.l, .c, .s].flatMap c.wheelPieces ++ [.gap 64]),
   (0x1300, queuePieces 16 c.units.mat ++ queuePieces 8 c.units.red ++ queuePieces 8 c.units.pass ++
      queuePieces 8 c.units.copy),
   (0x1D00, [Port.ma, .md, .ri, .ro, .pi, .po, .ci, .co].flatMap fun p => instPieces (c.instAt p)),
   (0x2D00, [.bytes ((upFrom 0 464).flatMap (fun i => leBytes 3 (cget 0 c.frontier i).toNat) ++
      [r.k, r.l, r.c, r.s].flatMap fun q => lvec q.lvec), .bytes (leBytes 3 epoch.toNat ++ leBytes 1 pending.toNat), .gap 332]),
   (0x3400, [.bytes ((upFrom 0 12288).flatMap fun g =>
      let t := cget {} c.stores.spStamp g
      leBytes 4 (t.agent ++ t.epoch).toNat)]),
   (0xF400, [.bytes ((chunksOf 4 (upFrom 0 12288)).flatMap fun gs =>
      leBytes 1 (packBits (gs.map fun g => (2, (cget {} c.stores.spStamp g).tag.toNat))))])]

/-- The accumulator section: 2,048 lines, then their poison (R414). -/
def CoreSt.accSections (c : CoreSt) : List (Nat × List Piece) :=
  [(0x10000, [.bytes ((upFrom 0 131072).flatMap fun i => leBytes 4 (cget 0 c.stores.acc i).toNat)]),
   (0x90000, [.bytes ((upFrom 0 2048).flatMap fun l =>
      flagBytes 8 ((upFrom (64 * l) 64).map fun i => cget false c.stores.accPoison i))])]

/-- The scratchpad section: its bytes, then its poison. -/
def CoreSt.padSections (c : CoreSt) : List (Nat × List Piece) :=
  [(0x94000, [.bytes ((upFrom 0 0x180000).map fun i => cget 0 c.stores.sp i)]),
   (0x214000, [.bytes ((upFrom 0 24576).flatMap fun b =>
      flagBytes 1 ((upFrom (8 * b) 8).map fun i => cget false c.stores.spPoison i))])]

/-! ## The variable part (R413) -/

/-- A latched tile, packed, with one scale for each block of an MX format. -/
def tilePieces (t : Option (Ty × List TileElem)) : List Piece :=
  match t with
  | none => [.bytes (leBytes 8 0)]
  | some (ty, vs) =>
    let n := (vs.length * ty.bits + 7) / 8
    let scales := if ty.isMx then (chunksOf 32 vs).map fun b => (b.headD default).scale else []
    [.bytes (leBytes 8 (ty.code.toNat + 256 * (n + scales.length)) ++
      leBytes n (packBits (vs.map fun v => (ty.bits, v.bits.toNat))) ++ scales)]

def tileOf (t : Tile) : Ty × List TileElem := (t.fmt, t.vals)

/-- The staging half that a cut MLW holds: its elements so far; or a loaded tile that waits to be taken. -/
def CoreSt.staging (c : CoreSt) : Option (Ty × List TileElem) :=
  match c.units.mat with
  | { inst := .mlw _ _ ty _ _, staged := v :: r, .. } :: _ => some (ty, (v :: r).reverse)
  | _ => (c.stores.w0.pending.or c.stores.w1.pending).map tileOf

/-- A queue: its occupancy word, its bytes, and a descriptor for each element. -/
def queueImage (q : Queue) : List Piece :=
  let skew := q.head.toNat % 8
  let n := (skew + q.used + 7) / 8
  .bytes (leBytes 2 (q.head.toNat / 8) ++ leBytes 2 n ++ leBytes 4 q.elems.length ++
    leBytes n (packBits ((skew, 0) :: q.elems.map fun e => (e.ty.bits, e.bits.toNat)))) ::
  q.elems.flatMap fun e =>
    [.bytes (leBytes 1 (e.ty.code.toNat + 32 * e.poison.toNat + 64 * e.last.toNat)), .gap 1, .bytes (idxBytes e.idx),
     .gap 4]

/-- The commands of the load or the store unit. -/
def unitPieces (l : List Cmd) : List Piece := .bytes (leBytes 4 l.length ++ leBytes 4 0) :: l.flatMap cmdPieces

/-- The macro operation in execution and what it holds between its steps. -/
def CoreSt.macroPieces (c : CoreSt) : List Piece :=
  let head (kind : Nat) (x : Cmd) : List Byte :=
    leBytes 4 kind ++ leBytes 4 x.cursor ++ leBytes 8 0 ++ (encode x.inst).flatMap fun w => leBytes 8 w.toNat
  match c.units.mac with
  | [] => [.bytes (leBytes 16 0)]
  | x :: _ =>
    let m := x.mac
    match x.inst with
    | .attn .. => [.bytes (head 1 x ++ m.block ++ leBytes 8 m.ck ++ leBytes 8 m.cv ++
        m.rows.flatMap fun r => leBytes 4 r.m.bits.toNat ++ leBytes 4 r.l.bits.toNat ++ leBytes 4 r.c.bits.toNat)]
    | .attnm .. => [.bytes (head 2 x ++ m.block ++
        m.rows.flatMap fun r => leBytes 4 r.m.bits.toNat ++ leBytes 4 r.l.bits.toNat)]
    | _ => [.bytes (head 3 x ++ m.piv.flatMap fun p => leBytes 1 p)]

/-- Latches, queues, unit commands and macro state; each section begins where the one before it ends. -/
def CoreSt.variableSections (c : CoreSt) : List (List Piece) :=
  [tilePieces (c.stores.w0.cur.map tileOf) ++ tilePieces (c.stores.w1.cur.map tileOf) ++ tilePieces c.staging,
   (upFrom 0 16).flatMap fun i => queueImage (c.queue i),
   unitPieces c.units.load ++ unitPieces c.units.store,
   c.macroPieces]

def Piece.size : Piece → Nat
  | .bytes l => l.length
  | .gap n => n

/-- The variable sections with their offsets. -/
def placeSections : Nat → List (List Piece) → List (Nat × List Piece)
  | _, [] => []
  | o, x :: r => (o, x) :: placeSections (o + (x.map Piece.size).sum) r

/-! ## The image (R411) -/

/-- The frame of the stop: cause 0x17 (R395, R412). -/
def CoreSt.stopFrame (c : CoreSt) : List Byte := c.frame { cause := 0x17 } false false

/-- All of an image, in the order in which it is written: accumulators, state, the variable part, the scratchpad. -/
def CoreSt.imageSections (c : CoreSt) (epoch : BitVec 23) (pending : Bool) : List (Nat × List Piece) :=
  c.accSections ++ (0, [.bytes c.stopFrame]) :: c.stateSections epoch pending ++ placeSections 0x21A000 c.variableSections ++
    c.padSections

/-- Bytes of an image slot (R360). -/
def slotBytes : Nat := 2 ^ 24

/-- A core's image comes to stand in a slot of its job's image area, through the area's capability and so under the
job's key slot (R360, R374, R411). -/
def State.saveImage (s : State) (job slot : Nat) (c : CoreSt) (epoch : BitVec 23) (pending : Bool) : State :=
  match s.job? job with
  | none => s
  | some j =>
    let n := s.fresh
    (c.imageSections epoch pending).foldl
      (fun s x => s.capWrite job j.imageCap (slotBytes * slot + x.1) (render n x.1 x.2))
      { s with fresh := n + slotBytes }

end Sys2Proof.Machine
end

