-- ==== Sys2Proof/Machine/Preempt.lean ====
section
/-! DEFINITION. Machine/Preempt: the stop of a pre-empted task, its context image and its resumption (R410 to
R416). -/

namespace Sys2Proof.Machine

/-! ## The stop (R410) -/

/-- A wheel of the core still drains (R288). -/
def CoreSt.draining (c : CoreSt) : Bool :=
  [Seq.l, .c, .s].any fun q => (c.seq q).wheel.active && (c.seq q).wheel.drain.isSome

/-- The request reaches the core: every active wheel drains, everything else stops (R288, R410). -/
def CoreSt.stopFor (c : CoreSt) (now : Nat) : CoreSt :=
  let c : CoreSt := { c with preempt := .stopped, preemptAt := now }
  [Seq.l, .c, .s].foldl (fun c q =>
    if (c.seq q).wheel.active then c.setSeq q (c.seq q).drainWheel else c) c

/-- R410: due unless a handler runs. While an overflow's trap is still to be raised as the cycle ends, which comes first
(R398), the request waits; it lapses where that trap ends the task. -/
def execPreemptionRequest (core : Fin 448) (s : State) : Result :=
  event s (
    let c := s.core core.val
    if c.preempt != .requested || c.task.isNone || c.handler || c.cut.isSome then none
    else if (s.lowestOverflow core.val).isSome then some (s.due (.preemptionRequest core))
    else some ((s.modCore core.val (·.stopFor s.cycle)).due (.contextSave core)))

/-- Cycles that a drain may take (R410). -/
def drainCycles : Nat := 65536

/-- R410: the wheels that still drain stop at their next slot, and keep their slot-level state (R403). -/
def execDrainTimeout (core : Fin 448) (s : State) : Result :=
  event s (
    let c := s.core core.val
    if c.preempt != .stopped || c.handler || !c.draining || s.cycle < c.preemptAt + drainCycles then none
    else some ((s.setCore core.val { c with preempt := .timedOut }).due (.contextSave core)))

/-! ## The image (R411 to R414) -/

/-- Every unit stands at a boundary: no finished command waits to retire. -/
def CoreSt.atBoundary (c : CoreSt) : Bool :=
  allUnits.all fun u => match c.unit u with | [] => true | x :: _ => !x.done

/-- The core can be saved: not while a handler runs that a trap of a draining wheel has entered (R405, R410). -/
def CoreSt.saveable (c : CoreSt) : Bool :=
  (c.preempt == .timedOut || (c.preempt == .stopped && !c.draining)) && !c.handler && c.frozen == 0 && c.atBoundary

/-- R411: the task's image goes into the lowest free slot, and the core becomes free. -/
def execContextSave (core : Fin 448) (s : State) : Result :=
  event s (
    let c := s.core core.val
    match c.task with
    | none => none
    | some t =>
      match s.job? t.job, s.launch? t.job t.launch with
      | some j, some l =>
        match j.freeSlots with
        | [] => none
        | slot :: _ =>
          if !c.saveable then none
          else
            let i : Image := {
              slot := slot, core := core.val, epoch := s.epoch t.job core.val, pending := s.pending t.job core.val
              saved := (c.halt none).dropRegions }
            let s := s.saveImage t.job slot i.saved i.epoch i.pending
            let s := (s.charge core.val).modCore core.val CoreSt.vacate
            let s := s.modLaunch t.job t.launch fun l => { l with images := l.images ++ [i] }
            let d := dieOf core.val
            let x := cget {} s.disp d
            let s := { s with disp := cset {} s.disp d { x with assigned := cerase x.assigned core.val } }
            let s := if l.cores then s.freeIdle t.job t.launch else s
            some ((l.dieSet.foldl (fun s d => s.offerIdle d t.job t.launch) s).recheck)
      | _, _ => none)

/-! ## Resumption (R415) -/

/-- R415, R416: an idle core that may take a pre-empted task of its launch resumes it. -/
def execTaskResume (core : Fin 448) (s : State) : Result :=
  event s (
    match s.idleFor core.val with
    | none => none
    | some (a, l) =>
      match l.pick core.val a.stage Image.stage ((l.savedFor core.val).filter fun i => s.mayServe a l i.stage) with
      | none => none
      | some i =>
        s.resumeTask core a i)

end Sys2Proof.Machine
end

