-- ==== Sys2Proof/Machine/Dispatch.lean ====
section
/-! DEFINITION. Machine/Dispatch: the meaning of each operation of the opcode table, one arm per constructor. -/

namespace Sys2Proof.Machine

def exec (i : Instr) (s : State) : Host.Outcome State Fault Refusal :=
  match i with
  | .powerGood => Sys2Proof.Machine.execPowerGood s
  | .pushWindowWrite t off data => Sys2Proof.Machine.execPushWindowWrite t off data s
  | .bootctlGo t value => Sys2Proof.Machine.execBootctlGo t value s
  | .firmwareCheckEnd => Sys2Proof.Machine.execFirmwareCheckEnd s
  | .bringupRegisterWrite t off data => Sys2Proof.Machine.execBringupRegisterWrite t off data s
  | .dieMemoryJoin die => Sys2Proof.Machine.execDieMemoryJoin die s
  | .portUp => Sys2Proof.Machine.execPortUp s
  | .remoteWrite t va data => Sys2Proof.Machine.execRemoteWrite t va data s
  | .oiWrite t va data => Sys2Proof.Machine.execOiWrite t va data s
  | .oiWriteVisible n => Sys2Proof.Machine.execOiWriteVisible n s
  | .remoteRead t va len => Sys2Proof.Machine.execRemoteRead t va len s
  | .transportAtomic t va op w4 operand fetch => Sys2Proof.Machine.execTransportAtomic t va op w4 operand fetch s
  | .send t msg => Sys2Proof.Machine.execSend t msg s
  | .attest r => Sys2Proof.Machine.execAttest r s
  | .keyload r => Sys2Proof.Machine.execKeyload r s
  | .keyclear r => Sys2Proof.Machine.execKeyclear r s
  | .jobnew r => Sys2Proof.Machine.execJobnew r s
  | .jobend r => Sys2Proof.Machine.execJobend r s
  | .jobendDone job => Sys2Proof.Machine.execJobendDone job s
  | .ptset r => Sys2Proof.Machine.execPtset r s
  | .pageTableChangeComplete => Sys2Proof.Machine.execPageTableChangeComplete s
  | .qset r => Sys2Proof.Machine.execQset r s
  | .peerset r => Sys2Proof.Machine.execPeerset r s
  | .kreg r => Sys2Proof.Machine.execKreg r s
  | .swclear r => Sys2Proof.Machine.execSwclear r s
  | .mgrant r => Sys2Proof.Machine.execMgrant r s
  | .telem r => Sys2Proof.Machine.execTelem r s
  | .powerLimitTick power temps => Sys2Proof.Machine.execPowerLimitTick power temps s
  | .thermalStop die => Sys2Proof.Machine.execThermalStop die s
  | .patrolScrub loc uncorrectable => Sys2Proof.Machine.execPatrolScrub loc uncorrectable s
  | .memoryRetraining die channel => Sys2Proof.Machine.execMemoryRetraining die channel s
  | .freezeEnd core => Sys2Proof.Machine.execFreezeEnd core s
  | .queuePollTick => Sys2Proof.Machine.execQueuePollTick s
  | .packetReread queue => Sys2Proof.Machine.execPacketReread queue s
  | .nopPacket queue => Sys2Proof.Machine.execNopPacket queue s
  | .launchPacket queue => Sys2Proof.Machine.execLaunchPacket queue s
  | .graphPacket queue => Sys2Proof.Machine.execGraphPacket queue s
  | .transformPacket queue => Sys2Proof.Machine.execTransformPacket queue s
  | .waitcnt queue => Sys2Proof.Machine.execWaitcnt queue s
  | .signalPacket queue => Sys2Proof.Machine.execSignalPacket queue s
  | .fencePacket queue => Sys2Proof.Machine.execFencePacket queue s
  | .packetComplete queue seq => Sys2Proof.Machine.execPacketComplete queue seq s
  | .launchStart job launch => Sys2Proof.Machine.execLaunchStart job launch s
  | .initialEntryFill job launch => Sys2Proof.Machine.execInitialEntryFill job launch s
  | .grantPass die => Sys2Proof.Machine.execGrantPass die s
  | .redivisionStep die => Sys2Proof.Machine.execRedivisionStep die s
  | .taskStart core => Sys2Proof.Machine.execTaskStart core s
  | .continuationStart core => Sys2Proof.Machine.execContinuationStart core s
  | .taskEnd core => Sys2Proof.Machine.execTaskEnd core s
  | .launchComplete job launch => Sys2Proof.Machine.execLaunchComplete job launch s
  | .nodeComplete job phase graph node => Sys2Proof.Machine.execNodeComplete job phase graph node s
  | .transformEngineStart die => Sys2Proof.Machine.execTransformEngineStart die s
  | .transformComplete die engine => Sys2Proof.Machine.execTransformComplete die engine s
  | .phaseBoundary job => Sys2Proof.Machine.execPhaseBoundary job s
  | .probeWalk job launch queue => Sys2Proof.Machine.execProbeWalk job launch queue s
  | .preemptionRequest core => Sys2Proof.Machine.execPreemptionRequest core s
  | .drainTimeout core => Sys2Proof.Machine.execDrainTimeout core s
  | .contextSave core => Sys2Proof.Machine.execContextSave core s
  | .taskResume core => Sys2Proof.Machine.execTaskResume core s
  | .watchdog core => Sys2Proof.Machine.execWatchdog core s
  | .commandRetire core unit => Sys2Proof.Machine.execCommandRetire core unit s
  | .latchTake core w => Sys2Proof.Machine.execLatchTake core w s
  | .coilBlockRelease n => Sys2Proof.Machine.execCoilBlockRelease n s
  | .claim queue => Sys2Proof.Machine.execClaim queue s
  | .speculativeDiscard spec reason => Sys2Proof.Machine.execSpeculativeDiscard spec reason s
  | .predictionTimeout spec => Sys2Proof.Machine.execPredictionTimeout spec s
  | .nop h => Sys2Proof.Machine.execNop h s
  | .br h off => Sys2Proof.Machine.execBr h off s
  | .jmp h off => Sys2Proof.Machine.execJmp h off s
  | .endStream h => Sys2Proof.Machine.execEndStream h s
  | .tok h => Sys2Proof.Machine.execTok h s
  | .pushv h target src => Sys2Proof.Machine.execPushv h target src s
  | .popv h dst source => Sys2Proof.Machine.execPopv h dst source s
  | .swait h sem thresh => Sys2Proof.Machine.execSwait h sem thresh s
  | .swaitReg h sem reg => Sys2Proof.Machine.execSwaitReg h sem reg s
  | .ssig h sem inc => Sys2Proof.Machine.execSsig h sem inc s
  | .sset h sem value => Sys2Proof.Machine.execSset h sem value s
  | .ssetReg h sem reg => Sys2Proof.Machine.execSsetReg h sem reg s
  | .fence h kind scope => Sys2Proof.Machine.execFence h kind scope s
  | .mfs h dst reg => Sys2Proof.Machine.execMfs h dst reg s
  | .mts h reg src => Sys2Proof.Machine.execMts h reg src s
  | .brk h code => Sys2Proof.Machine.execBrk h code s
  | .wheel h bodyM1 iiM1 stagesM1 trip rots => Sys2Proof.Machine.execWheel h bodyM1 iiM1 stagesM1 trip rots s
  | .add h d b c => Sys2Proof.Machine.execAdd h d b c s
  | .sub h d b c => Sys2Proof.Machine.execSub h d b c s
  | .mul h d b c => Sys2Proof.Machine.execMul h d b c s
  | .mulh h d b c => Sys2Proof.Machine.execMulh h d b c s
  | .mulhn h d b c => Sys2Proof.Machine.execMulhn h d b c s
  | .div h d b c => Sys2Proof.Machine.execDiv h d b c s
  | .divn h d b c => Sys2Proof.Machine.execDivn h d b c s
  | .rem h d b c => Sys2Proof.Machine.execRem h d b c s
  | .remn h d b c => Sys2Proof.Machine.execRemn h d b c s
  | .and h d b c => Sys2Proof.Machine.execAnd h d b c s
  | .or h d b c => Sys2Proof.Machine.execOr h d b c s
  | .xor h d b c => Sys2Proof.Machine.execXor h d b c s
  | .andn h d b c => Sys2Proof.Machine.execAndn h d b c s
  | .orn h d b c => Sys2Proof.Machine.execOrn h d b c s
  | .shl h d b c => Sys2Proof.Machine.execShl h d b c s
  | .shr h d b c => Sys2Proof.Machine.execShr h d b c s
  | .sar h d b c => Sys2Proof.Machine.execSar h d b c s
  | .rol h d b c => Sys2Proof.Machine.execRol h d b c s
  | .min h d b c => Sys2Proof.Machine.execMin h d b c s
  | .max h d b c => Sys2Proof.Machine.execMax h d b c s
  | .minn h d b c => Sys2Proof.Machine.execMinn h d b c s
  | .maxn h d b c => Sys2Proof.Machine.execMaxn h d b c s
  | .addi h d b imm => Sys2Proof.Machine.execAddi h d b imm s
  | .andi h d b imm => Sys2Proof.Machine.execAndi h d b imm s
  | .ori h d b imm => Sys2Proof.Machine.execOri h d b imm s
  | .xori h d b imm => Sys2Proof.Machine.execXori h d b imm s
  | .shli h d b sh => Sys2Proof.Machine.execShli h d b sh s
  | .shri h d b sh => Sys2Proof.Machine.execShri h d b sh s
  | .sari h d b sh => Sys2Proof.Machine.execSari h d b sh s
  | .li h d imm => Sys2Proof.Machine.execLi h d imm s
  | .lih h d imm => Sys2Proof.Machine.execLih h d imm s
  | .clz h d b => Sys2Proof.Machine.execClz h d b s
  | .ctz h d b => Sys2Proof.Machine.execCtz h d b s
  | .popc h d b => Sys2Proof.Machine.execPopc h d b s
  | .brev h d b => Sys2Proof.Machine.execBrev h d b s
  | .bswap h d b => Sys2Proof.Machine.execBswap h d b s
  | .ext h d b lo widthM1 => Sys2Proof.Machine.execExt h d b lo widthM1 s
  | .ins h d b lo widthM1 => Sys2Proof.Machine.execIns h d b lo widthM1 s
  | .cmp h cond pd b c => Sys2Proof.Machine.execCmp h cond pd b c s
  | .cmpi h cond pd b imm => Sys2Proof.Machine.execCmpi h cond pd b imm s
  | .sel h d b c pn => Sys2Proof.Machine.execSel h d b c pn s
  | .pand h pd pa pb => Sys2Proof.Machine.execPand h pd pa pb s
  | .por h pd pa pb => Sys2Proof.Machine.execPor h pd pa pb s
  | .pxor h pd pa pb => Sys2Proof.Machine.execPxor h pd pa pb s
  | .pandn h pd pa pb => Sys2Proof.Machine.execPandn h pd pa pb s
  | .pnot h pd pa => Sys2Proof.Machine.execPnot h pd pa s
  | .pmov h pd pa => Sys2Proof.Machine.execPmov h pd pa s
  | .call h d off => Sys2Proof.Machine.execCall h d off s
  | .callr h d b => Sys2Proof.Machine.execCallr h d b s
  | .ret h b => Sys2Proof.Machine.execRet h b s
  | .jmpr h b => Sys2Proof.Machine.execJmpr h b s
  | .ld h acq w d b disp => Sys2Proof.Machine.execLd h acq w d b disp s
  | .st h rel w src b disp => Sys2Proof.Machine.execSt h rel w src b disp s
  | .stCoil h w src b c off => Sys2Proof.Machine.execStCoil h w src b c off s
  | .ldm h acq zext f b cntM1 disp => Sys2Proof.Machine.execLdm h acq zext f b cntM1 disp s
  | .stm h rel zext f b cntM1 disp => Sys2Proof.Machine.execStm h rel zext f b cntM1 disp s
  | .trap h code => Sys2Proof.Machine.execTrap h code s
  | .hset h b classes => Sys2Proof.Machine.execHset h b classes s
  | .resume h => Sys2Proof.Machine.execResume h s
  | .sysc h d b service => Sys2Proof.Machine.execSysc h d b service s
  | .amo h op ord w4 d b c => Sys2Proof.Machine.execAmo h op ord w4 d b c s
  | .amoc h ord w4 a b c => Sys2Proof.Machine.execAmoc h ord w4 a b c s
  | .amred h op rel w4 b c => Sys2Proof.Machine.execAmred h op rel w4 b c s
  | .avec h isAdd bits rel cntM1 b c => Sys2Proof.Machine.execAvec h isAdd bits rel cntM1 b c s
  | .waita h cond w4 a b c => Sys2Proof.Machine.execWaita h cond w4 a b c s
  | .siga h b => Sys2Proof.Machine.execSiga h b s
  | .bari h b c => Sys2Proof.Machine.execBari h b c s
  | .bara h b => Sys2Proof.Machine.execBara h b s
  | .bard h b => Sys2Proof.Machine.execBard h b s
  | .barw h b c => Sys2Proof.Machine.execBarw h b c s
  | .afence h b c => Sys2Proof.Machine.execAfence h b c s
  | .cnew h d size => Sys2Proof.Machine.execCnew h d size s
  | .cres h d b c => Sys2Proof.Machine.execCres h d b c s
  | .caddr h d b c => Sys2Proof.Machine.execCaddr h d b c s
  | .ccommit h a b c => Sys2Proof.Machine.execCcommit h a b c s
  | .clen h d b => Sys2Proof.Machine.execClen h d b s
  | .cfork h d b c => Sys2Proof.Machine.execCfork h d b c s
  | .cdrop h b => Sys2Proof.Machine.execCdrop h b s
  | .cinfo h d b word => Sys2Proof.Machine.execCinfo h d b word s
  | .sqpush h b c queue => Sys2Proof.Machine.execSqpush h b c queue s
  | .yield h => Sys2Proof.Machine.execYield h s
  | .launch h b c => Sys2Proof.Machine.execLaunch h b c s
  | .cancel h b level => Sys2Proof.Machine.execCancel h b level s
  | .ccnt h d b level => Sys2Proof.Machine.execCcnt h d b level s
  | .plan h a b c => Sys2Proof.Machine.execPlan h a b c s
  | .phint h b policy => Sys2Proof.Machine.execPhint h b policy s
  | .aadd h d b c => Sys2Proof.Machine.execAadd h d b c s
  | .asub h d b c => Sys2Proof.Machine.execAsub h d b c s
  | .amul h d b c => Sys2Proof.Machine.execAmul h d b c s
  | .amadd h d b c => Sys2Proof.Machine.execAmadd h d b c s
  | .amov h d b => Sys2Proof.Machine.execAmov h d b s
  | .aaddi h d b imm => Sys2Proof.Machine.execAaddi h d b imm s
  | .ashli h d b sh => Sys2Proof.Machine.execAshli h d b sh s
  | .ali h d imm => Sys2Proof.Machine.execAli h d imm s
  | .alih h d imm => Sys2Proof.Machine.execAlih h d imm s
  | .acmp h cond pd b c => Sys2Proof.Machine.execAcmp h cond pd b c s
  | .acmpi h cond pd b imm => Sys2Proof.Machine.execAcmpi h cond pd b imm s
  | .lda h w d b disp => Sys2Proof.Machine.execLda h w d b disp s
  | .sta h w src b disp => Sys2Proof.Machine.execSta h w src b disp s
  | .mapset h m payload => Sys2Proof.Machine.execMapset h m payload s
  | .mapofs h m b => Sys2Proof.Machine.execMapofs h m b s
  | .tld h f ty dst m c disp o => Sys2Proof.Machine.execTld h f ty dst m c disp o s
  | .tst h f ty o m c disp sh => Sys2Proof.Machine.execTst h f ty o m c disp sh s
  | .tstCoil h f ty o m c slot sh => Sys2Proof.Machine.execTstCoil h f ty o m c slot sh s
  | .tcpy h f ty d m c ci co half => Sys2Proof.Machine.execTcpy h f ty d m c ci co half s
  | .tgth h f ty q m c disp lvl idx => Sys2Proof.Machine.execTgth h f ty q m c disp lvl idx s
  | .tsct h f ty o m c disp lvl idx => Sys2Proof.Machine.execTsct h f ty o m c disp lvl idx s
  | .tzero h f ty m c disp => Sys2Proof.Machine.execTzero h f ty m c disp s
  | .tprf h ty m c disp => Sys2Proof.Machine.execTprf h ty m c disp s
  | .rcpyWr h f r m c log2 => Sys2Proof.Machine.execRcpyWr h f r m c log2 s
  | .rcpyRd h f r m c log2 => Sys2Proof.Machine.execRcpyRd h f r m c log2 s
  | .rsig h b c => Sys2Proof.Machine.execRsig h b c s
  | .caddrLs h d b c => Sys2Proof.Machine.execCaddrLs h d b c s
  | .mlw h f ty w q => Sys2Proof.Machine.execMlw h f ty w q s
  | .mma h f ty ow w q slot z => Sys2Proof.Machine.execMma h f ty ow w q slot z s
  | .mmac h f ty ow w slot z src => Sys2Proof.Machine.execMmac h f ty ow w slot z src s
  | .mzero h f ty z => Sys2Proof.Machine.execMzero h f ty z s
  | .mdrain h f ty o slot z lines => Sys2Proof.Machine.execMdrain h f ty o slot z lines s
  | .mdrainx h f ty mem slot z peer => Sys2Proof.Machine.execMdrainx h f ty mem slot z peer s
  | .mfact h f ty z piv => Sys2Proof.Machine.execMfact h f ty z piv s
  | .mstat h code => Sys2Proof.Machine.execMstat h code s
  | .tred h f ty o q ri ro op levels => Sys2Proof.Machine.execTred h f ty o q ri ro op levels s
  | .tpass h f ty o q pi po => Sys2Proof.Machine.execTpass h f ty o q pi po s
  | .attn h f blk => Sys2Proof.Machine.execAttn h f blk s
  | .attnm h f blk => Sys2Proof.Machine.execAttnm h f blk s
  | .pbind h slot rec => Sys2Proof.Machine.execPbind h slot rec s
  | .pbindTable h table rec => Sys2Proof.Machine.execPbindTable h table rec s
  | .pstate h port k => Sys2Proof.Machine.execPstate h port k s
  | .fadd d a b => Sys2Proof.Machine.execFadd d a b s
  | .fsub d a b => Sys2Proof.Machine.execFsub d a b s
  | .fmul d a b => Sys2Proof.Machine.execFmul d a b s
  | .ffma d a b c => Sys2Proof.Machine.execFfma d a b c s
  | .fmax d a b => Sys2Proof.Machine.execFmax d a b s
  | .fmin d a b => Sys2Proof.Machine.execFmin d a b s
  | .fabs d a => Sys2Proof.Machine.execFabs d a s
  | .fneg d a => Sys2Proof.Machine.execFneg d a s
  | .fcmp d a b cond => Sys2Proof.Machine.execFcmp d a b cond s
  | .fsel d a b c => Sys2Proof.Machine.execFsel d a b c s
  | .frcp d a => Sys2Proof.Machine.execFrcp d a s
  | .frsq d a => Sys2Proof.Machine.execFrsq d a s
  | .fexp2 d a => Sys2Proof.Machine.execFexp2 d a s
  | .flog2 d a => Sys2Proof.Machine.execFlog2 d a s
  | .fcvt d a t r => Sys2Proof.Machine.execFcvt d a t r s
  | .tbl d a t => Sys2Proof.Machine.execTbl d a t s
  | .iadd d a b => Sys2Proof.Machine.execIadd d a b s
  | .isub d a b => Sys2Proof.Machine.execIsub d a b s
  | .imul d a b => Sys2Proof.Machine.execImul d a b s
  | .iand d a b => Sys2Proof.Machine.execIand d a b s
  | .ior d a b => Sys2Proof.Machine.execIor d a b s
  | .ixor d a b => Sys2Proof.Machine.execIxor d a b s
  | .ishl d a b => Sys2Proof.Machine.execIshl d a b s
  | .ishr d a b => Sys2Proof.Machine.execIshr d a b s
  | .kld d a => Sys2Proof.Machine.execKld d a s
  | .kst d a => Sys2Proof.Machine.execKst d a s
  | .lag d a dist => Sys2Proof.Machine.execLag d a dist s
  | .emit a => Sys2Proof.Machine.execEmit a s
  | .emitLast a => Sys2Proof.Machine.execEmitLast a s
  | .tap a q => Sys2Proof.Machine.execTap a q s
  | .drop a => Sys2Proof.Machine.execDrop a s
  | .eflt a code => Sys2Proof.Machine.execEflt a code s
  | .efltFp mask => Sys2Proof.Machine.execEfltFp mask s

end Sys2Proof.Machine
end

