-- ==== Sys2Proof/Machine/Turn.lean ====
section
/-! DEFINITION. Machine/Turn: what a turn of the schedule is about (log 1): the instruction that a sequencer issues
next, the operation that a port runs next, the turn that follows when the schedule names none, and the placing of one
instruction where the next step fetches it. -/

namespace Sys2Proof.Machine

/-! ## A sequencer's turn -/

/-- The sequencer may issue (R46, R392, R405, R410, R417). -/
def CoreSt.mayIssue (c : CoreSt) (q : Seq) : Bool :=
  let x := c.seq q
  c.task.isSome && c.frozen == 0 && x.cond == .run && !x.specPark &&
  (if c.handler then q == .k
    else match c.preempt with
      | .none => true
      | .requested => !(c.yielded && q == .k)
      | .stopped => x.wheel.active && x.wheel.drain.isSome
      | .timedOut => false)

/-- What a sequencer's turn does. -/
inductive Turn where
  | rest                                   -- nothing
  | move (s : State)                       -- no instruction issues: a squashed slot, a wheel that goes on
  | run (i : Instr) (s : State)            -- an instruction, from the state that its fetch left
  | stop (s : State) (e : Stop)            -- its fetch or its decoding stopped

/-- The step of a wheel may not start yet (R287). -/
def Wheel.early (w : Wheel) (now : Nat) : Bool := w.pos == 0 && w.step != w.i0 && decide (now < w.stepStart + w.ii)

/-- The slot of a wheel (R287). -/
def wheelTurn (core : Fin 448) (q : Seq) (x : SeqSt) (s : State) : Turn :=
  let w := x.wheel
  if w.early s.cycle then .rest
  else
    match w.iter with
    | none => .move (s.modCore core.val fun c => c.setSeq q (x.nextSlot s.cycle))
    | some n =>
      match w.body[w.pos]? with
      | none => .rest
      | some b =>
        match rotated q w.rots w.pos n b.2 with
        | .ok i => .run i s
        | .error e => .stop s (.trap { cause := e.cause })

/-- The turn of a sequencer that may issue; s.cur names it. -/
def seqTurn (core : Fin 448) (q : Seq) (s : State) : Turn :=
  let x := (s.core core.val).seq q
  if x.wheel.active then wheelTurn core q x s
  else if x.wheel.drained then .move (s.modCore core.val fun c => c.setSeq q x.startWheel)
  else
    match (fetchInstr x.pc).run s with
    | .ok (i, s1) => .run i s1
    | .error e => .stop s e

/-- A core that cannot issue: what it waits for is due. -/
def State.nudge (s : State) (core : Fin 448) : State :=
  let c := s.core core.val
  if c.frozen != 0 then s.due (.freezeEnd core)
  else match c.preempt with
    | .stopped => (s.due (.drainTimeout core)).due (.contextSave core)
    | .timedOut => s.due (.contextSave core)
    | .none | .requested => s

/-! ## A port's turn -/

/-- The operation that the pass in progress runs next, or the state without it (R293, R297, R406). -/
inductive PortTurn where
  | move (s : State)
  | run (i : Instr)

def portTurn (s : State) : PortTurn :=
  match s.ppass with
  | none => .move s
  | some p =>
    let on : State := { s with ppass := some { p with pos := p.pos + 1 } }
    match p.inst.prog.words[p.pos - 1]? with
    | none => .move { s with ppass := none }
    | some w =>
      match decodeElem w with
      | .error _ => .move on
      | .ok i => if p.inst.skip.contains (p.inst.count, p.pos) || !p.acts i then .move on else .run i

/-! ## Events -/

/-- The instructions that name an event, not an operation of a stream or of a port. -/
def isEvent : Instr → Bool
  | .powerGood | .pushWindowWrite .. | .bootctlGo .. | .firmwareCheckEnd | .bringupRegisterWrite ..
  | .dieMemoryJoin .. | .portUp | .remoteWrite .. | .oiWrite .. | .oiWriteVisible .. | .remoteRead ..
  | .transportAtomic .. | .send .. | .attest .. | .keyload .. | .keyclear .. | .jobnew .. | .jobend ..
  | .jobendDone .. | .ptset .. | .pageTableChangeComplete | .qset .. | .peerset .. | .kreg ..
  | .swclear .. | .mgrant .. | .telem .. | .powerLimitTick .. | .thermalStop .. | .patrolScrub ..
  | .memoryRetraining .. | .freezeEnd .. | .queuePollTick | .packetReread .. | .nopPacket ..
  | .launchPacket .. | .graphPacket .. | .transformPacket .. | .waitcnt .. | .signalPacket ..
  | .fencePacket .. | .packetComplete .. | .launchStart .. | .initialEntryFill .. | .grantPass ..
  | .redivisionStep .. | .taskStart .. | .continuationStart .. | .taskEnd .. | .launchComplete ..
  | .nodeComplete .. | .transformEngineStart .. | .transformComplete .. | .phaseBoundary ..
  | .probeWalk .. | .preemptionRequest .. | .drainTimeout .. | .contextSave .. | .taskResume ..
  | .watchdog .. | .commandRetire .. | .latchTake .. | .coilBlockRelease .. | .claim ..
  | .speculativeDiscard .. | .predictionTimeout .. => true
  | _ => false

/-- The dispatcher whose step is due, if any has a launch (R51). -/
def State.stepDue (s : State) : Option (Fin 8) :=
  (List.finRange 8).find? fun d =>
    let x := cget {} s.disp d.val
    !x.ring.isEmpty && decide (x.lastStep + stepCycles ≤ s.cycle)

/-- What moves when the schedule names nothing: power-good first; a pass in progress; a dispatcher's step; an event
that is due; else the sequencer that moved last. -/
def State.defaultAct (s : State) : Act :=
  if !s.boot.powered then .event .powerGood
  else if s.ppass.isSome then .port
  else match s.stepDue with
    | some d => .event (.redivisionStep d)
    | none => if s.todo.isEmpty then .seq s.cur.1 s.cur.2 else .todo

/-! ## Cycles -/

/-- The next cycle begins: what the last one's contributions amount to is settled first (R35). -/
def State.nextCycle (s : State) (n : Nat) : State := { s.endCycle.newCycle with cycle := s.cycle + n }

/-- Kiln, the dispatchers and whatever else is no core and no port come last in a cycle. -/
def lastRank : Nat × Nat × Nat := (kilnAgent, 0, 0)

/-- The place of an event in its cycle: its agent, the origin at a core, and the sequencer of its accesses from 1. -/
def eventRank (s : State) : Instr → Nat × Nat × Nat
  | .commandRetire core u => (core.val, unitOrigin u, 0)
  | .watchdog core => (core.val, 0, 0)   -- its trap arises at origin 0 (R398, R409)
  | .remoteWrite t .. | .oiWrite t .. | .remoteRead t .. | .transportAtomic t .. | .send t .. =>
    (portAgent t.port.val, 0, 0)
  | .oiWriteVisible n =>
    match s.held.find? fun h => h.id == n with
    | some h => (portAgent h.xfer.port.val, 0, 0)
    | none => lastRank
  | _ => lastRank

/-- The place of an act in its cycle; none for an act that no rule orders. -/
def actRank (s : State) : Act → Option (Nat × Nat × Nat)
  | .seq core q => some (core.val, q.idx, q.idx + 1)
  | .unit core u => some (core.val, unitOrigin u, match (s.core core.val).unit u with
    | x :: _ => x.seq.idx + 1
    | [] => 0)
  | .event e => some (eventRank s e)
  | .todo => s.todo.head?.map (eventRank s)
  | .xform .. => some lastRank
  | .port | .evict .. | .tick _ | .measure .. => none

/-- The acts of one cycle go in ascending agents (R153, R314); at one core in ascending origins (R398), and those
that access memory in ascending sequencers (R153, R203). -/
def inOrder (last r : Nat × Nat × Nat) : Bool :=
  decide (last.1 < r.1) ||
  (last.1 == r.1 && (decide (portAgent 0 ≤ r.1) ||
    (decide (last.2.1 < r.2.1) && (r.2.2 == 0 || decide (last.2.2 ≤ r.2.2)))))

/-- What the next act of the cycle is held to. -/
def joinRank (last : Option (Nat × Nat × Nat)) (r : Nat × Nat × Nat) : Nat × Nat × Nat :=
  match last with
  | some l => if l.1 = r.1 then (r.1, r.2.1, max l.2.2 r.2.2) else r
  | none => r

/-- An act that no other act of its cycle may precede: the end of a task, or the save of its image, comes after its last
cycle (R49, R411). -/
def endsTask (s : State) : Act → Bool
  | .event (.taskEnd _) | .event (.contextSave _) => true
  | .todo => match s.todo.head? with
    | some (.taskEnd _) | some (.contextSave _) => true
    | _ => false
  | _ => false

/-- Whether an act that the schedule puts into the cycle of the act before it may fall there (log 1). -/
def State.sameCycle (s : State) (x : Slot) : Bool :=
  x.same && !endsTask s x.act &&
  match s.lastAct, actRank s x.act with
  | some l, some r => inOrder l r
  | none, _ | _, none => true

/-- An act is the cycle's last so far. -/
def State.noteAct (s : State) (a : Act) : State :=
  match actRank s a with
  | some r => { s with lastAct := some (joinRank s.lastAct r) }
  | none => s

/-- The slot that a step takes, and the state from which it moves. -/
def State.take (s : State) : Act × State :=
  match s.sched with
  | [] => (s.defaultAct, (s.nextCycle 1).noteAct s.defaultAct)
  | x :: r =>
    let t : State := { s with sched := r }
    (x.act, (if s.sameCycle x then t else t.nextCycle 1).noteAct x.act)

/-! ## One instruction placed where the next step fetches it -/

/-- A pass of one operation at port PI, whose element is +0. -/
def onePass (w : BitVec 32) : Pass where
  port := .pi
  inst := { slot := 0, prog := { carry := 0, kinit := List.replicate 8 0, words := [w] }, tables := []
            ks := List.replicate 8 {} }
  es := List.replicate 8 {}
  elem := { ty := .f32, bits := 0 }

/-- Places of the page tables and of the text that a placed instruction gets. -/
def rootPa : Nat := 0x10000
def tablePa : Nat := 0x20000
def textPa : Nat := 0x40000000

/-- The entries that lead offset 0 of the placed job to its text: a table, and a leaf of 1 GiB that may be read,
written and executed. -/
def tableEntry : Nat := tablePa + 3
def leafEntry : Nat := textPa + 29

/-- A job number that is free. -/
def State.freeJob (s : State) : Nat := (s.jobs.map (·.1)).foldl Nat.max 0 + 1

def textJob : Job where
  ident := 0
  keySlot := 0
  root := rootPa
  poolLog2 := 16
  poolBase := 0
  framePa := 0x80000
  frameVa := 0x80000
  imagePa := 0
  imageSlots := 0

/-- A task of a job on a core, all of whose streams but one have ended. -/
def textTask (job : Nat) : Task where
  job := job
  phase := 0
  graph := 0
  launch := 0
  stage := 0
  entry := 0

/-- A core with such a task, whose sequencer q stands at address 0. -/
def CoreSt.loaded (c : CoreSt) (job : Nat) (q : Seq) : CoreSt :=
  let c : CoreSt := { c with
    task := some (textTask job), owner := some job, frozen := 0, handler := false, cut := none, preempt := .none }
  c.setSeq q { c.seq q with cond := .run, pc := 0, wheel := {}, specPark := false }

/-- Bytes as the text of a fresh job, which sequencer q of core 0 executes next (log 26). -/
def State.placeText (s : State) (q : Seq) (bytes : List Byte) : State :=
  let job := s.freeJob
  let s := if (s.keyOf 0).isNone then { s with keys := cput s.keys 0 0 } else s
  let s := s.setJob job textJob
  let s := s.devWrite 0 rootPa (leBytes 8 tableEntry) false
  let s := s.devWrite 0 tablePa (leBytes 8 leafEntry) false
  let s := s.devWrite 0 textPa bytes false
  let s := s.modCore 0 fun c => c.loaded job q
  { s with sched := ⟨true, .seq 0 q⟩ :: s.sched }

end Sys2Proof.Machine
end

