-- ==== Sys2Proof/Machine/Step.lean ====
section
/-! DEFINITION. Machine/Step: one step of the machine. -/

namespace Sys2Proof.Machine

/-- Run what a sequencer's turn found. -/
def runTurn (core : Fin 448) (s : State) : Turn → Host.Outcome State Fault Refusal
  | .rest => .next s
  | .move t => .next t
  | .run i t => exec i t
  | .stop t e => seqOutcome t (.error e)

/-- A sequencer moves. -/
def runSequencer (core : Fin 448) (q : Seq) (s : State) : Host.Outcome State Fault Refusal :=
  if (s.core core.val).mayIssue q then
    let t : State := { s with cur := (core, q) }
    runTurn core t (seqTurn core q t)
  else .next (s.nudge core)

/-- A port's program moves by one operation. -/
def runPort (s : State) : Host.Outcome State Fault Refusal :=
  match portTurn s with
  | .move t => .next t
  | .run i => exec i s

/-- An event moves; anything else is none. -/
def runEvent (e : Instr) (s : State) : Host.Outcome State Fault Refusal := if isEvent e then exec e s else .next s

/-- The first event that is due moves. -/
def runTodo (s : State) : Host.Outcome State Fault Refusal :=
  match s.todo with
  | [] => .next s
  | e :: r => runEvent e { s with todo := r }

/-- One act of the schedule. -/
def runAct (a : Act) (s : State) : Host.Outcome State Fault Refusal :=
  match a with
  | .seq core q => runSequencer core q s
  | .unit core u => if (s.core core.val).frozen = 0 then unitStep core u s else .next (s.nudge core)
  | .port => runPort s
  | .event e => runEvent e s
  | .todo => runTodo s
  | .evict core line => .next (s.modCore core.val (·.dropLine line))
  | .tick n => .next (s.nextCycle n)
  | .xform die engine => xformStep die engine s
  | .measure i d => .next (s.measure i d)

/-- One step: the schedule's next act, or the one that follows when it names none (log 1). -/
def step (s : State) : Host.Outcome State Fault Refusal := runAct s.take.1 s.take.2

/-- The state with one instruction placed where step fetches its next instruction (log 26): an element word as a
program of one operation; a single of K, or a double or quad of L, as the text of a task on core 0. -/
def State.withFetchWord (s : State) (nbits w : Nat) : State :=
  if nbits ≤ 32 then
    { s with ppass := some (onePass (BitVec.ofNat 32 w)), sched := ⟨true, .port⟩ :: s.sched }
  else s.placeText (if nbits ≤ 64 then .k else .l) (leBytes (if nbits ≤ 64 then 8 else 32) w)

end Sys2Proof.Machine
end

