-- ==== Sys2Proof/Safety.lean ====
section
/-! DEFINITION. Safety: what counts as a safe run, and the terms that the statements use: the moving core, what
an instruction needs in order to run to its end (R30, R32, R33, R133), and what the pops, the pushes and the advance
of an instruction leave. -/

namespace Sys2Proof

open Machine

/-- The step answers a next state. -/
def Safe (s : State) : Prop := ∃ t, step s = .next t

/-- A run of n steps; none when one of them does not answer a next state. -/
def runSteps : Nat → State → Option State
  | 0, s => some s
  | n + 1, s =>
    match step s with
    | .next t => runSteps n t
    | .fault _ => none
    | .refused _ => none

/-- Every step of a run of n steps answers a next state. -/
def SafeFor (n : Nat) (s : State) : Prop := (runSteps n s).isSome

/-! ## The moving sequencer -/

/-- The core that is moving. -/
def coreNo (s : State) : Nat := s.cur.1.val

def here (s : State) : CoreSt := s.core (coreNo s)

/-- The sequencer that is moving. -/
def mover (s : State) : SeqSt := (here s).seq s.cur.2

/-- The moving core with one of its parts changed. -/
def onHere (s : State) (f : CoreSt → CoreSt) : State := s.modCore (coreNo s) f

/-- The task on the moving core does not run on prediction (R392). -/
def NotSpec (s : State) : Prop := ∀ t, (here s).task = some t → t.spec = false

/-- Every FIFO that the pop field names holds an entry (R30). -/
def CanPop (s : State) (h : Hdr) : Prop :=
  ∀ y ∈ neighbours s.cur.2 h.pop, (here s).fifo (fifoIdx y s.cur.2) ≠ []

/-- Every FIFO that the push field names has room for an entry (R29, R32). -/
def CanPush (s : State) (h : Hdr) : Prop :=
  ∀ y ∈ neighbours s.cur.2 h.push, ((here s).fifo (fifoIdx s.cur.2 y)).length < 15

/-- No push of K is held back: each is a release, which waits until every write that its core's sequencers had issued
has been performed (R133, R134). -/
def CanRelease (s : State) (h : Hdr) : Prop := s.cur.2 = .k → h.push ≠ 0 → (here s).unperformed = []

/-- An instruction of the moving sequencer with this header runs to its end. -/
structure Ready (s : State) (h : Hdr) : Prop where
  pops : CanPop s h
  room : CanPush s h
  guard : (here s).guard s.cur.2 h = true
  quiet : CanRelease s h

/-- A token of the FIFO from y is consumed (R30, R150). -/
def popOne (s : State) (y : Seq) : State :=
  match (here s).fifo (fifoIdx y s.cur.2) with
  | [] => s
  | t :: r => onHere s fun c => ((c.setFifo (fifoIdx y s.cur.2) r).countPop (fifoIdx y s.cur.2)).takeCopy s.cur.2 t.copy

/-- The state once the pops of an instruction have acted. -/
def popped (s : State) (h : Hdr) : State := (neighbours s.cur.2 h.pop).foldl popOne s

/-- A token goes to y (R31, R150). -/
def pushOne (v : Option Word) (s : State) (y : Seq) : State :=
  onHere s fun c => (c.setFifo (fifoIdx s.cur.2 y)
    (c.fifo (fifoIdx s.cur.2 y) ++ [⟨v, s.signalCopy (coreNo s) s.cur.2 {}⟩])).countPush (fifoIdx s.cur.2 y)

/-- The state once the pushes of an instruction have acted: a push sets the core's pending-advance flag (R148). -/
def pushed (s : State) (h : Hdr) : State :=
  match neighbours s.cur.2 h.push with
  | [] => s
  | ys => (ys.foldl (pushOne none) s).flagCore (coreNo s)

/-- The moving sequencer goes on at an address, or, inside a wheel, at the wheel's next slot (R46, R287). -/
def goOn (s : State) (next : Word) : State :=
  onHere s fun c =>
    let x := { c.seq s.cur.2 with stalled := false, relWait := none, pushPark := false }
    c.setSeq s.cur.2 (if x.wheel.active then x.nextSlot s.cycle else { x with pc := next })

/-- An instruction retires: its pushes act, its sequencer goes on, and its core has made progress. -/
def retire (s : State) (h : Hdr) (next : Word) : State := (goOn (pushed s h) next).progressed

/-- The address behind an instruction of n bytes. -/
def after (s : State) (n : Nat) : Word := (mover s).pc + BitVec.ofNat 64 n

/-- The moving sequencer's instruction traps: nothing that it did stays (R192), and the trap is taken (R397). -/
def trapped (s : State) (t : Trap) : State :=
  s.trapOn (coreNo s) { t with origin := s.cur.2.idx, ipc := (mover s).pc } none

/-- The sync field of a well-formed instruction of a stream, and its length in bytes. -/
def headerOf (i : Instr) : Hdr := (Fields.unpack ((encode i).headD 0)).hdr

def lengthOf (i : Instr) : Nat := 8 * (encode i).length

/-! ## What stays -/

/-- A core without its FIFOs, the counts of their entries and the local vectors of its sequencers. -/
def bare (c : CoreSt) : CoreSt :=
  { c with
    couple := { c.couple with fifos := [], pushed := [], popped := [] }
    regs := { c.regs with
      k := { c.regs.k with lvec := {} }, l := { c.regs.l with lvec := {} }
      c := { c.regs.c with lvec := {} }, s := { c.regs.s with lvec := {} } } }

/-- Whatever is not the moving core stays, but for pending-advance flags: memory, every other core, queues, keys,
launches, outputs and so on. -/
structure Elsewhere (s t : State) : Prop where
  others : ∀ n, n ≠ coreNo s → t.core n = s.core n
  jobs : ∀ j, (t.job? j).map (fun v => { v with pending := [] }) = (s.job? j).map fun v => { v with pending := [] }
  rest : { t with cores := [], jobs := [] } = { s with cores := [], jobs := [] }

end Sys2Proof
end

