-- ==== Sys2Proof/Certificates/Slice0/Obligations.lean ====
section
/-! DEFINITION. Certificates/Slice0/Obligations: the statements about the model, from the numbered rules of the
specification. A table (kResult and the like) says once, in plain arithmetic, what each instruction of a family
gives; a statement says that exec answers exactly the state that the table and the rules of issue lead to, so that
whatever is not named stays as it was. -/

namespace Sys2Proof.Slice0

open Sys2Proof.Machine

/-! ## Words by their fields (R162) -/

/-- A first doubleword by its fields (R162): imm18, minor, C, B, A, the guard and synchronisation bits, major, length. -/
def word1 (imm : BitVec 18) (minor : BitVec 8) (c b a : BitVec 6) (sync : BitVec 12) (major : BitVec 6)
    (len : BitVec 2) : Word := imm ++ minor ++ c ++ b ++ a ++ sync ++ major ++ len

/-- A sync field that names nothing. -/
def noSync : Hdr := ⟨0, false, 0, 0⟩

/-- The guard and synchronisation bits of a first doubleword (R162). -/
def syncBits (h : Hdr) : BitVec 12 := BitVec.ofBool h.gneg ++ h.guard ++ h.push ++ h.pop

/-- The doubleword of a register form, a unary form or SEL of K (R208, R211, R214). -/
def kWord : Instr → Option Word
  | .add h d b c => reg h 0x00 d b c
  | .sub h d b c => reg h 0x01 d b c
  | .mul h d b c => reg h 0x02 d b c
  | .mulh h d b c => reg h 0x03 d b c
  | .mulhn h d b c => reg h 0x04 d b c
  | .div h d b c => reg h 0x05 d b c
  | .divn h d b c => reg h 0x06 d b c
  | .rem h d b c => reg h 0x07 d b c
  | .remn h d b c => reg h 0x08 d b c
  | .and h d b c => reg h 0x09 d b c
  | .or h d b c => reg h 0x0A d b c
  | .xor h d b c => reg h 0x0B d b c
  | .andn h d b c => reg h 0x0C d b c
  | .orn h d b c => reg h 0x0D d b c
  | .shl h d b c => reg h 0x0E d b c
  | .shr h d b c => reg h 0x0F d b c
  | .sar h d b c => reg h 0x10 d b c
  | .rol h d b c => reg h 0x11 d b c
  | .min h d b c => reg h 0x12 d b c
  | .max h d b c => reg h 0x13 d b c
  | .minn h d b c => reg h 0x14 d b c
  | .maxn h d b c => reg h 0x15 d b c
  | .clz h d b => some (word1 0 0x00 0 b d (syncBits h) 0x12 0)
  | .ctz h d b => some (word1 0 0x01 0 b d (syncBits h) 0x12 0)
  | .popc h d b => some (word1 0 0x02 0 b d (syncBits h) 0x12 0)
  | .brev h d b => some (word1 0 0x03 0 b d (syncBits h) 0x12 0)
  | .bswap h d b => some (word1 0 0x04 0 b d (syncBits h) 0x12 0)
  | .sel h d b c pn => some (word1 (pn.setWidth 18) 0x00 c b d (syncBits h) 0x16 0)
  | _ => none
where
  reg (h : Hdr) (minor : BitVec 8) (d b c : BitVec 6) : Option Word := some (word1 0 minor c b d (syncBits h) 0x10 0)

/-- The doubleword of a predicate instruction of K (R215). -/
def pWord : Instr → Option Word
  | .pand h pd pa pb => three h 0 pd pa pb
  | .por h pd pa pb => three h 1 pd pa pb
  | .pxor h pd pa pb => three h 2 pd pa pb
  | .pandn h pd pa pb => three h 3 pd pa pb
  | .pnot h pd pa => three h 4 pd pa 0
  | .pmov h pd pa => three h 5 pd pa 0
  | _ => none
where
  three (h : Hdr) (minor : BitVec 8) (pd pa pb : BitVec 5) : Option Word :=
    some (word1 0 minor (pb.setWidth 6) (pa.setWidth 6) (pd.setWidth 6) (syncBits h) 0x17 0)

/-! ## K: integer instructions (R208 to R215) -/

/-- The header, destination and value of an instruction of K that writes one x register and reads nothing but
registers and predicates (R208 to R215). -/
def kResult (k : CoreSt) : Instr → Option (Hdr × BitVec 6 × Word)
  | .add h d b c => some (h, d, BitVec.ofNat 64 ((k.x b).toNat + (k.x c).toNat))
  | .sub h d b c => some (h, d, BitVec.ofInt 64 ((k.x b).toInt - (k.x c).toInt))
  | .mul h d b c => some (h, d, BitVec.ofNat 64 ((k.x b).toNat * (k.x c).toNat))
  | .mulh h d b c => some (h, d, BitVec.ofInt 64 ((k.x b).toInt * (k.x c).toInt / 2 ^ 64))
  | .mulhn h d b c => some (h, d, BitVec.ofNat 64 ((k.x b).toNat * (k.x c).toNat / 2 ^ 64))
  | .div h d b c => some (h, d,
      if k.x c = 0 then BitVec.allOnes 64 else BitVec.ofInt 64 (Int.tdiv (k.x b).toInt (k.x c).toInt))
  | .divn h d b c => some (h, d,
      if k.x c = 0 then BitVec.allOnes 64 else BitVec.ofNat 64 ((k.x b).toNat / (k.x c).toNat))
  | .rem h d b c => some (h, d,
      if k.x c = 0 then k.x b else BitVec.ofInt 64 (Int.tmod (k.x b).toInt (k.x c).toInt))
  | .remn h d b c => some (h, d,
      if k.x c = 0 then k.x b else BitVec.ofNat 64 ((k.x b).toNat % (k.x c).toNat))
  | .and h d b c => some (h, d, k.x b &&& k.x c)
  | .or h d b c => some (h, d, k.x b ||| k.x c)
  | .xor h d b c => some (h, d, k.x b ^^^ k.x c)
  | .andn h d b c => some (h, d, k.x b &&& ~~~(k.x c))
  | .orn h d b c => some (h, d, k.x b ||| ~~~(k.x c))
  | .shl h d b c => some (h, d, BitVec.ofNat 64 ((k.x b).toNat * 2 ^ ((k.x c).toNat % 64)))
  | .shr h d b c => some (h, d, BitVec.ofNat 64 ((k.x b).toNat / 2 ^ ((k.x c).toNat % 64)))
  | .sar h d b c => some (h, d, BitVec.ofInt 64 ((k.x b).toInt / 2 ^ ((k.x c).toNat % 64)))
  | .rol h d b c =>
      let n := (k.x c).toNat % 64
      some (h, d, (k.x b <<< n) ||| (k.x b >>> (64 - n)))
  | .min h d b c => some (h, d, if (k.x b).toInt ≤ (k.x c).toInt then k.x b else k.x c)
  | .max h d b c => some (h, d, if (k.x b).toInt ≤ (k.x c).toInt then k.x c else k.x b)
  | .minn h d b c => some (h, d, if (k.x b).toNat ≤ (k.x c).toNat then k.x b else k.x c)
  | .maxn h d b c => some (h, d, if (k.x b).toNat ≤ (k.x c).toNat then k.x c else k.x b)
  | .addi h d b imm => some (h, d, BitVec.ofInt 64 ((k.x b).toInt + imm.toInt))
  | .andi h d b imm => some (h, d, k.x b &&& BitVec.ofInt 64 imm.toInt)
  | .ori h d b imm => some (h, d, k.x b ||| BitVec.ofInt 64 imm.toInt)
  | .xori h d b imm => some (h, d, k.x b ^^^ BitVec.ofInt 64 imm.toInt)
  | .shli h d b sh => some (h, d, BitVec.ofNat 64 ((k.x b).toNat * 2 ^ sh.toNat))
  | .shri h d b sh => some (h, d, BitVec.ofNat 64 ((k.x b).toNat / 2 ^ sh.toNat))
  | .sari h d b sh => some (h, d, BitVec.ofInt 64 ((k.x b).toInt / 2 ^ sh.toNat))
  | .li h d imm => some (h, d, BitVec.ofInt 64 imm.toInt)
  | .lih h d imm => some (h, d, BitVec.ofNat 64 ((k.x d).toNat * 2 ^ 18 + imm.toNat))
  | .clz h d b => some (h, d, BitVec.ofNat 64 ((List.range 64).takeWhile fun i => !(k.x b).getMsbD i).length)
  | .ctz h d b => some (h, d, BitVec.ofNat 64 ((List.range 64).takeWhile fun i => !(k.x b).getLsbD i).length)
  | .popc h d b => some (h, d, BitVec.ofNat 64 ((List.range 64).filter fun i => (k.x b).getLsbD i).length)
  | .brev h d b => some (h, d, (k.x b).reverse)
  | .bswap h d b => some (h, d, BitVec.ofNat 64 (leNat (leBytes 8 (k.x b).toNat).reverse))
  | .ext h d b lo w => some (h, d, BitVec.ofNat 64 ((k.x b).toNat / 2 ^ lo.toNat % 2 ^ (w.toNat + 1)))
  | .ins h d b lo w =>
      let n := w.toNat + 1
      let old := (k.x d).toNat
      some (h, d, BitVec.ofNat 64 (old / 2 ^ (lo.toNat + n) * 2 ^ (lo.toNat + n) +
        (k.x b).toNat % 2 ^ n * 2 ^ lo.toNat + old % 2 ^ lo.toNat))
  | .sel h d b c pn => some (h, d, if pn = 0 ∨ k.regs.k.preds.getLsbD pn.toNat then k.x b else k.x c)
  | _ => none

/-! ## Conditions and predicates (R213, R215, R230) -/

/-- A condition on two values of one width (R213, R321). -/
def holds {w : Nat} (cond : Cond) (a b : BitVec w) : Bool :=
  match cond with
  | .eq => a.toNat = b.toNat
  | .ne => a.toNat ≠ b.toNat
  | .lt => a.toInt < b.toInt
  | .le => a.toInt ≤ b.toInt
  | .gt => a.toInt > b.toInt
  | .ge => a.toInt ≥ b.toInt
  | .ltn => a.toNat < b.toNat
  | .len => a.toNat ≤ b.toNat
  | .gtn => a.toNat > b.toNat
  | .gen => a.toNat ≥ b.toNat

/-- The immediate of a compare: zero-extended for a condition that compares unsigned, else sign-extended (R213). -/
def compared (cond : Cond) (imm : BitVec 18) : Word :=
  match cond with
  | .ltn | .len | .gtn | .gen => BitVec.ofNat 64 imm.toNat
  | .eq | .ne | .lt | .le | .gt | .ge => BitVec.ofInt 64 imm.toInt

/-- Predicate p of a sequencer: p0 reads true (R191). -/
def predOf (c : CoreSt) (q : Seq) (p : BitVec 5) : Bool := p = 0 ∨ (c.seq q).preds.getLsbD p.toNat

/-- The header, destination and value of an instruction that writes one predicate of its sequencer. -/
def pResult (c : CoreSt) (q : Seq) : Instr → Option (Hdr × BitVec 5 × Bool)
  | .cmp h cond pd b e => some (h, pd, holds cond (c.x b) (c.x e))
  | .cmpi h cond pd b imm => some (h, pd, holds cond (c.x b) (compared cond imm))
  | .pand h pd pa pb => some (h, pd, predOf c q pa && predOf c q pb)
  | .por h pd pa pb => some (h, pd, predOf c q pa || predOf c q pb)
  | .pxor h pd pa pb => some (h, pd, xor (predOf c q pa) (predOf c q pb))
  | .pandn h pd pa pb => some (h, pd, predOf c q pa && !predOf c q pb)
  | .pnot h pd pa => some (h, pd, !predOf c q pa)
  | .pmov h pd pa => some (h, pd, predOf c q pa)
  | .acmp h cond pd b e => some (h, pd, holds cond (c.a q b) (c.a q e))
  | .acmpi h cond pd b imm => some (h, pd, holds cond (c.a q b) (compared cond imm))
  | _ => none

/-! ## L and S: address and map registers (R228, R229, R232, R233) -/

/-- The header, destination and value of an instruction of L or S that writes one a register. -/
def aResult (c : CoreSt) (q : Seq) : Instr → Option (Hdr × BitVec 5 × Word)
  | .aadd h d b e => some (h, d, BitVec.ofNat 64 ((c.a q b).toNat + (c.a q e).toNat))
  | .asub h d b e => some (h, d, BitVec.ofInt 64 ((c.a q b).toInt - (c.a q e).toInt))
  | .amul h d b e => some (h, d, BitVec.ofNat 64 ((c.a q b).toNat * (c.a q e).toNat))
  | .amadd h d b e => some (h, d, BitVec.ofNat 64 ((c.a q d).toNat + (c.a q b).toNat * (c.a q e).toNat))
  | .amov h d b => some (h, d, c.a q b)
  | .aaddi h d b imm => some (h, d, BitVec.ofInt 64 ((c.a q b).toInt + imm.toInt))
  | .ashli h d b sh => some (h, d, BitVec.ofNat 64 ((c.a q b).toNat * 2 ^ sh.toNat))
  | .ali h d imm => some (h, d, BitVec.ofInt 64 imm.toInt)
  | .alih h d imm => some (h, d, BitVec.ofNat 64 ((c.a q d).toNat * 2 ^ 18 + imm.toNat))
  | _ => none

/-- The header, map register and new contents of MAPSET and MAPOFS: MAPOFS reduces its operand modulo the ring's
length, and leaves the start 0 in a map without a ring (R232, R233). -/
def mapResult (c : CoreSt) (q : Seq) : Instr → Option (Hdr × BitVec 4 × MapReg)
  | .mapset h m payload => some (h, m, { payload := payload, start := 0 })
  | .mapofs h m b =>
      let p := (c.map q m).payload
      let ring := (p.extractLsb' 175 3).toNat
      let len := (p.extractLsb' 178 14).toNat + 1
      some (h, m, { payload := p, start := if ring ≤ 4 then BitVec.ofNat 14 ((c.a q b).toNat % len) else 0 })
  | _ => none

/-! ## Control flow (R196 to R198, R216) -/

/-- An offset in doublewords from an address (R198). -/
def goal {n : Nat} (pc : Word) (off : BitVec n) : Word := BitVec.ofInt 64 (pc.toInt + 8 * off.toInt)

/-- The header, the link register if there is one, and the next address of an instruction that only goes on. -/
def flow (c : CoreSt) (pc : Word) : Instr → Option (Hdr × Option (BitVec 6) × Word)
  | .nop h | .tok h | .tprf h _ _ _ _ => some (h, none, pc + 8)
  | .br h off => some (h, none, goal pc off)
  | .jmp h off => some (h, none, goal pc off)
  | .call h d off => some (h, some d, goal pc off)
  | .callr h d b => some (h, some d, c.x b)
  | .ret h b | .jmpr h b => some (h, none, c.x b)
  | _ => none

/-- The register that an indirect jump takes its target from. -/
def jumpReg : Instr → Option (BitVec 6)
  | .callr _ _ b | .ret _ b | .jmpr _ b => some b
  | _ => none

/-! ## The frame of register instructions -/

/-- What an instruction may write. -/
inductive Dest where
  | x (d : BitVec 6) | a (d : BitVec 5) | pred (p : BitVec 5) | map (m : BitVec 4) | nothing

/-- The destination of the instructions of kResult, pResult, aResult, mapResult and flow. -/
def destOf (c : CoreSt) (q : Seq) (pc : Word) (i : Instr) : Option (Hdr × Dest) :=
  match kResult c i, pResult c q i, aResult c q i, mapResult c q i, flow c pc i with
  | some (h, d, _), _, _, _, _ => some (h, .x d)
  | _, some (h, p, _), _, _, _ => some (h, .pred p)
  | _, _, some (h, d, _), _, _ => some (h, .a d)
  | _, _, _, some (h, m, _), _ => some (h, .map m)
  | _, _, _, _, some (h, some d, _) => some (h, .x d)
  | _, _, _, _, some (h, none, _) => some (h, .nothing)
  | _, _, _, _, _ => none

/-- Everything but one destination, the FIFOs with their counts, local vectors and pending-advance flags, and the
moving sequencer's own place stays. -/
structure Frame (s t : State) (d : Dest) : Prop where
  elsewhere : Elsewhere s t
  memory : t.memory = s.memory
  x : ∀ r, d ≠ .x r → (here t).x r = (here s).x r
  a : ∀ q r, (q ≠ s.cur.2 ∨ d ≠ .a r) → (here t).a q r = (here s).a q r
  pred : ∀ q p, (q ≠ s.cur.2 ∨ d ≠ .pred p) → (here t).pred q p = (here s).pred q p
  map : ∀ q m, (q ≠ s.cur.2 ∨ d ≠ .map m) → (here t).map q m = (here s).map q m
  special : (here t).regs.sp = (here s).regs.sp
  sems : ∀ n, (here t).sema n = (here s).sema n
  queues : ∀ n, (here t).queue n = (here s).queue n
  stores : (here t).stores = (here s).stores
  units : (here t).units = (here s).units
  frontier : (here t).frontier = (here s).frontier
  others : (here t).task = (here s).task ∧ (here t).handler = (here s).handler ∧ (here t).cut = (here s).cut ∧
    (here t).arrival = (here s).arrival ∧ (here t).owner = (here s).owner
  seqs : ∀ q, q ≠ s.cur.2 → { (here t).seq q with lvec := {} } = { (here s).seq q with lvec := {} }

end Sys2Proof.Slice0

open Sys2Proof Sys2Proof.Machine Sys2Proof.Slice0

/-! ## Registers, predicates and control flow -/

/-- R208 to R212, R214: each integer instruction of K writes its result, computed from the registers as they were,
to its destination; its tokens move, K goes on behind it, and nothing else changes. x0 as a destination discards. The
words of R208, R211 and R214 decode to them on K, and a SEL with a reserved bit set is refused. -/
def Obligations.KRegisterResults : Prop :=
  (∀ (s : State) (i : Instr) (h : Hdr) (d : BitVec 6) (v : Word),
    wf s.cur.2 i = true → kResult (here s) i = some (h, d, v) → Ready s h →
    exec i s = .next (retire (onHere (popped s h) fun c => c.setX d v) h (after s 8))) ∧
  (∀ (i : Instr) (w : Word), wf .k i = true → kWord i = some w → decodeList .k [w] = .ok i) ∧
  (∀ (h : Hdr) (imm : BitVec 18) (a b c : BitVec 6), h.wf = true → 32 ≤ imm.toNat →
    decodeList .k [word1 imm 0 c b a (syncBits h) 0x16 0] = .error .reserved)

/-- R213, R215, R230: the compares of K, L and S and the predicate instructions of K write their result to one
predicate of their own sequencer, and nothing else changes. The words of R215 decode to them on K, and one with the
destination p0 raises cause 0x03. -/
def Obligations.PredicateResults : Prop :=
  (∀ (s : State) (i : Instr) (h : Hdr) (p : BitVec 5) (v : Bool),
    wf s.cur.2 i = true → pResult (here s) s.cur.2 i = some (h, p, v) → Ready s h →
    exec i s = .next (retire (onHere (popped s h) fun c => c.setPred s.cur.2 p v) h (after s 8))) ∧
  (∀ (i : Instr) (w : Word), wf .k i = true → pWord i = some w → decodeList .k [w] = .ok i) ∧
  (∀ (h : Hdr) (minor : BitVec 8) (pa pb : BitVec 5), h.wf = true → minor.toNat < 6 → (4 ≤ minor.toNat → pb = 0) →
    decodeList .k [word1 0 minor (pb.setWidth 6) (pa.setWidth 6) 0 (syncBits h) 0x17 0] = .error .limit)

/-- R228, R229, R232, R233: the address instructions of L and S, MAPSET and MAPOFS write their result, computed from
the registers as they were, to one register of their own sequencer, and nothing else changes. -/
def Obligations.AddressResults : Prop :=
  (∀ (s : State) (i : Instr) (h : Hdr) (d : BitVec 5) (v : Word),
    wf s.cur.2 i = true → aResult (here s) s.cur.2 i = some (h, d, v) → Ready s h →
    exec i s = .next (retire (onHere (popped s h) fun c => c.setA s.cur.2 d v) h (after s 8))) ∧
  (∀ (s : State) (i : Instr) (h : Hdr) (m : BitVec 4) (v : MapReg),
    wf s.cur.2 i = true → mapResult (here s) s.cur.2 i = some (h, m, v) → Ready s h →
    exec i s = .next (retire (onHere (popped s h) fun c => c.setMap s.cur.2 m v) h (after s (lengthOf i))))

/-- R196, R198, R216, R251: NOP, TOK, TPRF, branches, jumps, calls and returns go on at the address that the
specification gives; CALL and CALLR leave the address behind them in the link register, read after the target. -/
def Obligations.ControlFlow : Prop :=
  ∀ (s : State) (i : Instr) (h : Hdr) (link : Option (BitVec 6)) (next : Word),
    wf s.cur.2 i = true → flow (here s) (mover s).pc i = some (h, link, next) → Ready s h →
    (jumpReg i ≠ none → next.toNat % 8 = 0) →
    exec i s = .next (match link with
      | some d => retire (onHere (popped s h) fun c => c.setX d (after s 8)) h next
      | none => retire (popped s h) h next)

/-- The frame of every instruction of the five tables above: one destination, the tokens of its sync field and its
sequencer's place; every other register, predicate, map register, special register, semaphore, queue and store, all
of memory and every other core stay. -/
def Obligations.RegisterFrame : Prop :=
  ∀ (s : State) (i : Instr) (h : Hdr) (d : Dest), wf s.cur.2 i = true →
    destOf (here s) s.cur.2 (mover s).pc i = some (h, d) → Ready s h →
    (∀ b, jumpReg i = some b → ((here s).x b).toNat % 8 = 0) →
    ∃ t, exec i s = .next t ∧ Frame s t d

/-- R164: an instruction of a stream whose guard is false takes its tokens, gives its tokens and goes on; it has no
other effect. -/
def Obligations.FalseGuardSkips : Prop :=
  ∀ (s : State) (i : Instr), wf s.cur.2 i = true → (mover s).cond = .run → CanPop s (headerOf i) →
    CanPush s (headerOf i) → CanRelease s (headerOf i) → (here s).guard s.cur.2 (headerOf i) = false →
    exec i s = .next (retire (popped s (headerOf i)) (headerOf i) (after s (lengthOf i)))

/-! ## Tokens and semaphores -/

/-- R28 to R31, R150: an instruction that only synchronises takes the head of every FIFO that its pop field names
and appends one plain token, with its sequencer's vector copy, to every FIFO that its push field names; every other
FIFO stays. -/
def Obligations.TokensMove : Prop :=
  ∀ (s : State) (h : Hdr), Ready s h → ∃ t, exec (.tok h) s = .next t ∧
    (∀ y, y ∈ neighbours s.cur.2 h.pop → ∃ k, (here s).fifo (fifoIdx y s.cur.2) = k :: (here t).fifo (fifoIdx y s.cur.2)) ∧
    (∀ y, y ∈ neighbours s.cur.2 h.push → ∃ copy, (here t).fifo (fifoIdx s.cur.2 y) =
      (here s).fifo (fifoIdx s.cur.2 y) ++ [⟨none, copy⟩] ∧
      lget copy s.cur.2.idx = s.epoch (here s).job (coreNo s)) ∧
    (∀ x y, x ≠ y → (x ≠ s.cur.2 ∨ y ∉ neighbours s.cur.2 h.push) → (y ≠ s.cur.2 ∨ x ∉ neighbours s.cur.2 h.pop) →
      (here t).fifo (fifoIdx x y) = (here s).fifo (fifoIdx x y))

namespace Sys2Proof.Slice0

/-- A release of the moving sequencer is not held back: on K, no write that its core's sequencers had issued is left to
perform (R133). -/
def NothingHeld (s : State) : Prop := s.cur.2 = .k → (here s).unperformed = []

end Sys2Proof.Slice0

/-- R199, R200: PUSHV appends a value token that holds its source register, and its pushes to other
FIFOs act behind it; POPV takes the value token at the head of a FIFO, and its destination gets the value. -/
def Obligations.ValueTokens : Prop :=
  (∀ (s : State) (h : Hdr) (y : Seq) (r : BitVec 6), wf s.cur.2 (.pushv h y r) = true → Ready s h → NothingHeld s →
    ((here s).fifo (fifoIdx s.cur.2 y)).length < 15 →
    (((here s).fifo (fifoIdx s.cur.2 y)).filter fun t => t.val.isSome).length < 4 →
    exec (.pushv h y r) s = .next (goOn (((neighbours s.cur.2 h.push).foldl (pushOne none)
      (pushOne (some ((here s).src s.cur.2 r)) (popped s h) y)).flagCore (coreNo s)) (after s 8)).progressed) ∧
  (∀ (s : State) (h : Hdr) (d : BitVec 6) (y : Seq) (v : Word) (copy : LVec) (rest : List Tok),
    wf s.cur.2 (.popv h d y) = true → Ready s h → (here s).fifo (fifoIdx y s.cur.2) = ⟨some v, copy⟩ :: rest →
    exec (.popv h d y) s = .next (retire (onHere (popOne (popped s h) y) fun c => c.setSrc s.cur.2 d v) h (after s 8)))

namespace Sys2Proof.Slice0

/-- The semaphore and threshold of SWAIT and of its register form. -/
def awaited (c : CoreSt) (q : Seq) : Instr → Option (Hdr × BitVec 8 × Nat)
  | .swait h sem thresh => some (h, sem, thresh.toNat)
  | .swaitReg h sem r => some (h, sem, (c.src q r).toNat)
  | _ => none

end Sys2Proof.Slice0

namespace Sys2Proof.Slice0

/-- A semaphore of the moving core as the current cycle found it: what the cycle changes is noted beside it (R203). -/
def semBefore (s : State) (sem : BitVec 8) : Sema :=
  ((s.semOld.find? fun p => p.1 == coreNo s && p.2.1 == sem).map (·.2.2)).getD ((here s).sema sem.toNat)

/-- The sum of a semaphore's value without the cycle's increments and those increments, or that value alone where the sum
exceeds 65,535 (R35). -/
def summed (base inc : Nat) : Nat := if base + inc ≤ 65535 then base + inc else base

end Sys2Proof.Slice0

/-- R34, R202, R203: a wait tests the value that the last cycle left; it goes on when that has reached the threshold, and
its sequencer then takes the semaphore's vector copy; below the threshold it stalls. -/
def Obligations.SemaphoreWaits : Prop :=
  ∀ (s : State) (i : Instr) (h : Hdr) (sem : BitVec 8) (n : Nat), wf s.cur.2 i = true →
    awaited (here s) s.cur.2 i = some (h, sem, n) → n ≤ 65535 → Ready s h →
    exec i s = .next (if n ≤ (semBefore s sem).val.toNat
      then retire (onHere (popped s h) fun c => c.takeCopy s.cur.2 (semBefore s sem).copy) h (after s 8)
      else s.stalled)

namespace Sys2Proof.Slice0

/-- The semaphore and value of SSET and of its register form. -/
def assigned (c : CoreSt) (q : Seq) : Instr → Option (Hdr × BitVec 8 × Nat)
  | .sset h sem v => some (h, sem, v.toNat)
  | .ssetReg h sem r => some (h, sem, (c.src q r).toNat)
  | _ => none

end Sys2Proof.Slice0

/-- R35, R202, R203: SSIG of a sequencer without a live command or a waiting signal adds its increment at once: the
semaphore holds the sum with the cycle's other increments, or its value without any of them where the sum would exceed
65,535. SSET leaves its value in the semaphore, with the cycle's increments in the same way, unless a sequencer of higher
index has set the semaphore in the same cycle, whose value then stands. Both go on. -/
def Obligations.SemaphoreUpdates : Prop :=
  (∀ (s : State) (h : Hdr) (sem inc : BitVec 8), wf s.cur.2 (.ssig h sem inc) = true → Ready s h → NothingHeld s →
    (mover s).live = [] → (mover s).sigs = [] →
    ∃ t, exec (.ssig h sem inc) s = .next t ∧
      ((here t).sema sem.toNat).val.toNat =
        summed (s.semBaseOf (coreNo s) sem).toNat (sumInc (s.addsOf (coreNo s) sem) + inc.toNat) ∧
      semBefore t sem = semBefore s sem ∧
      (∀ n, n ≠ sem.toNat → (here t).sema n = (here s).sema n) ∧ (∀ r, (here t).x r = (here s).x r) ∧
      t.memory = s.memory) ∧
  (∀ (s : State) (i : Instr) (h : Hdr) (sem : BitVec 8) (n : Nat), wf s.cur.2 i = true →
    assigned (here s) s.cur.2 i = some (h, sem, n) → n ≤ 65535 → Ready s h →
    ∃ t, exec i s = .next t ∧
      ((here t).sema sem.toNat).val.toNat =
        (if ∃ p ∈ s.semSets, p.1 = coreNo s ∧ p.2.1 = sem ∧ s.cur.2.idx < p.2.2.idx
          then ((here s).sema sem.toNat).val.toNat else summed n (sumInc (s.addsOf (coreNo s) sem))) ∧
      semBefore t sem = semBefore s sem ∧
      (∀ m, m ≠ sem.toNat → (here t).sema m = (here s).sema m) ∧ (∀ r, (here t).x r = (here s).x r) ∧
      t.memory = s.memory)

/-! ## The end of a stream, fences and special registers -/

/-- R31, R49, R197: END with no earlier command in flight ends its sequencer, and when it is the last of the core, the
end of the task is due; with an earlier command in flight it issues and waits, and its pushes act later. -/
def Obligations.EndOfStream : Prop :=
  (∀ (s : State) (h : Hdr), wf s.cur.2 (.endStream h) = true → Ready s h → (mover s).live = [] → (mover s).sigs = [] →
    (here s).task ≠ none → (mover s).wheel.active = false →
    ∃ t, exec (.endStream h) s = .next t ∧ (mover t).cond = .ended ∧ (mover t).endPc = (mover s).pc ∧
      (∀ q, q ≠ s.cur.2 → ((here t).seq q).cond = ((here s).seq q).cond) ∧ t.memory = s.memory ∧
      ((∀ q, q ≠ s.cur.2 → ((here s).seq q).cond = .ended) → (∀ u, (here s).unit u = []) →
        t.todo = s.todo ++ [.taskEnd s.cur.1]) ∧
      (∀ q, q ≠ s.cur.2 → ((here s).seq q).cond ≠ .ended → t.todo = s.todo)) ∧
  (∀ (s : State) (h : Hdr), wf s.cur.2 (.endStream h) = true → Ready s h →
    ((mover s).live ≠ [] ∨ (mover s).sigs ≠ []) →
    ∃ t, exec (.endStream h) s = .next t ∧ (mover t).cond = .ending ∧ (mover t).endPush = h.push ∧
      (∀ y, y ≠ s.cur.2 → (here t).fifo (fifoIdx s.cur.2 y) = (here s).fifo (fifoIdx s.cur.2 y)) ∧
      t.memory = s.memory ∧ t.todo = s.todo)

namespace Sys2Proof.Slice0

/-- What MFS reads from a special register; the three monitors of a core are samples (R206). -/
def special (s : State) (c : CoreSt) : SReg → Option Word
  | .coreid => some (BitVec.ofNat 64 (coreNo s))
  | .argbase => some c.regs.sp.argbase
  | .argptr => some c.regs.sp.argptr
  | .entry => some c.regs.sp.entry
  | .stage => some c.regs.sp.stage
  | .jobid => some c.regs.sp.jobid
  | .launchid => some c.regs.sp.launchid
  | .cont => some c.regs.sp.cont
  | .linkbase => some c.regs.sp.linkbase
  | .tframe => some c.regs.sp.tframe
  | .hvec => some c.regs.sp.hvec
  | .cycle => some (BitVec.ofNat 64 s.cycle)
  | .freeze => some c.regs.sp.freeze
  | .epoch => some (BitVec.ofNat 64 ((s.epoch c.job (coreNo s)).toNat +
      2 ^ 23 * (if s.pending c.job (coreNo s) then 1 else 0)))
  | .xvtab => some c.regs.sp.xvtab
  | .xvpool => some c.regs.sp.xvpool
  | .dietemp => some ((cget 0 s.mon.dietemp (coreNo s / 56)).setWidth 64)
  | .coretemp | .coredroop | .coreproc => none

end Sys2Proof.Slice0

/-- R205, R206: MFS reads a special register into an x register on K, an a register on L and S. That cycle reads the
model's own count is its choice (log 45), and what the die's monitor holds is a free sample (log 5). -/
def Obligations.SpecialRead : Prop :=
  ∀ (s : State) (h : Hdr) (d : BitVec 6) (r : SReg) (v : Word), wf s.cur.2 (.mfs h d r) = true → Ready s h →
    NotSpec s → special s (here s) r = some v →
    exec (.mfs h d r) s = .next (retire (onHere (popped s h) fun c => c.setSrc s.cur.2 d v) h (after s 8))

/-- R112, R205, R207: MTS to xvtab and xvpool writes the fields of a value within their limits; MTS to another
register has no effect. A write of a sequencer of higher index in the same cycle stands. Nothing else changes, but for
the model's note of the cycle's MTSs. -/
def Obligations.SpecialWrite : Prop :=
  ∀ (s : State) (h : Hdr) (r : SReg) (src : BitVec 6), wf s.cur.2 (.mts h r src) = true → Ready s h →
    let v := ((here s).src s.cur.2 src).toNat
    (r = .xvtab → v / 2 ^ 14 % 2 ^ 14 ≤ 12288) → (r = .xvpool → v / 2 ^ 28 % 2 ^ 14 ≤ v / 2 ^ 14 % 2 ^ 14) →
    exec (.mts h r src) s = .next (retire
      (if ∃ e ∈ s.mtsLog, e.1 = coreNo s ∧ e.2.1 = r ∧ s.cur.2.idx < e.2.2.idx then popped s h
        else onHere { popped s h with mtsLog := (coreNo s, r, s.cur.2) :: s.mtsLog } fun c => { c with regs := { c.regs with
          sp := match r with
            | .xvtab => { c.regs.sp with xvtab := BitVec.ofNat 64 (v % 2 ^ 28) }
            | .xvpool => { c.regs.sp with xvpool := BitVec.ofNat 64 (v % 2 ^ 42) }
            | _ => c.regs.sp } })
      h (after s 8))

/-! ## Traps, handlers and services -/

namespace Sys2Proof.Slice0

/-- The cause and code of the instructions whose effect is a trap (R222, R226). -/
def trapOf : Instr → Option (Hdr × Nat × Nat)
  | .brk h code => some (h, 0x14, code.toNat)
  | .trap h code => some (h, 0x13, code.toNat)
  | _ => none

/-- A doubleword of a core's frame, read under the job's key (R360, R400). -/
def frameWord (s : State) (j : Job) (core i : Nat) : Nat := leNat (s.devRead j.keySlot (j.framePa + 512 * core + 8 * i) 8)

end Sys2Proof.Slice0

namespace Sys2Proof.Slice0

/-- A command but for its translations and the output that it holds back (log 85). -/
def AtCut (x : Cmd) : Cmd := { x with regions := [], trans := [], out := none, gave := none }

/-- No overflow of a semaphore that is to be settled at the end of the cycle comes before a trap (R398). -/
def FirstTrap (s : State) (n : Nat) (t : Trap) : Prop := ∀ o ∈ s.overflowTraps n, t.origin ≤ o.origin

end Sys2Proof.Slice0

/-- R395, R397, R398, R400, R401, R405: a trap whose class the handler holds enters the handler: K goes on at the address
in hvec with its registers as they were, the other sequencers stay where they are, and every unit keeps its commands, the
one in execution as it stood, but for its translations, where no window and no tile is open; an output that it held back may
have gone out. The frame holds the cause word, the address and the four cut PCs. That the frame is read under the job's
key at its physical address is the model's reading (log 17), and so is the output (log 85). -/
def Obligations.HandlerEntry : Prop :=
  ∀ (s : State) (n : Nat) (t : Trap) (u : Option CUnit) (k : Machine.Task) (j : Job), (s.core n).task = some k →
    k.spec = false → s.job? (s.core n).job = some j → (s.core n).handler = false → FirstTrap s n t →
    (∃ b, (t.cause = 0x0D ∧ b = 0 ∨ t.cause = 0x0F ∧ b = 1 ∨ t.cause = 0x11 ∧ b = 2) ∧
      (s.core n).regs.sp.hvec.getLsbD b = true) →
    let s' := s.trapOn n t u
    let c := s.core n
    let c' := s'.core n
    c'.handler = true ∧ c'.regs.k.pc = BitVec.ofNat 64 (c.regs.sp.hvec.toNat / 8 * 8) ∧ c'.regs.k.cond = .run ∧
    (∀ r, c'.x r = c.x r) ∧ c'.regs.k.preds = c.regs.k.preds ∧
    c'.regs.l = c.regs.l ∧ c'.regs.c = c.regs.c ∧ c'.regs.s = c.regs.s ∧ c'.regs.sp = c.regs.sp ∧
    (∀ w, (c'.unit w).map (·.num) = (c.unit w).map (·.num)) ∧
    (∀ w, (∀ x ∈ (c.unit w).head?, x.wins = [] ∧ x.xv = []) →
      (c'.unit w).map AtCut = (c.unit w).map AtCut ∧
      ((∀ x ∈ (c.unit w).head?, x.out = none) →
        c'.unit w = (c.unit w).map fun x => { x with regions := [], trans := [] })) ∧
    frameWord s' j n 0 = t.cause % 256 + t.origin % 16 * 2 ^ 8 + (if t.straddle then 2 ^ 12 else 0) + 2 ^ 13 +
      t.reason % 256 * 2 ^ 16 + t.code % 65536 * 2 ^ 32 ∧
    frameWord s' j n 1 = t.addr.toNat ∧
    (∀ q, frameWord s' j n (2 + q.idx) = (c.cutPc q).toNat) ∧ frameWord s' j n 6 = t.ipc.toNat

/-- R395, R398, R407, R408: a trap that no handler takes ends the task of its core and fails its launch: the launch is
complete and cancelled, the queue that carried it stops with code 8, the cause and the launch, and an error record names
the job, the cause, the code and the launch. While a handler runs, a trap of a class that hvec holds is the nested trap
0x16. The form of the error record is the model's choice (log 13). -/
def Obligations.TrapFailsLaunch : Prop :=
  ∀ (s : State) (n : Nat) (t : Trap) (u : Option CUnit) (k : Machine.Task) (l : Launch) (g : Graph),
    (s.core n).task = some k → k.spec = false → s.launch? k.job k.launch = some l → l.complete = false →
    s.graph? k.job l.phase l.graph = some g → g.complete = false → FirstTrap s n t →
    let held := (s.core n).handles t.cause
    ((s.core n).handler = true ∨ held = false) →
    let s' := s.trapOn n t u
    let cause := if held then 0x16 else t.cause
    (s'.core n).task = none ∧
    (∃ e ∈ s'.errors, e.job = k.job ∧ e.cause = cause ∧ e.code = t.code ∧ e.launch = k.launch) ∧
    (∃ l', s'.launch? k.job k.launch = some l' ∧ l'.complete = true ∧ l'.cancelled = true) ∧
    (∀ q, s.queue? g.queue = some q → q.state = 1 → ∃ q', s'.queue? g.queue = some q' ∧ q'.state = 2 ∧ q'.code = 8 ∧
      q'.detail = cause % 65536 ∧ q'.errlaunch = BitVec.ofNat 64 k.launch)

/-- R223, R224, R406: HSET sets the handler's address and classes. RESUME returns from the handler: K goes on where the
cut found it, with its registers as the handler left them; outside a handler it raises cause 0x03. -/
def Obligations.HandlerInstructions : Prop :=
  (∀ (s : State) (h : Hdr) (b : BitVec 6) (classes : BitVec 3), wf s.cur.2 (.hset h b classes) = true → Ready s h →
    ((here s).x b).toNat % 8 = 0 →
    exec (.hset h b classes) s = .next (retire (onHere (popped s h) fun c => { c with regs := { c.regs with
      sp := { c.regs.sp with hvec := BitVec.ofNat 64 (((here s).x b).toNat + classes.toNat) } } }) h (after s 8))) ∧
  (∀ (s : State) (h : Hdr) (k : Cut), wf s.cur.2 (.resume h) = true → Ready s h → (here s).handler = true →
    (here s).cut = some k → ∃ t, exec (.resume h) s = .next t ∧ (here t).handler = false ∧ (here t).cut = none ∧
      (here t).regs.k.pc = k.kpc ∧ (here t).regs.k.cond = k.kcond ∧ (here t).regs.k.preds = (here s).regs.k.preds ∧
      (∀ r, (here t).x r = (here s).x r) ∧ (here t).regs.sp = (here s).regs.sp ∧ t.memory = s.memory) ∧
  (∀ (s : State) (h : Hdr), wf s.cur.2 (.resume h) = true → Ready s h → NotSpec s → (here s).handler = false →
    exec (.resume h) s = .next (trapped s { cause := 3 }))

/-- R222, R225, R226: BRK raises cause 0x14 and TRAP cause 0x13, with their codes; SYSC answers the firmware version,
the module's nanoseconds, or all ones for any other service. The version and the clock are free constants of the
module (log 8). -/
def Obligations.MachineCalls : Prop :=
  (∀ (s : State) (i : Instr) (h : Hdr) (cause code : Nat), wf s.cur.2 i = true → trapOf i = some (h, cause, code) →
    Ready s h → NotSpec s → exec i s = .next (trapped s { cause := cause, code := code })) ∧
  (∀ (s : State) (h : Hdr) (d b : BitVec 6) (n : BitVec 12), wf s.cur.2 (.sysc h d b n) = true → Ready s h → NotSpec s →
    exec (.sysc h d b n) s = .next (retire (onHere (popped s h) fun c => c.setX d
      (if n = 0 then Config.firmwareVersion else if n = 1 then Config.nanoseconds s.cycle else BitVec.allOnes 64))
      h (after s 8)))

/-! ## Scalar accesses -/

namespace Sys2Proof.Slice0

/-- The race check of a granule passes for the moving sequencer (R151). -/
def Covered (s : State) (g : Granule) : Prop :=
  let t := s.stamp g
  if t.agent.toNat = coreNo s
  then t.tag.toNat = s.cur.2.idx ∨ t.epoch.toNat ≤ (lget (mover s).lvec t.tag.toNat).toNat
  else t.epoch.toNat ≤ (cget 0 (here s).frontier t.agent.toNat).toNat

/-- The core and the scratchpad offset that a cluster offset names (R109). -/
def memberAt (s : State) (off : Nat) : Nat := coreNo s / 8 * 8 + off / 128 % 8
def localAt (off : Nat) : Nat := off / 1024 * 128 + off % 128

/-- A core whose scratchpad an access through CL may reach (R109, R417). -/
def Reachable (s : State) (m : Nat) : Prop :=
  ((s.core m).owner = none ∨ (s.core m).owner = some (here s).job) ∧ (m = coreNo s ∨ (s.core m).frozen = 0)

/-- The bytes that K's cache gives for a device address, if it holds its line (R97). -/
def cachedAt (s : State) (pa slot n : Nat) : Option (List Byte) :=
  (cfind (here s).stores.kcache (64 * (pa / 128) + slot)).map fun l => (l.drop (pa % 128)).take n

/-- An offset of the moving core's job lies in the argument page of task k on core c: the 64 KiB from the block that the
task's argbase names (R128, R206), which no other task of the job has. Where these pages lie, that each is 64 KiB with
zeros behind the block, and that another task of the job reads it too, are the model's choices (log 12). -/
structure ArgumentAt (s : State) (off c : Nat) (k : Machine.Task) : Prop where
  task : (s.core c).task = some k
  job : k.job = (here s).job
  page : (s.core c).regs.sp.argbase = BitVec.ofNat 64 (2 * 2 ^ 60 + off / 65536 * 65536)
  only : ∀ c' k', (s.core c').task = some k' → k'.job = (here s).job →
    (s.core c').regs.sp.argbase = (s.core c).regs.sp.argbase → c' = c

/-- The n bytes at an address, as an access of the moving core reads them without a fault: its scratchpad, the
cluster's, the sync window, the argument page of a task of its job (log 12), or device memory outside such pages. A copy
in K's cache counts unless fresh is set, or the path is N (R94 to R97, R108, R109, R121, R206). -/
inductive Loaded (s : State) (fresh : Bool) (va : Word) (n : Nat) : List Byte → Prop where
  | scratch : pathOf va = 4 → offOf va ≤ 0x17FFFF → Covered s (.sp (coreNo s) (offOf va / 128)) →
      (here s).spPoisoned (offOf va) n = false → Loaded s fresh va n ((here s).spBytes (offOf va) n)
  | cluster (m o : Nat) : pathOf va = 5 → offOf va ≤ 0xBFFFFF → m = memberAt s (offOf va) → o = localAt (offOf va) →
      Reachable s m → Covered s (.sp m (o / 128)) → (s.core m).spPoisoned o n = false →
      Loaded s fresh va n ((s.core m).spBytes o n)
  | window (b : Nat) : pathOf va = 7 → swByte (offOf va) = some b → Loaded s fresh va n (bytesAt s.memory.sw b n)
  | argument (c : Nat) (k : Machine.Task) : pathOf va ≤ 2 → ArgumentAt s (offOf va) c k →
      Loaded s fresh va n ((List.range n).map fun i => k.args.getD (offOf va % 65536 + i) 0)
  | device (pa slot : Nat) (chk : Bool) : pathOf va ≤ 2 →
      (∀ c k, (s.core c).task = some k → k.job = (here s).job →
        (s.core c).regs.sp.argbase ≠ BitVec.ofNat 64 (2 * 2 ^ 60 + offOf va / 65536 * 65536)) →
      s.translate (here s).job (offOf va) .read = .ok (pa, slot, chk) → (chk = true → Covered s (.dev (pa / 128))) →
      s.devPoison pa n = false →
      Loaded s fresh va n
        (if fresh = true ∨ pathOf va = 1 then s.devRead slot pa n
         else (cachedAt s pa slot n).getD (s.devRead slot pa n))

/-- The value of a load (R218): the bytes, lowest-addressed least significant, zero- or sign-extended. -/
def loadedValue (w : MWidth) (bs : List Byte) : Word :=
  if w.zext then BitVec.ofNat 64 (leNat bs)
  else (BitVec.ofNat (8 * 2 ^ w.log2.toNat) (leNat bs)).signExtend 64

def widthOf (w : MWidth) : Nat := 2 ^ w.log2.toNat

/-- An acquire at .clu or wider, which discards K's cache (R133). -/
def discards : Option Scope → Bool
  | some .clu | some .die | some .dev | some .sys => true
  | some .seq | some .core | none => false

/-- No earlier access of the moving sequencer, not yet performed, comes before one of its own (R129 to R131). -/
def NoneFirst (s : State) (writes : Bool) (va : Word) (n : Nat) : Prop :=
  s.heldScalar (coreNo s) s.cur.2 ⟨pathOf va, writes, some [(va, n)]⟩ = false

/-- What a load leaves: no register but its destination, no predicate, no special register, no byte of any
store. -/
structure LoadFrame (s t : State) : Prop where
  pred : ∀ q p, (here t).pred q p = (here s).pred q p
  special : (here t).regs.sp = (here s).regs.sp
  memory : t.memory = s.memory
  scratch : ∀ n, (t.core n).stores.sp = (s.core n).stores.sp
  acc : ∀ n, (t.core n).stores.acc = (s.core n).stores.acc

end Sys2Proof.Slice0

/-- R97, R133, R217, R218, R231: LD at an aligned address reads its bytes and extends them into its destination; LDA reads
through the paths that tiles use, past K's cache, into an a register, once its sequencer's earlier accesses that come first
are performed. What the cache gives and when an acquire empties it are the model's reading (logs 10, 19); the clauses of an
argument page, and that device memory lies outside such pages, are the model's choice (log 12). LDA through XV is not
stated here. -/
def Obligations.LoadResult : Prop :=
  (∀ (s : State) (h : Hdr) (acq : Option Scope) (w : MWidth) (d b : BitVec 6) (disp : BitVec 18) (bs : List Byte),
    wf s.cur.2 (.ld h acq w d b disp) = true → Ready s h → NotSpec s →
    let va := (here s).x b + BitVec.ofInt 64 disp.toInt
    va.toNat % widthOf w = 0 → (pathOf va = 7 → 4 ≤ widthOf w) → Loaded s (discards acq) va (widthOf w) bs →
    ∃ t, exec (.ld h acq w d b disp) s = .next t ∧ (here t).x d = (if d = 0 then 0 else loadedValue w bs) ∧
      (∀ r, r ≠ d → (here t).x r = (here s).x r) ∧ LoadFrame s t) ∧
  (∀ (s : State) (h : Hdr) (w : MWidth) (d b : BitVec 5) (disp : BitVec 18) (bs : List Byte),
    wf s.cur.2 (.lda h w d b disp) = true → Ready s h → NotSpec s →
    let va := (here s).a s.cur.2 b + BitVec.ofInt 64 disp.toInt
    va.toNat % widthOf w = 0 → (pathOf va = 0 ∨ pathOf va = 1 ∨ pathOf va = 4 ∨ pathOf va = 5) →
    NoneFirst (popped s h) false va (widthOf w) → Loaded s true va (widthOf w) bs →
    ∃ t, exec (.lda h w d b disp) s = .next t ∧ (here t).a s.cur.2 d = loadedValue w bs ∧
      (∀ q r, (q ≠ s.cur.2 ∨ r ≠ d) → (here t).a q r = (here s).a q r) ∧ (∀ r, (here t).x r = (here s).x r) ∧
      LoadFrame s t)

/-- R220, R221: LDM reads consecutive doublewords into consecutive registers, from f up; x0 stays 0. Stated where a
copy in K's cache holds what memory holds, so that the place a line leaves the cache from does not matter. The premise
on K's cache rests on the model's reading of the cache (log 10). -/
def Obligations.LoadMultiple : Prop :=
  ∀ (s : State) (h : Hdr) (acq : Option Scope) (zext : Bool) (f b cnt : BitVec 6) (disp : BitVec 18)
    (ws : Nat → List Byte), wf s.cur.2 (.ldm h acq zext f b cnt disp) = true → Ready s h → NotSpec s →
    let va := (here s).x b + BitVec.ofInt 64 disp.toInt
    va.toNat % 8 = 0 → (∀ i, i ≤ cnt.toNat → Loaded s true (va + BitVec.ofNat 64 (8 * i)) 8 (ws i)) →
    (∀ pa slot l, pa % 8 = 0 → cachedAt s pa slot 8 = some l → l = s.devRead slot pa 8) →
    ∃ t, exec (.ldm h acq zext f b cnt disp) s = .next t ∧
      (∀ r : BitVec 6, (here t).x r = if r = 0 then 0
        else if f.toNat ≤ r.toNat ∧ r.toNat ≤ f.toNat + cnt.toNat then BitVec.ofNat 64 (leNat (ws (r.toNat - f.toNat)))
        else (here s).x r) ∧ LoadFrame s t

namespace Sys2Proof.Slice0

/-- Where the bytes of a store come to stand. -/
inductive Target where
  | sp (core off : Nat) | sw (byte : Nat) | dev (pa slot : Nat)

/-- The core's next checked write has an epoch to advance to (R148, R158). -/
def CanStamp (s : State) : Prop :=
  ¬ (s.pending (here s).job (coreNo s) = true ∧ s.epoch (here s).job (coreNo s) = 0x7FFFFF)

/-- The place that a store of a kind to an address reaches without a fault (R94 to R100, R108, R109, R121, R151). -/
inductive StoresTo (s : State) (kind : AKind) (va : Word) : Target → Prop where
  | scratch : pathOf va = 4 → offOf va ≤ 0x17FFFF → Covered s (.sp (coreNo s) (offOf va / 128)) → CanStamp s →
      StoresTo s kind va (.sp (coreNo s) (offOf va))
  | cluster (m o : Nat) : pathOf va = 5 → offOf va ≤ 0xBFFFFF → m = memberAt s (offOf va) → o = localAt (offOf va) →
      Reachable s m → Covered s (.sp m (o / 128)) → CanStamp s → StoresTo s kind va (.sp m o)
  | window (b : Nat) : pathOf va = 7 → swByte (offOf va) = some b → StoresTo s kind va (.sw b)
  | device (pa slot : Nat) (chk : Bool) : pathOf va ≤ 1 →
      s.translate (here s).job (offOf va) kind = .ok (pa, slot, chk) →
      (chk = true → Covered s (.dev (pa / 128)) ∧ CanStamp s) → StoresTo s kind va (.dev pa slot)

/-- The key that a slot holds. -/
def keyAt (s : State) (slot : Nat) : BitVec 512 := (s.keyOf slot).getD 0

/-- The bytes stand at their target, and every other byte reads as before: of device memory under the key of the
store, of the sync window, and of every scratchpad. -/
def Wrote (s t : State) (p : Target) (bs : List Byte) : Prop :=
  match p with
  | .sp c o =>
    (∀ i, (hi : i < bs.length) → byteAt (t.core c).stores.sp (o + i) = bs[i]) ∧
    (∀ a, a < o ∨ o + bs.length ≤ a → byteAt (t.core c).stores.sp a = byteAt (s.core c).stores.sp a) ∧
    (∀ m, m ≠ c → (t.core m).stores.sp = (s.core m).stores.sp) ∧ t.memory.mem = s.memory.mem ∧
    t.memory.sw = s.memory.sw
  | .sw b =>
    (∀ i, (hi : i < bs.length) → byteAt t.memory.sw (b + i) = bs[i]) ∧
    (∀ a, a < b ∨ b + bs.length ≤ a → byteAt t.memory.sw a = byteAt s.memory.sw a) ∧
    (∀ m, (t.core m).stores.sp = (s.core m).stores.sp) ∧ t.memory.mem = s.memory.mem
  | .dev pa slot =>
    (∀ i, (hi : i < bs.length) → t.devByte (keyAt s slot) (pa + i) = bs[i]) ∧
    (∀ a, a < pa ∨ pa + bs.length ≤ a → t.devByte (keyAt s slot) a = s.devByte (keyAt s slot) a) ∧
    (∀ m, (t.core m).stores.sp = (s.core m).stores.sp) ∧ t.memory.sw = s.memory.sw

/-- What a store leaves: every register, predicate and special register. -/
structure StoreFrame (s t : State) : Prop where
  x : ∀ r, (here t).x r = (here s).x r
  a : ∀ q r, (here t).a q r = (here s).a q r
  pred : ∀ q p, (here t).pred q p = (here s).pred q p
  special : (here t).regs.sp = (here s).regs.sp
  acc : ∀ n, (t.core n).stores.acc = (s.core n).stores.acc

/-- A release of K need not wait: no command of its core that writes memory is left to perform (R133). -/
def NoWriters (s : State) : Prop := (here s).unperformed = []

/-- The address of a slot below the reserved length of a descriptor with these extents (R331). -/
def slotAddress : List Extent → Nat → Option Word
  | [], _ => none
  | e :: r, n => if n < e.slots then some (BitVec.ofNat 64 (e.base.toNat + n * e.stride)) else slotAddress r (n - e.slots)

end Sys2Proof.Slice0

/-- R97, R217, R218, R219, R231, R336: ST at an aligned address writes the low bytes of its source, least significant
first; STA writes through the paths that tiles use, once its sequencer's earlier accesses that come first are performed, and
stalls before; ST.coil writes into a reserved slot that is not yet committed, at an
offset within the slot. -/
def Obligations.StoreResult : Prop :=
  (∀ (s : State) (h : Hdr) (rel : Option Scope) (w : MWidth) (r b : BitVec 6) (disp : BitVec 18) (p : Target),
    wf s.cur.2 (.st h rel w r b disp) = true → Ready s h → NotSpec s → (rel ≠ none → NoWriters s) →
    let va := (here s).x b + BitVec.ofInt 64 disp.toInt
    va.toNat % widthOf w = 0 → (pathOf va = 7 → 4 ≤ widthOf w) → StoresTo s .write va p →
    ∃ t, exec (.st h rel w r b disp) s = .next t ∧ Wrote s t p (leBytes (widthOf w) ((here s).x r).toNat) ∧
      StoreFrame s t) ∧
  (∀ (s : State) (h : Hdr) (w : MWidth) (r b : BitVec 5) (disp : BitVec 18) (p : Target),
    wf s.cur.2 (.sta h w r b disp) = true → Ready s h → NotSpec s →
    let va := (here s).a s.cur.2 b + BitVec.ofInt 64 disp.toInt
    va.toNat % widthOf w = 0 → pathOf va ≠ 7 → StoresTo s .write va p →
    (NoneFirst (popped s h) true va (widthOf w) →
      ∃ t, exec (.sta h w r b disp) s = .next t ∧ Wrote s t p (leBytes (widthOf w) ((here s).a s.cur.2 r).toNat) ∧
        StoreFrame s t) ∧
    (¬ NoneFirst (popped s h) true va (widthOf w) → exec (.sta h w r b disp) s = .next s.stalled)) ∧
  (∀ (s : State) (h : Hdr) (w : MWidth) (r b c : BitVec 6) (off : BitVec 18) (co : Coil) (a : Word) (p : Target),
    wf s.cur.2 (.stCoil h w r b c off) = true → Ready s h → NotSpec s →
    s.coil? ((here s).x b) = some co → co.c ≤ ((here s).x c).toNat → ((here s).x c).toNat < co.r →
    slotAddress co.extents ((here s).x c).toNat = some a →
    off.toNat % widthOf w = 0 → off.toNat + widthOf w ≤ 2 ^ co.log2 →
    StoresTo s .coil (a + BitVec.ofNat 64 off.toNat) p →
    ∃ t, exec (.stCoil h w r b c off) s = .next t ∧ Wrote s t p (leBytes (widthOf w) ((here s).x r).toNat) ∧
      StoreFrame s t)

/-- R220, R221: STM writes consecutive registers from f up, lowest address first. Stated for the scratchpad and the
sync window: a store to device memory could change the tables that a later word is translated through. -/
def Obligations.StoreMultiple : Prop :=
  ∀ (s : State) (h : Hdr) (rel : Option Scope) (zext : Bool) (f b cnt : BitVec 6) (disp : BitVec 18) (p : Target),
    wf s.cur.2 (.stm h rel zext f b cnt disp) = true → Ready s h → NotSpec s → (rel ≠ none → NoWriters s) →
    let va := (here s).x b + BitVec.ofInt 64 disp.toInt
    va.toNat % 8 = 0 → StoresTo s .write va p →
    (match p with
      | .sp c o => c = coreNo s ∧ pathOf va = 4 ∧ o + 8 * (cnt.toNat + 1) ≤ 0x180000 ∧
          ∀ i, i ≤ cnt.toNat → Covered s (.sp c ((o + 8 * i) / 128))
      | .sw o => ∀ i, i ≤ cnt.toNat → swByte (offOf va + 8 * i) = some (o + 8 * i)
      | .dev _ _ => False) →
    ∃ t, exec (.stm h rel zext f b cnt disp) s = .next t ∧
      Wrote s t p ((List.range (cnt.toNat + 1)).flatMap fun i => leBytes 8 ((here s).x (f + BitVec.ofNat 6 i)).toNat) ∧
      StoreFrame s t

/-- R192, R216, R218, R220, R231: an indirect jump to an address that is no multiple of 8, and an access that is not
aligned to its width, raise cause 0x04 and do nothing else. The frame's address field is 0 for them (R400, log 66). -/
def Obligations.MisalignedTraps : Prop :=
  (∀ (s : State) (i : Instr) (b : BitVec 6), wf s.cur.2 i = true → jumpReg i = some b → Ready s (headerOf i) →
    NotSpec s → ((here s).x b).toNat % 8 ≠ 0 →
    exec i s = .next (trapped s { cause := 4 })) ∧
  (∀ (s : State) (h : Hdr) (w : MWidth) (r b : BitVec 6) (d e : BitVec 5) (z : Bool) (cnt : BitVec 6) (disp : BitVec 18),
    Ready s h → NotSpec s →
    let k := (here s).x b + BitVec.ofInt 64 disp.toInt
    let l := (here s).a s.cur.2 e + BitVec.ofInt 64 disp.toInt
    (s.cur.2 = .k → k.toNat % widthOf w ≠ 0 →
      exec (.ld h none w r b disp) s = .next (trapped s { cause := 4 }) ∧
      exec (.st h none w r b disp) s = .next (trapped s { cause := 4 })) ∧
    (s.cur.2 = .k → k.toNat % 8 ≠ 0 →
      exec (.ldm h none z r b cnt disp) s = .next (trapped s { cause := 4 }) ∧
      exec (.stm h none z r b cnt disp) s = .next (trapped s { cause := 4 })) ∧
    (s.cur.2 = .l ∨ s.cur.2 = .s → l.toNat % widthOf w ≠ 0 →
      exec (.lda h w d e disp) s = .next (trapped s { cause := 4 }) ∧
      exec (.sta h w d e disp) s = .next (trapped s { cause := 4 })))

namespace Sys2Proof.Slice0

/-- The stores of K (R218 to R220). -/
def isStore : Instr → Bool
  | .st .. | .stm .. | .stCoil .. => true
  | _ => false

end Sys2Proof.Slice0

/-- R391, R392: while a task runs on prediction, no store of K (ST, STM, ST.coil) changes device memory or the sync
window. -/
def Obligations.SpeculativeStoresStayLocal : Prop :=
  ∀ (s t : State) (i : Instr), s.cur.2 = .k → isStore i = true → (s.specOn (coreNo s)).isSome = true →
    exec i s = .next t → t.memory.mem = s.memory.mem ∧ t.memory.sw = s.memory.sw

/-! ## Atomics, waiting and barriers -/

namespace Sys2Proof.Slice0

/-- The value of a sync word: in device memory under a key slot, in the sync window, or in an argument page. -/
def wordAt (s : State) (a : SyncAt) (n : Nat) : Nat :=
  match a with
  | .dev pa slot => leNat (s.devRead slot pa n)
  | .sw b => leNat (bytesAt s.memory.sw b n)
  | .arg _ v => v.toNat % 2 ^ (8 * n)

/-- The word that the address of an atomic, a wait or a signal names (R313, R316): device memory through G, translated
for a kind of access, the sync window, or, for a read, an argument page (R128). -/
inductive SyncWord (s : State) (kind : AKind) (va : Word) : SyncAt → Prop where
  | window (b : Nat) : pathOf va = 7 → swByte (offOf va) = some b → SyncWord s kind va (.sw b)
  | argument (c : Nat) (k : Machine.Task) : kind = .read → pathOf va = 0 → ArgumentAt s (offOf va) c k →
      SyncWord s kind va (.arg (offOf va) (BitVec.ofNat 64 (leNat ((List.range 8).map fun i =>
        k.args.getD (offOf va % 65536 + i) 0))))
  | device (pa slot : Nat) (chk : Bool) : pathOf va = 0 →
      (kind = .read → ∀ c k, (s.core c).task = some k → k.job = (here s).job →
        (s.core c).regs.sp.argbase ≠ BitVec.ofNat 64 (2 * 2 ^ 60 + offOf va / 65536 * 65536)) →
      s.translate (here s).job (offOf va) kind = .ok (pa, slot, chk) → SyncWord s kind va (.dev pa slot)

/-- A word of n bytes without a poison mark. -/
def Sound (s : State) (a : SyncAt) (n : Nat) : Prop := ∀ pa slot, a = .dev pa slot → s.devPoison pa n = false

/-- New value of an atomic on 8n-bit values o and v (R315). -/
def newValue (n : Nat) (op : AmOp) (o v : Nat) : Nat :=
  let m := 2 ^ (8 * n)
  let so := (BitVec.ofNat (8 * n) o).toInt
  let sv := (BitVec.ofNat (8 * n) v).toInt
  match op with
  | .add => (o + v) % m
  | .and => o &&& v
  | .or => o ||| v
  | .xor => o ^^^ v
  | .min => if so ≤ sv then o else v
  | .max => if sv ≤ so then o else v
  | .minn => if o ≤ v then o else v
  | .maxn => if v ≤ o then o else v
  | .fadd => (addF fmt32 (unpackF fmt32 o) (unpackF fmt32 v)).1

def widthW (w4 : Bool) : Nat := if w4 then 4 else 8

/-- The registers but one, the predicates and the special registers stay. -/
structure Registers (s t : State) (d : Option (BitVec 6)) : Prop where
  x : ∀ r, d ≠ some r → (here t).x r = (here s).x r
  pred : ∀ q p, (here t).pred q p = (here s).pred q p
  special : (here t).regs.sp = (here s).regs.sp

/-- No registered waiter is there to be tested. -/
def NoWaiters (s : State) : Prop := s.memory.waiters = []

/-- A release is not held up. -/
def orderFree (s : State) : AmOrd → Prop
  | .rel _ => NoWriters s
  | .none | .acq _ => True

end Sys2Proof.Slice0

/-- R315 to R318: AMO gives the new value to the word and the old one to its destination. AMOC writes its new value where
the word equals the expected one, and gives the old value either way. AMRED gives the word its new value and writes
no register, on a poisoned word too. -/
def Obligations.AtomicResults : Prop :=
  (∀ (s : State) (h : Hdr) (op : AmoOp) (ord : AmOrd) (w4 : Bool) (d b c : BitVec 6) (a : SyncAt),
    wf s.cur.2 (.amo h op ord w4 d b c) = true → Ready s h → NotSpec s → orderFree s ord → NoWaiters s →
    ((here s).x b).toNat % widthW w4 = 0 → SyncWord s .write ((here s).x b) a → Sound s a (widthW w4) →
    ∃ t, exec (.amo h op ord w4 d b c) s = .next t ∧
      (here t).x d = (if d = 0 then 0 else BitVec.ofNat 64 (wordAt s a (widthW w4))) ∧
      wordAt t a (widthW w4) = (match op with
        | .plain p => newValue (widthW w4) p (wordAt s a (widthW w4)) (((here s).x c).toNat % 2 ^ (8 * widthW w4))
        | .swap => ((here s).x c).toNat % 2 ^ (8 * widthW w4)) ∧
      Registers s t (some d)) ∧
  (∀ (s : State) (h : Hdr) (ord : AmOrd) (w4 : Bool) (d b c : BitVec 6) (a : SyncAt),
    wf s.cur.2 (.amoc h ord w4 d b c) = true → Ready s h → NotSpec s → orderFree s ord → NoWaiters s →
    ((here s).x b).toNat % widthW w4 = 0 → SyncWord s .write ((here s).x b) a → Sound s a (widthW w4) →
    let o := wordAt s a (widthW w4)
    let m := 2 ^ (8 * widthW w4)
    ∃ t, exec (.amoc h ord w4 d b c) s = .next t ∧ (here t).x d = (if d = 0 then 0 else BitVec.ofNat 64 o) ∧
      wordAt t a (widthW w4) = (if o = ((here s).x d).toNat % m then ((here s).x c).toNat % m else o) ∧
      Registers s t (some d)) ∧
  (∀ (s : State) (h : Hdr) (op : AmOp) (rel : Option Scope) (w4 : Bool) (b c : BitVec 6) (a : SyncAt),
    wf s.cur.2 (.amred h op rel w4 b c) = true → Ready s h → NotSpec s → (rel ≠ none → NoWriters s) → NoWaiters s →
    ((here s).x b).toNat % widthW w4 = 0 → SyncWord s .write ((here s).x b) a →
    ∃ t, exec (.amred h op rel w4 b c) s = .next t ∧
      wordAt t a (widthW w4) =
        newValue (widthW w4) op (wordAt s a (widthW w4)) (((here s).x c).toNat % 2 ^ (8 * widthW w4)) ∧
      Registers s t none)

namespace Sys2Proof.Slice0

/-- n doublewords that stand from an address on, each as a list, an entry or a packet is read; a copy in K's cache
holds what memory holds. -/
structure ListAt (s : State) (va : Word) (n : Nat) (ws : Nat → Nat) : Prop where
  words : ∀ i, i < n → let a := va + BitVec.ofNat 64 (8 * i)
    (pathOf a ≤ 2 ∨ pathOf a = 4) ∧ ∃ bs, Loaded s true a 8 bs ∧ leNat bs = ws i
  cached : ∀ pa slot l, pa % 8 = 0 → cachedAt s pa slot 8 = some l → l = s.devRead slot pa 8

/-- Two doublewords that are one or do not overlap; those of device memory stand under one key slot. -/
def apart : SyncAt → SyncAt → Prop
  | .dev p s, .dev q s' => s = s' ∧ (p = q ∨ p + 8 ≤ q ∨ q + 8 ≤ p)
  | .sw p, .sw q => p = q ∨ p + 8 ≤ q ∨ q + 8 ≤ p
  | _, _ => True

end Sys2Proof.Slice0

/-- R319: AVEC performs one atomic ADD or OR for each entry of its list, on the word that the entry names; in its bit
form an entry names a bit of a bitmap. A target that several entries name receives one operation for each. Stated
where a copy in K's cache holds what memory holds. The premise on K's cache rests on the model's reading of the cache
(log 10). -/
def Obligations.VectorAtomic : Prop :=
  ∀ (s : State) (h : Hdr) (isAdd bits : Bool) (rel : Option Scope) (cnt b c : BitVec 6) (ws : Nat → Nat)
    (a : Nat → SyncAt), wf s.cur.2 (.avec h isAdd bits rel cnt b c) = true → Ready s h → NotSpec s →
    (rel ≠ none → NoWriters s) → NoWaiters s → ((here s).x b).toNat % 8 = 0 →
    (bits = true → ((here s).x c).toNat % 8 = 0 ∧ (pathOf ((here s).x c) = 0 ∨ pathOf ((here s).x c) = 7)) → ListAt s ((here s).x b) (cnt.toNat + 1) ws →
    let x := (here s).x c
    let target (i : Nat) : Word := if bits then BitVec.ofNat 64 (x.toNat + ws i / 64 * 8) else BitVec.ofNat 64 (ws i)
    let value (i : Nat) : Nat := if bits then 2 ^ (ws i % 64) else x.toNat
    (∀ i, i ≤ cnt.toNat → (target i).toNat % 8 = 0 ∧ SyncWord s .write (target i) (a i)) →
    (∀ i j, i ≤ cnt.toNat → j ≤ cnt.toNat → apart (a i) (a j)) →
    ∃ t, exec (.avec h isAdd bits rel cnt b c) s = .next t ∧ Registers s t none ∧
      ∀ i, i ≤ cnt.toNat → wordAt t (a i) 8 =
        ((List.range (cnt.toNat + 1)).filter fun j => a j = a i).foldl
          (fun o j => newValue 8 (if isAdd then .add else .or) o (value j)) (wordAt s (a i) 8)

namespace Sys2Proof.Slice0

/-- A task whose other sequencers have ended and whose units are empty may wait (R57, R59): its live mask names no x0
and at most 24 registers, and the die that keeps its launch's continuations has room for one more (R58, log 65). -/
structure MayWait (s : State) (mask : Word) (k : Machine.Task) (j : Job) (l : Launch) : Prop where
  task : (here s).task = some k
  job : s.job? k.job = some j
  launch : cfind j.launches k.launch = some l
  noHandler : (here s).handler = false
  noX0 : mask.getLsbD 0 = false
  few : ((List.range 64).filter fun i => mask.getLsbD i).length ≤ 24
  parked : ∀ q, q ≠ .k → ((here s).seq q).cond = .ended
  idle : ∀ u, (here s).unit u = []
  room : s.contsOn (l.dieSet.headD 0) < contCap

/-- R49, R57, R58, R60: what a task that waits leaves: its core is free, and its launch holds a continuation that
resumes K at an address with the live registers. -/
structure Waiting (s t : State) (k : Machine.Task) (mask pc : Word) (kind : Nat) (st : ContState) : Prop where
  gone : (here t).task = none
  record : ∃ l, t.launch? k.job k.launch = some l ∧ ∃ r ∈ l.conts, r.kpc = pc ∧ r.live = mask ∧ r.stage = k.stage ∧
    r.kind = kind ∧ r.entry = k.entry ∧ r.state = st ∧
    r.xs = ((List.range 64).filter fun i => mask.getLsbD i).map fun i => (here s).x (BitVec.ofNat 6 i)

end Sys2Proof.Slice0

/-- R321, R322: WAITA ends its task with a continuation behind it; where the condition holds the continuation is
ready, else the word gets a waiter. -/
def Obligations.WaitOnWord : Prop :=
  ∀ (s : State) (h : Hdr) (cond : Cond) (w4 : Bool) (x b c : BitVec 6) (a : SyncAt) (k : Machine.Task) (j : Job)
    (l : Launch), wf s.cur.2 (.waita h cond w4 x b c) = true → Ready s h → NotSpec s →
    MayWait s ((here s).x c) k j l → ((here s).x b).toNat % widthW w4 = 0 → SyncWord s .read ((here s).x b) a →
    Sound s a (widthW w4) →
    let met := if w4 then holds cond (BitVec.ofNat 32 (wordAt s a 4)) (((here s).x x).setWidth 32)
      else holds cond (BitVec.ofNat 64 (wordAt s a 8)) ((here s).x x)
    ∃ t, exec (.waita h cond w4 x b c) s = .next t ∧
      Waiting s t k ((here s).x c) ((mover s).pc + 8) 1 (if met then .ready else .waiting) ∧
      t.memory.sw = s.memory.sw ∧ t.memory.mem = s.memory.mem ∧
      t.memory.waiters.length = s.memory.waiters.length + (if met then 0 else 1)

namespace Sys2Proof.Slice0

/-- The condition of a registered waiter holds for the sound word that it waits on (R321, R322); a waiter for a phase has
none. -/
def Met (s : State) (w : Waiter) : Prop :=
  match w.waits with
  | .cond c w4 v => Sound s w.at (widthW w4) ∧
      (if w4 then holds c (BitVec.ofNat 32 (wordAt s w.at 4)) (v.setWidth 32)
        else holds c (BitVec.ofNat 64 (wordAt s w.at 8)) v) = true
  | .phase _ => False

end Sys2Proof.Slice0

/-- R322, R323: SIGA tests the waiters that are registered at its word and changes no byte: a waiter whose condition
holds leaves the list, and its continuation is ready; every other waiter stays. -/
def Obligations.SignalWord : Prop :=
  ∀ (s : State) (h : Hdr) (b : BitVec 6) (a : SyncAt), wf s.cur.2 (.siga h b) = true → Ready s h → NotSpec s →
    NoWriters s → ((here s).x b).toNat % 4 = 0 → SyncWord s .write ((here s).x b) a →
    ∃ t, exec (.siga h b) s = .next t ∧ t.memory.mem = s.memory.mem ∧ t.memory.sw = s.memory.sw ∧
      Registers s t none ∧ (∀ w ∈ t.memory.waiters, w ∈ s.memory.waiters) ∧
      (∀ w ∈ s.memory.waiters, (w.place ≠ a.byte ∨ w.sw ≠ a.isSw ∨ ¬ Met s w) → w ∈ t.memory.waiters) ∧
      (∀ w ∈ s.memory.waiters, w.place = a.byte → w.sw = a.isSw → Met s w →
        w ∉ t.memory.waiters ∧
        ∀ l, s.launch? w.job w.launch = some l → ∃ l', t.launch? w.job w.launch = some l' ∧
          l'.conts.length = l.conts.length ∧ ∀ r ∈ l'.conts, r.id = w.cont → r.state = .ready)

namespace Sys2Proof.Slice0

/-- The fields of a barrier's word (R324): expected, arrived, drops and phase, from bit 0 up. -/
def barrierField (s : State) (o i : Nat) : Nat := wordAt s (.sw o) 8 / 2 ^ (16 * i) % 2 ^ 16

/-- Whether the barrier instruction drops its member. -/
def arrival : Instr → Option (Hdr × BitVec 6 × Nat)
  | .bara h b => some (h, b, 0)
  | .bard h b => some (h, b, 1)
  | _ => none

end Sys2Proof.Slice0

/-- R325, R326, R328: BARI sets up a barrier for a count of 1 to 65,535 in a word that no task waits on. An arrival counts
one member, and a drop counts one fewer from the next phase on; the last arrival of a phase begins the next one with
no member arrived. The task's arrival record holds the phase it counted in. -/
def Obligations.BarrierArrival : Prop :=
  (∀ (s : State) (h : Hdr) (b c : BitVec 6) (o : Nat), wf s.cur.2 (.bari h b c) = true → Ready s h → NotSpec s →
    NoWaiters s → ((here s).x b).toNat % 8 = 0 → pathOf ((here s).x b) = 7 →
    swByte (offOf ((here s).x b)) = some o → 1 ≤ ((here s).x c).toNat → ((here s).x c).toNat ≤ 65535 →
    ∃ t, exec (.bari h b c) s = .next t ∧ wordAt t (.sw o) 8 = ((here s).x c).toNat ∧
      t.memory.mem = s.memory.mem ∧ Registers s t none) ∧
  (∀ (s : State) (i : Instr) (h : Hdr) (b : BitVec 6) (drop o : Nat), wf s.cur.2 i = true →
    arrival i = some (h, b, drop) → Ready s h → NotSpec s → NoWriters s → NoWaiters s →
    ((here s).x b).toNat % 8 = 0 → pathOf ((here s).x b) = 7 → swByte (offOf ((here s).x b)) = some o →
    let expect := barrierField s o 0
    let arrived := barrierField s o 1
    let drops := barrierField s o 2
    let phase := barrierField s o 3
    1 ≤ expect → arrived < expect → drops + drop ≤ expect →
    ∃ t, exec i s = .next t ∧ (here t).arrival = some ((here s).x b, BitVec.ofNat 16 phase) ∧
      (if arrived + 1 = expect
        then barrierField t o 0 = expect - (drops + drop) ∧ barrierField t o 1 = 0 ∧ barrierField t o 2 = 0 ∧
          barrierField t o 3 = (phase + 1) % 65536
        else barrierField t o 0 = expect ∧ barrierField t o 1 = arrived + 1 ∧
          barrierField t o 2 = (drops + drop) % 65536 ∧ barrierField t o 3 = phase) ∧ Registers s t none)

/-- R327: BARW goes on at once where the barrier's phase is no longer the one of the task's arrival, and else ends its
task with a continuation behind it. -/
def Obligations.BarrierWait : Prop :=
  ∀ (s : State) (h : Hdr) (b c : BitVec 6) (o : Nat) (k : Machine.Task) (j : Job) (l : Launch) (phase : BitVec 16),
    wf s.cur.2 (.barw h b c) = true → Ready s h → NotSpec s → MayWait s ((here s).x c) k j l →
    ((here s).x b).toNat % 8 = 0 → pathOf ((here s).x b) = 7 → swByte (offOf ((here s).x b)) = some o →
    (here s).arrival = some ((here s).x b, phase) →
    ∃ t, exec (.barw h b c) s = .next t ∧ t.memory.sw = s.memory.sw ∧ t.memory.mem = s.memory.mem ∧
      (if barrierField s o 3 ≠ phase.toNat ∨ barrierField s o 0 = 0
        then (here t).task = some k ∧ t.memory.waiters = s.memory.waiters ∧ Registers s t none
        else Waiting s t k ((here s).x c) ((mover s).pc + 8) 2 .waiting ∧
          t.memory.waiters.length = s.memory.waiters.length + 1)

/-- R132, R204, R329: a fence of any kind and scope goes on once its sequencer's commands have retired, and stalls before.
AFENCE over ranges of the scratchpad goes on once its sequencer's commands have retired, and changes no byte. That waiting
for commands to retire is what a fence asks for is the model's reading (log 46). -/
def Obligations.Fences : Prop :=
  (∀ (s : State) (h : Hdr) (kind : FenceKind) (scope : Scope), Ready s h →
    exec (.fence h kind scope) s = .next (if (mover s).live = [] then retire (popped s h) h (after s 8) else s.stalled)) ∧
  (∀ (s : State) (h : Hdr) (b c : BitVec 6), wf s.cur.2 (.afence h b c) = true → Ready s h →
    (mover s).live = [] → pathOf ((here s).x b) = 4 → offOf ((here s).x b) ≤ 0x17FFFF →
    pathOf ((here s).x c) = 4 → offOf ((here s).x c) ≤ 0x17FFFF →
    ∃ t, exec (.afence h b c) s = .next t ∧ t.memory = s.memory ∧ (here t).stores = (here s).stores ∧
      Registers s t none)

/-! ## Coils (R330 to R340) -/

/-- R330, R335, R339: CNEW gives the handle of a free descriptor of the core's die: an empty coil of the job, with slots
of 2^(6+size) bytes. CDROP frees its descriptor at once: the handle names no coil from then on, and the release of its
blocks is due. -/
def Obligations.CoilLifetime : Prop :=
  (∀ (s : State) (h : Hdr) (d : BitVec 6) (size : BitVec 4) (key : Nat), wf s.cur.2 (.cnew h d size) = true →
    Ready s h → NotSpec s → s.freeDescriptor (coreNo s / 56) = some key → key < 2 ^ 20 → d ≠ 0 →
    ∃ t, exec (.cnew h d size) s = .next t ∧
      t.coil? ((here t).x d) = some { job := (here s).job, log2 := size.toNat + 6 } ∧
      ((here t).x d).toNat % 2 ^ 20 = key ∧ (∀ n, n ≠ key → cfind t.memory.coils n = cfind s.memory.coils n) ∧
      t.memory.mem = s.memory.mem ∧ Registers s t (some d)) ∧
  (∀ (s : State) (h : Hdr) (b : BitVec 6) (co : Coil), wf s.cur.2 (.cdrop h b) = true → Ready s h → NotSpec s →
    s.coil? ((here s).x b) = some co →
    ∃ t, exec (.cdrop h b) s = .next t ∧ t.coil? ((here s).x b) = none ∧
      .coilBlockRelease s.memory.nextDrop ∈ t.todo ∧
      (∃ x ∈ t.memory.dropped, x.id = s.memory.nextDrop ∧ x.blocks = co.extents.map (·.block)) ∧
      t.memory.mem = s.memory.mem ∧ Registers s t none)

/-- R333, R335: CRES reserves slots: its destination gets the reserved length as it was, which grows by the count.
Stated for a count that fits the coil's extents. -/
def Obligations.CoilReserved : Prop :=
  ∀ (s : State) (h : Hdr) (d b c : BitVec 6) (co : Coil) (j : Job), wf s.cur.2 (.cres h d b c) = true →
    Ready s h → NotSpec s → s.coil? ((here s).x b) = some co → s.job? co.job = some j →
    1 ≤ ((here s).x c).toNat → ((here s).x c).toNat ≤ 2 ^ 30 →
    co.r + ((here s).x c).toNat ≤ (co.extents.map (·.slots)).sum →
    ∃ t, exec (.cres h d b c) s = .next t ∧
      t.coil? ((here s).x b) = some { co with r := co.r + ((here s).x c).toNat } ∧
      (here t).x d = (if d = 0 then 0 else BitVec.ofNat 64 co.r) ∧ t.memory.mem = s.memory.mem ∧
      Registers s t (some d)

namespace Sys2Proof.Slice0

/-- What an instruction that only reads a coil gives: CLEN the committed length, CINFO a word of the descriptor, CADDR
a reserved slot's address (R254, R335, R340). -/
def coilRead (s : State) (c : CoreSt) (q : Seq) : Instr → Option (Hdr × Word × (Coil → Job → Option Word))
  | .clen h _ b => some (h, c.src q b, fun co _ => some (BitVec.ofNat 64 co.c))
  | .caddr h _ b e => some (h, c.src q b, fun co _ =>
      if (c.src q e).toNat < co.r then slotAddress co.extents (c.src q e).toNat else none)
  | .caddrLs h _ b e => some (h, c.a q b, fun co _ =>
      if (c.a q e).toNat < co.r then slotAddress co.extents (c.a q e).toNat else none)
  | .cinfo h _ b w => some (h, c.src q b, fun co j =>
      let half (i : Nat) : Nat :=
        match co.extents[i]? with
        | none => 0
        | some e => match cfind j.pool.used e.block with
          | none => 0
          | some (k, n) => e.block / 65536 % 2 ^ 23 + k * 2 ^ 23 + min n 15 * 2 ^ 28
      some (match w.toNat with
        | 0 => BitVec.ofNat 64 (co.log2 - 6 + 16 * co.extents.length +
            512 * (co.extents.filter fun e => e.shared).length)
        | 1 => BitVec.ofNat 64 co.r
        | 2 => BitVec.ofNat 64 co.c
        | 3 => co.parent
        | 4 => BitVec.ofNat 64 co.f
        | 5 => BitVec.ofNat 64 (co.bitmap.toNat % 2 ^ 64)
        | 6 => BitVec.ofNat 64 ((List.range 1024).filter fun i => co.bitmap.getLsbD i).length
        | 7 => BitVec.ofNat 64 (co.extents.map (·.slots)).sum
        | n + 8 => BitVec.ofNat 64 (half (2 * n) + half (2 * n + 1) * 2 ^ 32)))
  | _ => none

/-- The destination of such an instruction: an x register of K, or an a register of L or S. -/
def coilDest : Instr → BitVec 6
  | .clen _ d _ | .caddr _ d _ _ | .cinfo _ d _ _ => d
  | .caddrLs _ d _ _ => d.setWidth 6
  | _ => 0

end Sys2Proof.Slice0

/-- R254, R335, R340: CLEN, CADDR and CINFO read a coil into their destination and change no coil and no byte of
memory. -/
def Obligations.CoilReads : Prop :=
  ∀ (s : State) (i : Instr) (h : Hdr) (handle : Word) (f : Coil → Job → Option Word) (co : Coil) (j : Job) (v : Word),
    wf s.cur.2 i = true → coilRead s (here s) s.cur.2 i = some (h, handle, f) → Ready s h → NotSpec s →
    s.coil? handle = some co → s.job? co.job = some j → f co j = some v →
    ∃ t, exec i s = .next t ∧
      (here t).src s.cur.2 (coilDest i) = (if s.cur.2 = .k ∧ coilDest i = 0 then 0 else v) ∧
      t.memory.coils = s.memory.coils ∧ t.memory.mem = s.memory.mem ∧
      (s.cur.2 = .k → Registers s t (some (coilDest i)))

namespace Sys2Proof.Slice0

/-- Slot c + i of a coil is marked once n slots from slot x on are committed too, where c is its committed length
(R337). -/
def markedBy (co : Coil) (x n i : Nat) : Bool := co.bitmap.getLsbD i || (decide (x ≤ co.c + i) && decide (co.c + i < x + n))

end Sys2Proof.Slice0

/-- R337, R338: CCOMMIT of slots that pass its checks, at the committed length or beyond it, marks them; the committed
length then moves over the slots marked from it on, up to the first that is not, and the marks move with it. CFORK makes a
coil whose slots below the fork point are its parent's, at the same addresses in extents marked shared, all of them reserved
and committed; its destination gets the child's handle, and x0 stays 0. -/
def Obligations.CoilCommittedAndForked : Prop :=
  (∀ (s : State) (h : Hdr) (a b c : BitVec 6) (co : Coil) (n x : Nat), wf s.cur.2 (.ccommit h a b c) = true → Ready s h →
    NotSpec s → NoWriters s → s.coil? ((here s).x b) = some co → n = ((here s).x a).toNat → x = ((here s).x c).toNat →
    1 ≤ n → co.c ≤ x → x + n ≤ co.r → x + n ≤ co.c + 1024 →
    (∀ i, x ≤ co.c + i → co.c + i < x + n → co.bitmap.getLsbD i = false) →
    ∃ t, exec (.ccommit h a b c) s = .next t ∧
      (∃ co' k, t.coil? ((here s).x b) = some co' ∧
        (∀ i < k, markedBy co x n i = true) ∧ markedBy co x n k = false ∧
        (∀ i, co'.bitmap.getLsbD i = markedBy co x n (i + k)) ∧
        co' = { co with c := co.c + k, bitmap := co'.bitmap, vector := co'.vector }) ∧
      t.memory.mem = s.memory.mem ∧ Registers s t none) ∧
  (∀ (s : State) (h : Hdr) (d b c : BitVec 6) (co : Coil) (key f : Nat), wf s.cur.2 (.cfork h d b c) = true →
    Ready s h → NotSpec s → s.coil? ((here s).x b) = some co → f = ((here s).x c).toNat → f ≤ co.c →
    s.freeDescriptor (coreNo s / 56) = some key → key < 2 ^ 20 → key ≠ ((here s).x b).toNat % 2 ^ 20 →
    ∃ t, exec (.cfork h d b c) s = .next t ∧ (here t).x d = (if d = 0 then 0 else t.coilHandle key) ∧
      (∃ n, t.coil? (t.coilHandle key) = some n ∧ (n.r = f ∧ n.c = f ∧ n.f = f) ∧
        n.parent = (here s).x b ∧ n.log2 = co.log2 ∧ n.job = co.job ∧ n.bitmap = 0 ∧ n.vector = co.vector ∧
        (∀ e ∈ n.extents, e.shared = true) ∧ (∀ i < f, slotAddress n.extents i = slotAddress co.extents i)) ∧
      t.coil? ((here s).x b) = some co ∧ t.memory.mem = s.memory.mem ∧ Registers s t (some d))

/-! ## WHEEL (R286) -/

namespace Sys2Proof.Slice0

/-- Doublewords that stand at an address of a job and may be fetched (R96, R402): all of an instruction's. -/
structure TextAt (s : State) (job : Nat) (pc : Word) (ws : List Word) : Prop where
  whole : ws.length = lenWords (ws.headD 0)
  words : ∀ i w, ws[i]? = some w →
    let va := pc + BitVec.ofNat 64 (8 * i)
    pathOf va = 0 ∧ ∃ pa slot chk, s.translate job (offOf va) .fetch = .ok (pa, slot, chk) ∧
      s.devPoison pa 8 = false ∧ w = BitVec.ofNat 64 (leNat (s.devRead slot pa 8))

/-- The instructions that stand from one address up to another, with their addresses. -/
inductive BodyAt (s : State) : Word → List (Word × Instr) → Word → Prop where
  | done (pc : Word) : BodyAt s pc [] pc
  | step (pc last : Word) (ws : List Word) (i : Instr) (r : List (Word × Instr)) : TextAt s (here s).job pc ws →
      decodeList s.cur.2 ws = .ok i → BodyAt s (pc + BitVec.ofNat 64 (lengthOf i)) r last →
      BodyAt s pc ((pc, i) :: r) last

/-- The trip count of a WHEEL, and the state once it is taken (R168): an immediate, a register, or the value token at
the head of the FIFO from K. -/
def trips (s : State) : Trip → Option (Nat × State)
  | .imm n => some (n.toNat, s)
  | .reg r => some (((here s).src s.cur.2 (r.setWidth 6)).toNat, s)
  | .token =>
    match (here s).fifo (fifoIdx .k s.cur.2) with
    | ⟨some v, _⟩ :: _ => some (v.toNat, popOne s .k)
    | _ => none

/-- The sequencer stands at the first slot of a wheel. -/
def atWheel (s : State) (w : Wheel) : State :=
  onHere s fun c => c.setSeq s.cur.2
    { c.seq s.cur.2 with wheel := w, pc := w.pc + 32, stalled := false, relWait := none, pushPark := false }

end Sys2Proof.Slice0

/-- R168, R286: a WHEEL whose body holds nothing that is refused starts at its first slot, with the trip count that its
operand gives; with no trips its sequencer goes on behind the body. -/
def Obligations.WheelStarts : Prop :=
  ∀ (s u : State) (h : Hdr) (bodyM1 iiM1 : BitVec 6) (stagesM1 : BitVec 4) (trip : Trip) (rots : List Rot)
    (body : List (Word × Instr)) (last : Word) (n : Nat),
    wf s.cur.2 (.wheel h bodyM1 iiM1 stagesM1 trip rots) = true → Ready s h → NotSpec s →
    trips (popped s h) trip = some (n, u) → n < 2 ^ 32 →
    body.length = bodyM1.toNat + 1 → BodyAt s ((mover s).pc + 32) body last → stagesM1.toNat + 1 ≤ body.length →
    (∀ b ∈ body, wheelRefuses b.2 = false) →
    (∀ r ∈ rots, ∃ b, body[r.posM1.toNat]? = some b ∧ rotTooFar s.cur.2 r b.2 = false) →
    exec (.wheel h bodyM1 iiM1 stagesM1 trip rots) s = .next (if n = 0 then retire u h last
      else (pushed (atWheel u { active := true, pc := (mover s).pc, body := body, stages := stagesM1.toNat + 1
                                rots := rots, trip := n, ii := iiM1.toNat + 1 }) h).progressed)

/-! ## Work instructions (R341 to R348) -/

namespace Sys2Proof.Slice0

/-- The bytes of n doublewords. -/
def listBytes (n : Nat) (ws : Nat → Nat) : List Byte := (List.range n).flatMap fun i => leBytes 8 (ws i)

/-- A live mask that R59 accepts, while no handler runs. -/
def goodMask (s : State) (mask : Word) : Prop :=
  (here s).handler = false ∧ mask.getLsbD 0 = false ∧ ((List.range 64).filter fun i => mask.getLsbD i).length ≤ 24

/-- The level that CANCEL and CCNT name (R344). -/
def levelNamed (s : State) (b : BitVec 6) (level : BitVec 2) : Option Level :=
  if b = 0 then
    match (here s).task with
    | none => none
    | some k =>
      match s.launch? k.job k.launch with
      | none => none
      | some l => some (match level.toNat with
        | 0 => .launch l.num
        | 1 => .graph l.phase l.graph
        | 2 => .phase l.phase
        | _ => .job)
  else
    let v := ((here s).x b).toNat
    match level.toNat with
    | 0 => if v < 2 ^ 32 then some (.launch v) else none
    | 1 => if v < 2 ^ 48 then some (.graph (v / 2 ^ 32) (v % 2 ^ 32)) else none
    | 2 => if v < 2 ^ 16 then some (.phase v) else none
    | _ => if v = 0 then some .job else none

end Sys2Proof.Slice0

/-- R43, R62, R341, R342: SQPUSH with room in its queue appends its 64 bytes as the queue's next entry and goes on.
YIELD restarts the time that R55 measures; with no other ready work that waits on the die it has no other effect. -/
def Obligations.StageWork : Prop :=
  (∀ (s : State) (h : Hdr) (b c : BitVec 6) (queue : BitVec 4) (k : Machine.Task) (j : Job) (l : Launch) (q : SQueue)
    (ws : Nat → Nat), wf s.cur.2 (.sqpush h b c queue) = true → Ready s h → NotSpec s → NoWriters s →
    ((here s).x b).toNat % 8 = 0 → goodMask s ((here s).x c) → (here s).task = some k → s.job? k.job = some j →
    cfind j.launches k.launch = some l → cfind l.queues queue.toNat = some q → q.producers.getLsbD k.stage = true →
    (q.entries.length < q.cap ∨ k.reserve = some queue.toNat) →
    ((mover s).pushPark = false ∨ ∀ p, p ≠ .k → ((here s).seq p).cond = .ended) → ListAt s ((here s).x b) 8 ws →
    ∃ t, exec (.sqpush h b c queue) s = .next t ∧ Registers s t none ∧ t.memory = s.memory ∧
      ∃ l' q' e, t.launch? k.job k.launch = some l' ∧ cfind l'.queues queue.toNat = some q' ∧
        q'.entries = q.entries ++ [e] ∧ e.idx = q.next ∧ e.bytes = listBytes 8 ws ∧ q'.next = q.next + 1) ∧
  (∀ (s : State) (h : Hdr) (k : Machine.Task), wf s.cur.2 (.yield h) = true → Ready s h → (here s).handler = false →
    (here s).task = some k →
    ∃ t, exec (.yield h) s = .next t ∧ (here t).task = some { k with since := s.cycle } ∧ Registers s t none ∧
      t.memory = s.memory ∧
      ((∀ l, s.launch? k.job k.launch = some l → s.workOn (coreNo s / 56) l.cls = false) →
        t.todo = s.todo ∧ (here t).preempt = (here s).preempt))

/-- R343, R346, R375: LAUNCH to a queue of its job that the device feeds copies its packet into slot prod of the ring,
with prod as the sequence number and the check of R375, and adds 1 to prod, where the ring's capability covers the slot
(log 38). PHINT sets the policy of a queue of its
job, and policy 2 clears its history. -/
def Obligations.QueueInstructions : Prop :=
  (∀ (s : State) (h : Hdr) (b c : BitVec 6) (q : WQ) (ws : Nat → Nat) (pa slot : Nat),
    wf s.cur.2 (.launch h b c) = true → Ready s h → NotSpec s → NoWriters s → ((here s).x b).toNat % 8 = 0 →
    ((here s).x c).toNat ≤ 131071 → s.queue? ((here s).x c).toNat = some q → q.job = (here s).job →
    q.flags.getLsbD 1 = true → (q.prod - q.next).toNat ≠ 2 ^ q.order → ListAt s ((here s).x b) 16 ws →
    q.ringCap.tag = true → q.ringCap.wr = true → q.slotAt q.prod + 128 ≤ q.ringCap.len →
    cutSpans q.ringCap.spans (q.slotAt q.prod) 128 = [(pa, slot, false, 128)] →
    ∃ t q', exec (.launch h b c) s = .next t ∧ t.queue? ((here s).x c).toNat = some q' ∧ q'.prod = q.prod + 1 ∧
      q'.next = q.next ∧ Registers s t none ∧
      ((∀ e ∈ cutSpans q.recCap.spans 64 112, e.1 + e.2.2.2 ≤ pa ∨ pa + 128 ≤ e.1) →
        t.devRead slot pa 128 = stampPacket (listBytes 16 ws) q.prod)) ∧
  (∀ (s : State) (h : Hdr) (b : BitVec 6) (policy : BitVec 2) (q : WQ), wf s.cur.2 (.phint h b policy) = true →
    Ready s h → NotSpec s → ((here s).x b).toNat ≤ 131071 → s.queue? ((here s).x b).toNat = some q →
    q.job = (here s).job →
    ∃ t q', exec (.phint h b policy) s = .next t ∧ t.queue? ((here s).x b).toNat = some q' ∧
      q'.policy = policy.toNat ∧ q'.history = (if policy = 2 then [] else q.history) ∧ Registers s t none ∧
      t.memory = s.memory)

/-- R36, R39, R344, R345: CANCEL of a level that is not complete makes it complete and cancelled. CCNT reads the
counter of a level in bits 31 to 0, its completion flag in bit 32 and its cancelled flag in bit 33, and all ones for a
level that the job does not hold. That a cancelled level's counter stays is the model's choice (log 14). -/
def Obligations.CancelAndCount : Prop :=
  (∀ (s : State) (h : Hdr) (b : BitVec 6) (level : BitVec 2) (l : Level) (n : BitVec 32) (cancelled : Bool),
    wf s.cur.2 (.cancel h b level) = true → Ready s h → NotSpec s → levelNamed s b level = some l →
    s.levelWord (here s).job l = some (n, false, cancelled) →
    (∀ j, s.job? (here s).job = some j → crising 0 j.launches = true) →
    ∃ t m, exec (.cancel h b level) s = .next t ∧ t.levelWord (here s).job l = some (m, true, true) ∧
      t.memory.mem = s.memory.mem ∧ t.memory.sw = s.memory.sw) ∧
  (∀ (s : State) (h : Hdr) (d b : BitVec 6) (level : BitVec 2) (l : Level), wf s.cur.2 (.ccnt h d b level) = true →
    Ready s h → NotSpec s → levelNamed s b level = some l →
    ∃ t, exec (.ccnt h d b level) s = .next t ∧ t.memory = s.memory ∧ Registers s t (some d) ∧
      (here t).x d = (if d = 0 then 0 else match s.levelWord (here s).job l with
        | none => BitVec.allOnes 64
        | some (n, complete, cancelled) => BitVec.ofNat 64
            (n.toNat + 2 ^ 32 * (if complete then 1 else 0) + 2 ^ 33 * (if cancelled then 1 else 0))))

namespace Sys2Proof.Slice0

/-- Keys of a sequence of a PLAN, from its two coils and its first slot (R348). -/
def planKeys (k v : Coil) (s0 : Nat) : Nat := Nat.min k.c v.c - s0

/-- First slot, keys and blocks of each sequence of a batch. -/
structure Batch where
  firsts : List Nat
  keys : List Nat

def Batch.blocks (x : Batch) : List Nat := x.keys.map fun n => (n + 255) / 256

/-- Blocks of worker w, and the first of them, of b blocks among p workers. -/
def cntOf (p b w : Nat) : Nat := b / p + (if w < b % p then 1 else 0)
def firstOfWorker (p b w : Nat) : Nat := ((List.range w).map (cntOf p b)).sum

/-- The span of worker w in sequence i: its first key slot and its keys; none where it has none. -/
def spanOf (x : Batch) (p w i : Nat) : Option (Nat × Nat) :=
  let base := (x.blocks.take i).sum
  let lo := max (firstOfWorker p x.blocks.sum w) base
  let hi := min (firstOfWorker p x.blocks.sum w + cntOf p x.blocks.sum w) (base + x.blocks.getD i 0)
  if lo < hi then
    some (x.firsts.getD i 0 + 256 * (lo - base), min (256 * (hi - lo)) (x.keys.getD i 0 - 256 * (lo - base)))
  else none

/-- All spans by worker and then sequence: worker, sequence, first key slot, keys. -/
def spansOf (x : Batch) (p : Nat) : List (Nat × Nat × Nat × Nat) :=
  (List.range p).flatMap fun w => (List.range x.keys.length).filterMap fun i =>
    (spanOf x p w i).map fun y => (w, i, y.1, y.2)

/-- The bytes of the span table: header, spans, merge table. -/
def spanTable (x : Batch) (p : Nat) : List Byte :=
  let sp := spansOf x p
  let w4 (l : List Nat) : List Byte := l.flatMap (leBytes 4)
  w4 [sp.length, x.keys.length, x.blocks.sum, 0] ++
  sp.zipIdx.flatMap (fun y => w4 [y.1.1, y.1.2.1] ++ leBytes 8 y.1.2.2.1 ++ w4 [y.1.2.2.2, y.2, 0, 0]) ++
  (List.range x.keys.length).flatMap fun i =>
    w4 [((sp.findIdx? fun y => y.2.1 == i).getD 0), (sp.filter fun y => y.2.1 == i).length, 0, 0]

end Sys2Proof.Slice0

/-- R347, R348: PLAN divides the key blocks of its batch among its workers and writes the span table. Stated for a batch
of S sequences in readable places, and a table in the core's own scratchpad. -/
def Obligations.SpanPlan : Prop :=
  ∀ (s : State) (h : Hdr) (a b c : BitVec 6) (n : Nat) (ws : Nat → Nat) (ck cv : Nat → Coil) (x : Batch),
    wf s.cur.2 (.plan h a b c) = true → Ready s h → NotSpec s → CanStamp s →
    let p := ((here s).x a).toNat
    let va := (here s).x c
    1 ≤ p → p ≤ 4096 → ((here s).x b).toNat % 8 = 0 → va.toNat % 8 = 0 → 1 ≤ n → n ≤ 4096 →
    ListAt s ((here s).x b) (4 * n + 1) ws → ws 0 = n →
    (∀ i, i < n → ws (4 * i + 4) = 0 ∧ s.coil? (BitVec.ofNat 64 (ws (4 * i + 1))) = some (ck i) ∧
      s.coil? (BitVec.ofNat 64 (ws (4 * i + 2))) = some (cv i)) →
    x.firsts = (List.range n).map (fun i => ws (4 * i + 3)) →
    x.keys = (List.range n).map (fun i => planKeys (ck i) (cv i) (ws (4 * i + 3))) →
    pathOf va = 4 → offOf va + (spanTable x p).length ≤ 0x180000 →
    (∀ o, o < (spanTable x p).length → Covered s (.sp (coreNo s) ((offOf va + o) / 128))) →
    ∃ t, exec (.plan h a b c) s = .next t ∧ Wrote s t (.sp (coreNo s) (offOf va)) (spanTable x p) ∧ StoreFrame s t

/-! ## Commands (R23, R31, R236 to R275) -/

namespace Sys2Proof.Slice0

/-- The unit that a command goes to, its sync field, and its semaphore fields where it waits on its own core. -/
def commandUnit : Instr → Option (Hdr × Option Sem × CUnit)
  | .tld h f .. | .tgth h f .. => some (h, some f, .load)
  | .tst h f .. | .tstCoil h f .. | .tsct h f .. => some (h, some f, .store)
  | .tcpy h f .. | .tzero h f .. | .rcpyWr h f .. | .rcpyRd h f .. => some (h, some f, .copy)
  | .mlw h f .. | .mma h f .. | .mmac h f .. | .mzero h f .. | .mdrain h f .. => some (h, some f, .mat)
  | .mdrainx h _ .. => some (h, none, .mat)
  | .tred h f .. => some (h, some f, .red)
  | .tpass h f .. => some (h, some f, .pass)
  | .mfact h f .. | .attn h f .. | .attnm h f .. => some (h, some f, .mac)
  | _ => none

/-- The binding of a port slot as a command takes it; slot 63 is none, and an unbound slot is refused (R291). -/
inductive Bound (c : CoreSt) : BitVec 6 → Option PortInst → Prop where
  | off : Bound c 63 none
  | on (n : BitVec 6) (p : Program) : n ≠ 63 → cfind c.stores.slots n.toNat = some p →
      Bound c n (some { slot := n.toNat, prog := p, tables := c.stores.tables, ks := p.kinit.map fun v => ⟨v, false⟩ })

/-- A map and a base that every tile instruction accepts (R235, R236). -/
def mapFits (m : MapReg) (ty : Ty) (base : Word) : Prop :=
  mapOk m.view = true ∧ (ty.isMx = true → mxMapOk m.view base = true)

/-- The checks that an instruction makes at issue (R236, R241 to R253, R267, R274). -/
def accepted (s : State) (c : CoreSt) (q : Seq) : Instr → Prop
  | .tld _ _ ty dst m b disp o =>
      mapFits (c.map q m) ty (c.a q b + BitVec.ofInt 64 disp.toInt) ∧ loadFits o ty = true ∧
      ∀ w, dst = .w w → (deliveredTy ty o.dq).isWeight = true ∧ (c.map q m).view.count = latchCount (deliveredTy ty o.dq)
  | .tgth _ _ ty _ m b disp lvl idx | .tsct _ _ ty _ m b disp lvl idx =>
      mapFits (c.map q m) ty (c.a q b + BitVec.ofInt 64 disp.toInt) ∧ ty.isMx = false ∧
      (c.map q m).view.ring ≠ lvl.toNat ∧ (c.a q idx).toNat % 4 = 0
  | .tst _ _ ty _ m b disp sh =>
      mapFits (c.map q m) ty (c.a q b + BitVec.ofInt 64 disp.toInt) ∧ storeFits sh ty = true
  | .tstCoil _ _ ty _ m _ _ sh => mapFits (c.map q m) ty 0 ∧ storeFits sh ty = true ∧ sh.red = .none
  | .tcpy _ _ ty d m b ci co half =>
      mapFits (c.map q m) (cpySrcTy half ty) (c.a q b) ∧ mapFits (c.map q m) (cpyDstTy half ty) (c.a q d) ∧
      cpyFits half ty (ci != 63 || co != 63) = true
  | .tzero _ _ ty m b disp => mapFits (c.map q m) ty (c.a q b + BitVec.ofInt 64 disp.toInt) ∧ ty.isMx = false
  | .rcpyWr _ _ _ m _ _ | .rcpyRd _ _ _ m _ _ => mapOk (c.map q m).view = true ∧ NotSpec s
  | .mdrainx _ _ _ mem .. => ∃ k l, c.task = some k ∧ s.launch? k.job k.launch = some l ∧ l.cores = true ∧
      s.sameLaunch (coreNo s) (coreNo s / 8 * 8 + mem.toNat) = true
  | .tred _ _ _ _ _ ri _ op levels => op = .chain → ∀ p, Bound c ri p →
      (match p with | some x => x.prog.carry | none => 0) + 1 = levels.toNat
  | _ => True

/-- The operands that a command takes with it (R227, R291). -/
def operands (c : CoreSt) (q : Seq) (pa pb : Option PortInst) (x : Cmd) : Instr → Cmd
  | .tld _ _ _ _ m b disp o =>
      { x with map := c.map q m, src := c.a q b + BitVec.ofInt 64 disp.toInt, sbase := c.a q o.sc }
  | .tgth _ _ _ _ m b disp _ idx | .tsct _ _ _ _ m b disp _ idx =>
      { x with map := c.map q m, src := c.a q b + BitVec.ofInt 64 disp.toInt, idxBase := c.a q idx }
  | .tst _ _ _ _ m b disp sh =>
      { x with map := c.map q m, src := c.a q b + BitVec.ofInt 64 disp.toInt, sbase := c.a q sh.sc
               rng := srSeed ((c.a q sh.seed).setWidth 32) }
  | .tstCoil _ _ _ _ m b slot sh =>
      { x with map := c.map q m, src := c.a q b, dst := c.a q slot, sbase := c.a q sh.sc
               rng := srSeed ((c.a q sh.seed).setWidth 32) }
  | .tcpy _ _ _ d m b _ _ (.load o) =>
      { x with map := c.map q m, src := c.a q b, dst := c.a q d, pa := pa, pb := pb, sbase := c.a q o.sc }
  | .tcpy _ _ _ d m b _ _ (.store sh) =>
      { x with map := c.map q m, src := c.a q b, dst := c.a q d, pa := pa, pb := pb, sbase := c.a q sh.sc
               rng := srSeed ((c.a q sh.seed).setWidth 32) }
  | .tzero _ _ _ m b disp => { x with map := c.map q m, src := c.a q b + BitVec.ofInt 64 disp.toInt }
  | .rcpyWr _ _ r m b _ | .rcpyRd _ _ r m b _ => { x with map := c.map q m, src := c.a q b, dst := c.a q r }
  | _ => { x with pa := pa, pb := pb }

/-- The port slots of a command. -/
def portSlots : Instr → BitVec 6 × BitVec 6
  | .tcpy _ _ _ _ _ _ ci co _ => (ci, co)
  | .mma _ _ _ _ _ _ slot _ | .mmac _ _ _ _ _ slot _ _ | .mdrain _ _ _ _ slot _ _ | .mdrainx _ _ _ _ slot _ _ =>
      (slot, 63)
  | .tred _ _ _ _ _ ri ro _ _ => (ri, ro)
  | .tpass _ _ _ _ _ pi po => (pi, po)
  | _ => (63, 63)

/-- The wait field is met by a semaphore as the last cycle left it, or waits for nothing (R34, R165, R203). -/
def waitMet (s : State) : Option Sem → Prop
  | none => True
  | some f => f.thresh = 0 ∨ f.thresh.toNat ≤ (semBefore s f.waitsem).val.toNat

/-- A wait that is met takes the semaphore's vector copy (R150). -/
def waited (s : State) : Option Sem → State
  | none => s
  | some f => if f.thresh = 0 then s else onHere s fun c => c.takeCopy s.cur.2 (semBefore s f.waitsem).copy

/-- A command stands at the end of its unit's queue, and its sequencer counts it as issued and not retired; the word of
R400 counts the queue's entries. -/
def queued (c : CoreSt) (u : CUnit) (x : Cmd) : CoreSt :=
  let c := c.setUnit u (c.unit u ++ [x])
  let c := match u with
    | .mat => c.countPush 28
    | .red => c.countPush 29
    | .pass => c.countPush 30
    | .copy => c.countPush 31
    | .load | .store | .mac => c
  c.setSeq x.seq { c.seq x.seq with issued := (c.seq x.seq).issued + 1, live := (c.seq x.seq).live ++ [x.num] }

/-- A unit's queue has room (R23). -/
def unitRoom (c : CoreSt) : CUnit → Prop
  | .mat => c.units.mat.length < 16
  | .red => c.units.red.length < 8
  | .pass => c.units.pass.length < 8
  | .copy => c.units.copy.length < 8
  | .mac => c.units.mac = []
  | .load | .store => True

end Sys2Proof.Slice0

/-- R23, R31, R34, R227, R236, R237, R253: a tile instruction of L or S and an instruction of C with an engine issue: the
command goes to the end of its unit's queue with the operands as they stand, and its sequencer goes on; pushes and
signal act when it retires. RSIG sends its value once its sequencer's earlier instructions have retired. That the load and
the store unit's queues have no depth is the model's choice (log 70), as is that a message to a peer is complete at once
(log 15); which cause a slot without a binding raises (log 47), and where the wait of an MDRAINX is tested (log 53), are its
reading. -/
def Obligations.CommandsIssue : Prop :=
  (∀ (s : State) (i : Instr) (h : Hdr) (f : Option Sem) (u : CUnit) (pa pb : Option PortInst),
    wf s.cur.2 i = true → commandUnit i = some (h, f, u) → CanPop s h → (here s).guard s.cur.2 h = true →
    ((u = .load ∨ u = .store ∨ u = .copy ∨ (u = .mac ∧ ∀ h f ty z piv, i ≠ .mfact h f ty z piv)) → NotSpec s) →
    waitMet s f → unitRoom (here s) u → accepted s (here s) s.cur.2 i →
    Bound (here s) (portSlots i).1 pa → Bound (here s) (portSlots i).2 pb →
    exec i s = .next (goOn (onHere (waited (popped s h) f) fun c => queued c u (operands (here s) s.cur.2 pa pb
      { inst := i, seq := s.cur.2, ipc := (mover s).pc, num := (mover s).issued, xvtab := (here s).regs.sp.xvtab
        xvpool := (here s).regs.sp.xvpool } i)) (after s 16)).progressed) ∧
  (∀ (s : State) (h : Hdr) (b c : BitVec 5) (j : Job) (ident : Nat) (fabric : Word), wf s.cur.2 (.rsig h b c) = true →
    Ready s h → NotSpec s → (mover s).live = [] → (mover s).sigs = [] →
    let va := (here s).a s.cur.2 b
    pathOf va = 8 → va.toNat % 8 = 0 → s.job? (here s).job = some j →
    cfind j.peers (offOf va / 2 ^ 48) = some (ident, fabric) → cfind s.memory.peerFault va.toNat = none →
    exec (.rsig h b c) s = .next (retire (((popped s h).output (.peerAdd fabric ident
      (BitVec.ofNat 64 (offOf va % 2 ^ 48)) ((here s).a s.cur.2 c))).flagCore (coreNo s)) h (after s 8)))

/-- R182, R271, R284, R285: with its sequencer's commands retired, MSTAT sends a statistic to K and clears it, PSTATE
sends a carried register that is not poisoned, and PBIND binds a program or a table of the kernel's records. -/
def Obligations.StatisticsAndBindings : Prop :=
  ∀ (s : State) (h : Hdr), Ready s h → (mover s).live = [] →
    (∀ (code : BitVec 3), wf s.cur.2 (.mstat h code) = true →
      ((here s).fifo (fifoIdx s.cur.2 .k)).length < 15 →
      (.k ∈ neighbours s.cur.2 h.push → ((here s).fifo (fifoIdx s.cur.2 .k)).length < 14) →
      (((here s).fifo (fifoIdx s.cur.2 .k)).filter fun t => t.val.isSome).length < 4 →
      exec (.mstat h code) s = .next (goOn (((neighbours s.cur.2 h.push).foldl (pushOne none)
        (pushOne (some (cget 0 (here s).stores.stats code.toNat))
          (onHere (popped s h) fun c => c.setStat code.toNat 0) .k)).flagCore (coreNo s)) (after s 8)).progressed) ∧
    (∀ (port k : BitVec 3) (v : PReg), wf s.cur.2 (.pstate h port k) = true →
      (cget [] (here s).stores.lastK port.toNat)[k.toNat]? = some v → v.poison = false →
      ((here s).fifo (fifoIdx s.cur.2 .k)).length < 15 →
      (.k ∈ neighbours s.cur.2 h.push → ((here s).fifo (fifoIdx s.cur.2 .k)).length < 14) →
      (((here s).fifo (fifoIdx s.cur.2 .k)).filter fun t => t.val.isSome).length < 4 →
      exec (.pstate h port k) s = .next (goOn (((neighbours s.cur.2 h.push).foldl (pushOne none)
        (pushOne (some (v.bits.setWidth 64)) (popped s h) .k)).flagCore (coreNo s)) (after s 8)).progressed) ∧
    (∀ (slot : BitVec 6) (rec : BitVec 18) (bs : List Byte), wf s.cur.2 (.pbind h slot rec) = true →
      s.ppRecord (coreNo s) rec.toNat = some bs → bs.getD 0 0 = 1 → programCause bs = none →
      exec (.pbind h slot rec) s = .next (retire (onHere (popped s h) fun c => { c with stores := { c.stores with
        slots := cput c.stores.slots slot.toNat {
          carry := (bs.getD 2 0).toNat
          kinit := (upFrom 0 8).map fun i => BitVec.ofNat 32 (leNat ((bs.drop (8 + 4 * i)).take 4))
          words := (upFrom 0 (bs.getD 1 0).toNat).map fun i => BitVec.ofNat 32 (leNat ((bs.drop (40 + 4 * i)).take 4)) } } })
        h (after s 8))) ∧
    (∀ (table : BitVec 2) (rec : BitVec 18) (bs : List Byte), wf s.cur.2 (.pbindTable h table rec) = true →
      s.ppRecord (coreNo s) rec.toNat = some bs → bs.getD 0 0 = 2 → ((bs.drop 1).take 7).all (· == 0) = true →
      exec (.pbindTable h table rec) s = .next (retire (onHere (popped s h) fun c => { c with stores := { c.stores with
        tables := cput c.stores.tables table.toNat
          ((upFrom 0 256).map fun i => BitVec.ofNat 32 (leNat ((bs.drop (8 + 4 * i)).take 4))) } }) h (after s 8)))

/-! ## What the units do (R237 to R250, R255 to R265) -/

namespace Sys2Proof.Slice0

/-- A unit runs the command at the head of its queue: the core holds a task, and no handler, freeze or pre-emption stops
its units (R405, R410, R417). -/
structure Runs (s : State) (n : Fin 448) (u : CUnit) (x : Cmd) (rest : List Cmd) : Prop where
  head : (s.core n.val).unit u = x :: rest
  open' : x.done = false
  task : (s.core n.val).task ≠ none
  free : (s.core n.val).handler = false ∧ (s.core n.val).frozen = 0 ∧
    ((s.core n.val).preempt = .none ∨ (s.core n.val).preempt = .requested)

/-- No macro operation that was issued before a command is left (R259). -/
def NoMacro (s : State) (n : Fin 448) (x : Cmd) : Prop := ∀ y ∈ (s.core n.val).units.mac, x.num ≤ y.num

/-- A unit's command stands one step further, and when that was its last, its retirement is due. -/
def Advanced (t : State) (n : Fin 448) (u : CUnit) (rest : List Cmd) (cursor total : Nat) : Prop :=
  ∃ y, (t.core n.val).unit u = y :: rest ∧ y.cursor = cursor ∧ y.done = decide (cursor = total) ∧
    (cursor = total → .commandRetire n u ∈ t.todo)

/-- What the steps of the matrix engine and of the load unit leave: every other core, but that a member without an owner
takes the job of the task that reaches it (R109); the registers, FIFOs and semaphores of their core, its latches and its
scratchpad, and memory. -/
structure EngineFrame (s t : State) (n : Fin 448) : Prop where
  cores : ∀ m, m ≠ n.val → { t.core m with owner := none } = { s.core m with owner := none } ∧
    ((s.core m).owner ≠ none → (t.core m).owner = (s.core m).owner)
  x : ∀ r, (t.core n.val).x r = (s.core n.val).x r
  a : ∀ q r, (t.core n.val).a q r = (s.core n.val).a q r
  pred : ∀ q p, (t.core n.val).pred q p = (s.core n.val).pred q p
  special : (t.core n.val).regs.sp = (s.core n.val).regs.sp
  fifos : ∀ k, (t.core n.val).fifo k = (s.core n.val).fifo k
  sems : ∀ m, (t.core n.val).sema m = (s.core n.val).sema m
  latches : ∀ w, (t.core n.val).latch w = (s.core n.val).latch w
  scratch : (t.core n.val).stores.sp = (s.core n.val).stores.sp
  memory : t.memory = s.memory

/-- Lines of a row, and the 32-bit accumulator words of its values (R120, R256). -/
def rowLines : Ty → Nat | .f64 | .c64 => 1 | _ => 4

/-- An accumulator word with its poison bit. -/
def word (s : State) (n : Fin 448) (k : Nat) : Nat × Bool :=
  ((cget 0 (s.core n.val).stores.acc k).toNat, cget false (s.core n.val).stores.accPoison k)

/-- Value v of the row that begins at a line: an FP32 value, or an FP64 value in two words (R120). -/
def valueAt (s : State) (n : Fin 448) (fmt : Ty) (line v : Nat) : Nat × Bool :=
  match fmt with
  | .f64 | .c64 =>
      let lo := word s n (64 * line + 2 * v)
      let hi := word s n (64 * line + 2 * v + 1)
      (lo.1 + 2 ^ 32 * hi.1, lo.2 || hi.2)
  | _ => word s n (64 * line + v)

/-- The pairs of formats that R82 permits. -/
def permitted : Ty → Ty → Prop
  | .bf16, a | .f16, a => a = .bf16 ∨ a = .f16
  | .f32, a => a = .f32
  | .f64, a => a = .f64
  | .c64, a => a = .c64
  | w, a => w.isMx = true ∧ a.isMx = true

/-- K and N of a weight format (R24). -/
def depth : Ty → Nat | .f32 => 128 | .f64 => 32 | .c64 => 16 | .e2m1 => 1024 | .bf16 | .f16 => 256 | _ => 512
def width : Ty → Nat | .f32 => 128 | .f64 => 32 | .c64 => 16 | _ => 256

/-- Element k of column j of a weight tile (R243, R260). -/
def weight (t : Tile) (k j : Nat) : TileElem := t.vals.getD (depth t.fmt * j + k) ⟨0, 127, false⟩

/-- An element's value without its block's scale (R66, R70, R71). -/
def bare (t : Ty) (bits : Nat) : FVal := if t.isMx then mxVal t bits else ((fmtOf t).map fun f => unpackF f bits).getD .nan

/-- The FP64 chain of R85 over pairs of an activation and a weight. -/
def chain (ow : Bool) (old : Nat) (ps : List (Nat × Nat)) : Nat :=
  let fma (acc : Nat) (p : Nat × Nat) : Nat := (fmaF fmt64 (unpackF fmt64 p.1) (unpackF fmt64 p.2) (unpackF fmt64 acc)).1
  match ow, ps with
  | true, p :: r => r.foldl fma (mulF fmt64 (unpackF fmt64 p.1) (unpackF fmt64 p.2)).1
  | _, ps => ps.foldl fma old

/-- The term of group g of R83: the rounded exact sum, in the MX modes with both blocks' scales. -/
def term (t : Tile) (ty : Ty) (acts : List QElem) (j g : Nat) : Nat :=
  let size := if t.fmt = .f32 then 8 else 32
  let act (k : Nat) : QElem := acts.getD k { ty := ty, bits := 0 }
  let s := (roundNE fmt32 (exactSum ((List.range size).map fun i =>
    let k := size * g + i
    mulV (bare ty (act k).bits.toNat) (bare t.fmt (weight t k j).bits.toNat))).1).1
  let ea := (act (size * g)).scale
  let eb := (weight t (size * g) j).scale
  if t.fmt.isMx then
    if ea = 0xFF ∨ eb = 0xFF then fmt32.cnan
    else (roundNE fmt32 ((unpackF fmt32 s).scale ((ea.toNat : Int) + eb.toNat - 254))).1
  else s

/-- Result value i of a row: R83, R85, or for .c64 part i mod 2 of column i div 2 by R86. -/
def product (t : Tile) (ty : Ty) (acts : List QElem) (ow : Bool) (old i : Nat) : Nat :=
  match t.fmt with
  | .f64 => chain ow old ((List.range 32).map fun k =>
      ((acts.getD k { ty := ty, bits := 0 }).bits.toNat, (weight t k i).bits.toNat))
  | .c64 => chain ow old ((List.range 16).flatMap fun k =>
      let x := (acts.getD k { ty := ty, bits := 0 }).bits.toNat
      let w := (weight t k (i / 2)).bits.toNat
      let re := w % 2 ^ 64
      let im := w / 2 ^ 64
      if i % 2 = 0 then [(x % 2 ^ 64, re), (x / 2 ^ 64, im ^^^ 2 ^ 63)] else [(x % 2 ^ 64, im), (x / 2 ^ 64, re)])
  | f => (List.range (depth f / (if f = .f32 then 8 else 32))).foldl (fun acc g =>
      if g = 0 ∧ ow then term t ty acts i g
      else (addF fmt32 (unpackF fmt32 acc) (unpackF fmt32 (term t ty acts i g))).1) old

/-- The number of result values of a row. -/
def results : Ty → Nat | .c64 => 32 | f => width f

/-- The bits of a value in its lines. -/
def valueBits : Ty → Nat | .f64 | .c64 => 64 | _ => 32

/-- The state as the unit of a command acts in it: its core, with the sequencer that issued it. -/
def acting (s : State) (n : Fin 448) (x : Cmd) : State := { s with cur := (n, x.seq) }

/-- No earlier command of the sequencer in another unit comes before the command at the head of a unit (R131, R134). -/
def HeadFree (s : State) (n : Fin 448) (u : CUnit) : Prop := s.heldHead n.val u = false

/-- The translations that a stream made as it entered its regions are still those of the page table (R103). -/
def KeptWell (s : State) (x : Cmd) (kind : AKind) (va : Word) : Prop :=
  ∀ e ∈ x.trans, e.region = va.toNat / 65536 → e.kind = kind →
    s.locate (coreNo s) .tile kind va = .ok (.dev (e.pa + va.toNat % 65536) e.slot e.chk)

/-- The next element of a walk lies in another aligned 8-byte word; those of one word are performed in one step (R129,
R160, log 83). -/
def WordEnds (x : Cmd) (ty : Ty) (va : Word) : Prop :=
  x.cursor + 1 = x.map.view.count ∨ ty.bits = 64 ∨
    (x.src + BitVec.ofInt 64 (x.map.view.off (x.cursor + 1) * (ty.bits / 8))).toNat / 8 ≠ va.toNat / 8

/-- No byte of a word has been written since by a command that came to it later (R160, log 94). -/
def NothingLost (s : State) (x : Cmd) : Prop :=
  ∀ p ∈ s.memory.parts, ∀ e ∈ p.2, e.cmd = (if x.id = 0 then s.memory.nextCmd else x.id) → e.lost = 0

/-- The address of element i of a walk, whose type is no MX type (R234, R239): on its base's path, and aligned. -/
structure ElementAt (x : Cmd) (ty : Ty) (va : Word) : Prop where
  plain : ty.isMx = false
  small : ty.bits ≤ 64
  place : va = x.src + BitVec.ofInt 64 (x.map.view.off x.cursor * (ty.bits / 8))
  inside : x.cursor < x.map.view.count
  path : pathOf va = pathOf x.src ∧ (pathOf va = 0 ∨ pathOf va = 1 ∨ pathOf va = 4 ∨ pathOf va = 5)
  aligned : va.toNat % (ty.bits / 8) = 0

end Sys2Proof.Slice0

/-- R82 to R86, R255, R256, R261, R264, R265: the matrix engine's steps, one row at a time. MZERO writes +0 without poison
to all lines of a row. MMA takes the row's activations from its queue and gives each result value as R83, R85 or R86
computes it from the activations, the latch and the row's lines, stated without a program and without poison in the
activations and weights; other values stay. MDRAIN sends a row's values as they are, stated without a program for the
result types .f32 and .f64 and with room in their queue, with indices (v, r) and the last mark on the last. That a row's
values go out together is the model's reading (log 85). -/
def Obligations.MatrixSteps : Prop :=
  (∀ (s : State) (n : Fin 448) (x : Cmd) (rest : List Cmd) (h : Hdr) (f : Sem) (ty : Ty) (z : ZRange),
    Runs s n .mat x rest → NoMacro s n x → x.inst = .mzero h f ty z → wf .c x.inst = true →
    rowLines ty * x.cursor < z.count →
    ∃ u, unitStep n .mat s = .next u ∧
      (let first := 64 * (z.first.toNat + rowLines ty * x.cursor)
        ∀ k, word u n k = if first ≤ k ∧ k < first + 64 * rowLines ty then (0, false) else word s n k) ∧
      Advanced u n .mat rest (x.cursor + 1) (z.count / rowLines ty) ∧
      (∀ q, (u.core n.val).queue q = (s.core n.val).queue q) ∧ EngineFrame s u n) ∧
  (∀ (s : State) (n : Fin 448) (x : Cmd) (rest : List Cmd) (h : Hdr) (f : Sem) (ty : Ty) (ow : Bool) (w : BitVec 1)
    (q : BitVec 3) (slot : BitVec 6) (z : ZRange) (t : Tile) (acts more : List QElem),
    Runs s n .mat x rest → NoMacro s n x → x.inst = .mma h f ty ow w q slot z → wf .c x.inst = true →
    x.begun = true → x.pa = none →
    ((s.core n.val).latch w.toNat).cur = some t → permitted t.fmt ty →
    t.vals.length = depth t.fmt * width t.fmt → (∀ v ∈ t.vals, v.poison = false) →
    ((s.core n.val).queue q.toNat).elems = acts ++ more → acts.length = depth t.fmt →
    (∀ e ∈ acts, e.ty = ty ∧ e.poison = false) → rowLines t.fmt * x.cursor < z.count → z.count % rowLines t.fmt = 0 →
    ∃ u, unitStep n .mat s = .next u ∧
      (let line := z.first.toNat + rowLines t.fmt * x.cursor;
        (∀ i, i < results t.fmt → valueAt u n t.fmt line i =
          (product t ty acts ow (valueAt s n t.fmt line i).1 i % 2 ^ valueBits t.fmt,
            !ow && (valueAt s n t.fmt line i).2)) ∧
        (∀ k, (k < 64 * line ∨ 64 * line + results t.fmt * (valueBits t.fmt / 32) ≤ k) → word u n k = word s n k)) ∧
      ((u.core n.val).queue q.toNat).elems = more ∧
      (∀ p, p ≠ q.toNat → (u.core n.val).queue p = (s.core n.val).queue p) ∧
      Advanced u n .mat rest (x.cursor + 1) (z.count / rowLines t.fmt) ∧ EngineFrame s u n) ∧
  (∀ (s : State) (n : Fin 448) (x : Cmd) (rest : List Cmd) (h : Hdr) (f : Sem) (ty : Ty) (o : BitVec 3)
    (slot : BitVec 6) (z : ZRange) (lines : Lines),
    Runs s n .mat x rest → NoMacro s n x → x.inst = .mdrain h f ty o slot z lines → wf .c x.inst = true →
    (lines = .f32 ∧ ty = .f32 ∨ lines = .f64 ∧ ty = .f64) → rowLines ty * x.cursor < z.count →
    x.pa = none →
    let total := if ty = .f64 then 32 else 256
    (((s.core n.val).queue (8 + o.toNat)).elems.map fun i => i.ty.bits).sum + total * ty.bits ≤ 131072 →
    ∃ u, unitStep n .mat s = .next u ∧
      ((u.core n.val).queue (8 + o.toNat)).elems = ((s.core n.val).queue (8 + o.toNat)).elems ++
        (List.range total).map (fun v =>
          let old := valueAt s n ty (z.first.toNat + rowLines ty * x.cursor) v
          { ty := ty, bits := BitVec.ofNat 128 old.1, poison := old.2
            idx := ⟨BitVec.ofNat 16 v, BitVec.ofNat 16 x.cursor, 0, 0, 0⟩
            last := decide (v + 1 = total ∧ rowLines ty * (x.cursor + 1) = z.count) }) ∧
      (∀ p, p ≠ 8 + o.toNat → (u.core n.val).queue p = (s.core n.val).queue p) ∧
      Advanced u n .mat rest (x.cursor + 1) (z.count / rowLines ty) ∧ (∀ k, word u n k = word s n k) ∧ EngineFrame s u n)

/-- R234, R237, R239, R242, R244, R245, R250: the load unit, the store unit and the copy engine move one element a step,
at its address in the walk. TLD appends the value read to its queue with the element's indices and the last mark; TST
takes the head of its queue and writes it; TZERO writes zeros. Stated without half-chain stages, for types up to 64 bits
that are no MX types, and without poison, where no earlier command comes first and, for the writes, the next element lies
in another 8-byte word, as the elements of one word are performed in one step (log 83), and no other command has come to
the words after it and written them (log 94). -/
def Obligations.TileSteps : Prop :=
  (∀ (s : State) (n : Fin 448) (x : Cmd) (rest : List Cmd) (h : Hdr) (f : Sem) (ty : Ty) (q : BitVec 3)
    (m : BitVec 4) (b : BitVec 5) (disp : BitVec 18) (o : LoadHalf) (va : Word) (bs : List Byte),
    Runs s n .load x rest → x.inst = .tld h f ty (.q q) m b disp o → o.tr = none → o.dq = .none → o.conj = false →
    HeadFree s n .load → KeptWell (acting s n x) x .read va →
    ElementAt x ty va → NotSpec (acting s n x) → Loaded (acting s n x) true va (ty.bits / 8) bs →
    (((s.core n.val).queue q.toNat).elems.map fun i => i.ty.bits).sum + ty.bits ≤ 131072 →
    ∃ u, unitStep n .load s = .next u ∧
      ((u.core n.val).queue q.toNat).elems = ((s.core n.val).queue q.toNat).elems ++
        [{ ty := ty, bits := BitVec.ofNat 128 (leNat bs), idx := x.map.view.idx x.cursor
           last := decide (x.cursor + 1 = x.map.view.count) }] ∧
      (∀ p, p ≠ q.toNat → (u.core n.val).queue p = (s.core n.val).queue p) ∧
      (∀ k, word u n k = word s n k) ∧ Advanced u n .load rest (x.cursor + 1) x.map.view.count ∧ EngineFrame s u n) ∧
  (∀ (s : State) (n : Fin 448) (x : Cmd) (rest : List Cmd) (h : Hdr) (f : Sem) (ty : Ty) (o : BitVec 3)
    (m : BitVec 4) (b : BitVec 5) (disp : BitVec 18) (sh : StoreHalf) (va : Word) (e : QElem) (more : List QElem)
    (p : Target),
    Runs s n .store x rest → x.inst = .tst h f ty o m b disp sh → sh.inTy = ty → sh.red = .none → x.begun = true →
    x.xv = [] → ((s.core n.val).queue (8 + o.toNat)).elems = e :: more → e.ty = ty → e.poison = false →
    HeadFree s n .store → KeptWell (acting s n x) x .write va → WordEnds x ty va → NothingLost s x →
    ElementAt x ty va → NotSpec (acting s n x) → StoresTo (acting s n x) .write va p →
    ∃ u, unitStep n .store s = .next u ∧ Wrote s u p (leBytes (ty.bits / 8) e.bits.toNat) ∧
      ((u.core n.val).queue (8 + o.toNat)).elems = more ∧
      (∀ p, p ≠ 8 + o.toNat → (u.core n.val).queue p = (s.core n.val).queue p) ∧
      (∀ k, word u n k = word s n k) ∧ (∀ r, (u.core n.val).x r = (s.core n.val).x r) ∧
      Advanced u n .store rest (x.cursor + 1) x.map.view.count) ∧
  (∀ (s : State) (n : Fin 448) (x : Cmd) (rest : List Cmd) (h : Hdr) (f : Sem) (ty : Ty) (m : BitVec 4) (b : BitVec 5)
    (disp : BitVec 18) (va : Word) (p : Target),
    Runs s n .copy x rest → x.inst = .tzero h f ty m b disp → x.begun = true → x.xv = [] →
    HeadFree s n .copy → KeptWell (acting s n x) x .write va → WordEnds x ty va → NothingLost s x →
    ElementAt x ty va → NotSpec (acting s n x) → StoresTo (acting s n x) .write va p →
    ∃ u, unitStep n .copy s = .next u ∧ Wrote s u p (List.replicate (ty.bits / 8) 0) ∧
      (∀ p, (u.core n.val).queue p = (s.core n.val).queue p) ∧ (∀ k, word u n k = word s n k) ∧
      (∀ r, (u.core n.val).x r = (s.core n.val).x r) ∧ Advanced u n .copy rest (x.cursor + 1) x.map.view.count)

/-! ## Element operations (R292 to R309) -/

namespace Sys2Proof.Slice0

/-- The value of an element operation that writes a register, with its destination, its sources and the conditions
that it records (R299 to R307). -/
def elemResult (p : Pass) : Instr → Option (BitVec 4 × List (BitVec 4) × BitVec 32 × Flags)
  | .fadd d a b => fp2 d a b (addF fmt32 (f a) (f b))
  | .fsub d a b => fp2 d a b (addF fmt32 (f a) (f b).neg)
  | .fmul d a b => fp2 d a b (mulF fmt32 (f a) (f b))
  | .ffma d a b c =>
      let r := fmaF fmt32 (f a) (f b) (f c)
      some (d, [a, b, c], BitVec.ofNat 32 r.1, r.2)
  | .fmax d a b => some (d, [a, b], BitVec.ofNat 32 (minmaxF fmt32 true (n a) (n b)), 0)
  | .fmin d a b => some (d, [a, b], BitVec.ofNat 32 (minmaxF fmt32 false (n a) (n b)), 0)
  | .fabs d a => some (d, [a], v a &&& 0x7FFFFFFF#32, 0)
  | .fneg d a => some (d, [a], v a ^^^ 0x80000000#32, 0)
  | .fcmp d a b cond =>
      let un := (f a).isNan || (f b).isNan
      let met : Bool := match cond with
        | .eq => !un && cmpV (f a) (f b) == .eq
        | .ne => un || cmpV (f a) (f b) != .eq
        | .lt => !un && cmpV (f a) (f b) == .lt
        | .le => !un && cmpV (f a) (f b) != .gt
        | .gt => !un && cmpV (f a) (f b) == .gt
        | .ge => !un && cmpV (f a) (f b) != .lt
        | .uo => un
        | .ord => !un
      some (d, [a, b], if met then BitVec.allOnes 32 else 0, 0)
  | .fsel d a b c => if v a = 0 then some (d, [a, c], v c, 0) else some (d, [a, b], v b, 0)
  | .frcp d a => fp1 d a (frcp32 (n a))
  | .frsq d a => fp1 d a (frsq32 (n a))
  | .fexp2 d a => fp1 d a (fexp2_32 (n a))
  | .flog2 d a => fp1 d a (flog2_32 (n a))
  | .fcvt d a t r => fp1 d a (fcvt32 t r (n a))
  | .iadd d a b => some (d, [a, b], BitVec.ofNat 32 (n a + n b), 0)
  | .isub d a b => some (d, [a, b], BitVec.ofInt 32 ((n a : Int) - n b), 0)
  | .imul d a b => some (d, [a, b], BitVec.ofNat 32 (n a * n b), 0)
  | .iand d a b => some (d, [a, b], v a &&& v b, 0)
  | .ior d a b => some (d, [a, b], v a ||| v b, 0)
  | .ixor d a b => some (d, [a, b], v a ^^^ v b, 0)
  | .ishl d a b => some (d, [a, b], BitVec.ofNat 32 (n a * 2 ^ (n b % 32)), 0)
  | .ishr d a b => some (d, [a, b], BitVec.ofNat 32 (n a / 2 ^ (n b % 32)), 0)
  | .kld d a | .kst d a => some (d, [a], v a, 0)
  | .tbl d a t =>
      if (f a).isNan then none
      else (cfind p.inst.tables t.toNat).map fun tab => (d, [a], tab.getD (tableIndex (f a)) 0, 0)
  | _ => none
where
  v (r : BitVec 4) : BitVec 32 := (p.reg r).bits
  n (r : BitVec 4) : Nat := (p.reg r).bits.toNat
  f (r : BitVec 4) : FVal := unpackF fmt32 (p.reg r).bits.toNat
  fp1 (d a : BitVec 4) (r : Nat × Flags) : Option (BitVec 4 × List (BitVec 4) × BitVec 32 × Flags) :=
    some (d, [a], BitVec.ofNat 32 r.1, r.2)
  fp2 (d a b : BitVec 4) (r : Nat × Flags) : Option (BitVec 4 × List (BitVec 4) × BitVec 32 × Flags) :=
    some (d, [a, b], BitVec.ofNat 32 r.1, r.2)

/-- An output of a pass: a register's value and poison bit with the element's type and scale, and indices. -/
def putOut (p : Pass) (a : BitVec 4) (i : Idx) : QElem :=
  { ty := p.elem.ty, bits := BitVec.ofNat 128 (p.reg a).bits.toNat, scale := p.elem.scale
    poison := (p.reg a).poison, idx := i }

/-- The indices of EMIT.last: those of the levels up to the carry level are 0 (R308). -/
def lastIdx (carry : Nat) (i : Idx) : Idx where
  i0 := 0
  i1 := if 1 ≤ carry then 0 else i.i1
  i2 := if 2 ≤ carry then 0 else i.i2
  i3 := if 3 ≤ carry then 0 else i.i3
  i4 := if 4 ≤ carry then 0 else i.i4

/-- The pass behind an operation that does not fault (R292 to R308). -/
def elemPass (p : Pass) (i : Instr) : Option Pass :=
  match elemResult p i with
  | some (d, srcs, v, fl) => some { p.setReg d ⟨v, srcs.any fun r => (p.reg r).poison⟩ with cond := p.cond ||| fl }
  | none =>
    match i with
    | .lag d a dist =>
        let h := cget [] p.inst.hist p.pos
        let p1 := { p with inst := { p.inst with hist := cset [] p.inst.hist p.pos ((p.reg a :: h).take 3) } }
        some (p1.setReg d ((h[dist.toNat - 1]?).getD {}))
    | .emit a => some { p with emits := p.emits ++ [putOut p a p.elem.idx] }
    | .emitLast a => some (if p.lastOfChain
        then { p with emits := p.emits ++ [putOut p a (lastIdx p.inst.prog.carry p.elem.idx)] } else p)
    | .tap a q => some { p with taps := p.taps ++ [(q.toNat, putOut p a p.elem.idx)] }
    | .drop a => if (p.reg a).poison then none else some { p with drop := p.drop || (p.reg a).bits != 0 }
    | .eflt a _ => if (p.reg a).poison || (p.reg a).bits != 0 then none else some p
    | .efltFp mask => if p.cond &&& mask = 0 then some p else none
    | _ => none

/-- Reason and code of the port element fault of an operation (R309). -/
def elemFault (p : Pass) : Instr → Option (Nat × Nat)
  | .tbl _ a t =>
      if (unpackF fmt32 (p.reg a).bits.toNat).isNan then some (2, 0)
      else if (cfind p.inst.tables t.toNat).isNone then some (3, t.toNat) else none
  | .drop a => if (p.reg a).poison then some (5, 0x1D) else none
  | .eflt a code =>
      if (p.reg a).poison then some (5, 0x1E) else if (p.reg a).bits ≠ 0 then some (0, code.toNat) else none
  | .efltFp mask => if p.cond &&& mask ≠ 0 then some (1, (p.cond &&& mask).toNat) else none
  | _ => none

/-- Operation code, modifier, c, b, a and d of the word of an element operation (R180, R299, R300, R302, R305, R306). -/
def elemFields : Instr → Option (BitVec 5 × BitVec 8 × BitVec 4 × BitVec 4 × BitVec 4 × BitVec 4)
  | .fadd d a b => some (0x00, 0, 0, b, a, d)
  | .fsub d a b => some (0x01, 0, 0, b, a, d)
  | .fmul d a b => some (0x02, 0, 0, b, a, d)
  | .ffma d a b c => some (0x03, 0, c, b, a, d)
  | .fmax d a b => some (0x04, 0, 0, b, a, d)
  | .fmin d a b => some (0x05, 0, 0, b, a, d)
  | .fabs d a => some (0x06, 0, 0, 0, a, d)
  | .fneg d a => some (0x07, 0, 0, 0, a, d)
  | .fsel d a b c => some (0x09, 0, c, b, a, d)
  | .tbl d a t => some (0x0F, t.setWidth 8, 0, 0, a, d)
  | .iadd d a b => some (0x10, 0, 0, b, a, d)
  | .isub d a b => some (0x11, 0, 0, b, a, d)
  | .imul d a b => some (0x12, 0, 0, b, a, d)
  | .iand d a b => some (0x13, 0, 0, b, a, d)
  | .ior d a b => some (0x14, 0, 0, b, a, d)
  | .ixor d a b => some (0x15, 0, 0, b, a, d)
  | .ishl d a b => some (0x16, 0, 0, b, a, d)
  | .ishr d a b => some (0x17, 0, 0, b, a, d)
  | _ => none

/-- A port's unit (R290). -/
def unitOfPort : Port → CUnit
  | .ma | .md => .mat
  | .ri | .ro => .red
  | .pi | .po => .pass
  | .ci | .co => .copy

end Sys2Proof.Slice0

/-- R292 to R309: an element operation of the pass in progress gives its result to its destination, whose poison bit is
the OR of its sources', or acts on the outputs of the pass; the pass goes on at the next position, and new conditions
go to the port's statistic. One that faults writes nothing and raises cause 0x0D with its reason and code. Without a
pass there is no element to act on, and the operation stops: that is the model's reading (log 71). The words of the
operations of R299, R300, R302, R305 and R306 decode to them. -/
def Obligations.ElementOperations : Prop :=
  (∀ (s : State) (i : Instr) (p p' : Pass), wfElem i = true → s.ppass = some p → elemPass p i = some p' →
    exec i s = .next ({ s with ppass := some { p' with pos := p.pos + 1 } }.modCore p.core fun c =>
      c.notePort p.port (p'.cond &&& ~~~p.cond))) ∧
  (∀ (s : State) (i : Instr) (p : Pass) (reason code : Nat), s.ppass = some p → elemFault p i = some (reason, code) →
    ∃ t : Trap, t.cause = 0x0D ∧ t.reason = reason ∧ t.code = code ∧ t.port = p.port.idx ∧ t.elem = p.inst.count ∧ t.pos = p.pos ∧
      t.idx = p.elem.idx ∧ t.slot = p.inst.slot ∧ t.chain = p.inst.chain ∧
      exec i s = .next ({ s with ppass := none }.trapOn p.core t (some (unitOfPort p.port)))) ∧
  (∀ (s : State) (i : Instr), wfElem i = true → s.ppass = none → exec i s = .fault .noElement) ∧
  (∀ (i : Instr) (op : BitVec 5) (mod : BitVec 8) (c b a d : BitVec 4), wfElem i = true →
    elemFields i = some (op, mod, c, b, a, d) → decodeElem ((0 : BitVec 3) ++ mod ++ c ++ b ++ a ++ d ++ op) = .ok i)

/-! ## Decoding and steps (R161 to R182, R402) -/

/-- The decoder of a sequencer reads a well-formed instruction back from its doublewords, and the decoder of port
programs a well-formed element operation from its word. -/
def Obligations.DecodeEncode : Prop :=
  (∀ (q : Seq) (i : Instr), wf q i = true → decodeList q (encode i) = .ok i) ∧
  (∀ i : Instr, wfElem i = true → decodeElem (encodeElem i) = .ok i)

namespace Sys2Proof.Slice0

/-- Semaphore fields that wait for nothing and signal nothing. -/
def noSem : Sem := ⟨0, 0, 0, 0⟩

end Sys2Proof.Slice0

/-- R162, R208, R209, R229, R197, R248, R286, R301: words written out by their fields, and the specification's own worked
examples of a TLD, an MMA and an FCMP, decode to what they stand for. -/
def Obligations.WordsDecode : Prop :=
  decodeList .k [word1 0 0 2 1 3 0 0x10 0] = .ok (.add noSync 3 1 2) ∧
  decodeList .k [word1 0x3FFFF 0 0 5 5 0 0x11 0] = .ok (.addi noSync 5 5 (-1)) ∧
  decodeList .l [word1 5 2 0 0 1 0 0x11 0] = .ok (.ali noSync 1 5) ∧
  decodeList .l [0x0000034204000059, 0x00002A0000000000] = .ok (.tld noSync noSem .e4m3 (.q 0) 1 2 0
    { conj := false, tr := none, sc := 5, dq := .bf16 }) ∧
  decodeList .c [0x00000A7F00000245, 0x01F8000000000000] = .ok (.mma { noSync with pop := 2 } noSem .bf16 true 0 0 63 ⟨0, 63⟩) ∧
  decodeElem 0x00410028 = .ok (.fcmp 1 0 8 .lt)

namespace Sys2Proof.Slice0

/-- The state in which the next act of a schedule moves: the slot is gone, the next cycle has begun unless the slot may
fall into the last one, and the act is noted. -/
def moving (s : State) (x : Slot) (r : List Slot) : State :=
  let t : State := { s with sched := r }
  (if s.sameCycle x then t else t.nextCycle 1).noteAct x.act

end Sys2Proof.Slice0

/-- R46, R96, R171, R293, R402: the step of a sequencer that may issue runs the instruction that its decoder reads
from the doublewords at its pc; the step of a port runs the operation that stands at the pass's position and acts; the
step of an event runs that event, and of what is due the first. The schedule that names the agent is the model's own
(log 1). -/
def Obligations.StepRunsInstruction : Prop :=
  (∀ (s : State) (r : List Slot) (same : Bool) (core : Fin 448) (q : Seq) (ws : List Word) (i : Instr),
    s.sched = ⟨same, .seq core q⟩ :: r →
    let t := { moving s ⟨same, .seq core q⟩ r with cur := (core, q) }
    ((t.core core.val).mayIssue q) = true → NotSpec t → (mover t).wheel.active = false → (mover t).wheel.drained = false →
    TextAt t (here t).job (mover t).pc ws → decodeList q ws = .ok i → step s = exec i t) ∧
  (∀ (s : State) (r : List Slot) (same : Bool) (p : Pass) (w : BitVec 32) (i : Instr), s.sched = ⟨same, .port⟩ :: r →
    s.ppass = some p → p.inst.prog.words[p.pos - 1]? = some w → decodeElem w = .ok i → p.acts i = true →
    (p.inst.count, p.pos) ∉ p.inst.skip → step s = exec i (moving s ⟨same, .port⟩ r)) ∧
  (∀ (s : State) (r : List Slot) (same : Bool) (e : Instr), s.sched = ⟨same, .event e⟩ :: r → isEvent e = true →
    step s = exec e (moving s ⟨same, .event e⟩ r)) ∧
  (∀ (s : State) (r : List Slot) (same : Bool) (e : Instr) (l : List Instr), s.sched = ⟨same, .todo⟩ :: r →
    (moving s ⟨same, .todo⟩ r).todo = e :: l → isEvent e = true →
    step s = exec e { moving s ⟨same, .todo⟩ r with todo := l })

/-- The canonical form of memory is an invariant of the model: every step keeps it, and with it every read of a byte
that no entry lists (log 4). -/
def Obligations.MemoryStaysCanonical : Prop :=
  ∀ s t : State, Memory.wf s.memory.mem = true → step s = .next t → Memory.wf t.memory.mem = true

/-- Memory after reset lists nothing and has its canonical form. -/
def Obligations.ResetMemoryCanonical : Prop :=
  Memory.wf State.reset.memory.mem = true ∧ State.reset.memory.mem = []

/-! ## The start of the module (R349, R361 to R365) -/

namespace Sys2Proof.Slice0

/-- An operation of the transport arrives for the first time, on a port that is up, in a delivery mode that is
accepted, and in its turn where its mode or its kind is ordered (R144, R350). -/
structure Arrives (s : State) (t : Xfer) (ordered : Bool) : Prop where
  powered : s.boot.powered = true
  running : s.boot.stage ≠ 0xF
  up : s.boot.ports.getLsbD t.port.val = true
  new : (s.flow t).next ≤ t.tseq
  once : t.tseq ∉ (s.flow t).extra
  free : ∀ h ∈ s.held, h.xfer ≠ t
  accepted : t.mode = .rod ∨ t.mode = .rud
  turn : (ordered = true ∨ t.mode = .rod) → (s.flow t).next = t.tseq

/-- The one completion that an operation gets, without an error. -/
def Completed (s u : State) (t : Xfer) (data : List Byte) : Prop :=
  u.outputs = .completion t.port.val t.initiator true 0 data :: s.outputs

end Sys2Proof.Slice0

/-- R104, R349, R361 to R365: power-good leaves an empty module in stage 0. A write of go starts the firmware check,
whose end leaves the module in stage 1, or in stage 0 with the reason in lastfail. In stage 1 dies and ports come up
in ascending order. In stage 0 the push window takes writes; the registers of the bring-up page other than bootctl
take none. That port 0 is up at power-good is the model's reading (log 31), and the state after power-good its choice
(log 3). -/
def Obligations.BootEvents : Prop :=
  (∀ s : State, ∃ u, exec .powerGood s = .next u ∧ u.boot.powered = true ∧ u.boot.stage = 0 ∧ u.boot.ports = 1 ∧
    u.boot.dies = 0 ∧ u.boot.lock = false ∧ u.boot.mgmt = [] ∧ u.cores = [] ∧ u.jobs = [] ∧ u.queues = [] ∧
    u.keys = [] ∧ u.memory = {}) ∧
  (∀ (s : State) (t : Xfer) (value : Word), Arrives s t false → t.ident = 0 → s.boot.stage = 0 →
    s.boot.checking = none → value.getLsbD 0 = true →
    ∃ u, exec (.bootctlGo t value) s = .next u ∧ u.boot.checking = some t.initiator ∧
      .firmwareCheckEnd ∈ u.todo ∧ u.boot.stage = 0 ∧ u.memory = s.memory ∧ Completed s u t []) ∧
  (∀ (s : State) (who : Word), s.boot.checking = some who → ∃ u, exec .firmwareCheckEnd s = .next u ∧
    u.boot.checking = none ∧ u.memory.mem = s.memory.mem ∧
    match s.checkImage with
    | .ok (slot, d) => u.boot.stage = 1 ∧ u.boot.lock = true ∧ u.boot.keyslot = BitVec.ofNat 4 slot ∧
        u.boot.mgmt = [(who, s.boot.checkPort)] ∧ u.memory.sw = [] ∧
        cget 0 u.boot.m 0 = Config.sha384 (leBytes 48 (cget 0 s.boot.m 0).toNat ++ leBytes 48 d.toNat) ∧
        ∀ d : Fin 8, .dieMemoryJoin d ∈ u.todo
    | .error c => u.boot.stage = s.boot.stage ∧ u.boot.lock = s.boot.lock ∧ u.boot.lastfail = BitVec.ofNat 4 c ∧
        u.boot.fails.toNat = min 0xFFFF (s.boot.fails.toNat + 1)) ∧
  (∀ (s : State) (d : Fin 8), s.boot.stage = 1 → s.boot.dies.toNat < 2 ^ d.val →
    ∃ u, exec (.dieMemoryJoin d) s = .next u ∧ u.boot.dies.toNat = s.boot.dies.toNat + 2 ^ d.val ∧
      u.boot.stage = (if u.boot.dies = 0xFF ∧ s.boot.ports = 0xFFF then 2 else 1)) ∧
  (∀ (s : State) (p : Nat), s.boot.stage = 1 → p < 12 → s.boot.ports.toNat = 2 ^ p - 1 →
    ∃ u, exec .portUp s = .next u ∧ u.boot.ports.toNat = 2 ^ (p + 1) - 1 ∧
      u.boot.stage = (if p = 11 ∧ s.boot.dies = 0xFF then 2 else 1)) ∧
  (∀ (s : State) (t : Xfer) (off : Nat) (data : List Byte), Arrives s t false → t.ident = 0 → s.boot.stage = 0 →
    s.boot.checking = none → off + data.length ≤ 0x4000000 →
    ∃ u, exec (.pushWindowWrite t off data) s = .next u ∧ Completed s u t [] ∧
      (∀ i, (hi : i < data.length) → byteAt u.memory.mem (0xF78000000 + off + i) = data[i]) ∧
      (∀ a, a < 0xF78000000 + off ∨ 0xF78000000 + off + data.length ≤ a →
        byteAt u.memory.mem a = byteAt s.memory.mem a)) ∧
  (∀ (s : State) (t : Xfer) (off : Nat) (data : List Byte), Arrives s t false → t.ident = 0 → data ≠ [] →
    off + data.length ≤ 4096 → (8 < off ∨ off + data.length ≤ 8) →
    ∃ u, exec (.bringupRegisterWrite t off data) s = .next u ∧ Completed s u t [] ∧ u.boot = s.boot ∧
      u.memory = s.memory)

/-! ## Accesses from outside (R144, R350 to R356) -/

namespace Sys2Proof.Slice0

/-- n bytes of a job's G memory from an offset on, one place for each, all under one key slot (R352, R353). -/
structure Region (s : State) (job : Nat) (kind : AKind) (off n slot : Nat) (pa : Nat → Nat) : Prop where
  place : ∀ i, i < n → ∃ chk, s.translate job (off + i) kind = .ok (pa i, slot, chk)
  once : ∀ i j, i < n → j < n → pa i = pa j → i = j

/-- The value that a transport atomic leaves (R355). -/
def tatomValue (op : TAtom) (n o v : Nat) : Nat :=
  match op with
  | .amo (.plain p) => newValue n p o (v % 2 ^ (8 * n))
  | .amo .swap => v % 2 ^ (8 * n)
  | .cas e => if o = e.toNat % 2 ^ (8 * n) then v % 2 ^ (8 * n) else o
  | .other => o

/-- The operations that the sync window takes, by their width in bytes (R315, R355). -/
def tatomTaken (op : TAtom) (n : Nat) : Prop :=
  match op with
  | .amo (.plain .fadd) => n = 4
  | .amo _ | .cas _ => n = 4 ∨ n = 8
  | .other => False

/-- The module's outputs grow by those of an operation, and by replies to waiting requests whose opcode Kiln does not
know and that stand first once the operation is over (R358, R359). -/
def Follows (s u : State) (mine : List Output) : Prop :=
  ∃ l, u.outputs = l ++ mine ++ s.outputs ∧ ((∀ q ∈ s.reqs, commandOf q ≠ none) → l = [])

end Sys2Proof.Slice0

/-- R144, R352 to R356: a remote write puts its bytes into the job's memory, a remote read returns them. A write by
the OI path is held, with its place, and when it becomes visible its bytes are written. A transport atomic gives its
new value to a word of the sync window; one of another operation or width is refused and counted. A SEND to identifier
0 delivers the request in its message, which is due in its turn (R358). Details of held OI writes and of sequence numbers
are the model's reading (logs 27, 33), and that a read outside argument pages finds device memory rests on their place,
which is its choice (log 12). -/
def Obligations.TransportAccesses : Prop :=
  (∀ (s : State) (t : Xfer) (va : Word) (data : List Byte) (job slot : Nat) (pa : Nat → Nat), Arrives s t false →
    t.ident ≠ 0 → s.boundJob t.ident = some job → pathOf va = 0 → data.length ≤ 0x4000000 →
    Region s job .write (offOf va) data.length slot pa →
    ¬ (s.pending job (448 + t.port.val) = true ∧ s.epoch job (448 + t.port.val) = 0x7FFFFF) →
    ∃ u, exec (.remoteWrite t va data) s = .next u ∧ Completed s u t [] ∧
      (∀ i, (hi : i < data.length) → u.devByte (keyAt s slot) (pa i) = data[i]) ∧
      (∀ a, (∀ i, i < data.length → pa i ≠ a) → u.devByte (keyAt s slot) a = s.devByte (keyAt s slot) a) ∧
      (∀ m, (u.core m).stores.sp = (s.core m).stores.sp) ∧ u.memory.sw = s.memory.sw) ∧
  (∀ (s : State) (t : Xfer) (va : Word) (n job slot : Nat) (pa : Nat → Nat), Arrives s t false → t.ident ≠ 0 →
    s.boundJob t.ident = some job → pathOf va = 0 → n ≤ 0x4000000 → Region s job .read (offOf va) n slot pa →
    (∀ i, i < n → cget false s.memory.poison (pa i / 64) = false) →
    (∀ i c k, i < n → (s.core c).task = some k → k.job = job →
      (s.core c).regs.sp.argbase ≠ BitVec.ofNat 64 (2 * 2 ^ 60 + (offOf va + i) / 65536 * 65536)) →
    ∃ u, exec (.remoteRead t va n) s = .next u ∧ u.memory = s.memory ∧
      Completed s u t ((List.range n).map fun i => s.devByte (keyAt s slot) (pa i))) ∧
  (∀ (s : State) (t : Xfer) (va : Word) (data : List Byte) (job pa slot : Nat) (chk : Bool), Arrives s t false →
    t.ident ≠ 0 → s.boundJob t.ident = some job → pathOf va = 9 → 1 ≤ data.length →
    va.toNat % 64 + data.length ≤ 64 → s.translate job (offOf va) .write = .ok (pa, slot, chk) →
    (s.held.filter fun h => h.xfer.port = t.port).length < 256 →
    ∃ u h, exec (.oiWrite t va data) s = .next u ∧ u.held = s.held ++ [h] ∧ h.xfer = t ∧ h.job = job ∧ h.pa = pa ∧
      h.slot = slot ∧ h.chk = chk ∧ h.data = data ∧ (∀ x ∈ s.held, x.id ≠ h.id) ∧ u.memory = s.memory ∧
      u.outputs = s.outputs ∧ ((s.flow t).next = t.tseq → .oiWriteVisible h.id ∈ u.todo)) ∧
  (∀ (s : State) (h : OiHold) (j : Job), s.held.find? (fun x => x.id = h.id) = some h →
    (s.flow h.xfer).next = h.xfer.tseq → s.job? h.job = some j →
    ¬ (s.pending h.job (448 + h.xfer.port.val) = true ∧ s.epoch h.job (448 + h.xfer.port.val) = 0x7FFFFF) →
    ∃ u, exec (.oiWriteVisible h.id) s = .next u ∧ Wrote s u (.dev h.pa h.slot) h.data ∧
      (∀ x ∈ u.held, x.id ≠ h.id) ∧ Completed s u h.xfer []) ∧
  (∀ (s : State) (t : Xfer) (va : Word) (op : TAtom) (n : Nat) (v : Word) (fetch : Bool) (job b : Nat),
    Arrives s t true → s.boundJob t.ident = some job → NoWaiters s → pathOf va = 7 → tatomTaken op n →
    va.toNat % n = 0 → swByte (offOf va) = some b →
    let o := wordAt s (.sw b) n
    ∃ u, exec (.transportAtomic t va op n v fetch) s = .next u ∧
      wordAt u (.sw b) n = tatomValue op n o v.toNat ∧ u.memory.mem = s.memory.mem ∧
      Completed s u t (if fetch then leBytes n o else [])) ∧
  (∀ (s : State) (t : Xfer) (va : Word) (op : TAtom) (n : Nat) (v : Word) (fetch : Bool) (job : Nat),
    Arrives s t true → s.boundJob t.ident = some job → ¬ tatomTaken op n →
    ∃ u reason, exec (.transportAtomic t va op n v fetch) s = .next u ∧ u.memory = s.memory ∧
      u.outputs = .completion t.port.val t.initiator false reason [] :: s.outputs ∧
      cget 0 u.mon.refused t.port.val = cget 0 s.mon.refused t.port.val + 1) ∧
  (∀ (s : State) (t : Xfer) (msg : List Byte) (e : Instr), Arrives s t true → t.ident = 0 → 64 ≤ msg.length →
    msg.length ≤ 4160 → commandOf (parseReq t msg) = some e →
    let r := parseReq t msg
    ∃ u, exec (.send t msg) s = .next u ∧ r ∈ u.reqs ∧ u.memory = s.memory ∧
      (({ s with reqs := s.reqs ++ [r] }).turnOf r = true → e ∈ u.todo) ∧
      Follows s u [.completion t.port.val t.initiator true 0 []])

/-! ## Requests to Kiln (R356 to R360, R367 to R369) -/

namespace Sys2Proof.Slice0

/-- A management request whose header is right and whose turn it is: of its length, in a stage that the command admits,
from an initiator that may send it (R357 to R359). -/
structure Request (s : State) (r : Req) (stages : List Nat) (anyone : Bool) (n : Nat) : Prop where
  powered : s.boot.powered = true
  turn : s.turnOf r = true
  zero : r.reservedZero = true
  len : r.lenField.toNat = r.body.length
  size : r.body.length = n
  fits : n ≤ 4096
  stage : s.boot.stage ∈ stages
  known : ∀ x ∈ stages, x ≤ 2
  from_ : anyone = true ∨ (r.xfer.initiator, r.xfer.port.val) ∈ s.boot.mgmt

/-- The bytes of a reply: a 64-byte header and a body (R357). -/
def replyBytes (r : Req) (status : Byte) (body : List Byte) : List Byte :=
  [r.opcode ||| 0x80, status, 0, 0] ++ leBytes 4 r.tag.toNat ++ leBytes 4 body.length ++ leBytes 4 r.job.toNat ++
    List.replicate 48 0 ++ body

/-- The one reply that a request gets. -/
def Answered (s u : State) (r : Req) (status : Byte) (body : List Byte) : Prop :=
  Follows s u [.reply r.xfer.port.val r.xfer.initiator (replyBytes r status body)]

/-- Its reply with status 0. -/
def Replied (s u : State) (r : Req) (body : List Byte) : Prop := Answered s u r 0 body

/-- Its reply with a status other than 0. -/
def TurnedAway (s u : State) (r : Req) (status : Byte) : Prop := Answered s u r status []

/-- Bytes lo to hi of a request's body, as a number. -/
def bodyField (r : Req) (lo hi : Nat) : Nat := leNat ((r.body.drop lo).take (hi + 1 - lo))

/-- The state without what the requests that wait behind one may change: the list of them, what is due, outputs, and the
free values used. -/
def aside (s : State) : State := { s with reqs := [], todo := [], outputs := [], fresh := 0 }

/-- n bytes of a list. -/
def padded (n : Nat) (l : List Byte) : List Byte := (List.range n).map fun i => l.getD i 0

end Sys2Proof.Slice0

/-- R358 to R360, R367 to R369, R372: what each request whose fields are right and whose turn it is does, with its reply.
Body lengths are the model's reading (log 35), as is which slots KEYCLEAR finds in use (log 36). Cryptographic primitives and monitor samples are free (logs 5, 9). -/
def Obligations.ManagementRequests : Prop :=
  (∀ (s : State) (r : Req), Request s r [0, 1, 2] true 48 →
    let report := r.body ++ leBytes 8 Config.serial.toNat ++ leBytes 8 s.boot.stat.toNat ++
      (List.range 8).flatMap (fun i => leBytes 48 (cget 0 s.boot.m i).toNat) ++
      padded 97 (kaPublic (cget 0 s.boot.m 0)) ++ List.replicate 7 0
    ∃ u, exec (.attest r) s = .next u ∧ aside u = aside s ∧
      Replied s u r (report ++ padded 96 (Config.ecdsaSign dkScalar (Config.sha384 report)))) ∧
  (∀ (s : State) (r : Req), Request s r [1, 2] false 184 → bodyField r 0 0 ≤ 63 → bodyField r 1 7 = 0 →
    bodyField r 105 111 = 0 → cfind s.keys (bodyField r 0 0) = none →
    ∃ u, exec (.keyload r) s = .next u ∧ u.memory = s.memory ∧
      (∀ n, n ≠ bodyField r 0 0 → cfind u.keys n = cfind s.keys n) ∧
      match unwrapKey (cget 0 s.boot.m 0) (bodyField r 0 0) ((r.body.drop 8).take 97)
        ((r.body.drop 112).take 72) with
      | some k =>
        if k.extractLsb' 0 256 = k.extractLsb' 256 256 then TurnedAway s u r 4 ∧ u.keys = s.keys
        else Replied s u r [] ∧ cfind u.keys (bodyField r 0 0) = some k
      | none => TurnedAway s u r 6 ∧ u.keys = s.keys) ∧
  (∀ (s : State) (r : Req), Request s r [1, 2] false 1 → bodyField r 0 0 ≤ 63 →
    (∀ p ∈ s.jobs, p.2.keySlot ≠ bodyField r 0 0) →
    ∃ u, exec (.keyclear r) s = .next u ∧ Replied s u r [] ∧ cfind u.keys (bodyField r 0 0) = none ∧
      (∀ n, n ≠ bodyField r 0 0 → cfind u.keys n = cfind s.keys n) ∧ u.memory = s.memory) ∧
  (∀ (s : State) (r : Req), Request s r [2] false 50 → s.jobnewFaults r.body = [] →
    ∃ u, exec (.jobnew r) s = .next u ∧ Replied s u r [] ∧ u.memory.mem = s.memory.mem ∧
      u.job? (bodyField r 0 1) = some {
        ident := BitVec.ofNat 24 (bodyField r 2 5), keySlot := bodyField r 6 6, root := bodyField r 8 15
        poolLog2 := bodyField r 7 7, poolBase := BitVec.ofNat 64 (bodyField r 16 23)
        framePa := bodyField r 24 31, frameVa := BitVec.ofNat 64 (bodyField r 32 39)
        imagePa := bodyField r 40 47, imageSlots := bodyField r 48 49, pool := Pool.fresh (bodyField r 7 7)
        imageCap := { base := BitVec.ofNat 64 (bodyField r 40 47), len := bodyField r 48 49 * 2 ^ 24, rd := true,
                      wr := true, kind := .images, tag := true,
                      spans := [(bodyField r 40 47, bodyField r 6 6, false, bodyField r 48 49 * 2 ^ 24)] } }) ∧
  (∀ (s : State) (r : Req) (j : Job), Request s r [2] false 0 → s.job? r.job.toNat = some j →
    ∃ u j', exec (.jobend r) s = .next u ∧ .jobendDone r.job.toNat ∈ u.todo ∧ Follows s u [] ∧
      u.job? r.job.toNat = some j' ∧ j'.ending = some r ∧ j'.complete = true) ∧
  (∀ (s : State) (job : Nat) (j : Job) (r : Req), s.job? job = some j → j.ending = some r →
    (∀ p ∈ s.cores, ∀ t, p.2.task = some t → t.job ≠ job) →
    ∃ u, exec (.jobendDone job) s = .next u ∧ Replied s u r [] ∧ u.job? job = none ∧
      (∀ n q, u.queue? n = some q → q.job ≠ job)) ∧
  (∀ (s : State) (r : Req) (j : Job), Request s r [2] false 16 → s.job? r.job.toNat = some j →
    bodyField r 0 1 ≤ 4095 → bodyField r 2 3 = 0 → bodyField r 4 7 < 2 ^ 24 →
    ∃ u j', exec (.peerset r) s = .next u ∧ Replied s u r [] ∧ u.job? r.job.toNat = some j' ∧
      cfind j'.peers (bodyField r 0 1) = some (bodyField r 4 7, BitVec.ofNat 64 (bodyField r 8 15)) ∧
      (∀ e, e ≠ bodyField r 0 1 → cfind j'.peers e = cfind j.peers e) ∧ u.memory = s.memory) ∧
  (∀ (s : State) (r : Req), Request s r [2] false 0 → s.jobs = [] → ∃ u, exec (.swclear r) s = .next u ∧
    Replied s u r [] ∧ u.memory.sw = [] ∧ u.memory.mem = s.memory.mem ∧ u.keys = s.keys) ∧
  (∀ (s : State) (r : Req), Request s r [1, 2] false 9 → bodyField r 8 8 ≤ 11 → s.boot.mgmt.length < 16 →
    ∃ u, exec (.mgrant r) s = .next u ∧ Replied s u r [] ∧
      (BitVec.ofNat 64 (bodyField r 0 7), bodyField r 8 8) ∈ u.boot.mgmt ∧ (∀ x ∈ s.boot.mgmt, x ∈ u.boot.mgmt) ∧
      aside { u with boot := s.boot } = aside s) ∧
  (∀ (s : State) (r : Req), Request s r [1, 2] false 0 → ∃ u page, exec (.telem r) s = .next u ∧
    Replied s u r page ∧ page.length = 4096 ∧ page.take 8 = leBytes 8 s.mon.power.toNat ∧ u.memory = s.memory)

/-- R101, R359, R373: PTSET writes its entries under the job's key and leaves every translation of the job as it was;
once no access uses the old entries the change is complete and has its reply. QSET installs a queue and writes its
record, or sets the flags of a queue that runs. KREG registers the object at its address under the job's next handle and
answers it: a linked object without .rel and .link stands as its bytes say; one that breaks a limit is refused. That 255
entries are the most of a PTSET is the model's reading (log 35), as is what QSET asks of the pages of a queue (log 38). Until completion the model uses the old entries (log 39), and an object is registered in place (log 11). -/
def Obligations.ManagementTables : Prop :=
  (∀ (s : State) (r : Req) (j : Job) (n : Nat), 1 ≤ n → n ≤ 255 → Request s r [2] false (4 + 16 * n) →
    s.job? r.job.toNat = some j → bodyField r 0 3 = n →
    let pa (i : Nat) : Nat := bodyField r (4 + 16 * i) (11 + 16 * i)
    (∀ i, i < n → pa i % 8 = 0 ∧ pa i < 2 ^ 39 ∧ s.carved (pa i) 8 = false) →
    ∃ u, exec (.ptset r) s = .next u ∧ Follows s u [] ∧ .pageTableChangeComplete ∈ u.todo ∧
      (∀ i, i < n → (∀ k, i < k → k < n → pa k ≠ pa i) →
        u.devRead j.keySlot (pa i) 8 = leBytes 8 (bodyField r (12 + 16 * i) (19 + 16 * i))) ∧
      (j.root % 8 = 0 → ∀ off kind, u.translate r.job.toNat off kind = s.translate r.job.toNat off kind)) ∧
  (∀ (s : State) (r : Req) (pa : Nat) (old : Word) (rest : List (Nat × Word × Req)),
    s.memory.ptPending = (pa, old, r) :: rest →
    (∀ p ∈ s.memory.ptPending, p.2.2 = r → s.entryInUse p.1 = false) →
    ∃ u, exec .pageTableChangeComplete s = .next u ∧ Replied s u r [] ∧
      u.memory = { s.memory with ptPending := s.memory.ptPending.filter fun p => p.2.2 ≠ r }) ∧
  (∀ (s : State) (r : Req) (j : Job), Request s r [2] false 64 →
    s.job? r.job.toNat = some j → s.qsetFaults r = [] →
    let n := bodyField r 0 3
    ∃ u q, exec (.qset r) s = .next u ∧ Replied s u r [] ∧ .queuePollTick ∈ u.todo ∧ u.queue? n = some q ∧
      q.flags = r.body.getD 17 0 ∧ (∀ m, m ≠ n → u.queue? m = s.queue? m) ∧
      ((∀ x, s.queue? n = some x → x.state ≠ 1) →
        q.state = 1 ∧ q.job = r.job.toNat ∧ q.ring = BitVec.ofNat 64 (bodyField r 8 15) ∧
        q.order = bodyField r 16 16 ∧ q.event = BitVec.ofNat 64 (bodyField r 24 31) ∧
        q.self = BitVec.ofNat 64 (bodyField r 32 39) ∧ q.next = BitVec.ofNat 32 (bodyField r 20 23) ∧
        q.prod = BitVec.ofNat 32 (bodyField r 20 23) ∧
        ∀ pa slot, s.translate r.job.toNat (bodyField r 32 39) .write = .ok (pa, slot, false) →
          u.devRead slot pa 64 = r.body)) ∧
  (∀ (s : State) (r : Req) (j : Job) (b : List Byte) (o : Obj), Request s r [2] false 16 → s.job? r.job.toNat = some j →
    let base := BitVec.ofNat 64 (bodyField r 0 7)
    pathOf base = 0 → s.jobRead r.job.toNat base (bodyField r 8 15) = some b → parseObj b = some o → o.linked = true →
    (∀ x ∈ o.sects, x.kind ≠ 12 ∧ x.kind ≠ 9) →
    ∃ u, exec (.kreg r) s = .next u ∧ Replied s u r (leBytes 8 j.nextKernel) ∧ u.memory = s.memory ∧
      u.job? r.job.toNat =
        some { j with kernels := cput j.kernels j.nextKernel (o.kernel base b), nextKernel := j.nextKernel + 1 }) ∧
  (∀ (s v : State) (r : Req) (j : Job) (handle : Nat), Request s r [2] false 16 → s.job? r.job.toNat = some j →
    s.registerObj r.job.toNat j (BitVec.ofNat 64 (bodyField r 0 7)) (bodyField r 8 15) = some (v, handle) →
    ∃ u j' k, exec (.kreg r) s = .next u ∧ Replied s u r (leBytes 8 handle) ∧ handle = j.nextKernel ∧
      u.job? r.job.toNat = some j' ∧ cfind j'.kernels handle = some k ∧
      k.base = BitVec.ofNat 64 (bodyField r 0 7) ∧ j'.nextKernel = handle + 1 ∧
      ∀ h, h ≠ handle → cfind j'.kernels h = cfind j.kernels h) ∧
  (∀ (s : State) (r : Req) (j : Job), Request s r [2] false 16 → s.job? r.job.toNat = some j →
    s.registerObj r.job.toNat j (BitVec.ofNat 64 (bodyField r 0 7)) (bodyField r 8 15) = none →
    ∃ u, exec (.kreg r) s = .next u ∧ TurnedAway s u r 4 ∧ u.memory = s.memory ∧ u.jobs = s.jobs)

/-! ## What runs beside the work (R370, R371, R409, R417) -/

namespace Sys2Proof.Slice0

/-- A sequencer is stalled at issue: it runs, its last turn ended in a stall, and it is not parked (R57, R392, R409). -/
def StalledSeq (s : State) (n : Nat) (q : Seq) : Prop :=
  ((s.core n).seq q).cond = .run ∧ ((s.core n).seq q).stalled = true ∧ ((s.core n).seq q).specPark = false ∧
  s.parkedAt n q = false

end Sys2Proof.Slice0

/-- R107, R111, R370, R371, R409, R417: readings of power and temperature move the issue limit by a step, and a die at
120 degrees stops the module; the scrub poisons what it cannot correct, and what it corrects in a core's memory
freezes the core; the end of a freeze lets the core go on; a core without progress for 2^31 cycles traps. What a thermal
stop clears beyond the contents of device memory and of the chips is the model's reading (log 32), as is how the limit's
steps and errors of an access are counted (logs 60, 76). -/
def Obligations.BackgroundEvents : Prop :=
  (∀ (s : State) (power : Word) (temps : List (BitVec 16)), s.boot.powered = true → s.boot.stage ≠ 0xF →
    let lim := s.mon.issueLimit
    ∃ u, exec (.powerLimitTick power temps) s = .next u ∧ u.mon.power = power ∧
      (∀ d, d < 8 → cget 0 u.mon.dietemp d = temps.getD d 0) ∧
      u.mon.issueLimit = (if 5800000 < power.toNat ∨ ((List.range 8).any fun d => 1680 ≤ (temps.getD d 0).toInt) = true
        then (if lim < 16 then lim + 1 else lim) else if power.toNat < 5800000 then lim - 1 else lim) ∧
      (∀ d : Fin 8, 1920 ≤ (temps.getD d.val 0).toInt → .thermalStop d ∈ u.todo) ∧ u.memory = s.memory ∧
      u.cores = s.cores) ∧
  (∀ (s : State) (d : Fin 8), s.boot.powered = true → s.boot.stage ≠ 0xF →
    1920 ≤ (cget 0 s.mon.dietemp d.val).toInt →
    ∃ u, exec (.thermalStop d) s = .next u ∧ u.boot.stage = 0xF ∧ u.boot.ports = 0 ∧ u.cores = [] ∧ u.jobs = [] ∧
      u.queues = [] ∧ u.keys = [] ∧ u.memory = {}) ∧
  (∀ (s : State) (pa : Nat) (bad : Bool), (s.boot.stage = 1 ∨ s.boot.stage = 2) → pa < 2 ^ 39 →
    s.boot.dies.getLsbD (pa / 2 ^ 36) = true →
    ∃ u, exec (.patrolScrub (.mem pa) bad) s = .next u ∧ u.memory.mem = s.memory.mem ∧
      (∀ n, cget false u.memory.poison n = (bad && n == pa / 64 || cget false s.memory.poison n)) ∧
      cget 0 u.mon.memUncorr (pa / 2 ^ 36) = cget 0 s.mon.memUncorr (pa / 2 ^ 36) + (if bad then 1 else 0) ∧
      cget 0 u.mon.memCorr (pa / 2 ^ 36) = cget 0 s.mon.memCorr (pa / 2 ^ 36) + (if bad then 0 else 1)) ∧
  (∀ (s : State) (n : Fin 448) (w : Nat) (loc : ScrubLoc), (s.boot.stage = 1 ∨ s.boot.stage = 2) →
    (loc = .scratch n w ∧ w < 196608 ∨ loc = .acc n w ∧ w < 65536) →
    (∃ u, exec (.patrolScrub loc true) s = .next u ∧
      (loc = .scratch n w → cget false (u.core n.val).stores.spPoison w = true) ∧
      (loc = .acc n w → cget false (u.core n.val).stores.accPoison (2 * w) = true ∧
        cget false (u.core n.val).stores.accPoison (2 * w + 1) = true) ∧
      (u.core n.val).frozen = (s.core n.val).frozen) ∧
    ((s.core n.val).frozen = 0 → (s.core n.val).errAt ≠ some s.cycle →
      ∃ u, exec (.patrolScrub loc false) s = .next u ∧ (u.core n.val).frozen = s.cycle + 25 ∧
        (u.core n.val).regs.sp.freeze = (s.core n.val).regs.sp.freeze + 1 ∧
        (u.core n.val).stores = (s.core n.val).stores)) ∧
  (∀ (s : State) (d : Fin 8) (channel : Nat), exec (.memoryRetraining d channel) s = .next s) ∧
  (∀ (s : State) (n : Fin 448), (s.core n.val).frozen ≠ 0 → (s.core n.val).frozen ≤ s.cycle →
    ∃ u, exec (.freezeEnd n) s = .next u ∧ (u.core n.val).freezeNext = false ∧
      (u.core n.val).frozen = (if (s.core n.val).freezeNext then (s.core n.val).frozen + 24 else 0) ∧
      (u.core n.val).regs.sp.freeze = (s.core n.val).regs.sp.freeze + (if (s.core n.val).freezeNext then 1 else 0)) ∧
  (∀ (s : State) (n : Fin 448), (s.core n.val).task ≠ none → (s.core n.val).frozen = 0 →
    (s.core n.val).progress + 2 ^ 31 ≤ s.cycle →
    ∃ (w code : Nat) (ipc : Word), exec (.watchdog n) s =
        .next ({ s with fresh := w }.trapOn n.val { cause := 0x15, code := code, ipc := ipc } none) ∧
      ((∀ q, ¬ StalledSeq s n.val q) ∧ code = 0xFFFF ∨ ∃ q, StalledSeq s n.val q ∧ code = q.idx) ∧
      ∀ q, StalledSeq s n.val q → code ≤ q.idx)

/-! ## Packets (R375 to R384) -/

namespace Sys2Proof.Slice0

/-- A queue that runs and accepts packets: none holds it up, and its job goes on (R373, R381, R382). -/
structure Accepts (s : State) (n : Nat) (q : WQ) : Prop where
  powered : s.boot.powered = true
  kiln : s.boot.stage ≠ 0xF
  queue : s.queue? n = some q
  runs : q.state = 1
  unheld : q.hold = none
  job : ∃ j, s.job? q.job = some j ∧ j.ending = none

/-- The slot at its head holds the packet of the next sequence number, which has not been read yet (R375, R376). -/
structure Present (s : State) (n : Nat) (q : WQ) (p : List Byte) : Prop extends Accepts s n q where
  enabled : q.flags.getLsbD 0 = true
  untaken : q.taken = none
  slot : s.capRead q.ringCap (128 * (q.next.toNat % 2 ^ q.order)) 128 = some p
  mark : BitVec.ofNat 32 (leNat ((p.drop 4).take 4)) = q.next

/-- Its check holds (R375). -/
def checked (p : List Byte) : Prop := packetCheck p = BitVec.ofNat 16 (leNat ((p.drop 2).take 2))

/-- The packet as a matching read returned it (R376) is one that is accepted (R378). -/
structure AtHead (s : State) (n op : Nat) (q : WQ) (p : List Byte) : Prop extends Accepts s n q where
  taken : q.taken = some p
  opcode : leNat (p.take 1) = op
  good : (s.setWq n { q with taken := none }).packetFaults q.job p = []

/-- The event of a packet, by its opcode (R377). -/
def headEvent (op n : Nat) : Option Instr :=
  match op with
  | 0 => some (.nopPacket n)
  | 1 => some (.launchPacket n)
  | 2 => some (.graphPacket n)
  | 3 => some (.transformPacket n)
  | 4 => some (.waitcnt n)
  | 5 => some (.signalPacket n)
  | 6 => some (.fencePacket n)
  | _ => none

end Sys2Proof.Slice0

/-- R375 to R378, R381 to R383: each accepted packet takes its queue on by one sequence number; a LAUNCH gets the next
launch number of its job. A poll finds a packet at a queue's head and keeps the bytes that it read. A slot whose check
fails is read again, eight times, and then stops its queue with code 1; the first read whose check holds is the packet.
A packet whose work is complete leaves its queue, with its event. -/
def Obligations.PacketEvents : Prop :=
  (∀ (s : State) (n op : Nat) (q : WQ) (p : List Byte) (e : Instr), AtHead s n op q p → headEvent op n = some e →
    (op = 5 → s.readySignal n = none) → ∃ u q', exec e s = .next u ∧ u.queue? n = some q' ∧ q'.next = q.next + 1 ∧
      q'.accepted = q.accepted + 1 ∧ q'.taken = none ∧
      (op = 0 → q.next ∉ q.live → q'.live = q.live) ∧
      (op = 1 → ∀ j, s.job? q.job = some j → j.nextLaunch < 2 ^ 32 → ∃ l, u.launch? q.job j.nextLaunch = some l ∧
        l.num = j.nextLaunch ∧ l.queue = n ∧ l.pkt = q.next ∧ l.kernel = leNat ((p.drop 8).take 8))) ∧
  (∀ (s : State) (n op : Nat) (q : WQ) (p : List Byte) (e : Instr), Present s n q p → leNat (p.take 1) = op →
    checked p → headEvent op n = some e → (∀ m x, s.queue? m = some x → m ≠ n → s.headSlot x = none) →
    ∃ u q', exec .queuePollTick s = .next u ∧ e ∈ u.todo ∧ u.queue? n = some q' ∧ q'.taken = some p) ∧
  (∀ (s : State) (n : Nat) (q : WQ) (p : List Byte), Present s n q p → q.rereads ≠ 0 →
    ∃ u q', exec (.packetReread n) s = .next u ∧ u.queue? n = some q' ∧ q'.next = q.next ∧
      (checked p → ∀ e, headEvent (leNat (p.take 1)) n = some e →
        q' = { q with rereads := 0, taken := some p } ∧ e ∈ u.todo) ∧
      (¬ checked p → q.rereads < 8 → q' = { q with rereads := q.rereads + 1 } ∧ .packetReread n ∈ u.todo) ∧
      (¬ checked p → 8 ≤ q.rereads → q'.state = 2 ∧ q'.code = 1)) ∧
  (∀ (s : State) (n : Nat) (q : WQ) (j : Job) (seq : BitVec 32) (place : Nat × Nat), s.queue? n = some q →
    seq ∈ q.live → s.job? q.job = some j → j.finished n seq = some place →
    ∃ u q', exec (.packetComplete n seq) s = .next u ∧ u.queue? n = some q' ∧ q'.live = q.live.erase seq ∧
      q'.next = q.next ∧
      (∀ b, seq ∈ q.events → NoWaiters s → pathOf q.event = 7 → swByte (offOf q.event) = some b →
        wordAt u (.sw b) 8 = seq.toNat + 2 ^ 32))

/-! ## Launches, graphs and phases (R36, R37, R50, R156, R384 to R386) -/

namespace Sys2Proof.Slice0

/-- The node of a launch has been dispatched (R384). -/
def Dispatched (s : State) (job : Nat) (l : Launch) : Prop :=
  ∃ g y, s.graph? job l.phase l.graph = some g ∧ g.nodes[l.node]? = some y ∧ y.dispatched = true

/-- No task of a launch is placed. -/
def Unplaced (s : State) (job launch : Nat) : Prop :=
  ∀ p ∈ s.cores, ∀ t, p.2.task = some t → t.job = job → t.launch ≠ launch

/-- A dispatched node has done its work (R384). -/
def NodeOver (s : State) (job ph g n : Nat) (y : Node) : Prop :=
  y.dispatched = true ∧ y.done = false ∧
  match y.kind with
  | .launch num => ∃ l, s.launch? job num = some l ∧ l.complete = true
  | .transform _ => ∀ x, ((∃ e, (e, x) ∈ s.engines) ∨ ∃ d, (d, x) ∈ s.xwait) →
      ¬ (x.job = job ∧ x.phase = ph ∧ x.graph = g ∧ x.node = n)

end Sys2Proof.Slice0

/-- R36, R37, R50, R156, R384 to R386: a launch starts on the dies that its queue and its stages' limits give; it
completes when nothing of it is left. A node that is done counts in its graph, which completes with its last node. At a
phase boundary the epochs and stamps of the job are cleared. A transform takes the lowest free engine of its die. -/
def Obligations.NodeEvents : Prop :=
  (∀ (s : State) (job n : Nat) (l : Launch), s.launch? job n = some l → l.started = false → l.complete = false →
    l.spec = none → Dispatched s job l → s.specFor l.queue l.pkt = [] →
    let dies := (List.range (min 8 (((l.stages.map (·.max)).sum + 55) / 56))).map fun i => (l.queue + i) % 8
    ∃ u l', exec (.launchStart job n) s = .next u ∧ u.launch? job n = some l' ∧ l'.started = true ∧ l'.dieSet = dies ∧
      ∀ d : Fin 8, d.val ∈ dies → (cget {} u.disp d.val).passDue = true ∧ .grantPass d ∈ u.todo) ∧
  (∀ (s : State) (job n : Nat) (l : Launch), s.launch? job n = some l → l.started = true → l.complete = false →
    l.left = 0 → (∀ q ∈ l.queues, q.2.entries = []) → l.images = [] → l.conts = [] → l.spec = none →
    Unplaced s job n →
    ∃ u, exec (.launchComplete job n) s = .next u ∧ u.launch? job n = some { l with complete := true } ∧
      .nodeComplete job l.phase l.graph l.node ∈ u.todo ∧ u.memory = s.memory) ∧
  (∀ (s : State) (job ph g n : Nat) (x : Graph) (y : Node), s.graph? job ph g = some x → x.complete = false →
    x.nodes[n]? = some y → NodeOver s job ph g n y →
    (∀ j, s.job? job = some j → crising 0 j.phases = true ∧ ∀ p ∈ j.phases, crising 0 p.2.graphs = true) →
    ∃ u x', exec (.nodeComplete job ph g n) s = .next u ∧ u.graph? job ph g = some x' ∧ x'.counter = x.counter + 1 ∧
      (∃ y', x'.nodes[n]? = some y' ∧ y'.done = true) ∧ x'.complete = x'.nodes.all (·.done)) ∧
  (∀ (s : State) (job p : Nat) (j : Job), s.job? job = some j → 1 ≤ p → p ≤ j.openPhase → (j.phase p).ready = false →
    (∀ i, 1 ≤ i → i < p → (j.phase i).ready = true) → (j.phase (p - 1)).complete = true →
    (∀ c ∈ s.cores, ∀ t, c.2.task = some t → t.spec = false → t.job ≠ job) →
    ∃ u j', exec (.phaseBoundary job) s = .next u ∧ u.job? job = some j' ∧ (j'.phase p).ready = true ∧
      j'.epochs = [] ∧ j'.pending = [] ∧ (∀ e ∈ u.memory.stamps, e.2.job ≠ job) ∧ u.memory.mem = s.memory.mem) ∧
  (∀ (s : State) (die : Fin 8) (x : Xform) (e : Nat) (cmd : Cmd),
    s.xwait.find? (fun y => y.1 = die.val) = some (die.val, x) → 4 * die.val ≤ e → e < 4 * die.val + 4 →
    cfind s.engines e = none → (∀ i, 4 * die.val ≤ i → i < e → cfind s.engines i ≠ none) →
    s.xformCmd x.job x.body = .ok cmd →
    ∃ u, exec (.transformEngineStart die) s = .next u ∧ cfind u.engines e = some { x with cmd := cmd } ∧
      u.xwait = s.xwait.erase (die.val, x) ∧ u.memory = s.memory) ∧
  (∀ (s : State) (die : Fin 8) (e : Fin 4) (x : Xform), cfind s.engines (4 * die.val + e.val) = some x →
    x.cmd.done = true →
    ∃ u, exec (.transformComplete die e) s = .next u ∧ cfind u.engines (4 * die.val + e.val) = none ∧
      .nodeComplete x.job x.phase x.graph x.node ∈ u.todo ∧ .transformEngineStart die ∈ u.todo ∧ u.memory = s.memory)

/-! ## Tasks and shares of a die (R41, R45 to R64) -/

namespace Sys2Proof.Slice0

/-- An idle core that is assigned to a launch in progress (R51, R53). A co-resident launch holds all the cores that it was
granted, and no task of it is being pre-empted (R44, R55). -/
structure Idle (s : State) (n : Nat) (a : Assign) (j : Job) (l : Launch) : Prop where
  empty : (s.core n).task = none
  held : cfind (cget {} s.disp (n / 56)).assigned n = some a
  kept : a.marked = false
  job : s.job? a.job = some j
  launch : s.launch? a.job a.launch = some l
  started : l.started = true
  going : l.complete = false
  whole : l.cores = true → (∀ c ∈ l.home, ∃ b, cfind (cget {} s.disp (c / 56)).assigned c = some b ∧ b.job = a.job ∧
      b.launch = a.launch) ∧
    ∀ p ∈ s.cores, ∀ t, p.2.task = some t → t.job = a.job → t.launch = a.launch → p.2.preempt = .none

/-- Stage of a saved task. -/
def savedStage (i : Image) : Nat :=
  match i.saved.task with
  | some t => t.stage
  | none => 0

/-- The cores that a stage holds beyond its target on a die, which are its highest-numbered ones (R52). -/
def beyond (s : State) (d : Nat) (r : Row) : List Nat := (s.heldBy d r.job r.key r.st).drop r.target

/-- A probe of a launch is the one that is handled next: an earlier cycle goes first, then a lower queue (R64). -/
def NextProbe (x : Disp) (p : Probe) : Prop :=
  p ∈ x.probes ∧ ∀ o ∈ x.probes, o.job = p.job → o.launch = p.launch →
    p.at_ < o.at_ ∨ p.at_ = o.at_ ∧ p.queue ≤ o.queue

/-- A probe of the same cycle has reported the same queues before (R64). -/
def Reported (x : Disp) (p : Probe) (cyc : List Nat) : Prop :=
  (⟨p.job, p.launch, p.at_, (List.range 16).filter fun i => cyc.contains i⟩ : Report) ∈ x.reports

/-- A queue of a launch has its reserve entry (R62, R63). -/
def spare (l : Launch) (i : Nat) : Bool :=
  match cfind l.queues i with
  | some q => !q.reserveUsed
  | none => false

end Sys2Proof.Slice0

/-- R41, R45 to R54, R58, R60 to R64: what the start and the end of a task, the start of a continuation, a grant pass,
a re-division step, the fill of the entry queue and a probe do. A step gives back the cores that a stage holds beyond
its target: an idle one leaves the stage at once, one with a task is marked; every other assignment stands, but for the
idle cores of a co-resident launch, which is pre-empted whole. Which work comes first where a queue is full, that a task of
another stage leaves the core's assignment as it was, and that saved tasks do not count as pending are the model's reading
(logs 29, 41, 42, 43); what a deadlock does to a launch on prediction, and that a co-resident launch that was pre-empted
goes on on the same cores, are its choice (logs 90, 91). -/
def Obligations.TaskEvents : Prop :=
  (∀ (s : State) (n : Fin 448) (a : Assign) (j : Job) (l : Launch) (x : Stage) (q : SQueue) (e : SEntry)
    (es : List SEntry), Idle s n.val a j l → l.stages[a.stage]? = some x → cfind l.queues x.input = some q →
    q.entries = e :: es → (∀ c ∈ l.conts, c.stage = a.stage → c.state ≠ .ready) →
    (∀ i ∈ l.images, savedStage i ≠ a.stage) →
    ∃ u t, exec (.taskStart n) s = .next u ∧ (u.core n.val).task = some t ∧ t.job = a.job ∧ t.launch = a.launch ∧
      t.stage = a.stage ∧ t.entry = e.idx ∧ t.args = e.bytes ∧ t.spec = l.spec.isSome ∧
      (∀ r, (u.core n.val).x r = 0) ∧ (u.core n.val).regs.sp.entry = e.idx.setWidth 64 ∧
      (u.core n.val).regs.sp.argptr = l.argptr ∧
      (∀ i, i < 12 → ((u.core n.val).fifo i).length = l.tokens.toNat / 16 ^ i % 16) ∧
      (∀ q pc, (s.textOf a.job l a.stage).getD q.idx none = some pc →
        ((u.core n.val).seq q).cond = .run ∧ ((u.core n.val).seq q).pc = pc) ∧
      ∃ l' q', u.launch? a.job a.launch = some l' ∧ cfind l'.queues x.input = some q' ∧ q'.entries = es) ∧
  (∀ (s : State) (n : Fin 448) (a : Assign) (j : Job) (l : Launch) (st : Nat) (x : Stage) (q : SQueue) (e : SEntry)
    (es : List SEntry), Idle s n.val a j l → l.takes a.stage = false →
    (∀ c ∈ l.conts, c.stage = a.stage → c.state = .ready → l.cores = true ∧ c.origin ≠ n.val) →
    (∀ i ∈ l.images, savedStage i = a.stage → l.cores = true ∧ i.core ≠ n.val) → st ≠ a.stage → l.stages[st]? = some x →
    cfind l.queues x.input = some q → q.entries = e :: es → l.takes st = true →
    s.hasIdle a.job a.launch l st = false →
    (∀ i, i < st → l.takes i = true → s.hasIdle a.job a.launch l i = true) →
    ∃ u t, exec (.taskStart n) s = .next u ∧ (u.core n.val).task = some t ∧ t.job = a.job ∧ t.launch = a.launch ∧
      t.stage = st ∧ t.entry = e.idx ∧ t.args = e.bytes ∧
      cfind (cget {} u.disp (n.val / 56)).assigned n.val = some a) ∧
  (∀ (s : State) (n : Fin 448) (a : Assign) (j : Job) (l : Launch) (k : Cont), Idle s n.val a j l →
    l.conts.find? (fun c => c.state = .ready && c.stage = a.stage && (!l.cores || c.origin = n.val)) = some k →
    ∃ u t, exec (.continuationStart n) s = .next u ∧ (u.core n.val).task = some t ∧ t.job = a.job ∧
      t.launch = a.launch ∧ t.stage = k.stage ∧ t.entry = k.entry ∧ t.args = k.args ∧ t.kind = k.kind ∧
      (∀ r : BitVec 6, r ≠ 0 → (u.core n.val).x r = if k.live.getLsbD r.toNat
        then k.xs.getD ((List.range r.toNat).filter fun i => k.live.getLsbD i).length 0 else 0) ∧
      ((s.textOf a.job l k.stage).getD 0 none ≠ none →
        (u.core n.val).regs.k.cond = .run ∧ (u.core n.val).regs.k.pc = k.kpc) ∧
      ∃ l', u.launch? a.job a.launch = some l' ∧ ∀ c ∈ l'.conts, c.id ≠ k.id) ∧
  (∀ (s : State) (n : Fin 448) (t : Machine.Task) (l : Launch), (s.core n.val).task = some t →
    (∀ q, ((s.core n.val).seq q).cond = .ended) → (∀ u, (s.core n.val).unit u = []) →
    s.launch? t.job t.launch = some l →
    ∃ u l', exec (.taskEnd n) s = .next u ∧ (u.core n.val).task = none ∧ u.launch? t.job t.launch = some l' ∧
      l'.counter = l.counter + 1 ∧ u.memory.mem = s.memory.mem) ∧
  (∀ (s : State) (job launch : Nat) (l : Launch) (q : SQueue), s.launch? job launch = some l → l.started = true →
    l.complete = false → cfind l.queues 0 = some q → 1 ≤ l.left → q.entries.length < q.cap →
    let k := min l.left (q.cap - q.entries.length)
    ∃ u l' q', exec (.initialEntryFill job launch) s = .next u ∧ u.launch? job launch = some l' ∧
      l'.left = l.left - k ∧ cfind l'.queues 0 = some q' ∧
      q'.entries = q.entries ++ (List.range k).map fun i =>
        { idx := BitVec.ofNat 32 (l.count - l.left + i), bytes := l.args, own := true }) ∧
  (∀ (s : State) (d : Fin 8), (cget {} s.disp d.val).passDue = true →
    ∃ u, exec (.grantPass d) s = .next u ∧ (cget {} u.disp d.val).passDue = false ∧
      (∀ c a, cfind (cget {} s.disp d.val).assigned c = some a → cfind (cget {} u.disp d.val).assigned c = some a) ∧
      (∀ r c, s.rowsOn d.val = [r] → r.held < r.target → r.cores = false → s.chooseCore d.val r.job r.key = some c →
        cfind (cget {} u.disp d.val).assigned c = some ⟨r.job, r.key, r.st, false⟩)) ∧
  (∀ (s : State) (d : Fin 8), (cget {} s.disp d.val).lastStep + 4096 ≤ s.cycle →
    ∃ u, exec (.redivisionStep d) s = .next u ∧ (cget {} u.disp d.val).lastStep = s.cycle ∧
      (cget {} u.disp d.val).busy = [] ∧ u.memory = s.memory ∧
      ((cget {} s.disp d.val).ring.Nodup → crising 0 (cget {} s.disp d.val).assigned = true →
        let old := (cget {} s.disp d.val).assigned
        let new := (cget {} u.disp d.val).assigned
        (∀ r ∈ s.rowsOn d.val, ∀ c ∈ beyond s d.val r,
          ((s.core c).task ≠ none → cfind new c = some ⟨r.job, r.key, r.st, true⟩) ∧
          ((s.core c).task = none → r.cores = false →
            ∀ a, cfind new c = some a → ¬ (a.job = r.job ∧ a.launch = r.key ∧ a.stage = r.st))) ∧
        (∀ c a, cfind old c = some a → (∀ r ∈ s.rowsOn d.val, c ∉ beyond s d.val r) →
          ((s.core c).task ≠ none ∨ ∀ l, s.launch? a.job a.launch = some l → l.cores = false) →
          cfind new c = some a))) ∧
  (∀ (s : State) (l : Launch) (p : Probe), s.launch? p.job p.launch = some l → crising 0 s.disp = true →
    let d := l.dieSet.headD 0
    let x := cget {} s.disp d
    let path := s.probePath p.job p.launch l p.queue 17 p.queue [p.queue]
    NextProbe x p → p.at_ < s.cycle →
    ∃ u, exec (.probeWalk p.job p.launch p.queue) s = .next u ∧
      (∀ o ∈ (cget {} u.disp d).probes, o ∈ x.probes.erase p) ∧
      (path = none → (cget {} u.disp d).probes = x.probes.erase p ∧ u.jobs = s.jobs) ∧
      (∀ cyc, path = some cyc → ((∃ i ∈ cyc, l.stuck i = false) ∨ Reported x p cyc) →
        (cget {} u.disp d).probes = x.probes.erase p ∧ u.jobs = s.jobs) ∧
      (∀ cyc, path = some cyc → (∀ i ∈ cyc, l.stuck i = true) → ¬ Reported x p cyc →
        (∀ m, cyc.find? (spare l) = some m → (cget {} u.disp d).probes = x.probes.erase p ∧
          ∃ l' q', u.launch? p.job p.launch = some l' ∧ cfind l'.queues m = some q' ∧ q'.reserveUsed = true) ∧
        (cyc.find? (spare l) = none → l.complete = false → l.spec = none →
          ∃ l', u.launch? p.job p.launch = some l' ∧ l'.complete = true ∧ l'.cancelled = true) ∧
        (∀ y, cyc.find? (spare l) = none → l.spec = some y → y.dead = none →
          u.launch? p.job p.launch = some { l with spec := some { y with dead := some 8 } } ∧
          ∃ e ∈ u.errors, e.job = p.job ∧ e.cause = 0x1A)))

/-! ## Pre-emption (R410 to R416) -/

namespace Sys2Proof.Slice0

/-- The job's image area has the capability that JOBNEW derives for it (R360, R374). -/
def ImageArea (j : Job) : Prop :=
  let n := j.imageSlots * 2 ^ 24
  j.imagePa % 65536 = 0 ∧ j.imageCap.tag = true ∧ j.imageCap.wr = true ∧ j.imageCap.len = n ∧ j.imageCap.spans = [(j.imagePa, j.keySlot, false, n)]

end Sys2Proof.Slice0

/-- R410 to R416: a request that reaches a core without a handler stops it, but waits where an overflow trap of the
cycle is still to be raised, which comes first (R398, log 78); wheels that drain too long are timed out;
the task's image goes into the lowest free slot with registers, stores and FIFOs as they were, and the core is free;
an idle core resumes a saved task with all of that. The image's bytes come to the slot in the job's image area: the X
registers from 0x200 and the scratchpad from 0x94000 are stated, and no byte outside the area changes. That units stop
at once is the model's reading (log 21), as is that a held-back output goes into its queue (log 85) and what an image holds
where no rule places it (log 70). -/
def Obligations.PreemptionEvents : Prop :=
  (∀ (s : State) (n : Fin 448), (s.core n.val).preempt = .requested → (s.core n.val).task ≠ none →
    (s.core n.val).handler = false → (s.core n.val).cut = none → s.overflowTraps n.val = [] →
    ∃ u, exec (.preemptionRequest n) s = .next u ∧ (u.core n.val).preempt = .stopped ∧
      (u.core n.val).preemptAt = s.cycle ∧ .contextSave n ∈ u.todo ∧ (u.core n.val).regs.k = (s.core n.val).regs.k ∧
      (u.core n.val).stores = (s.core n.val).stores ∧ (u.core n.val).units = (s.core n.val).units ∧
      u.memory = s.memory) ∧
  (∀ (s : State) (n : Fin 448), (s.core n.val).preempt = .requested → (s.core n.val).task ≠ none →
    (s.core n.val).handler = false → (s.core n.val).cut = none → s.overflowTraps n.val ≠ [] →
    exec (.preemptionRequest n) s = .next (s.due (.preemptionRequest n))) ∧
  (∀ (s : State) (n : Fin 448) (q : Seq), (s.core n.val).preempt = .stopped → q ≠ .k →
    ((s.core n.val).seq q).wheel.active = true → ((s.core n.val).seq q).wheel.drain.isSome = true →
    (s.core n.val).handler = false → (s.core n.val).preemptAt + 65536 ≤ s.cycle →
    ∃ u, exec (.drainTimeout n) s = .next u ∧ (u.core n.val).preempt = .timedOut ∧ .contextSave n ∈ u.todo ∧
      (u.core n.val).regs = (s.core n.val).regs ∧ u.memory = s.memory) ∧
  (∀ (s : State) (n : Fin 448) (t : Machine.Task) (j : Job) (l : Launch) (slot : Nat),
    let c := s.core n.val
    c.task = some t → s.job? t.job = some j → s.launch? t.job t.launch = some l → slot < j.imageSlots →
    slot ∉ j.slotsUsed → (∀ i, i < slot → i ∈ j.slotsUsed) →
    (c.preempt = .timedOut ∨ c.preempt = .stopped ∧
      ∀ q, q ≠ .k → (c.seq q).wheel.active = false ∨ (c.seq q).wheel.drain = none) →
    c.handler = false → c.frozen = 0 → (∀ u x r, c.unit u = x :: r → x.done = false) →
    ∃ u l' i, exec (.contextSave n) s = .next u ∧ (u.core n.val).task = none ∧ u.launch? t.job t.launch = some l' ∧
      i ∈ l'.images ∧ i.slot = slot ∧ i.core = n.val ∧ i.saved.regs = c.regs ∧ i.saved.stores = c.stores ∧
      i.saved.couple.fifos = c.couple.fifos ∧ i.saved.couple.sems = c.couple.sems ∧
      ((∀ u x r, c.unit u = x :: r → x.wins = [] ∧ x.xv = []) → ∀ k, (c.queue k).elems <+: (i.saved.queue k).elems ∧
        ((∀ u x r, c.unit u = x :: r → x.out = none) → i.saved.queue k = c.queue k)) ∧
      cfind (cget {} u.disp (n.val / 56)).assigned n.val = none ∧
      (ImageArea j →
        (∀ r, r < 64 → ∀ b, (hb : b < 8) → u.devByte (keyAt s j.keySlot) (j.imagePa + 2 ^ 24 * slot + 0x200 + 8 * r + b) =
          BitVec.ofNat 8 ((cget 0 c.regs.x r).toNat / 256 ^ b)) ∧
        (∀ a, a < 0x180000 → u.devByte (keyAt s j.keySlot) (j.imagePa + 2 ^ 24 * slot + 0x94000 + a) =
          cget 0 c.stores.sp a) ∧
        (∀ a, a < j.imagePa ∨ j.imagePa + j.imageSlots * 2 ^ 24 ≤ a → byteAt u.memory.mem a = byteAt s.memory.mem a))) ∧
  (∀ (s : State) (n : Fin 448) (a : Assign) (j : Job) (l : Launch) (i : Image) (t : Machine.Task),
    Idle s n.val a j l → l.images.find? (fun x => savedStage x = a.stage && (!l.cores || x.core = n.val)) = some i →
    i.saved.task = some t →
    ∃ u l', exec (.taskResume n) s = .next u ∧ (u.core n.val).task = some { t with since := s.cycle, placed := s.cycle } ∧
      (∀ r, (u.core n.val).x r = i.saved.x r) ∧ (∀ q, ((u.core n.val).seq q).pc = (i.saved.seq q).pc ∧
        ((u.core n.val).seq q).preds = (i.saved.seq q).preds ∧ ((u.core n.val).seq q).cond = (i.saved.seq q).cond) ∧
      (∀ k, (u.core n.val).fifo k = i.saved.fifo k) ∧ (∀ m, (u.core n.val).sema m = i.saved.sema m) ∧
      (u.core n.val).stores.sp = i.saved.stores.sp ∧ (u.core n.val).stores.acc = i.saved.stores.acc ∧
      (u.core n.val).units = i.saved.units ∧ u.launch? a.job a.launch = some l' ∧ (∀ x ∈ l'.images, x.slot ≠ i.slot))

/-! ## Units and dropped coils (R23, R31, R243, R339) -/

/-- R23, R31, R32, R35, R243, R339: a command that is done leaves its unit, and its pushes and its signal act. A loaded
tile comes into its latch. The blocks of a dropped coil go back to the pool once no store into it is left. -/
def Obligations.UnitEvents : Prop :=
  (∀ (s : State) (n : Fin 448) (un : CUnit) (x : Cmd) (rest : List Cmd) (h : Hdr) (f : Sem),
    let c := s.core n.val
    c.unit un = x :: rest → x.done = true → c.task ≠ none → c.handler = false → c.frozen = 0 →
    commandUnit x.inst = some (h, some f, un) → (c.seq x.seq).sigs = [] → (c.seq x.seq).cond ≠ .ending →
    (∀ y ∈ neighbours x.seq h.push, (c.fifo (fifoIdx x.seq y)).length < 15) →
    (s.semBaseOf n.val f.sigsem).toNat + sumInc (s.addsOf n.val f.sigsem) + f.inc.toNat ≤ 65535 →
    ∃ u, exec (.commandRetire n un) s = .next u ∧ (u.core n.val).unit un = rest ∧
      ((u.core n.val).seq x.seq).live = ((c.seq x.seq).live.filter fun i => i ≠ x.num) ∧
      (∀ y ∈ neighbours x.seq h.push, ∃ copy, (u.core n.val).fifo (fifoIdx x.seq y) =
        c.fifo (fifoIdx x.seq y) ++ [⟨none, copy⟩]) ∧
      (f.inc ≠ 0 → ((u.core n.val).sema f.sigsem.toNat).val.toNat =
        (s.semBaseOf n.val f.sigsem).toNat + sumInc (s.addsOf n.val f.sigsem) + f.inc.toNat) ∧
      (∀ m, m ≠ f.sigsem.toNat ∨ f.inc = 0 → (u.core n.val).sema m = c.sema m) ∧ u.memory = s.memory) ∧
  (∀ (s : State) (n : Fin 448) (w : Fin 2) (t : Tile), ((s.core n.val).latch w.val).pending = some t →
    (s.core n.val).usesLatch w.val = false →
    ∃ u, exec (.latchTake n w) s = .next u ∧ (u.core n.val).latch w.val = { cur := some t } ∧
      (∀ v : Fin 2, v ≠ w → (u.core n.val).latch v.val = (s.core n.val).latch v.val) ∧ u.memory = s.memory) ∧
  (∀ (s : State) (id : Nat) (d : Dropped) (j : Job), s.memory.dropped.find? (fun x => x.id = id) = some d →
    s.storesLeft d.job d.handle = false → s.job? d.job = some j →
    ∃ u, exec (.coilBlockRelease id) s = .next u ∧ (∀ x ∈ u.memory.dropped, x.id ≠ id) ∧
      u.job? d.job = some { j with pool := d.blocks.foldl Pool.unref j.pool } ∧ u.memory.mem = s.memory.mem)

/-! ## Launches on prediction (R393, R394) -/

namespace Sys2Proof.Slice0

/-- A prediction and the real launch of its queue's packet, which may start (R393). -/
structure ClaimDue (s : State) (queue job key : Nat) (l : Launch) (x : Spec) (real : Launch) : Prop where
  first : (s.specKeys fun _ _ y => y.queue == queue).head?.bind s.findSpec = some (job, l)
  named : s.launch? job l.num = some l
  spec : l.spec = some x
  alive : x.dead = none
  actual : ∃ j, s.job? job = some j ∧ j.launches.find? (fun r => r.2.spec.isNone && r.2.queue == queue &&
    x.real == some r.2.pkt.toNat && !r.2.started && !r.2.complete) = some (key, real)
  lone : ∃ g, s.graph? job real.phase real.graph = some g ∧ g.lone = true
  dispatched : Dispatched s job real

end Sys2Proof.Slice0

/-- R393, R394: a real launch claims its prediction where the bodies agree and nothing that the prediction read has
changed, and its tasks go on as the real launch's; else the prediction is discarded, with reason 1 or 3. A granule is
published with its bytes and no others. A discard removes the launch, clears the cores that ran it, and counts its
reason. A prediction that lasts 10 ms is discarded with reason 7. Points of the claim are the model's reading (logs
22, 24, 63, 64). -/
def Obligations.SpeculationEvents : Prop :=
  (∀ (s : State) (queue job key : Nat) (l real : Launch) (x : Spec), ClaimDue s queue job key l x real →
    ∃ u, exec (.claim queue) s = .next u ∧
      (∀ reason, (bodiesMatch real.body x.body = false ∧ reason = 1 ∨
          bodiesMatch real.body x.body = true ∧ s.stillValid x = false ∧ reason = 3) →
        u.launch? job l.num = some { l with spec := some { x with dead := some reason } } ∧
        .speculativeDiscard l.num reason ∈ u.todo ∧ u.memory = s.memory) ∧
      (bodiesMatch real.body x.body = true → s.stillValid x = true → l.num ≠ key →
        u.launch? job l.num = none ∧
        (∃ l', u.launch? job key = some l' ∧ l'.spec = none ∧ l'.num = real.num ∧ l'.pkt = real.pkt ∧
          l'.queues.map (·.1) = l.queues.map (·.1)) ∧
        ∀ n t, (s.core n).task = some t → t.job = job → t.launch = l.num →
          ∃ t', (u.core n).task = some t' ∧ t'.launch = key ∧ t'.spec = false)) ∧
  (∀ (s : State) (slot g : Nat) (sh : Shadow), crising 0 sh.bytes = true → (∀ b ∈ sh.bytes, b.1 < 128) →
    let u := s.publishGranule slot g sh
    (∀ b ∈ sh.bytes, u.devByte (keyAt s slot) (128 * g + b.1) = b.2) ∧
    (∀ a, (∀ b ∈ sh.bytes, 128 * g + b.1 ≠ a) → u.devByte (keyAt s slot) a = s.devByte (keyAt s slot) a)) ∧
  (∀ (s : State) (key reason job : Nat) (l : Launch) (x : Spec) (q : WQ), s.findSpec key = some (job, l) →
    l.spec = some x → x.dead = some reason → s.queue? x.queue = some q →
    ∃ u q', exec (.speculativeDiscard key reason) s = .next u ∧ u.launch? job key = none ∧
      (∀ n t, (u.core n).task = some t → ¬ (t.job = job ∧ t.launch = key)) ∧
      (∀ c ∈ x.ran, (u.core c).stores.sp = [] ∧ (u.core c).stores.acc = []) ∧
      u.queue? x.queue = some q' ∧ cget 0 q'.discarded reason = cget 0 q.discarded reason + 1) ∧
  (∀ (s : State) (key job : Nat) (l : Launch) (x : Spec), s.findSpec key = some (job, l) →
    s.launch? job key = some l → l.spec = some x → x.real = none → x.dead = none → x.started + 11000000 ≤ s.cycle →
    ∃ u, exec (.predictionTimeout key) s = .next u ∧
      u.launch? job key = some { l with spec := some { x with dead := some 7 } } ∧
      .speculativeDiscard key 7 ∈ u.todo ∧ u.memory = s.memory)
end

