-- ==== Sys2Proof/Laws/Encoding.lean ====
section
/-! SUPPORT. Laws/Encoding: the fields of a packed doubleword read back as they were written. -/

set_option Elab.async false

namespace Sys2Proof

/-- The low part of an append reads back. -/
theorem extract_append_low {n m : Nat} (x : BitVec n) (y : BitVec m) :
    (x ++ y).extractLsb' 0 m = y := by
  ext i hi
  simp [BitVec.getLsbD_append, hi]

/-- A field above the low part of an append reads from the high part. -/
theorem extract_append_high {n m : Nat} (x : BitVec n) (y : BitVec m) (k l : Nat) :
    (x ++ y).extractLsb' (m + k) l = x.extractLsb' k l := by
  ext i hi
  have h : ¬ m + k + i < m := by omega
  have h2 : m + k + i - m = k + i := by omega
  simp [BitVec.getLsbD_append, h, h2]

/-- The whole of a value reads back. -/
theorem extract_whole {n : Nat} (x : BitVec n) : x.extractLsb' 0 n = x := by
  ext i hi
  simp

@[simp] theorem Fields.unpack_pack (f : Fields) : Fields.unpack f.pack = f := by
  rcases f with ⟨len, major, pop, push, guard, gneg, a, b, c, minor, imm⟩
  have e := @extract_append_high
  have lo := @extract_append_low
  simp only [Fields.unpack, Fields.pack, Fields.mk.injEq]
  refine ⟨lo _ _, (e _ _ 0 _).trans (lo _ _), ?_, ?_, ?_, ?_, ?_, ?_, ?_, ?_, ?_⟩
  · exact (e _ _ 6 _).trans ((e _ _ 0 _).trans (lo _ _))
  · exact (e _ _ 9 _).trans ((e _ _ 3 _).trans ((e _ _ 0 _).trans (lo _ _)))
  · exact (e _ _ 12 _).trans ((e _ _ 6 _).trans ((e _ _ 3 _).trans ((e _ _ 0 _).trans (lo _ _))))
  · exact (e _ _ 17 _).trans ((e _ _ 11 _).trans ((e _ _ 8 _).trans ((e _ _ 5 _).trans
      ((e _ _ 0 _).trans (lo _ _)))))
  · exact (e _ _ 18 _).trans ((e _ _ 12 _).trans ((e _ _ 9 _).trans ((e _ _ 6 _).trans
      ((e _ _ 1 _).trans ((e _ _ 0 _).trans (lo _ _))))))
  · exact (e _ _ 24 _).trans ((e _ _ 18 _).trans ((e _ _ 15 _).trans ((e _ _ 12 _).trans
      ((e _ _ 7 _).trans ((e _ _ 6 _).trans ((e _ _ 0 _).trans (lo _ _)))))))
  · exact (e _ _ 30 _).trans ((e _ _ 24 _).trans ((e _ _ 21 _).trans ((e _ _ 18 _).trans
      ((e _ _ 13 _).trans ((e _ _ 12 _).trans ((e _ _ 6 _).trans ((e _ _ 0 _).trans (lo _ _))))))))
  · exact (e _ _ 36 _).trans ((e _ _ 30 _).trans ((e _ _ 27 _).trans ((e _ _ 24 _).trans
      ((e _ _ 19 _).trans ((e _ _ 18 _).trans ((e _ _ 12 _).trans ((e _ _ 6 _).trans
      ((e _ _ 0 _).trans (lo _ _)))))))))
  · exact (e _ _ 44 _).trans ((e _ _ 38 _).trans ((e _ _ 35 _).trans ((e _ _ 32 _).trans
      ((e _ _ 27 _).trans ((e _ _ 26 _).trans ((e _ _ 20 _).trans ((e _ _ 14 _).trans
      ((e _ _ 8 _).trans ((e _ _ 0 _).trans (extract_whole _))))))))))

@[simp] theorem Second.unpack_pack (s : Second) : Second.unpack s.pack = s := by
  rcases s with ⟨eng, inc, sigsem, thresh, waitsem⟩
  have e := @extract_append_high
  have lo := @extract_append_low
  simp only [Second.unpack, Second.pack, Second.mk.injEq]
  refine ⟨?_, ?_, ?_, ?_, lo _ _⟩
  · exact (e _ _ 32 _).trans ((e _ _ 16 _).trans ((e _ _ 8 _).trans ((e _ _ 0 _).trans (extract_whole _))))
  · exact (e _ _ 24 _).trans ((e _ _ 8 _).trans ((e _ _ 0 _).trans (lo _ _)))
  · exact (e _ _ 16 _).trans ((e _ _ 0 _).trans (lo _ _))
  · exact (e _ _ 0 _).trans (lo _ _)

@[simp] theorem EFields.unpack_pack (f : EFields) : EFields.unpack f.pack = f := by
  rcases f with ⟨op, d, a, b, c, mod, top⟩
  have e := @extract_append_high
  have lo := @extract_append_low
  simp only [EFields.unpack, EFields.pack, EFields.mk.injEq]
  refine ⟨lo _ _, (e _ _ 0 _).trans (lo _ _), ?_, ?_, ?_, ?_, ?_⟩
  · exact (e _ _ 4 _).trans ((e _ _ 0 _).trans (lo _ _))
  · exact (e _ _ 8 _).trans ((e _ _ 4 _).trans ((e _ _ 0 _).trans (lo _ _)))
  · exact (e _ _ 12 _).trans ((e _ _ 8 _).trans ((e _ _ 4 _).trans ((e _ _ 0 _).trans (lo _ _))))
  · exact (e _ _ 16 _).trans ((e _ _ 12 _).trans ((e _ _ 8 _).trans ((e _ _ 4 _).trans
      ((e _ _ 0 _).trans (lo _ _)))))
  · exact (e _ _ 24 _).trans ((e _ _ 20 _).trans ((e _ _ 16 _).trans ((e _ _ 12 _).trans
      ((e _ _ 8 _).trans ((e _ _ 0 _).trans (extract_whole _))))))

/-- The three doublewords of a quad's payload read back. -/
@[simp] theorem payloadOf_extract (p : BitVec 192) :
    payloadOf (p.extractLsb' 0 64) (p.extractLsb' 64 64) (p.extractLsb' 128 64) = p := by
  apply BitVec.eq_of_getLsbD_eq
  intro i hi
  show ((BitVec.extractLsb' 128 64 p ++ BitVec.extractLsb' 64 64 p) ++
    BitVec.extractLsb' 0 64 p).getLsbD i = p.getLsbD i
  rw [BitVec.getLsbD_append, BitVec.getLsbD_append]
  by_cases h1 : i < 64
  · simp [h1]
  · by_cases h2 : i - 64 < 64
    · have h4 : 64 + (i - 64) = i := by omega
      simp [h1, h2, h4]
    · have h3 : i - 64 - 64 < 64 := by omega
      have h4 : 128 + (i - 64 - 64) = i := by omega
      simp [h1, h2, h3, h4]

@[simp] theorem Hdr.fields_hdr (h : Hdr) (len major minor a b c imm) :
    (h.fields len major minor a b c imm).hdr = h := by
  rcases h with ⟨g, n, pop, push⟩
  cases n <;> simp [Fields.hdr, Hdr.fields]

/-- The fields of a header are those it was built from. -/
@[simp] theorem Hdr.fields_len (h : Hdr) (len major minor a b c imm) :
    (h.fields len major minor a b c imm).len = len := rfl
@[simp] theorem Hdr.fields_major (h : Hdr) (len major minor a b c imm) :
    (h.fields len major minor a b c imm).major = major := rfl
@[simp] theorem Hdr.fields_minor (h : Hdr) (len major minor a b c imm) :
    (h.fields len major minor a b c imm).minor = minor := rfl
@[simp] theorem Hdr.fields_a (h : Hdr) (len major minor a b c imm) :
    (h.fields len major minor a b c imm).a = a := rfl
@[simp] theorem Hdr.fields_b (h : Hdr) (len major minor a b c imm) :
    (h.fields len major minor a b c imm).b = b := rfl
@[simp] theorem Hdr.fields_c (h : Hdr) (len major minor a b c imm) :
    (h.fields len major minor a b c imm).c = c := rfl
@[simp] theorem Hdr.fields_imm (h : Hdr) (len major minor a b c imm) :
    (h.fields len major minor a b c imm).imm = imm := rfl

@[simp] theorem Sem.second_sem (f : Sem) (eng) : (f.second eng).sem = f := rfl

/-- Codes read back. -/
@[simp] theorem Ty.ofCode_code (t : Ty) : Ty.ofCode t.code = some t := by cases t <;> rfl
@[simp] theorem Scope.ofCode_code (s : Scope) : Scope.ofCode s.code = some s := by cases s <;> rfl
@[simp] theorem FenceKind.ofCode_code (k : FenceKind) : FenceKind.ofCode k.code = some k := by
  cases k <;> rfl
@[simp] theorem Cond.ofCode_code (c : Cond) : Cond.ofCode c.code = some c := by cases c <;> rfl
@[simp] theorem RMode.ofCode_code (m : RMode) : RMode.ofCode m.code = some m := by cases m <;> rfl
@[simp] theorem FCond.ofCode_code (c : FCond) : FCond.ofCode c.code = c := by cases c <;> rfl
@[simp] theorem AmOp.ofCode_code (o : AmOp) : AmOp.ofCode o.code = some o := by cases o <;> rfl
@[simp] theorem Dq.ofCode_code (d : Dq) : Dq.ofCode d.code = some d := by cases d <;> rfl
@[simp] theorem Red.ofCode_code (r : Red) : Red.ofCode r.code = r := by cases r <;> rfl
@[simp] theorem RedOp.ofCode_code (r : RedOp) : RedOp.ofCode r.code = r := by cases r <;> rfl
@[simp] theorem Lines.ofCode_code (l : Lines) : Lines.ofCode l.code = some l := by cases l <;> rfl
@[simp] theorem CvtTy.ofCode_code (t : CvtTy) : CvtTy.ofCode t.code = some t := by cases t <;> rfl
@[simp] theorem CvtMode.ofCode_code (m : CvtMode) : CvtMode.ofCode m.code = some m := by cases m <;> rfl
@[simp] theorem RotFld.ofCode_code (r : RotFld) : RotFld.ofCode r.code = some r := by cases r <;> rfl
@[simp] theorem SReg.fromNat_code (r : SReg) : SReg.fromNat r.code.toNat = some r := by cases r <;> rfl
@[simp] theorem Seq.fromNat_idx (q : Seq) : Seq.fromNat q.idx = some q := by cases q <;> rfl

/-- A register number narrower than a field reads back from it. -/
theorem small_fld6 {n : Nat} (hn : n ≤ 6) (v : BitVec n) : small n (fld6 v) = some v := by
  have h : v.toNat < 2 ^ n := v.isLt
  have h6 : (2 : Nat) ^ n ≤ 2 ^ 6 := Nat.pow_le_pow_right (by omega) hn
  unfold small fld6
  have : (v.setWidth 6).toNat = v.toNat := by
    simp only [BitVec.toNat_setWidth]; exact Nat.mod_eq_of_lt (by omega)
  rw [if_pos (by omega)]
  congr 1
  apply BitVec.eq_of_toNat_eq
  simp only [BitVec.toNat_setWidth]
  rw [Nat.mod_eq_of_lt (by omega : v.toNat < 2 ^ 6), Nat.mod_eq_of_lt h]

@[simp] theorem small_fld6_5 (v : BitVec 5) : small 5 (fld6 v) = some v := small_fld6 (by omega) v
@[simp] theorem small_fld6_4 (v : BitVec 4) : small 4 (fld6 v) = some v := small_fld6 (by omega) v
@[simp] theorem small_fld6_3 (v : BitVec 3) : small 3 (fld6 v) = some v := small_fld6 (by omega) v
@[simp] theorem small_fld6_2 (v : BitVec 2) : small 2 (fld6 v) = some v := small_fld6 (by omega) v
@[simp] theorem small_fld6_1 (v : BitVec 1) : small 1 (fld6 v) = some v := small_fld6 (by omega) v

/-- The decoder reads a packed header's fields. -/
theorem decode_pack (q : Seq) (f : Fields) (w1 w2 w3 : Word) :
    decode q f.pack w1 w2 w3 =
      if f.len = 3 then .error .illegal
      else if f.major.toNat < 16 then decodeCommon q f (payloadOf w1 w2 w3)
      else match q with
        | .k => decodeK f
        | .l => decodeLS .l f (Second.unpack w1) (payloadOf w1 w2 w3)
        | .s => decodeLS .s f (Second.unpack w1) (payloadOf w1 w2 w3)
        | .c => decodeC f (Second.unpack w1) := by
  simp only [decode, Fields.unpack_pack] <;> cases q <;> rfl

end Sys2Proof
end

