-- ==== Sys2Proof/Laws/EncodeEqns.lean ====
section
/-! SUPPORT. Laws/EncodeEqns: the encoding, the sync field and the length of each instruction of a stream. -/

set_option Elab.async false

namespace Sys2Proof

@[simp] theorem headerOf_one (h : Hdr) (major : BitVec 6) (minor : BitVec 8) (a b c : BitVec 6) (imm : BitVec 18) :
    (Fields.unpack ((one h major minor a b c imm).headD 0)).hdr = h := by simp [one]
@[simp] theorem headerOf_two (h : Hdr) (f : Sem) (major : BitVec 6) (minor : BitVec 8) (a b c : BitVec 6)
    (imm : BitVec 18) (eng : BitVec 24) : (Fields.unpack ((two h f major minor a b c imm eng).headD 0)).hdr = h := by
  simp [two]
@[simp] theorem headerOf_four (h : Hdr) (major : BitVec 6) (minor : BitVec 8) (a b c : BitVec 6) (imm : BitVec 18)
    (p : BitVec 192) : (Fields.unpack ((four h major minor a b c imm p).headD 0)).hdr = h := by simp [four]

theorem encode_nop (h : Hdr) :
    encode (.nop h) = one h 0x00 0 0 0 0 0 := rfl
theorem encode_br (h : Hdr) (off : BitVec 18) :
    encode (.br h off) = one h 0x01 0 0 0 0 off := rfl
theorem encode_jmp (h : Hdr) (off : BitVec 36) :
    encode (.jmp h off) = one h 0x02 0 (off.extractLsb' 18 6) (off.extractLsb' 24 6) (off.extractLsb' 30 6)
      (off.extractLsb' 0 18) := rfl
theorem encode_endStream (h : Hdr) :
    encode (.endStream h) = one h 0x03 0 0 0 0 0 := rfl
theorem encode_tok (h : Hdr) :
    encode (.tok h) = one h 0x04 0 0 0 0 0 := rfl
theorem encode_pushv (h : Hdr) (t : Seq) (src : BitVec 6) :
    encode (.pushv h t src) = one h 0x05 0 (BitVec.ofNat 6 t.idx) src 0 0 := rfl
theorem encode_popv (h : Hdr) (dst : BitVec 6) (t : Seq) :
    encode (.popv h dst t) = one h 0x06 0 dst (BitVec.ofNat 6 t.idx) 0 0 := rfl
theorem encode_swait (h : Hdr) (sem : BitVec 8) (t : BitVec 16) :
    encode (.swait h sem t) = one h 0x07 sem 0 0 0 (imm18 t) := rfl
theorem encode_swaitReg (h : Hdr) (sem : BitVec 8) (r : BitVec 6) :
    encode (.swaitReg h sem r) = one h 0x07 sem 0 r 1 0 := rfl
theorem encode_ssig (h : Hdr) (sem : BitVec 8) (inc : BitVec 8) :
    encode (.ssig h sem inc) = one h 0x08 sem 0 0 0 (imm18 inc) := rfl
theorem encode_sset (h : Hdr) (sem : BitVec 8) (v : BitVec 16) :
    encode (.sset h sem v) = one h 0x09 sem 0 0 0 (imm18 v) := rfl
theorem encode_ssetReg (h : Hdr) (sem : BitVec 8) (r : BitVec 6) :
    encode (.ssetReg h sem r) = one h 0x09 sem 0 r 1 0 := rfl
theorem encode_fence (h : Hdr) (k : FenceKind) (s : Scope) :
    encode (.fence h k s) = one h 0x0A 0 0 0 0 (0#12 ++ s.code ++ k.code) := rfl
theorem encode_mfs (h : Hdr) (d : BitVec 6) (r : SReg) :
    encode (.mfs h d r) = one h 0x0B 0 d 0 0 (imm18 r.code) := rfl
theorem encode_mts (h : Hdr) (r : SReg) (s : BitVec 6) :
    encode (.mts h r s) = one h 0x0C 0 0 s 0 (imm18 r.code) := rfl
theorem encode_brk (h : Hdr) (code : BitVec 16) :
    encode (.brk h code) = one h 0x0D 0 0 0 0 (imm18 code) := rfl
theorem encode_wheel (h : Hdr) (body : BitVec 6) (ii : BitVec 6) (st : BitVec 4) (trip : Trip) (rots : List Rot) :
    encode (.wheel h body ii st trip rots) = four h 0x0E (0#1 ++ BitVec.ofNat 5 rots.length ++ trip.code) body ii
      (fld6 st) trip.imm18 (BitVec.ofNat 192 (rotsPayload rots)) := rfl
theorem encode_add (h : Hdr) (d : BitVec 6) (b : BitVec 6) (c : BitVec 6) :
    encode (.add h d b c) = one h 0x10 0x00 d b c 0 := rfl
theorem encode_sub (h : Hdr) (d : BitVec 6) (b : BitVec 6) (c : BitVec 6) :
    encode (.sub h d b c) = one h 0x10 0x01 d b c 0 := rfl
theorem encode_mul (h : Hdr) (d : BitVec 6) (b : BitVec 6) (c : BitVec 6) :
    encode (.mul h d b c) = one h 0x10 0x02 d b c 0 := rfl
theorem encode_mulh (h : Hdr) (d : BitVec 6) (b : BitVec 6) (c : BitVec 6) :
    encode (.mulh h d b c) = one h 0x10 0x03 d b c 0 := rfl
theorem encode_mulhn (h : Hdr) (d : BitVec 6) (b : BitVec 6) (c : BitVec 6) :
    encode (.mulhn h d b c) = one h 0x10 0x04 d b c 0 := rfl
theorem encode_div (h : Hdr) (d : BitVec 6) (b : BitVec 6) (c : BitVec 6) :
    encode (.div h d b c) = one h 0x10 0x05 d b c 0 := rfl
theorem encode_divn (h : Hdr) (d : BitVec 6) (b : BitVec 6) (c : BitVec 6) :
    encode (.divn h d b c) = one h 0x10 0x06 d b c 0 := rfl
theorem encode_rem (h : Hdr) (d : BitVec 6) (b : BitVec 6) (c : BitVec 6) :
    encode (.rem h d b c) = one h 0x10 0x07 d b c 0 := rfl
theorem encode_remn (h : Hdr) (d : BitVec 6) (b : BitVec 6) (c : BitVec 6) :
    encode (.remn h d b c) = one h 0x10 0x08 d b c 0 := rfl
theorem encode_and (h : Hdr) (d : BitVec 6) (b : BitVec 6) (c : BitVec 6) :
    encode (.and h d b c) = one h 0x10 0x09 d b c 0 := rfl
theorem encode_or (h : Hdr) (d : BitVec 6) (b : BitVec 6) (c : BitVec 6) :
    encode (.or h d b c) = one h 0x10 0x0A d b c 0 := rfl
theorem encode_xor (h : Hdr) (d : BitVec 6) (b : BitVec 6) (c : BitVec 6) :
    encode (.xor h d b c) = one h 0x10 0x0B d b c 0 := rfl
theorem encode_andn (h : Hdr) (d : BitVec 6) (b : BitVec 6) (c : BitVec 6) :
    encode (.andn h d b c) = one h 0x10 0x0C d b c 0 := rfl
theorem encode_orn (h : Hdr) (d : BitVec 6) (b : BitVec 6) (c : BitVec 6) :
    encode (.orn h d b c) = one h 0x10 0x0D d b c 0 := rfl
theorem encode_shl (h : Hdr) (d : BitVec 6) (b : BitVec 6) (c : BitVec 6) :
    encode (.shl h d b c) = one h 0x10 0x0E d b c 0 := rfl
theorem encode_shr (h : Hdr) (d : BitVec 6) (b : BitVec 6) (c : BitVec 6) :
    encode (.shr h d b c) = one h 0x10 0x0F d b c 0 := rfl
theorem encode_sar (h : Hdr) (d : BitVec 6) (b : BitVec 6) (c : BitVec 6) :
    encode (.sar h d b c) = one h 0x10 0x10 d b c 0 := rfl
theorem encode_rol (h : Hdr) (d : BitVec 6) (b : BitVec 6) (c : BitVec 6) :
    encode (.rol h d b c) = one h 0x10 0x11 d b c 0 := rfl
theorem encode_min (h : Hdr) (d : BitVec 6) (b : BitVec 6) (c : BitVec 6) :
    encode (.min h d b c) = one h 0x10 0x12 d b c 0 := rfl
theorem encode_max (h : Hdr) (d : BitVec 6) (b : BitVec 6) (c : BitVec 6) :
    encode (.max h d b c) = one h 0x10 0x13 d b c 0 := rfl
theorem encode_minn (h : Hdr) (d : BitVec 6) (b : BitVec 6) (c : BitVec 6) :
    encode (.minn h d b c) = one h 0x10 0x14 d b c 0 := rfl
theorem encode_maxn (h : Hdr) (d : BitVec 6) (b : BitVec 6) (c : BitVec 6) :
    encode (.maxn h d b c) = one h 0x10 0x15 d b c 0 := rfl
theorem encode_addi (h : Hdr) (d : BitVec 6) (b : BitVec 6) (imm : BitVec 18) :
    encode (.addi h d b imm) = one h 0x11 0 d b 0 imm := rfl
theorem encode_andi (h : Hdr) (d : BitVec 6) (b : BitVec 6) (imm : BitVec 18) :
    encode (.andi h d b imm) = one h 0x11 1 d b 0 imm := rfl
theorem encode_ori (h : Hdr) (d : BitVec 6) (b : BitVec 6) (imm : BitVec 18) :
    encode (.ori h d b imm) = one h 0x11 2 d b 0 imm := rfl
theorem encode_xori (h : Hdr) (d : BitVec 6) (b : BitVec 6) (imm : BitVec 18) :
    encode (.xori h d b imm) = one h 0x11 3 d b 0 imm := rfl
theorem encode_shli (h : Hdr) (d : BitVec 6) (b : BitVec 6) (sh : BitVec 6) :
    encode (.shli h d b sh) = one h 0x11 4 d b 0 (imm18 sh) := rfl
theorem encode_shri (h : Hdr) (d : BitVec 6) (b : BitVec 6) (sh : BitVec 6) :
    encode (.shri h d b sh) = one h 0x11 5 d b 0 (imm18 sh) := rfl
theorem encode_sari (h : Hdr) (d : BitVec 6) (b : BitVec 6) (sh : BitVec 6) :
    encode (.sari h d b sh) = one h 0x11 6 d b 0 (imm18 sh) := rfl
theorem encode_li (h : Hdr) (d : BitVec 6) (imm : BitVec 18) :
    encode (.li h d imm) = one h 0x11 7 d 0 0 imm := rfl
theorem encode_lih (h : Hdr) (d : BitVec 6) (imm : BitVec 18) :
    encode (.lih h d imm) = one h 0x11 8 d 0 0 imm := rfl
theorem encode_clz (h : Hdr) (d : BitVec 6) (b : BitVec 6) :
    encode (.clz h d b) = one h 0x12 0 d b 0 0 := rfl
theorem encode_ctz (h : Hdr) (d : BitVec 6) (b : BitVec 6) :
    encode (.ctz h d b) = one h 0x12 1 d b 0 0 := rfl
theorem encode_popc (h : Hdr) (d : BitVec 6) (b : BitVec 6) :
    encode (.popc h d b) = one h 0x12 2 d b 0 0 := rfl
theorem encode_brev (h : Hdr) (d : BitVec 6) (b : BitVec 6) :
    encode (.brev h d b) = one h 0x12 3 d b 0 0 := rfl
theorem encode_bswap (h : Hdr) (d : BitVec 6) (b : BitVec 6) :
    encode (.bswap h d b) = one h 0x12 4 d b 0 0 := rfl
theorem encode_ext (h : Hdr) (d : BitVec 6) (b : BitVec 6) (lo : BitVec 6) (w : BitVec 6) :
    encode (.ext h d b lo w) = one h 0x13 0 d b 0 (0#6 ++ w ++ lo) := rfl
theorem encode_ins (h : Hdr) (d : BitVec 6) (b : BitVec 6) (lo : BitVec 6) (w : BitVec 6) :
    encode (.ins h d b lo w) = one h 0x13 1 d b 0 (0#6 ++ w ++ lo) := rfl
theorem encode_cmp (h : Hdr) (cond : Cond) (pd : BitVec 5) (b : BitVec 6) (c : BitVec 6) :
    encode (.cmp h cond pd b c) = one h 0x14 cond.code (fld6 pd) b c 0 := rfl
theorem encode_cmpi (h : Hdr) (cond : Cond) (pd : BitVec 5) (b : BitVec 6) (imm : BitVec 18) :
    encode (.cmpi h cond pd b imm) = one h 0x15 cond.code (fld6 pd) b 0 imm := rfl
theorem encode_sel (h : Hdr) (d : BitVec 6) (b : BitVec 6) (c : BitVec 6) (pn : BitVec 5) :
    encode (.sel h d b c pn) = one h 0x16 0 d b c (imm18 pn) := rfl
theorem encode_pand (h : Hdr) (pd : BitVec 5) (pa : BitVec 5) (pb : BitVec 5) :
    encode (.pand h pd pa pb) = one h 0x17 0 (fld6 pd) (fld6 pa) (fld6 pb) 0 := rfl
theorem encode_por (h : Hdr) (pd : BitVec 5) (pa : BitVec 5) (pb : BitVec 5) :
    encode (.por h pd pa pb) = one h 0x17 1 (fld6 pd) (fld6 pa) (fld6 pb) 0 := rfl
theorem encode_pxor (h : Hdr) (pd : BitVec 5) (pa : BitVec 5) (pb : BitVec 5) :
    encode (.pxor h pd pa pb) = one h 0x17 2 (fld6 pd) (fld6 pa) (fld6 pb) 0 := rfl
theorem encode_pandn (h : Hdr) (pd : BitVec 5) (pa : BitVec 5) (pb : BitVec 5) :
    encode (.pandn h pd pa pb) = one h 0x17 3 (fld6 pd) (fld6 pa) (fld6 pb) 0 := rfl
theorem encode_pnot (h : Hdr) (pd : BitVec 5) (pa : BitVec 5) :
    encode (.pnot h pd pa) = one h 0x17 4 (fld6 pd) (fld6 pa) 0 0 := rfl
theorem encode_pmov (h : Hdr) (pd : BitVec 5) (pa : BitVec 5) :
    encode (.pmov h pd pa) = one h 0x17 5 (fld6 pd) (fld6 pa) 0 0 := rfl
theorem encode_call (h : Hdr) (d : BitVec 6) (off : BitVec 18) :
    encode (.call h d off) = one h 0x18 0 d 0 0 off := rfl
theorem encode_callr (h : Hdr) (d : BitVec 6) (b : BitVec 6) :
    encode (.callr h d b) = one h 0x18 1 d b 0 0 := rfl
theorem encode_ret (h : Hdr) (b : BitVec 6) :
    encode (.ret h b) = one h 0x18 2 0 b 0 0 := rfl
theorem encode_jmpr (h : Hdr) (b : BitVec 6) :
    encode (.jmpr h b) = one h 0x18 3 0 b 0 0 := rfl
theorem encode_ld (h : Hdr) (acq : Option Scope) (w : MWidth) (d : BitVec 6) (b : BitVec 6) (disp : BitVec 18) :
    encode (.ld h acq w d b disp) = one h 0x19 (memMinor (if acq.isSome then 1 else 0) (optScopeCode acq) w.code) d
      b 0 disp := rfl
theorem encode_st (h : Hdr) (rel : Option Scope) (w : MWidth) (s : BitVec 6) (b : BitVec 6) (disp : BitVec 18) :
    encode (.st h rel w s b disp) = one h 0x1A (memMinor (if rel.isSome then 2 else 0) (optScopeCode rel) w.code) s
      b 0 disp := rfl
theorem encode_stCoil (h : Hdr) (w : MWidth) (s : BitVec 6) (b : BitVec 6) (c : BitVec 6) (off : BitVec 18) :
    encode (.stCoil h w s b c off) = one h 0x1A (memMinor 3 0 w.code) s b c off := rfl
theorem encode_ldm (h : Hdr) (acq : Option Scope) (z : Bool) (f : BitVec 6) (b : BitVec 6) (c : BitVec 6) (disp :
      BitVec 18) :
    encode (.ldm h acq z f b c disp) = one h 0x1B (memMinor (if acq.isSome then 1 else 0) (optScopeCode acq)
      (BitVec.ofBool z ++ 3#2)) f b c disp := rfl
theorem encode_stm (h : Hdr) (rel : Option Scope) (z : Bool) (f : BitVec 6) (b : BitVec 6) (c : BitVec 6) (disp :
      BitVec 18) :
    encode (.stm h rel z f b c disp) = one h 0x1C (memMinor (if rel.isSome then 2 else 0) (optScopeCode rel)
      (BitVec.ofBool z ++ 3#2)) f b c disp := rfl
theorem encode_trap (h : Hdr) (code : BitVec 8) :
    encode (.trap h code) = one h 0x1D 0 0 0 0 (imm18 code) := rfl
theorem encode_hset (h : Hdr) (b : BitVec 6) (cls : BitVec 3) :
    encode (.hset h b cls) = one h 0x1D 1 0 b 0 (imm18 cls) := rfl
theorem encode_resume (h : Hdr) :
    encode (.resume h) = one h 0x1D 2 0 0 0 0 := rfl
theorem encode_sysc (h : Hdr) (d : BitVec 6) (b : BitVec 6) (svc : BitVec 12) :
    encode (.sysc h d b svc) = one h 0x1D 3 d b 0 (imm18 svc) := rfl
theorem encode_amo (h : Hdr) (op : AmoOp) (ord : AmOrd) (w4 : Bool) (d : BitVec 6) (b : BitVec 6) (c : BitVec 6) :
    encode (.amo h op ord w4 d b c) = one h 0x20 (amoMinor ord.code op.code) d b c (amoImm w4 ord.scopeCode) := rfl
theorem encode_amoc (h : Hdr) (ord : AmOrd) (w4 : Bool) (a : BitVec 6) (b : BitVec 6) (c : BitVec 6) :
    encode (.amoc h ord w4 a b c) = one h 0x21 (amoMinor ord.code 0) a b c (amoImm w4 ord.scopeCode) := rfl
theorem encode_amred (h : Hdr) (op : AmOp) (rel : Option Scope) (w4 : Bool) (b : BitVec 6) (c : BitVec 6) :
    encode (.amred h op rel w4 b c) = one h 0x23 (amoMinor (if rel.isSome then 2 else 0) op.code) 0 b c (amoImm w4
      (optScopeCode rel)) := rfl
theorem encode_avec (h : Hdr) (isAdd : Bool) (bits : Bool) (rel : Option Scope) (cnt : BitVec 6) (b : BitVec 6) (c
      : BitVec 6) :
    encode (.avec h isAdd bits rel cnt b c) = one h 0x22 (0#6 ++ BitVec.ofBool bits ++ BitVec.ofBool isAdd) 0 b c
      (0#8 ++ optScopeCode rel ++ BitVec.ofBool rel.isSome ++ cnt) := rfl
theorem encode_waita (h : Hdr) (cond : Cond) (w4 : Bool) (a : BitVec 6) (b : BitVec 6) (c : BitVec 6) :
    encode (.waita h cond w4 a b c) = one h 0x24 cond.code a b c (0#17 ++ BitVec.ofBool w4) := rfl
theorem encode_siga (h : Hdr) (b : BitVec 6) :
    encode (.siga h b) = one h 0x25 0 0 b 0 0 := rfl
theorem encode_bari (h : Hdr) (b : BitVec 6) (c : BitVec 6) :
    encode (.bari h b c) = one h 0x26 0 0 b c 0 := rfl
theorem encode_bara (h : Hdr) (b : BitVec 6) :
    encode (.bara h b) = one h 0x26 1 0 b 0 0 := rfl
theorem encode_bard (h : Hdr) (b : BitVec 6) :
    encode (.bard h b) = one h 0x26 2 0 b 0 0 := rfl
theorem encode_barw (h : Hdr) (b : BitVec 6) (c : BitVec 6) :
    encode (.barw h b c) = one h 0x26 3 0 b c 0 := rfl
theorem encode_afence (h : Hdr) (b : BitVec 6) (c : BitVec 6) :
    encode (.afence h b c) = one h 0x27 0 0 b c 0 := rfl
theorem encode_cnew (h : Hdr) (d : BitVec 6) (size : BitVec 4) :
    encode (.cnew h d size) = one h 0x28 0 d 0 0 (imm18 size) := rfl
theorem encode_cres (h : Hdr) (d : BitVec 6) (b : BitVec 6) (c : BitVec 6) :
    encode (.cres h d b c) = one h 0x28 1 d b c 0 := rfl
theorem encode_caddr (h : Hdr) (d : BitVec 6) (b : BitVec 6) (c : BitVec 6) :
    encode (.caddr h d b c) = one h 0x28 2 d b c 0 := rfl
theorem encode_ccommit (h : Hdr) (a : BitVec 6) (b : BitVec 6) (c : BitVec 6) :
    encode (.ccommit h a b c) = one h 0x28 3 a b c 0 := rfl
theorem encode_clen (h : Hdr) (d : BitVec 6) (b : BitVec 6) :
    encode (.clen h d b) = one h 0x28 4 d b 0 0 := rfl
theorem encode_cfork (h : Hdr) (d : BitVec 6) (b : BitVec 6) (c : BitVec 6) :
    encode (.cfork h d b c) = one h 0x28 5 d b c 0 := rfl
theorem encode_cdrop (h : Hdr) (b : BitVec 6) :
    encode (.cdrop h b) = one h 0x28 6 0 b 0 0 := rfl
theorem encode_cinfo (h : Hdr) (d : BitVec 6) (b : BitVec 6) (word : BitVec 4) :
    encode (.cinfo h d b word) = one h 0x28 7 d b 0 (imm18 word) := rfl
theorem encode_sqpush (h : Hdr) (b : BitVec 6) (c : BitVec 6) (queue : BitVec 4) :
    encode (.sqpush h b c queue) = one h 0x29 0 0 b c (imm18 queue) := rfl
theorem encode_yield (h : Hdr) :
    encode (.yield h) = one h 0x29 1 0 0 0 0 := rfl
theorem encode_launch (h : Hdr) (b : BitVec 6) (c : BitVec 6) :
    encode (.launch h b c) = one h 0x29 2 0 b c 0 := rfl
theorem encode_cancel (h : Hdr) (b : BitVec 6) (level : BitVec 2) :
    encode (.cancel h b level) = one h 0x29 3 0 b 0 (imm18 level) := rfl
theorem encode_ccnt (h : Hdr) (d : BitVec 6) (b : BitVec 6) (level : BitVec 2) :
    encode (.ccnt h d b level) = one h 0x29 4 d b 0 (imm18 level) := rfl
theorem encode_plan (h : Hdr) (a : BitVec 6) (b : BitVec 6) (c : BitVec 6) :
    encode (.plan h a b c) = one h 0x29 5 a b c 0 := rfl
theorem encode_phint (h : Hdr) (b : BitVec 6) (policy : BitVec 2) :
    encode (.phint h b policy) = one h 0x29 6 0 b 0 (imm18 policy) := rfl
theorem encode_aadd (h : Hdr) (d : BitVec 5) (b : BitVec 5) (c : BitVec 5) :
    encode (.aadd h d b c) = one h 0x10 0 (fld6 d) (fld6 b) (fld6 c) 0 := rfl
theorem encode_asub (h : Hdr) (d : BitVec 5) (b : BitVec 5) (c : BitVec 5) :
    encode (.asub h d b c) = one h 0x10 1 (fld6 d) (fld6 b) (fld6 c) 0 := rfl
theorem encode_amul (h : Hdr) (d : BitVec 5) (b : BitVec 5) (c : BitVec 5) :
    encode (.amul h d b c) = one h 0x10 2 (fld6 d) (fld6 b) (fld6 c) 0 := rfl
theorem encode_amadd (h : Hdr) (d : BitVec 5) (b : BitVec 5) (c : BitVec 5) :
    encode (.amadd h d b c) = one h 0x10 3 (fld6 d) (fld6 b) (fld6 c) 0 := rfl
theorem encode_amov (h : Hdr) (d : BitVec 5) (b : BitVec 5) :
    encode (.amov h d b) = one h 0x10 4 (fld6 d) (fld6 b) 0 0 := rfl
theorem encode_aaddi (h : Hdr) (d : BitVec 5) (b : BitVec 5) (imm : BitVec 18) :
    encode (.aaddi h d b imm) = one h 0x11 0 (fld6 d) (fld6 b) 0 imm := rfl
theorem encode_ashli (h : Hdr) (d : BitVec 5) (b : BitVec 5) (sh : BitVec 6) :
    encode (.ashli h d b sh) = one h 0x11 1 (fld6 d) (fld6 b) 0 (imm18 sh) := rfl
theorem encode_ali (h : Hdr) (d : BitVec 5) (imm : BitVec 18) :
    encode (.ali h d imm) = one h 0x11 2 (fld6 d) 0 0 imm := rfl
theorem encode_alih (h : Hdr) (d : BitVec 5) (imm : BitVec 18) :
    encode (.alih h d imm) = one h 0x11 3 (fld6 d) 0 0 imm := rfl
theorem encode_acmp (h : Hdr) (cond : Cond) (pd : BitVec 5) (b : BitVec 5) (c : BitVec 5) :
    encode (.acmp h cond pd b c) = one h 0x12 cond.code (fld6 pd) (fld6 b) (fld6 c) 0 := rfl
theorem encode_acmpi (h : Hdr) (cond : Cond) (pd : BitVec 5) (b : BitVec 5) (imm : BitVec 18) :
    encode (.acmpi h cond pd b imm) = one h 0x13 cond.code (fld6 pd) (fld6 b) 0 imm := rfl
theorem encode_lda (h : Hdr) (w : MWidth) (d : BitVec 5) (b : BitVec 5) (disp : BitVec 18) :
    encode (.lda h w d b disp) = one h 0x1D (w.code.setWidth 8) (fld6 d) (fld6 b) 0 disp := rfl
theorem encode_sta (h : Hdr) (w : MWidth) (s : BitVec 5) (b : BitVec 5) (disp : BitVec 18) :
    encode (.sta h w s b disp) = one h 0x1E (w.code.setWidth 8) (fld6 s) (fld6 b) 0 disp := rfl
theorem encode_mapset (h : Hdr) (m : BitVec 4) (p : BitVec 192) :
    encode (.mapset h m p) = four h 0x14 0 (fld6 m) 0 0 0 p := rfl
theorem encode_mapofs (h : Hdr) (m : BitVec 4) (b : BitVec 5) :
    encode (.mapofs h m b) = one h 0x15 0 (fld6 m) (fld6 b) 0 0 := rfl
theorem encode_tld (h : Hdr) (f : Sem) (ty : Ty) (dst : TDst) (m : BitVec 4) (c : BitVec 5) (disp : BitVec 18) (o :
      LoadHalf) :
    encode (.tld h f ty dst m c disp o) = two h f 0x16 (tyMinor ty) dst.code (fld6 m) (fld6 c) disp o.eng := rfl
theorem encode_tst (h : Hdr) (f : Sem) (ty : Ty) (o : BitVec 3) (m : BitVec 4) (c : BitVec 5) (disp : BitVec 18)
      (sh : StoreHalf) :
    encode (.tst h f ty o m c disp sh) = two h f 0x17 (tyMinor ty) (fld6 o) (fld6 m) (fld6 c) disp (sh.eng 0) := rfl
theorem encode_tstCoil (h : Hdr) (f : Sem) (ty : Ty) (o : BitVec 3) (m : BitVec 4) (c : BitVec 5) (slot : BitVec 5)
      (sh : StoreHalf) :
    encode (.tstCoil h f ty o m c slot sh) = two h f 0x17 (tyMinor ty (oneFlag true)) (fld6 o) (fld6 m) (fld6 c)
      (imm18 slot) (sh.eng 0) := rfl
theorem encode_tcpy (h : Hdr) (f : Sem) (ty : Ty) (d : BitVec 5) (m : BitVec 4) (c : BitVec 5) (ci : BitVec 6) (co
      : BitVec 6) (half : CpyHalf) :
    encode (.tcpy h f ty d m c ci co half) = two h f 0x18 (tyMinor ty) (fld6 d) (fld6 m) (fld6 c) (0#6 ++ co ++ ci)
      half.eng := rfl
theorem encode_tgth (h : Hdr) (f : Sem) (ty : Ty) (q : BitVec 3) (m : BitVec 4) (c : BitVec 5) (disp : BitVec 18)
      (lvl : BitVec 3) (idx : BitVec 5) :
    encode (.tgth h f ty q m c disp lvl idx) = two h f 0x19 (tyMinor ty) (fld6 q) (fld6 m) (fld6 c) disp (0#16 ++
      lvl ++ idx) := rfl
theorem encode_tsct (h : Hdr) (f : Sem) (ty : Ty) (o : BitVec 3) (m : BitVec 4) (c : BitVec 5) (disp : BitVec 18)
      (lvl : BitVec 3) (idx : BitVec 5) :
    encode (.tsct h f ty o m c disp lvl idx) = two h f 0x1A (tyMinor ty) (fld6 o) (fld6 m) (fld6 c) disp (0#16 ++
      lvl ++ idx) := rfl
theorem encode_tzero (h : Hdr) (f : Sem) (ty : Ty) (m : BitVec 4) (c : BitVec 5) (disp : BitVec 18) :
    encode (.tzero h f ty m c disp) = two h f 0x1C (tyMinor ty) 0 (fld6 m) (fld6 c) disp 0 := rfl
theorem encode_tprf (h : Hdr) (ty : Ty) (m : BitVec 4) (c : BitVec 5) (disp : BitVec 18) :
    encode (.tprf h ty m c disp) = one h 0x1B (tyMinor ty) 0 (fld6 m) (fld6 c) disp := rfl
theorem encode_rcpyWr (h : Hdr) (f : Sem) (r : BitVec 5) (m : BitVec 4) (c : BitVec 5) (lg : BitVec 2) :
    encode (.rcpyWr h f r m c lg) = two h f 0x1F 0 (fld6 r) (fld6 m) (fld6 c) 0 (lg.setWidth 24) := rfl
theorem encode_rcpyRd (h : Hdr) (f : Sem) (r : BitVec 5) (m : BitVec 4) (c : BitVec 5) (lg : BitVec 2) :
    encode (.rcpyRd h f r m c lg) = two h f 0x1F 1 (fld6 r) (fld6 m) (fld6 c) 0 (lg.setWidth 24) := rfl
theorem encode_rsig (h : Hdr) (b : BitVec 5) (c : BitVec 5) :
    encode (.rsig h b c) = one h 0x20 0 0 (fld6 b) (fld6 c) 0 := rfl
theorem encode_caddrLs (h : Hdr) (d : BitVec 5) (b : BitVec 5) (c : BitVec 5) :
    encode (.caddrLs h d b c) = one h 0x21 0 (fld6 d) (fld6 b) (fld6 c) 0 := rfl
theorem encode_mlw (h : Hdr) (f : Sem) (ty : Ty) (w : BitVec 1) (q : BitVec 3) :
    encode (.mlw h f ty w q) = two h f 0x10 (tyMinor ty) (fld6 w) (fld6 q) 0 0 0 := rfl
theorem encode_mma (h : Hdr) (f : Sem) (ty : Ty) (ow : Bool) (w : BitVec 1) (q : BitVec 3) (slot : BitVec 6) (z :
      ZRange) :
    encode (.mma h f ty ow w q slot z) = two h f 0x11 (tyMinor ty (oneFlag ow)) (fld6 w) (fld6 q) slot 0 (z.eng 0)
      := rfl
theorem encode_mmac (h : Hdr) (f : Sem) (ty : Ty) (ow : Bool) (w : BitVec 1) (slot : BitVec 6) (z : ZRange) (src :
      BitVec 11) :
    encode (.mmac h f ty ow w slot z src) = two h f 0x12 (tyMinor ty (oneFlag ow)) (fld6 w) 0 slot (imm18 src)
      (z.eng 0) := rfl
theorem encode_mzero (h : Hdr) (f : Sem) (ty : Ty) (z : ZRange) :
    encode (.mzero h f ty z) = two h f 0x13 (tyMinor ty) 0 0 0 0 (z.eng 0) := rfl
theorem encode_mdrain (h : Hdr) (f : Sem) (ty : Ty) (o : BitVec 3) (slot : BitVec 6) (z : ZRange) (lines : Lines) :
    encode (.mdrain h f ty o slot z lines) = two h f 0x14 (tyMinor ty) (fld6 o) 0 slot 0 (z.eng lines.code) := rfl
theorem encode_mdrainx (h : Hdr) (f : Sem) (ty : Ty) (mem : BitVec 3) (slot : BitVec 6) (z : ZRange) (peer : BitVec
      11) :
    encode (.mdrainx h f ty mem slot z peer) = two h f 0x15 (tyMinor ty) (fld6 mem) 0 slot (imm18 peer) (z.eng 0)
      := rfl
theorem encode_mfact (h : Hdr) (f : Sem) (ty : Ty) (z : ZRange) (piv : BitVec 11) :
    encode (.mfact h f ty z piv) = two h f 0x16 (tyMinor ty) 0 0 0 (imm18 piv) (z.eng 0) := rfl
theorem encode_mstat (h : Hdr) (code : BitVec 3) :
    encode (.mstat h code) = one h 0x17 0 0 0 0 (imm18 code) := rfl
theorem encode_tred (h : Hdr) (f : Sem) (ty : Ty) (o : BitVec 3) (q : BitVec 3) (ri : BitVec 6) (ro : BitVec 6) (op
      : RedOp) (levels : BitVec 3) :
    encode (.tred h f ty o q ri ro op levels) = two h f 0x18 (tyMinor ty) (fld6 o) (fld6 q) ri (imm18 ro) (0#19 ++
      op.code ++ levels) := rfl
theorem encode_tpass (h : Hdr) (f : Sem) (ty : Ty) (o : BitVec 3) (q : BitVec 3) (pi : BitVec 6) (po : BitVec 6) :
    encode (.tpass h f ty o q pi po) = two h f 0x19 (tyMinor ty) (fld6 o) (fld6 q) pi (imm18 po) 0 := rfl
theorem encode_attn (h : Hdr) (f : Sem) (blk : BitVec 13) :
    encode (.attn h f blk) = two h f 0x1A 0 0 0 0 (imm18 blk) 0 := rfl
theorem encode_attnm (h : Hdr) (f : Sem) (blk : BitVec 13) :
    encode (.attnm h f blk) = two h f 0x1B 0 0 0 0 (imm18 blk) 0 := rfl
theorem encode_pbind (h : Hdr) (slot : BitVec 6) (r : BitVec 18) :
    encode (.pbind h slot r) = one h 0x1C 0 slot 0 0 r := rfl
theorem encode_pbindTable (h : Hdr) (t : BitVec 2) (r : BitVec 18) :
    encode (.pbindTable h t r) = one h 0x1C 1 (fld6 t) 0 0 r := rfl
theorem encode_pstate (h : Hdr) (port : BitVec 3) (k : BitVec 3) :
    encode (.pstate h port k) = one h 0x1D 0 0 0 0 (0#12 ++ k ++ port) := rfl

/-! ## Sync field and length -/

@[simp] theorem headerOf_nop (h : Hdr) :
    headerOf (.nop h) = h := headerOf_one _ _ _ _ _ _ _
@[simp] theorem lengthOf_nop (h : Hdr) :
    lengthOf (.nop h) = 8 := rfl
@[simp] theorem headerOf_br (h : Hdr) (off : BitVec 18) :
    headerOf (.br h off) = h := headerOf_one _ _ _ _ _ _ _
@[simp] theorem lengthOf_br (h : Hdr) (off : BitVec 18) :
    lengthOf (.br h off) = 8 := rfl
@[simp] theorem headerOf_jmp (h : Hdr) (off : BitVec 36) :
    headerOf (.jmp h off) = h := headerOf_one _ _ _ _ _ _ _
@[simp] theorem lengthOf_jmp (h : Hdr) (off : BitVec 36) :
    lengthOf (.jmp h off) = 8 := rfl
@[simp] theorem headerOf_endStream (h : Hdr) :
    headerOf (.endStream h) = h := headerOf_one _ _ _ _ _ _ _
@[simp] theorem lengthOf_endStream (h : Hdr) :
    lengthOf (.endStream h) = 8 := rfl
@[simp] theorem headerOf_tok (h : Hdr) :
    headerOf (.tok h) = h := headerOf_one _ _ _ _ _ _ _
@[simp] theorem lengthOf_tok (h : Hdr) :
    lengthOf (.tok h) = 8 := rfl
@[simp] theorem headerOf_pushv (h : Hdr) (t : Seq) (src : BitVec 6) :
    headerOf (.pushv h t src) = h := headerOf_one _ _ _ _ _ _ _
@[simp] theorem lengthOf_pushv (h : Hdr) (t : Seq) (src : BitVec 6) :
    lengthOf (.pushv h t src) = 8 := rfl
@[simp] theorem headerOf_popv (h : Hdr) (dst : BitVec 6) (t : Seq) :
    headerOf (.popv h dst t) = h := headerOf_one _ _ _ _ _ _ _
@[simp] theorem lengthOf_popv (h : Hdr) (dst : BitVec 6) (t : Seq) :
    lengthOf (.popv h dst t) = 8 := rfl
@[simp] theorem headerOf_swait (h : Hdr) (sem : BitVec 8) (t : BitVec 16) :
    headerOf (.swait h sem t) = h := headerOf_one _ _ _ _ _ _ _
@[simp] theorem lengthOf_swait (h : Hdr) (sem : BitVec 8) (t : BitVec 16) :
    lengthOf (.swait h sem t) = 8 := rfl
@[simp] theorem headerOf_swaitReg (h : Hdr) (sem : BitVec 8) (r : BitVec 6) :
    headerOf (.swaitReg h sem r) = h := headerOf_one _ _ _ _ _ _ _
@[simp] theorem lengthOf_swaitReg (h : Hdr) (sem : BitVec 8) (r : BitVec 6) :
    lengthOf (.swaitReg h sem r) = 8 := rfl
@[simp] theorem headerOf_ssig (h : Hdr) (sem : BitVec 8) (inc : BitVec 8) :
    headerOf (.ssig h sem inc) = h := headerOf_one _ _ _ _ _ _ _
@[simp] theorem lengthOf_ssig (h : Hdr) (sem : BitVec 8) (inc : BitVec 8) :
    lengthOf (.ssig h sem inc) = 8 := rfl
@[simp] theorem headerOf_sset (h : Hdr) (sem : BitVec 8) (v : BitVec 16) :
    headerOf (.sset h sem v) = h := headerOf_one _ _ _ _ _ _ _
@[simp] theorem lengthOf_sset (h : Hdr) (sem : BitVec 8) (v : BitVec 16) :
    lengthOf (.sset h sem v) = 8 := rfl
@[simp] theorem headerOf_ssetReg (h : Hdr) (sem : BitVec 8) (r : BitVec 6) :
    headerOf (.ssetReg h sem r) = h := headerOf_one _ _ _ _ _ _ _
@[simp] theorem lengthOf_ssetReg (h : Hdr) (sem : BitVec 8) (r : BitVec 6) :
    lengthOf (.ssetReg h sem r) = 8 := rfl
@[simp] theorem headerOf_fence (h : Hdr) (k : FenceKind) (s : Scope) :
    headerOf (.fence h k s) = h := headerOf_one _ _ _ _ _ _ _
@[simp] theorem lengthOf_fence (h : Hdr) (k : FenceKind) (s : Scope) :
    lengthOf (.fence h k s) = 8 := rfl
@[simp] theorem headerOf_mfs (h : Hdr) (d : BitVec 6) (r : SReg) :
    headerOf (.mfs h d r) = h := headerOf_one _ _ _ _ _ _ _
@[simp] theorem lengthOf_mfs (h : Hdr) (d : BitVec 6) (r : SReg) :
    lengthOf (.mfs h d r) = 8 := rfl
@[simp] theorem headerOf_mts (h : Hdr) (r : SReg) (s : BitVec 6) :
    headerOf (.mts h r s) = h := headerOf_one _ _ _ _ _ _ _
@[simp] theorem lengthOf_mts (h : Hdr) (r : SReg) (s : BitVec 6) :
    lengthOf (.mts h r s) = 8 := rfl
@[simp] theorem headerOf_brk (h : Hdr) (code : BitVec 16) :
    headerOf (.brk h code) = h := headerOf_one _ _ _ _ _ _ _
@[simp] theorem lengthOf_brk (h : Hdr) (code : BitVec 16) :
    lengthOf (.brk h code) = 8 := rfl
@[simp] theorem headerOf_wheel (h : Hdr) (body : BitVec 6) (ii : BitVec 6) (st : BitVec 4) (trip : Trip) (rots :
      List Rot) :
    headerOf (.wheel h body ii st trip rots) = h := headerOf_four _ _ _ _ _ _ _ _
@[simp] theorem lengthOf_wheel (h : Hdr) (body : BitVec 6) (ii : BitVec 6) (st : BitVec 4) (trip : Trip) (rots :
      List Rot) :
    lengthOf (.wheel h body ii st trip rots) = 32 := rfl
@[simp] theorem headerOf_add (h : Hdr) (d : BitVec 6) (b : BitVec 6) (c : BitVec 6) :
    headerOf (.add h d b c) = h := headerOf_one _ _ _ _ _ _ _
@[simp] theorem lengthOf_add (h : Hdr) (d : BitVec 6) (b : BitVec 6) (c : BitVec 6) :
    lengthOf (.add h d b c) = 8 := rfl
@[simp] theorem headerOf_sub (h : Hdr) (d : BitVec 6) (b : BitVec 6) (c : BitVec 6) :
    headerOf (.sub h d b c) = h := headerOf_one _ _ _ _ _ _ _
@[simp] theorem lengthOf_sub (h : Hdr) (d : BitVec 6) (b : BitVec 6) (c : BitVec 6) :
    lengthOf (.sub h d b c) = 8 := rfl
@[simp] theorem headerOf_mul (h : Hdr) (d : BitVec 6) (b : BitVec 6) (c : BitVec 6) :
    headerOf (.mul h d b c) = h := headerOf_one _ _ _ _ _ _ _
@[simp] theorem lengthOf_mul (h : Hdr) (d : BitVec 6) (b : BitVec 6) (c : BitVec 6) :
    lengthOf (.mul h d b c) = 8 := rfl
@[simp] theorem headerOf_mulh (h : Hdr) (d : BitVec 6) (b : BitVec 6) (c : BitVec 6) :
    headerOf (.mulh h d b c) = h := headerOf_one _ _ _ _ _ _ _
@[simp] theorem lengthOf_mulh (h : Hdr) (d : BitVec 6) (b : BitVec 6) (c : BitVec 6) :
    lengthOf (.mulh h d b c) = 8 := rfl
@[simp] theorem headerOf_mulhn (h : Hdr) (d : BitVec 6) (b : BitVec 6) (c : BitVec 6) :
    headerOf (.mulhn h d b c) = h := headerOf_one _ _ _ _ _ _ _
@[simp] theorem lengthOf_mulhn (h : Hdr) (d : BitVec 6) (b : BitVec 6) (c : BitVec 6) :
    lengthOf (.mulhn h d b c) = 8 := rfl
@[simp] theorem headerOf_div (h : Hdr) (d : BitVec 6) (b : BitVec 6) (c : BitVec 6) :
    headerOf (.div h d b c) = h := headerOf_one _ _ _ _ _ _ _
@[simp] theorem lengthOf_div (h : Hdr) (d : BitVec 6) (b : BitVec 6) (c : BitVec 6) :
    lengthOf (.div h d b c) = 8 := rfl
@[simp] theorem headerOf_divn (h : Hdr) (d : BitVec 6) (b : BitVec 6) (c : BitVec 6) :
    headerOf (.divn h d b c) = h := headerOf_one _ _ _ _ _ _ _
@[simp] theorem lengthOf_divn (h : Hdr) (d : BitVec 6) (b : BitVec 6) (c : BitVec 6) :
    lengthOf (.divn h d b c) = 8 := rfl
@[simp] theorem headerOf_rem (h : Hdr) (d : BitVec 6) (b : BitVec 6) (c : BitVec 6) :
    headerOf (.rem h d b c) = h := headerOf_one _ _ _ _ _ _ _
@[simp] theorem lengthOf_rem (h : Hdr) (d : BitVec 6) (b : BitVec 6) (c : BitVec 6) :
    lengthOf (.rem h d b c) = 8 := rfl
@[simp] theorem headerOf_remn (h : Hdr) (d : BitVec 6) (b : BitVec 6) (c : BitVec 6) :
    headerOf (.remn h d b c) = h := headerOf_one _ _ _ _ _ _ _
@[simp] theorem lengthOf_remn (h : Hdr) (d : BitVec 6) (b : BitVec 6) (c : BitVec 6) :
    lengthOf (.remn h d b c) = 8 := rfl
@[simp] theorem headerOf_and (h : Hdr) (d : BitVec 6) (b : BitVec 6) (c : BitVec 6) :
    headerOf (.and h d b c) = h := headerOf_one _ _ _ _ _ _ _
@[simp] theorem lengthOf_and (h : Hdr) (d : BitVec 6) (b : BitVec 6) (c : BitVec 6) :
    lengthOf (.and h d b c) = 8 := rfl
@[simp] theorem headerOf_or (h : Hdr) (d : BitVec 6) (b : BitVec 6) (c : BitVec 6) :
    headerOf (.or h d b c) = h := headerOf_one _ _ _ _ _ _ _
@[simp] theorem lengthOf_or (h : Hdr) (d : BitVec 6) (b : BitVec 6) (c : BitVec 6) :
    lengthOf (.or h d b c) = 8 := rfl
@[simp] theorem headerOf_xor (h : Hdr) (d : BitVec 6) (b : BitVec 6) (c : BitVec 6) :
    headerOf (.xor h d b c) = h := headerOf_one _ _ _ _ _ _ _
@[simp] theorem lengthOf_xor (h : Hdr) (d : BitVec 6) (b : BitVec 6) (c : BitVec 6) :
    lengthOf (.xor h d b c) = 8 := rfl
@[simp] theorem headerOf_andn (h : Hdr) (d : BitVec 6) (b : BitVec 6) (c : BitVec 6) :
    headerOf (.andn h d b c) = h := headerOf_one _ _ _ _ _ _ _
@[simp] theorem lengthOf_andn (h : Hdr) (d : BitVec 6) (b : BitVec 6) (c : BitVec 6) :
    lengthOf (.andn h d b c) = 8 := rfl
@[simp] theorem headerOf_orn (h : Hdr) (d : BitVec 6) (b : BitVec 6) (c : BitVec 6) :
    headerOf (.orn h d b c) = h := headerOf_one _ _ _ _ _ _ _
@[simp] theorem lengthOf_orn (h : Hdr) (d : BitVec 6) (b : BitVec 6) (c : BitVec 6) :
    lengthOf (.orn h d b c) = 8 := rfl
@[simp] theorem headerOf_shl (h : Hdr) (d : BitVec 6) (b : BitVec 6) (c : BitVec 6) :
    headerOf (.shl h d b c) = h := headerOf_one _ _ _ _ _ _ _
@[simp] theorem lengthOf_shl (h : Hdr) (d : BitVec 6) (b : BitVec 6) (c : BitVec 6) :
    lengthOf (.shl h d b c) = 8 := rfl
@[simp] theorem headerOf_shr (h : Hdr) (d : BitVec 6) (b : BitVec 6) (c : BitVec 6) :
    headerOf (.shr h d b c) = h := headerOf_one _ _ _ _ _ _ _
@[simp] theorem lengthOf_shr (h : Hdr) (d : BitVec 6) (b : BitVec 6) (c : BitVec 6) :
    lengthOf (.shr h d b c) = 8 := rfl
@[simp] theorem headerOf_sar (h : Hdr) (d : BitVec 6) (b : BitVec 6) (c : BitVec 6) :
    headerOf (.sar h d b c) = h := headerOf_one _ _ _ _ _ _ _
@[simp] theorem lengthOf_sar (h : Hdr) (d : BitVec 6) (b : BitVec 6) (c : BitVec 6) :
    lengthOf (.sar h d b c) = 8 := rfl
@[simp] theorem headerOf_rol (h : Hdr) (d : BitVec 6) (b : BitVec 6) (c : BitVec 6) :
    headerOf (.rol h d b c) = h := headerOf_one _ _ _ _ _ _ _
@[simp] theorem lengthOf_rol (h : Hdr) (d : BitVec 6) (b : BitVec 6) (c : BitVec 6) :
    lengthOf (.rol h d b c) = 8 := rfl
@[simp] theorem headerOf_min (h : Hdr) (d : BitVec 6) (b : BitVec 6) (c : BitVec 6) :
    headerOf (.min h d b c) = h := headerOf_one _ _ _ _ _ _ _
@[simp] theorem lengthOf_min (h : Hdr) (d : BitVec 6) (b : BitVec 6) (c : BitVec 6) :
    lengthOf (.min h d b c) = 8 := rfl
@[simp] theorem headerOf_max (h : Hdr) (d : BitVec 6) (b : BitVec 6) (c : BitVec 6) :
    headerOf (.max h d b c) = h := headerOf_one _ _ _ _ _ _ _
@[simp] theorem lengthOf_max (h : Hdr) (d : BitVec 6) (b : BitVec 6) (c : BitVec 6) :
    lengthOf (.max h d b c) = 8 := rfl
@[simp] theorem headerOf_minn (h : Hdr) (d : BitVec 6) (b : BitVec 6) (c : BitVec 6) :
    headerOf (.minn h d b c) = h := headerOf_one _ _ _ _ _ _ _
@[simp] theorem lengthOf_minn (h : Hdr) (d : BitVec 6) (b : BitVec 6) (c : BitVec 6) :
    lengthOf (.minn h d b c) = 8 := rfl
@[simp] theorem headerOf_maxn (h : Hdr) (d : BitVec 6) (b : BitVec 6) (c : BitVec 6) :
    headerOf (.maxn h d b c) = h := headerOf_one _ _ _ _ _ _ _
@[simp] theorem lengthOf_maxn (h : Hdr) (d : BitVec 6) (b : BitVec 6) (c : BitVec 6) :
    lengthOf (.maxn h d b c) = 8 := rfl
@[simp] theorem headerOf_addi (h : Hdr) (d : BitVec 6) (b : BitVec 6) (imm : BitVec 18) :
    headerOf (.addi h d b imm) = h := headerOf_one _ _ _ _ _ _ _
@[simp] theorem lengthOf_addi (h : Hdr) (d : BitVec 6) (b : BitVec 6) (imm : BitVec 18) :
    lengthOf (.addi h d b imm) = 8 := rfl
@[simp] theorem headerOf_andi (h : Hdr) (d : BitVec 6) (b : BitVec 6) (imm : BitVec 18) :
    headerOf (.andi h d b imm) = h := headerOf_one _ _ _ _ _ _ _
@[simp] theorem lengthOf_andi (h : Hdr) (d : BitVec 6) (b : BitVec 6) (imm : BitVec 18) :
    lengthOf (.andi h d b imm) = 8 := rfl
@[simp] theorem headerOf_ori (h : Hdr) (d : BitVec 6) (b : BitVec 6) (imm : BitVec 18) :
    headerOf (.ori h d b imm) = h := headerOf_one _ _ _ _ _ _ _
@[simp] theorem lengthOf_ori (h : Hdr) (d : BitVec 6) (b : BitVec 6) (imm : BitVec 18) :
    lengthOf (.ori h d b imm) = 8 := rfl
@[simp] theorem headerOf_xori (h : Hdr) (d : BitVec 6) (b : BitVec 6) (imm : BitVec 18) :
    headerOf (.xori h d b imm) = h := headerOf_one _ _ _ _ _ _ _
@[simp] theorem lengthOf_xori (h : Hdr) (d : BitVec 6) (b : BitVec 6) (imm : BitVec 18) :
    lengthOf (.xori h d b imm) = 8 := rfl
@[simp] theorem headerOf_shli (h : Hdr) (d : BitVec 6) (b : BitVec 6) (sh : BitVec 6) :
    headerOf (.shli h d b sh) = h := headerOf_one _ _ _ _ _ _ _
@[simp] theorem lengthOf_shli (h : Hdr) (d : BitVec 6) (b : BitVec 6) (sh : BitVec 6) :
    lengthOf (.shli h d b sh) = 8 := rfl
@[simp] theorem headerOf_shri (h : Hdr) (d : BitVec 6) (b : BitVec 6) (sh : BitVec 6) :
    headerOf (.shri h d b sh) = h := headerOf_one _ _ _ _ _ _ _
@[simp] theorem lengthOf_shri (h : Hdr) (d : BitVec 6) (b : BitVec 6) (sh : BitVec 6) :
    lengthOf (.shri h d b sh) = 8 := rfl
@[simp] theorem headerOf_sari (h : Hdr) (d : BitVec 6) (b : BitVec 6) (sh : BitVec 6) :
    headerOf (.sari h d b sh) = h := headerOf_one _ _ _ _ _ _ _
@[simp] theorem lengthOf_sari (h : Hdr) (d : BitVec 6) (b : BitVec 6) (sh : BitVec 6) :
    lengthOf (.sari h d b sh) = 8 := rfl
@[simp] theorem headerOf_li (h : Hdr) (d : BitVec 6) (imm : BitVec 18) :
    headerOf (.li h d imm) = h := headerOf_one _ _ _ _ _ _ _
@[simp] theorem lengthOf_li (h : Hdr) (d : BitVec 6) (imm : BitVec 18) :
    lengthOf (.li h d imm) = 8 := rfl
@[simp] theorem headerOf_lih (h : Hdr) (d : BitVec 6) (imm : BitVec 18) :
    headerOf (.lih h d imm) = h := headerOf_one _ _ _ _ _ _ _
@[simp] theorem lengthOf_lih (h : Hdr) (d : BitVec 6) (imm : BitVec 18) :
    lengthOf (.lih h d imm) = 8 := rfl
@[simp] theorem headerOf_clz (h : Hdr) (d : BitVec 6) (b : BitVec 6) :
    headerOf (.clz h d b) = h := headerOf_one _ _ _ _ _ _ _
@[simp] theorem lengthOf_clz (h : Hdr) (d : BitVec 6) (b : BitVec 6) :
    lengthOf (.clz h d b) = 8 := rfl
@[simp] theorem headerOf_ctz (h : Hdr) (d : BitVec 6) (b : BitVec 6) :
    headerOf (.ctz h d b) = h := headerOf_one _ _ _ _ _ _ _
@[simp] theorem lengthOf_ctz (h : Hdr) (d : BitVec 6) (b : BitVec 6) :
    lengthOf (.ctz h d b) = 8 := rfl
@[simp] theorem headerOf_popc (h : Hdr) (d : BitVec 6) (b : BitVec 6) :
    headerOf (.popc h d b) = h := headerOf_one _ _ _ _ _ _ _
@[simp] theorem lengthOf_popc (h : Hdr) (d : BitVec 6) (b : BitVec 6) :
    lengthOf (.popc h d b) = 8 := rfl
@[simp] theorem headerOf_brev (h : Hdr) (d : BitVec 6) (b : BitVec 6) :
    headerOf (.brev h d b) = h := headerOf_one _ _ _ _ _ _ _
@[simp] theorem lengthOf_brev (h : Hdr) (d : BitVec 6) (b : BitVec 6) :
    lengthOf (.brev h d b) = 8 := rfl
@[simp] theorem headerOf_bswap (h : Hdr) (d : BitVec 6) (b : BitVec 6) :
    headerOf (.bswap h d b) = h := headerOf_one _ _ _ _ _ _ _
@[simp] theorem lengthOf_bswap (h : Hdr) (d : BitVec 6) (b : BitVec 6) :
    lengthOf (.bswap h d b) = 8 := rfl
@[simp] theorem headerOf_ext (h : Hdr) (d : BitVec 6) (b : BitVec 6) (lo : BitVec 6) (w : BitVec 6) :
    headerOf (.ext h d b lo w) = h := headerOf_one _ _ _ _ _ _ _
@[simp] theorem lengthOf_ext (h : Hdr) (d : BitVec 6) (b : BitVec 6) (lo : BitVec 6) (w : BitVec 6) :
    lengthOf (.ext h d b lo w) = 8 := rfl
@[simp] theorem headerOf_ins (h : Hdr) (d : BitVec 6) (b : BitVec 6) (lo : BitVec 6) (w : BitVec 6) :
    headerOf (.ins h d b lo w) = h := headerOf_one _ _ _ _ _ _ _
@[simp] theorem lengthOf_ins (h : Hdr) (d : BitVec 6) (b : BitVec 6) (lo : BitVec 6) (w : BitVec 6) :
    lengthOf (.ins h d b lo w) = 8 := rfl
@[simp] theorem headerOf_cmp (h : Hdr) (cond : Cond) (pd : BitVec 5) (b : BitVec 6) (c : BitVec 6) :
    headerOf (.cmp h cond pd b c) = h := headerOf_one _ _ _ _ _ _ _
@[simp] theorem lengthOf_cmp (h : Hdr) (cond : Cond) (pd : BitVec 5) (b : BitVec 6) (c : BitVec 6) :
    lengthOf (.cmp h cond pd b c) = 8 := rfl
@[simp] theorem headerOf_cmpi (h : Hdr) (cond : Cond) (pd : BitVec 5) (b : BitVec 6) (imm : BitVec 18) :
    headerOf (.cmpi h cond pd b imm) = h := headerOf_one _ _ _ _ _ _ _
@[simp] theorem lengthOf_cmpi (h : Hdr) (cond : Cond) (pd : BitVec 5) (b : BitVec 6) (imm : BitVec 18) :
    lengthOf (.cmpi h cond pd b imm) = 8 := rfl
@[simp] theorem headerOf_sel (h : Hdr) (d : BitVec 6) (b : BitVec 6) (c : BitVec 6) (pn : BitVec 5) :
    headerOf (.sel h d b c pn) = h := headerOf_one _ _ _ _ _ _ _
@[simp] theorem lengthOf_sel (h : Hdr) (d : BitVec 6) (b : BitVec 6) (c : BitVec 6) (pn : BitVec 5) :
    lengthOf (.sel h d b c pn) = 8 := rfl
@[simp] theorem headerOf_pand (h : Hdr) (pd : BitVec 5) (pa : BitVec 5) (pb : BitVec 5) :
    headerOf (.pand h pd pa pb) = h := headerOf_one _ _ _ _ _ _ _
@[simp] theorem lengthOf_pand (h : Hdr) (pd : BitVec 5) (pa : BitVec 5) (pb : BitVec 5) :
    lengthOf (.pand h pd pa pb) = 8 := rfl
@[simp] theorem headerOf_por (h : Hdr) (pd : BitVec 5) (pa : BitVec 5) (pb : BitVec 5) :
    headerOf (.por h pd pa pb) = h := headerOf_one _ _ _ _ _ _ _
@[simp] theorem lengthOf_por (h : Hdr) (pd : BitVec 5) (pa : BitVec 5) (pb : BitVec 5) :
    lengthOf (.por h pd pa pb) = 8 := rfl
@[simp] theorem headerOf_pxor (h : Hdr) (pd : BitVec 5) (pa : BitVec 5) (pb : BitVec 5) :
    headerOf (.pxor h pd pa pb) = h := headerOf_one _ _ _ _ _ _ _
@[simp] theorem lengthOf_pxor (h : Hdr) (pd : BitVec 5) (pa : BitVec 5) (pb : BitVec 5) :
    lengthOf (.pxor h pd pa pb) = 8 := rfl
@[simp] theorem headerOf_pandn (h : Hdr) (pd : BitVec 5) (pa : BitVec 5) (pb : BitVec 5) :
    headerOf (.pandn h pd pa pb) = h := headerOf_one _ _ _ _ _ _ _
@[simp] theorem lengthOf_pandn (h : Hdr) (pd : BitVec 5) (pa : BitVec 5) (pb : BitVec 5) :
    lengthOf (.pandn h pd pa pb) = 8 := rfl
@[simp] theorem headerOf_pnot (h : Hdr) (pd : BitVec 5) (pa : BitVec 5) :
    headerOf (.pnot h pd pa) = h := headerOf_one _ _ _ _ _ _ _
@[simp] theorem lengthOf_pnot (h : Hdr) (pd : BitVec 5) (pa : BitVec 5) :
    lengthOf (.pnot h pd pa) = 8 := rfl
@[simp] theorem headerOf_pmov (h : Hdr) (pd : BitVec 5) (pa : BitVec 5) :
    headerOf (.pmov h pd pa) = h := headerOf_one _ _ _ _ _ _ _
@[simp] theorem lengthOf_pmov (h : Hdr) (pd : BitVec 5) (pa : BitVec 5) :
    lengthOf (.pmov h pd pa) = 8 := rfl
@[simp] theorem headerOf_call (h : Hdr) (d : BitVec 6) (off : BitVec 18) :
    headerOf (.call h d off) = h := headerOf_one _ _ _ _ _ _ _
@[simp] theorem lengthOf_call (h : Hdr) (d : BitVec 6) (off : BitVec 18) :
    lengthOf (.call h d off) = 8 := rfl
@[simp] theorem headerOf_callr (h : Hdr) (d : BitVec 6) (b : BitVec 6) :
    headerOf (.callr h d b) = h := headerOf_one _ _ _ _ _ _ _
@[simp] theorem lengthOf_callr (h : Hdr) (d : BitVec 6) (b : BitVec 6) :
    lengthOf (.callr h d b) = 8 := rfl
@[simp] theorem headerOf_ret (h : Hdr) (b : BitVec 6) :
    headerOf (.ret h b) = h := headerOf_one _ _ _ _ _ _ _
@[simp] theorem lengthOf_ret (h : Hdr) (b : BitVec 6) :
    lengthOf (.ret h b) = 8 := rfl
@[simp] theorem headerOf_jmpr (h : Hdr) (b : BitVec 6) :
    headerOf (.jmpr h b) = h := headerOf_one _ _ _ _ _ _ _
@[simp] theorem lengthOf_jmpr (h : Hdr) (b : BitVec 6) :
    lengthOf (.jmpr h b) = 8 := rfl
@[simp] theorem headerOf_ld (h : Hdr) (acq : Option Scope) (w : MWidth) (d : BitVec 6) (b : BitVec 6) (disp :
      BitVec 18) :
    headerOf (.ld h acq w d b disp) = h := headerOf_one _ _ _ _ _ _ _
@[simp] theorem lengthOf_ld (h : Hdr) (acq : Option Scope) (w : MWidth) (d : BitVec 6) (b : BitVec 6) (disp :
      BitVec 18) :
    lengthOf (.ld h acq w d b disp) = 8 := rfl
@[simp] theorem headerOf_st (h : Hdr) (rel : Option Scope) (w : MWidth) (s : BitVec 6) (b : BitVec 6) (disp :
      BitVec 18) :
    headerOf (.st h rel w s b disp) = h := headerOf_one _ _ _ _ _ _ _
@[simp] theorem lengthOf_st (h : Hdr) (rel : Option Scope) (w : MWidth) (s : BitVec 6) (b : BitVec 6) (disp :
      BitVec 18) :
    lengthOf (.st h rel w s b disp) = 8 := rfl
@[simp] theorem headerOf_stCoil (h : Hdr) (w : MWidth) (s : BitVec 6) (b : BitVec 6) (c : BitVec 6) (off : BitVec
      18) :
    headerOf (.stCoil h w s b c off) = h := headerOf_one _ _ _ _ _ _ _
@[simp] theorem lengthOf_stCoil (h : Hdr) (w : MWidth) (s : BitVec 6) (b : BitVec 6) (c : BitVec 6) (off : BitVec
      18) :
    lengthOf (.stCoil h w s b c off) = 8 := rfl
@[simp] theorem headerOf_ldm (h : Hdr) (acq : Option Scope) (z : Bool) (f : BitVec 6) (b : BitVec 6) (c : BitVec 6)
      (disp : BitVec 18) :
    headerOf (.ldm h acq z f b c disp) = h := headerOf_one _ _ _ _ _ _ _
@[simp] theorem lengthOf_ldm (h : Hdr) (acq : Option Scope) (z : Bool) (f : BitVec 6) (b : BitVec 6) (c : BitVec 6)
      (disp : BitVec 18) :
    lengthOf (.ldm h acq z f b c disp) = 8 := rfl
@[simp] theorem headerOf_stm (h : Hdr) (rel : Option Scope) (z : Bool) (f : BitVec 6) (b : BitVec 6) (c : BitVec 6)
      (disp : BitVec 18) :
    headerOf (.stm h rel z f b c disp) = h := headerOf_one _ _ _ _ _ _ _
@[simp] theorem lengthOf_stm (h : Hdr) (rel : Option Scope) (z : Bool) (f : BitVec 6) (b : BitVec 6) (c : BitVec 6)
      (disp : BitVec 18) :
    lengthOf (.stm h rel z f b c disp) = 8 := rfl
@[simp] theorem headerOf_trap (h : Hdr) (code : BitVec 8) :
    headerOf (.trap h code) = h := headerOf_one _ _ _ _ _ _ _
@[simp] theorem lengthOf_trap (h : Hdr) (code : BitVec 8) :
    lengthOf (.trap h code) = 8 := rfl
@[simp] theorem headerOf_hset (h : Hdr) (b : BitVec 6) (cls : BitVec 3) :
    headerOf (.hset h b cls) = h := headerOf_one _ _ _ _ _ _ _
@[simp] theorem lengthOf_hset (h : Hdr) (b : BitVec 6) (cls : BitVec 3) :
    lengthOf (.hset h b cls) = 8 := rfl
@[simp] theorem headerOf_resume (h : Hdr) :
    headerOf (.resume h) = h := headerOf_one _ _ _ _ _ _ _
@[simp] theorem lengthOf_resume (h : Hdr) :
    lengthOf (.resume h) = 8 := rfl
@[simp] theorem headerOf_sysc (h : Hdr) (d : BitVec 6) (b : BitVec 6) (svc : BitVec 12) :
    headerOf (.sysc h d b svc) = h := headerOf_one _ _ _ _ _ _ _
@[simp] theorem lengthOf_sysc (h : Hdr) (d : BitVec 6) (b : BitVec 6) (svc : BitVec 12) :
    lengthOf (.sysc h d b svc) = 8 := rfl
@[simp] theorem headerOf_amo (h : Hdr) (op : AmoOp) (ord : AmOrd) (w4 : Bool) (d : BitVec 6) (b : BitVec 6) (c :
      BitVec 6) :
    headerOf (.amo h op ord w4 d b c) = h := headerOf_one _ _ _ _ _ _ _
@[simp] theorem lengthOf_amo (h : Hdr) (op : AmoOp) (ord : AmOrd) (w4 : Bool) (d : BitVec 6) (b : BitVec 6) (c :
      BitVec 6) :
    lengthOf (.amo h op ord w4 d b c) = 8 := rfl
@[simp] theorem headerOf_amoc (h : Hdr) (ord : AmOrd) (w4 : Bool) (a : BitVec 6) (b : BitVec 6) (c : BitVec 6) :
    headerOf (.amoc h ord w4 a b c) = h := headerOf_one _ _ _ _ _ _ _
@[simp] theorem lengthOf_amoc (h : Hdr) (ord : AmOrd) (w4 : Bool) (a : BitVec 6) (b : BitVec 6) (c : BitVec 6) :
    lengthOf (.amoc h ord w4 a b c) = 8 := rfl
@[simp] theorem headerOf_amred (h : Hdr) (op : AmOp) (rel : Option Scope) (w4 : Bool) (b : BitVec 6) (c : BitVec 6) :
    headerOf (.amred h op rel w4 b c) = h := headerOf_one _ _ _ _ _ _ _
@[simp] theorem lengthOf_amred (h : Hdr) (op : AmOp) (rel : Option Scope) (w4 : Bool) (b : BitVec 6) (c : BitVec 6) :
    lengthOf (.amred h op rel w4 b c) = 8 := rfl
@[simp] theorem headerOf_avec (h : Hdr) (isAdd : Bool) (bits : Bool) (rel : Option Scope) (cnt : BitVec 6) (b :
      BitVec 6) (c : BitVec 6) :
    headerOf (.avec h isAdd bits rel cnt b c) = h := headerOf_one _ _ _ _ _ _ _
@[simp] theorem lengthOf_avec (h : Hdr) (isAdd : Bool) (bits : Bool) (rel : Option Scope) (cnt : BitVec 6) (b :
      BitVec 6) (c : BitVec 6) :
    lengthOf (.avec h isAdd bits rel cnt b c) = 8 := rfl
@[simp] theorem headerOf_waita (h : Hdr) (cond : Cond) (w4 : Bool) (a : BitVec 6) (b : BitVec 6) (c : BitVec 6) :
    headerOf (.waita h cond w4 a b c) = h := headerOf_one _ _ _ _ _ _ _
@[simp] theorem lengthOf_waita (h : Hdr) (cond : Cond) (w4 : Bool) (a : BitVec 6) (b : BitVec 6) (c : BitVec 6) :
    lengthOf (.waita h cond w4 a b c) = 8 := rfl
@[simp] theorem headerOf_siga (h : Hdr) (b : BitVec 6) :
    headerOf (.siga h b) = h := headerOf_one _ _ _ _ _ _ _
@[simp] theorem lengthOf_siga (h : Hdr) (b : BitVec 6) :
    lengthOf (.siga h b) = 8 := rfl
@[simp] theorem headerOf_bari (h : Hdr) (b : BitVec 6) (c : BitVec 6) :
    headerOf (.bari h b c) = h := headerOf_one _ _ _ _ _ _ _
@[simp] theorem lengthOf_bari (h : Hdr) (b : BitVec 6) (c : BitVec 6) :
    lengthOf (.bari h b c) = 8 := rfl
@[simp] theorem headerOf_bara (h : Hdr) (b : BitVec 6) :
    headerOf (.bara h b) = h := headerOf_one _ _ _ _ _ _ _
@[simp] theorem lengthOf_bara (h : Hdr) (b : BitVec 6) :
    lengthOf (.bara h b) = 8 := rfl
@[simp] theorem headerOf_bard (h : Hdr) (b : BitVec 6) :
    headerOf (.bard h b) = h := headerOf_one _ _ _ _ _ _ _
@[simp] theorem lengthOf_bard (h : Hdr) (b : BitVec 6) :
    lengthOf (.bard h b) = 8 := rfl
@[simp] theorem headerOf_barw (h : Hdr) (b : BitVec 6) (c : BitVec 6) :
    headerOf (.barw h b c) = h := headerOf_one _ _ _ _ _ _ _
@[simp] theorem lengthOf_barw (h : Hdr) (b : BitVec 6) (c : BitVec 6) :
    lengthOf (.barw h b c) = 8 := rfl
@[simp] theorem headerOf_afence (h : Hdr) (b : BitVec 6) (c : BitVec 6) :
    headerOf (.afence h b c) = h := headerOf_one _ _ _ _ _ _ _
@[simp] theorem lengthOf_afence (h : Hdr) (b : BitVec 6) (c : BitVec 6) :
    lengthOf (.afence h b c) = 8 := rfl
@[simp] theorem headerOf_cnew (h : Hdr) (d : BitVec 6) (size : BitVec 4) :
    headerOf (.cnew h d size) = h := headerOf_one _ _ _ _ _ _ _
@[simp] theorem lengthOf_cnew (h : Hdr) (d : BitVec 6) (size : BitVec 4) :
    lengthOf (.cnew h d size) = 8 := rfl
@[simp] theorem headerOf_cres (h : Hdr) (d : BitVec 6) (b : BitVec 6) (c : BitVec 6) :
    headerOf (.cres h d b c) = h := headerOf_one _ _ _ _ _ _ _
@[simp] theorem lengthOf_cres (h : Hdr) (d : BitVec 6) (b : BitVec 6) (c : BitVec 6) :
    lengthOf (.cres h d b c) = 8 := rfl
@[simp] theorem headerOf_caddr (h : Hdr) (d : BitVec 6) (b : BitVec 6) (c : BitVec 6) :
    headerOf (.caddr h d b c) = h := headerOf_one _ _ _ _ _ _ _
@[simp] theorem lengthOf_caddr (h : Hdr) (d : BitVec 6) (b : BitVec 6) (c : BitVec 6) :
    lengthOf (.caddr h d b c) = 8 := rfl
@[simp] theorem headerOf_ccommit (h : Hdr) (a : BitVec 6) (b : BitVec 6) (c : BitVec 6) :
    headerOf (.ccommit h a b c) = h := headerOf_one _ _ _ _ _ _ _
@[simp] theorem lengthOf_ccommit (h : Hdr) (a : BitVec 6) (b : BitVec 6) (c : BitVec 6) :
    lengthOf (.ccommit h a b c) = 8 := rfl
@[simp] theorem headerOf_clen (h : Hdr) (d : BitVec 6) (b : BitVec 6) :
    headerOf (.clen h d b) = h := headerOf_one _ _ _ _ _ _ _
@[simp] theorem lengthOf_clen (h : Hdr) (d : BitVec 6) (b : BitVec 6) :
    lengthOf (.clen h d b) = 8 := rfl
@[simp] theorem headerOf_cfork (h : Hdr) (d : BitVec 6) (b : BitVec 6) (c : BitVec 6) :
    headerOf (.cfork h d b c) = h := headerOf_one _ _ _ _ _ _ _
@[simp] theorem lengthOf_cfork (h : Hdr) (d : BitVec 6) (b : BitVec 6) (c : BitVec 6) :
    lengthOf (.cfork h d b c) = 8 := rfl
@[simp] theorem headerOf_cdrop (h : Hdr) (b : BitVec 6) :
    headerOf (.cdrop h b) = h := headerOf_one _ _ _ _ _ _ _
@[simp] theorem lengthOf_cdrop (h : Hdr) (b : BitVec 6) :
    lengthOf (.cdrop h b) = 8 := rfl
@[simp] theorem headerOf_cinfo (h : Hdr) (d : BitVec 6) (b : BitVec 6) (word : BitVec 4) :
    headerOf (.cinfo h d b word) = h := headerOf_one _ _ _ _ _ _ _
@[simp] theorem lengthOf_cinfo (h : Hdr) (d : BitVec 6) (b : BitVec 6) (word : BitVec 4) :
    lengthOf (.cinfo h d b word) = 8 := rfl
@[simp] theorem headerOf_sqpush (h : Hdr) (b : BitVec 6) (c : BitVec 6) (queue : BitVec 4) :
    headerOf (.sqpush h b c queue) = h := headerOf_one _ _ _ _ _ _ _
@[simp] theorem lengthOf_sqpush (h : Hdr) (b : BitVec 6) (c : BitVec 6) (queue : BitVec 4) :
    lengthOf (.sqpush h b c queue) = 8 := rfl
@[simp] theorem headerOf_yield (h : Hdr) :
    headerOf (.yield h) = h := headerOf_one _ _ _ _ _ _ _
@[simp] theorem lengthOf_yield (h : Hdr) :
    lengthOf (.yield h) = 8 := rfl
@[simp] theorem headerOf_launch (h : Hdr) (b : BitVec 6) (c : BitVec 6) :
    headerOf (.launch h b c) = h := headerOf_one _ _ _ _ _ _ _
@[simp] theorem lengthOf_launch (h : Hdr) (b : BitVec 6) (c : BitVec 6) :
    lengthOf (.launch h b c) = 8 := rfl
@[simp] theorem headerOf_cancel (h : Hdr) (b : BitVec 6) (level : BitVec 2) :
    headerOf (.cancel h b level) = h := headerOf_one _ _ _ _ _ _ _
@[simp] theorem lengthOf_cancel (h : Hdr) (b : BitVec 6) (level : BitVec 2) :
    lengthOf (.cancel h b level) = 8 := rfl
@[simp] theorem headerOf_ccnt (h : Hdr) (d : BitVec 6) (b : BitVec 6) (level : BitVec 2) :
    headerOf (.ccnt h d b level) = h := headerOf_one _ _ _ _ _ _ _
@[simp] theorem lengthOf_ccnt (h : Hdr) (d : BitVec 6) (b : BitVec 6) (level : BitVec 2) :
    lengthOf (.ccnt h d b level) = 8 := rfl
@[simp] theorem headerOf_plan (h : Hdr) (a : BitVec 6) (b : BitVec 6) (c : BitVec 6) :
    headerOf (.plan h a b c) = h := headerOf_one _ _ _ _ _ _ _
@[simp] theorem lengthOf_plan (h : Hdr) (a : BitVec 6) (b : BitVec 6) (c : BitVec 6) :
    lengthOf (.plan h a b c) = 8 := rfl
@[simp] theorem headerOf_phint (h : Hdr) (b : BitVec 6) (policy : BitVec 2) :
    headerOf (.phint h b policy) = h := headerOf_one _ _ _ _ _ _ _
@[simp] theorem lengthOf_phint (h : Hdr) (b : BitVec 6) (policy : BitVec 2) :
    lengthOf (.phint h b policy) = 8 := rfl
@[simp] theorem headerOf_aadd (h : Hdr) (d : BitVec 5) (b : BitVec 5) (c : BitVec 5) :
    headerOf (.aadd h d b c) = h := headerOf_one _ _ _ _ _ _ _
@[simp] theorem lengthOf_aadd (h : Hdr) (d : BitVec 5) (b : BitVec 5) (c : BitVec 5) :
    lengthOf (.aadd h d b c) = 8 := rfl
@[simp] theorem headerOf_asub (h : Hdr) (d : BitVec 5) (b : BitVec 5) (c : BitVec 5) :
    headerOf (.asub h d b c) = h := headerOf_one _ _ _ _ _ _ _
@[simp] theorem lengthOf_asub (h : Hdr) (d : BitVec 5) (b : BitVec 5) (c : BitVec 5) :
    lengthOf (.asub h d b c) = 8 := rfl
@[simp] theorem headerOf_amul (h : Hdr) (d : BitVec 5) (b : BitVec 5) (c : BitVec 5) :
    headerOf (.amul h d b c) = h := headerOf_one _ _ _ _ _ _ _
@[simp] theorem lengthOf_amul (h : Hdr) (d : BitVec 5) (b : BitVec 5) (c : BitVec 5) :
    lengthOf (.amul h d b c) = 8 := rfl
@[simp] theorem headerOf_amadd (h : Hdr) (d : BitVec 5) (b : BitVec 5) (c : BitVec 5) :
    headerOf (.amadd h d b c) = h := headerOf_one _ _ _ _ _ _ _
@[simp] theorem lengthOf_amadd (h : Hdr) (d : BitVec 5) (b : BitVec 5) (c : BitVec 5) :
    lengthOf (.amadd h d b c) = 8 := rfl
@[simp] theorem headerOf_amov (h : Hdr) (d : BitVec 5) (b : BitVec 5) :
    headerOf (.amov h d b) = h := headerOf_one _ _ _ _ _ _ _
@[simp] theorem lengthOf_amov (h : Hdr) (d : BitVec 5) (b : BitVec 5) :
    lengthOf (.amov h d b) = 8 := rfl
@[simp] theorem headerOf_aaddi (h : Hdr) (d : BitVec 5) (b : BitVec 5) (imm : BitVec 18) :
    headerOf (.aaddi h d b imm) = h := headerOf_one _ _ _ _ _ _ _
@[simp] theorem lengthOf_aaddi (h : Hdr) (d : BitVec 5) (b : BitVec 5) (imm : BitVec 18) :
    lengthOf (.aaddi h d b imm) = 8 := rfl
@[simp] theorem headerOf_ashli (h : Hdr) (d : BitVec 5) (b : BitVec 5) (sh : BitVec 6) :
    headerOf (.ashli h d b sh) = h := headerOf_one _ _ _ _ _ _ _
@[simp] theorem lengthOf_ashli (h : Hdr) (d : BitVec 5) (b : BitVec 5) (sh : BitVec 6) :
    lengthOf (.ashli h d b sh) = 8 := rfl
@[simp] theorem headerOf_ali (h : Hdr) (d : BitVec 5) (imm : BitVec 18) :
    headerOf (.ali h d imm) = h := headerOf_one _ _ _ _ _ _ _
@[simp] theorem lengthOf_ali (h : Hdr) (d : BitVec 5) (imm : BitVec 18) :
    lengthOf (.ali h d imm) = 8 := rfl
@[simp] theorem headerOf_alih (h : Hdr) (d : BitVec 5) (imm : BitVec 18) :
    headerOf (.alih h d imm) = h := headerOf_one _ _ _ _ _ _ _
@[simp] theorem lengthOf_alih (h : Hdr) (d : BitVec 5) (imm : BitVec 18) :
    lengthOf (.alih h d imm) = 8 := rfl
@[simp] theorem headerOf_acmp (h : Hdr) (cond : Cond) (pd : BitVec 5) (b : BitVec 5) (c : BitVec 5) :
    headerOf (.acmp h cond pd b c) = h := headerOf_one _ _ _ _ _ _ _
@[simp] theorem lengthOf_acmp (h : Hdr) (cond : Cond) (pd : BitVec 5) (b : BitVec 5) (c : BitVec 5) :
    lengthOf (.acmp h cond pd b c) = 8 := rfl
@[simp] theorem headerOf_acmpi (h : Hdr) (cond : Cond) (pd : BitVec 5) (b : BitVec 5) (imm : BitVec 18) :
    headerOf (.acmpi h cond pd b imm) = h := headerOf_one _ _ _ _ _ _ _
@[simp] theorem lengthOf_acmpi (h : Hdr) (cond : Cond) (pd : BitVec 5) (b : BitVec 5) (imm : BitVec 18) :
    lengthOf (.acmpi h cond pd b imm) = 8 := rfl
@[simp] theorem headerOf_lda (h : Hdr) (w : MWidth) (d : BitVec 5) (b : BitVec 5) (disp : BitVec 18) :
    headerOf (.lda h w d b disp) = h := headerOf_one _ _ _ _ _ _ _
@[simp] theorem lengthOf_lda (h : Hdr) (w : MWidth) (d : BitVec 5) (b : BitVec 5) (disp : BitVec 18) :
    lengthOf (.lda h w d b disp) = 8 := rfl
@[simp] theorem headerOf_sta (h : Hdr) (w : MWidth) (s : BitVec 5) (b : BitVec 5) (disp : BitVec 18) :
    headerOf (.sta h w s b disp) = h := headerOf_one _ _ _ _ _ _ _
@[simp] theorem lengthOf_sta (h : Hdr) (w : MWidth) (s : BitVec 5) (b : BitVec 5) (disp : BitVec 18) :
    lengthOf (.sta h w s b disp) = 8 := rfl
@[simp] theorem headerOf_mapset (h : Hdr) (m : BitVec 4) (p : BitVec 192) :
    headerOf (.mapset h m p) = h := headerOf_four _ _ _ _ _ _ _ _
@[simp] theorem lengthOf_mapset (h : Hdr) (m : BitVec 4) (p : BitVec 192) :
    lengthOf (.mapset h m p) = 32 := rfl
@[simp] theorem headerOf_mapofs (h : Hdr) (m : BitVec 4) (b : BitVec 5) :
    headerOf (.mapofs h m b) = h := headerOf_one _ _ _ _ _ _ _
@[simp] theorem lengthOf_mapofs (h : Hdr) (m : BitVec 4) (b : BitVec 5) :
    lengthOf (.mapofs h m b) = 8 := rfl
@[simp] theorem headerOf_tld (h : Hdr) (f : Sem) (ty : Ty) (dst : TDst) (m : BitVec 4) (c : BitVec 5) (disp :
      BitVec 18) (o : LoadHalf) :
    headerOf (.tld h f ty dst m c disp o) = h := headerOf_two _ _ _ _ _ _ _ _ _
@[simp] theorem lengthOf_tld (h : Hdr) (f : Sem) (ty : Ty) (dst : TDst) (m : BitVec 4) (c : BitVec 5) (disp :
      BitVec 18) (o : LoadHalf) :
    lengthOf (.tld h f ty dst m c disp o) = 16 := rfl
@[simp] theorem headerOf_tst (h : Hdr) (f : Sem) (ty : Ty) (o : BitVec 3) (m : BitVec 4) (c : BitVec 5) (disp :
      BitVec 18) (sh : StoreHalf) :
    headerOf (.tst h f ty o m c disp sh) = h := headerOf_two _ _ _ _ _ _ _ _ _
@[simp] theorem lengthOf_tst (h : Hdr) (f : Sem) (ty : Ty) (o : BitVec 3) (m : BitVec 4) (c : BitVec 5) (disp :
      BitVec 18) (sh : StoreHalf) :
    lengthOf (.tst h f ty o m c disp sh) = 16 := rfl
@[simp] theorem headerOf_tstCoil (h : Hdr) (f : Sem) (ty : Ty) (o : BitVec 3) (m : BitVec 4) (c : BitVec 5) (slot :
      BitVec 5) (sh : StoreHalf) :
    headerOf (.tstCoil h f ty o m c slot sh) = h := headerOf_two _ _ _ _ _ _ _ _ _
@[simp] theorem lengthOf_tstCoil (h : Hdr) (f : Sem) (ty : Ty) (o : BitVec 3) (m : BitVec 4) (c : BitVec 5) (slot :
      BitVec 5) (sh : StoreHalf) :
    lengthOf (.tstCoil h f ty o m c slot sh) = 16 := rfl
@[simp] theorem headerOf_tcpy (h : Hdr) (f : Sem) (ty : Ty) (d : BitVec 5) (m : BitVec 4) (c : BitVec 5) (ci :
      BitVec 6) (co : BitVec 6) (half : CpyHalf) :
    headerOf (.tcpy h f ty d m c ci co half) = h := headerOf_two _ _ _ _ _ _ _ _ _
@[simp] theorem lengthOf_tcpy (h : Hdr) (f : Sem) (ty : Ty) (d : BitVec 5) (m : BitVec 4) (c : BitVec 5) (ci :
      BitVec 6) (co : BitVec 6) (half : CpyHalf) :
    lengthOf (.tcpy h f ty d m c ci co half) = 16 := rfl
@[simp] theorem headerOf_tgth (h : Hdr) (f : Sem) (ty : Ty) (q : BitVec 3) (m : BitVec 4) (c : BitVec 5) (disp :
      BitVec 18) (lvl : BitVec 3) (idx : BitVec 5) :
    headerOf (.tgth h f ty q m c disp lvl idx) = h := headerOf_two _ _ _ _ _ _ _ _ _
@[simp] theorem lengthOf_tgth (h : Hdr) (f : Sem) (ty : Ty) (q : BitVec 3) (m : BitVec 4) (c : BitVec 5) (disp :
      BitVec 18) (lvl : BitVec 3) (idx : BitVec 5) :
    lengthOf (.tgth h f ty q m c disp lvl idx) = 16 := rfl
@[simp] theorem headerOf_tsct (h : Hdr) (f : Sem) (ty : Ty) (o : BitVec 3) (m : BitVec 4) (c : BitVec 5) (disp :
      BitVec 18) (lvl : BitVec 3) (idx : BitVec 5) :
    headerOf (.tsct h f ty o m c disp lvl idx) = h := headerOf_two _ _ _ _ _ _ _ _ _
@[simp] theorem lengthOf_tsct (h : Hdr) (f : Sem) (ty : Ty) (o : BitVec 3) (m : BitVec 4) (c : BitVec 5) (disp :
      BitVec 18) (lvl : BitVec 3) (idx : BitVec 5) :
    lengthOf (.tsct h f ty o m c disp lvl idx) = 16 := rfl
@[simp] theorem headerOf_tzero (h : Hdr) (f : Sem) (ty : Ty) (m : BitVec 4) (c : BitVec 5) (disp : BitVec 18) :
    headerOf (.tzero h f ty m c disp) = h := headerOf_two _ _ _ _ _ _ _ _ _
@[simp] theorem lengthOf_tzero (h : Hdr) (f : Sem) (ty : Ty) (m : BitVec 4) (c : BitVec 5) (disp : BitVec 18) :
    lengthOf (.tzero h f ty m c disp) = 16 := rfl
@[simp] theorem headerOf_tprf (h : Hdr) (ty : Ty) (m : BitVec 4) (c : BitVec 5) (disp : BitVec 18) :
    headerOf (.tprf h ty m c disp) = h := headerOf_one _ _ _ _ _ _ _
@[simp] theorem lengthOf_tprf (h : Hdr) (ty : Ty) (m : BitVec 4) (c : BitVec 5) (disp : BitVec 18) :
    lengthOf (.tprf h ty m c disp) = 8 := rfl
@[simp] theorem headerOf_rcpyWr (h : Hdr) (f : Sem) (r : BitVec 5) (m : BitVec 4) (c : BitVec 5) (lg : BitVec 2) :
    headerOf (.rcpyWr h f r m c lg) = h := headerOf_two _ _ _ _ _ _ _ _ _
@[simp] theorem lengthOf_rcpyWr (h : Hdr) (f : Sem) (r : BitVec 5) (m : BitVec 4) (c : BitVec 5) (lg : BitVec 2) :
    lengthOf (.rcpyWr h f r m c lg) = 16 := rfl
@[simp] theorem headerOf_rcpyRd (h : Hdr) (f : Sem) (r : BitVec 5) (m : BitVec 4) (c : BitVec 5) (lg : BitVec 2) :
    headerOf (.rcpyRd h f r m c lg) = h := headerOf_two _ _ _ _ _ _ _ _ _
@[simp] theorem lengthOf_rcpyRd (h : Hdr) (f : Sem) (r : BitVec 5) (m : BitVec 4) (c : BitVec 5) (lg : BitVec 2) :
    lengthOf (.rcpyRd h f r m c lg) = 16 := rfl
@[simp] theorem headerOf_rsig (h : Hdr) (b : BitVec 5) (c : BitVec 5) :
    headerOf (.rsig h b c) = h := headerOf_one _ _ _ _ _ _ _
@[simp] theorem lengthOf_rsig (h : Hdr) (b : BitVec 5) (c : BitVec 5) :
    lengthOf (.rsig h b c) = 8 := rfl
@[simp] theorem headerOf_caddrLs (h : Hdr) (d : BitVec 5) (b : BitVec 5) (c : BitVec 5) :
    headerOf (.caddrLs h d b c) = h := headerOf_one _ _ _ _ _ _ _
@[simp] theorem lengthOf_caddrLs (h : Hdr) (d : BitVec 5) (b : BitVec 5) (c : BitVec 5) :
    lengthOf (.caddrLs h d b c) = 8 := rfl
@[simp] theorem headerOf_mlw (h : Hdr) (f : Sem) (ty : Ty) (w : BitVec 1) (q : BitVec 3) :
    headerOf (.mlw h f ty w q) = h := headerOf_two _ _ _ _ _ _ _ _ _
@[simp] theorem lengthOf_mlw (h : Hdr) (f : Sem) (ty : Ty) (w : BitVec 1) (q : BitVec 3) :
    lengthOf (.mlw h f ty w q) = 16 := rfl
@[simp] theorem headerOf_mma (h : Hdr) (f : Sem) (ty : Ty) (ow : Bool) (w : BitVec 1) (q : BitVec 3) (slot : BitVec
      6) (z : ZRange) :
    headerOf (.mma h f ty ow w q slot z) = h := headerOf_two _ _ _ _ _ _ _ _ _
@[simp] theorem lengthOf_mma (h : Hdr) (f : Sem) (ty : Ty) (ow : Bool) (w : BitVec 1) (q : BitVec 3) (slot : BitVec
      6) (z : ZRange) :
    lengthOf (.mma h f ty ow w q slot z) = 16 := rfl
@[simp] theorem headerOf_mmac (h : Hdr) (f : Sem) (ty : Ty) (ow : Bool) (w : BitVec 1) (slot : BitVec 6) (z :
      ZRange) (src : BitVec 11) :
    headerOf (.mmac h f ty ow w slot z src) = h := headerOf_two _ _ _ _ _ _ _ _ _
@[simp] theorem lengthOf_mmac (h : Hdr) (f : Sem) (ty : Ty) (ow : Bool) (w : BitVec 1) (slot : BitVec 6) (z :
      ZRange) (src : BitVec 11) :
    lengthOf (.mmac h f ty ow w slot z src) = 16 := rfl
@[simp] theorem headerOf_mzero (h : Hdr) (f : Sem) (ty : Ty) (z : ZRange) :
    headerOf (.mzero h f ty z) = h := headerOf_two _ _ _ _ _ _ _ _ _
@[simp] theorem lengthOf_mzero (h : Hdr) (f : Sem) (ty : Ty) (z : ZRange) :
    lengthOf (.mzero h f ty z) = 16 := rfl
@[simp] theorem headerOf_mdrain (h : Hdr) (f : Sem) (ty : Ty) (o : BitVec 3) (slot : BitVec 6) (z : ZRange) (lines
      : Lines) :
    headerOf (.mdrain h f ty o slot z lines) = h := headerOf_two _ _ _ _ _ _ _ _ _
@[simp] theorem lengthOf_mdrain (h : Hdr) (f : Sem) (ty : Ty) (o : BitVec 3) (slot : BitVec 6) (z : ZRange) (lines
      : Lines) :
    lengthOf (.mdrain h f ty o slot z lines) = 16 := rfl
@[simp] theorem headerOf_mdrainx (h : Hdr) (f : Sem) (ty : Ty) (mem : BitVec 3) (slot : BitVec 6) (z : ZRange)
      (peer : BitVec 11) :
    headerOf (.mdrainx h f ty mem slot z peer) = h := headerOf_two _ _ _ _ _ _ _ _ _
@[simp] theorem lengthOf_mdrainx (h : Hdr) (f : Sem) (ty : Ty) (mem : BitVec 3) (slot : BitVec 6) (z : ZRange)
      (peer : BitVec 11) :
    lengthOf (.mdrainx h f ty mem slot z peer) = 16 := rfl
@[simp] theorem headerOf_mfact (h : Hdr) (f : Sem) (ty : Ty) (z : ZRange) (piv : BitVec 11) :
    headerOf (.mfact h f ty z piv) = h := headerOf_two _ _ _ _ _ _ _ _ _
@[simp] theorem lengthOf_mfact (h : Hdr) (f : Sem) (ty : Ty) (z : ZRange) (piv : BitVec 11) :
    lengthOf (.mfact h f ty z piv) = 16 := rfl
@[simp] theorem headerOf_mstat (h : Hdr) (code : BitVec 3) :
    headerOf (.mstat h code) = h := headerOf_one _ _ _ _ _ _ _
@[simp] theorem lengthOf_mstat (h : Hdr) (code : BitVec 3) :
    lengthOf (.mstat h code) = 8 := rfl
@[simp] theorem headerOf_tred (h : Hdr) (f : Sem) (ty : Ty) (o : BitVec 3) (q : BitVec 3) (ri : BitVec 6) (ro :
      BitVec 6) (op : RedOp) (levels : BitVec 3) :
    headerOf (.tred h f ty o q ri ro op levels) = h := headerOf_two _ _ _ _ _ _ _ _ _
@[simp] theorem lengthOf_tred (h : Hdr) (f : Sem) (ty : Ty) (o : BitVec 3) (q : BitVec 3) (ri : BitVec 6) (ro :
      BitVec 6) (op : RedOp) (levels : BitVec 3) :
    lengthOf (.tred h f ty o q ri ro op levels) = 16 := rfl
@[simp] theorem headerOf_tpass (h : Hdr) (f : Sem) (ty : Ty) (o : BitVec 3) (q : BitVec 3) (pi : BitVec 6) (po :
      BitVec 6) :
    headerOf (.tpass h f ty o q pi po) = h := headerOf_two _ _ _ _ _ _ _ _ _
@[simp] theorem lengthOf_tpass (h : Hdr) (f : Sem) (ty : Ty) (o : BitVec 3) (q : BitVec 3) (pi : BitVec 6) (po :
      BitVec 6) :
    lengthOf (.tpass h f ty o q pi po) = 16 := rfl
@[simp] theorem headerOf_attn (h : Hdr) (f : Sem) (blk : BitVec 13) :
    headerOf (.attn h f blk) = h := headerOf_two _ _ _ _ _ _ _ _ _
@[simp] theorem lengthOf_attn (h : Hdr) (f : Sem) (blk : BitVec 13) :
    lengthOf (.attn h f blk) = 16 := rfl
@[simp] theorem headerOf_attnm (h : Hdr) (f : Sem) (blk : BitVec 13) :
    headerOf (.attnm h f blk) = h := headerOf_two _ _ _ _ _ _ _ _ _
@[simp] theorem lengthOf_attnm (h : Hdr) (f : Sem) (blk : BitVec 13) :
    lengthOf (.attnm h f blk) = 16 := rfl
@[simp] theorem headerOf_pbind (h : Hdr) (slot : BitVec 6) (r : BitVec 18) :
    headerOf (.pbind h slot r) = h := headerOf_one _ _ _ _ _ _ _
@[simp] theorem lengthOf_pbind (h : Hdr) (slot : BitVec 6) (r : BitVec 18) :
    lengthOf (.pbind h slot r) = 8 := rfl
@[simp] theorem headerOf_pbindTable (h : Hdr) (t : BitVec 2) (r : BitVec 18) :
    headerOf (.pbindTable h t r) = h := headerOf_one _ _ _ _ _ _ _
@[simp] theorem lengthOf_pbindTable (h : Hdr) (t : BitVec 2) (r : BitVec 18) :
    lengthOf (.pbindTable h t r) = 8 := rfl
@[simp] theorem headerOf_pstate (h : Hdr) (port : BitVec 3) (k : BitVec 3) :
    headerOf (.pstate h port k) = h := headerOf_one _ _ _ _ _ _ _
@[simp] theorem lengthOf_pstate (h : Hdr) (port : BitVec 3) (k : BitVec 3) :
    lengthOf (.pstate h port k) = 8 := rfl

end Sys2Proof
end

