-- ==== Sys2Proof/Laws/Store.lean ====
section
/-! SUPPORT. Laws/Store: reading after writing a sparse map, and its canonical form. -/

set_option Elab.async false

namespace Sys2Proof.Machine

variable {α : Type}

@[simp] theorem cfind_nil (k : Nat) : cfind ([] : Cells α) k = none := rfl

theorem cfind_cput_same (m : Cells α) (k : Nat) (v : α) : cfind (cput m k v) k = some v := by
  induction m with
  | nil => simp [cput, cfind]
  | cons p r ih =>
    rcases p with ⟨a, w⟩
    simp only [cput]
    split
    · simp [cfind]
    · split
      · simp [cfind]
      · next h => simp [cfind, h, ih]

theorem cfind_cput_ne (m : Cells α) {j k : Nat} (v : α) (h : j ≠ k) :
    cfind (cput m k v) j = cfind m j := by
  induction m with
  | nil => simp [cput, cfind, Ne.symm h]
  | cons p r ih =>
    rcases p with ⟨a, w⟩
    simp only [cput]
    split
    · simp [cfind, Ne.symm h]
    · split
      · next e => subst e; simp [cfind, Ne.symm h]
      · simp [cfind, ih]

theorem cfind_cerase_same (m : Cells α) (k : Nat) : cfind (cerase m k) k = none := by
  induction m with
  | nil => rfl
  | cons p r ih =>
    rcases p with ⟨a, w⟩
    by_cases h : a = k
    · subst h
      have e : cerase ((a, w) :: r) a = cerase r a := by simp [cerase]
      rw [e]; exact ih
    · have e : cerase ((a, w) :: r) k = (a, w) :: cerase r k := by simp [cerase, h]
      rw [e]; simp [cfind, h, ih]

theorem cfind_cerase_ne (m : Cells α) {j k : Nat} (h : j ≠ k) : cfind (cerase m k) j = cfind m j := by
  induction m with
  | nil => rfl
  | cons p r ih =>
    rcases p with ⟨a, w⟩
    by_cases e : a = k
    · subst e
      have e : cerase ((a, w) :: r) a = cerase r a := by simp [cerase]
      rw [e]; simp [cfind, Ne.symm h, ih]
    · have e' : cerase ((a, w) :: r) k = (a, w) :: cerase r k := by simp [cerase, e]
      rw [e']; simp [cfind, ih]

@[simp] theorem cget_cput_same (d : α) (m : Cells α) (k : Nat) (v : α) : cget d (cput m k v) k = v := by
  simp [cget, cfind_cput_same]

theorem cget_cput_ne (d : α) (m : Cells α) {j k : Nat} (v : α) (h : j ≠ k) :
    cget d (cput m k v) j = cget d m j := by
  simp [cget, cfind_cput_ne m v h]

/-- A read after a write to the same key gives the value written. -/
@[simp] theorem cget_cset_same [DecidableEq α] (d : α) (m : Cells α) (k : Nat) (v : α) :
    cget d (cset d m k v) k = v := by
  unfold cset
  split
  · next h => simp [cget, cfind_cerase_same, h]
  · simp

/-- A write leaves every other key alone. -/
theorem cget_cset_ne [DecidableEq α] (d : α) (m : Cells α) {j k : Nat} (v : α) (h : j ≠ k) :
    cget d (cset d m k v) j = cget d m j := by
  unfold cset
  split
  · simp [cget, cfind_cerase_ne m h]
  · exact cget_cput_ne d m v h

theorem cget_cset [DecidableEq α] (d : α) (m : Cells α) (j k : Nat) (v : α) :
    cget d (cset d m k v) j = if j = k then v else cget d m j := by
  split
  · next h => subst h; simp
  · next h => exact cget_cset_ne d m v h

theorem crising_mono {n n' : Nat} {m : Cells α} (h : n' ≤ n) (hm : crising n m = true) :
    crising n' m = true := by
  cases m with
  | nil => rfl
  | cons p r =>
    simp only [crising, Bool.and_eq_true, decide_eq_true_eq] at hm ⊢
    exact ⟨le_trans h hm.1, hm.2⟩

theorem crising_cput (m : Cells α) (n k : Nat) (v : α) (hn : n ≤ k) (hm : crising n m = true) :
    crising n (cput m k v) = true := by
  induction m generalizing n with
  | nil => simp [cput, crising, hn]
  | cons p r ih =>
    rcases p with ⟨a, w⟩
    simp only [crising, Bool.and_eq_true, decide_eq_true_eq] at hm
    simp only [cput]
    split
    · next h =>
      simp only [crising, Bool.and_eq_true, decide_eq_true_eq]
      exact ⟨hn, by omega, hm.2⟩
    · split
      · next h =>
        subst h
        simp only [crising, Bool.and_eq_true, decide_eq_true_eq]
        exact ⟨hn, hm.2⟩
      · next h1 h2 =>
        simp only [crising, Bool.and_eq_true, decide_eq_true_eq]
        exact ⟨hm.1, ih (a + 1) (by omega) hm.2⟩

theorem crising_filter (m : Cells α) (p : Nat × α → Bool) (n : Nat) (hm : crising n m = true) :
    crising n (m.filter p) = true := by
  induction m generalizing n with
  | nil => rfl
  | cons q r ih =>
    rcases q with ⟨a, w⟩
    simp only [crising, Bool.and_eq_true, decide_eq_true_eq] at hm
    rw [List.filter_cons]
    split
    · simp only [crising, Bool.and_eq_true, decide_eq_true_eq]
      exact ⟨hm.1, ih _ hm.2⟩
    · exact crising_mono (by omega) (ih _ hm.2)

theorem all_cput [DecidableEq α] (m : Cells α) (k : Nat) (v d : α) (hv : v ≠ d)
    (hm : m.all (fun p => decide (p.2 ≠ d)) = true) :
    (cput m k v).all (fun p => decide (p.2 ≠ d)) = true := by
  induction m with
  | nil => simp [cput, hv]
  | cons p r ih =>
    rcases p with ⟨a, w⟩
    simp only [List.all_cons, Bool.and_eq_true] at hm
    simp only [cput]
    split
    · simp only [List.all_cons, Bool.and_eq_true]
      exact ⟨by simpa using hv, hm⟩
    · split
      · simp only [List.all_cons, Bool.and_eq_true]
        exact ⟨by simpa using hv, hm.2⟩
      · simp only [List.all_cons, Bool.and_eq_true]
        exact ⟨hm.1, ih hm.2⟩

/-- A write keeps the canonical form. -/
theorem cset_wf [DecidableEq α] (d : α) (m : Cells α) (k : Nat) (v : α) (h : cwf d m = true) :
    cwf d (cset d m k v) = true := by
  simp only [cwf, Bool.and_eq_true] at h ⊢
  unfold cset
  split
  · refine ⟨crising_filter m _ 0 h.1, ?_⟩
    rw [List.all_eq_true] at h ⊢
    intro p hp
    exact h.2 p (List.mem_of_mem_filter hp)
  · next hv => exact ⟨crising_cput m 0 k v (Nat.zero_le _) h.1, all_cput m k v d hv h.2⟩

/-- Every memory write keeps the canonical form. -/
theorem setByte_wf (m : List Host.Cell) (a : Nat) (v : Byte) (h : Memory.wf m = true) :
    Memory.wf (setByte m a v) = true := cset_wf 0 m a v h

theorem setBytes_wf (bs : List Byte) (m : List Host.Cell) (a : Nat) (h : Memory.wf m = true) :
    Memory.wf (setBytes m a bs) = true := by
  induction bs generalizing m a with
  | nil => exact h
  | cons b bs ih => exact ih _ _ (setByte_wf m a b h)

theorem byteAt_setByte (m : Cells Byte) (a j : Nat) (v : Byte) :
    byteAt (setByte m a v) j = if j = a then v else byteAt m j := cget_cset 0 m j a v

/-- A write of bytes changes no byte outside them. -/
theorem byteAt_setBytes_outside (bs : List Byte) (m : Cells Byte) (a j : Nat)
    (h : j < a ∨ a + bs.length ≤ j) : byteAt (setBytes m a bs) j = byteAt m j := by
  induction bs generalizing m a with
  | nil => rfl
  | cons b bs ih =>
    simp only [List.length_cons] at h
    rw [setBytes, ih _ _ (by omega), byteAt_setByte, if_neg (by omega)]

/-- A write of bytes puts each in its place. -/
theorem byteAt_setBytes_inside (bs : List Byte) (m : Cells Byte) (a i : Nat) (h : i < bs.length) :
    byteAt (setBytes m a bs) (a + i) = bs[i] := by
  induction bs generalizing m a i with
  | nil => simp at h
  | cons b bs ih =>
    cases i with
    | zero =>
      rw [setBytes, byteAt_setBytes_outside _ _ _ _ (by omega), byteAt_setByte, if_pos (Nat.add_zero a)]
      rfl
    | succ i =>
      simp only [List.length_cons] at h
      have := ih (setByte m a b) (a + 1) i (by omega)
      rw [setBytes, show a + (i + 1) = a + 1 + i by omega, this]
      rfl

/-- Bytes written and read back at the same place are the bytes. -/
theorem bytesAt_setBytes (bs : List Byte) (m : Cells Byte) (a : Nat) :
    bytesAt (setBytes m a bs) a bs.length = bs := by
  induction bs generalizing m a with
  | nil => rfl
  | cons b bs ih =>
    simp only [List.length_cons, bytesAt, setBytes]
    rw [ih, byteAt_setBytes_outside _ _ _ _ (by omega), byteAt_setByte, if_pos rfl]

theorem leBytes_length (n v : Nat) : (leBytes n v).length = n := by
  induction n generalizing v with
  | zero => rfl
  | succ n ih => simp [leBytes, ih]

/-- A number written little-endian reads back modulo its width. -/
theorem leNat_leBytes (n v : Nat) : leNat (leBytes n v) = v % 256 ^ n := by
  induction n generalizing v with
  | zero => simp [leBytes, leNat, Nat.mod_one]
  | succ n ih =>
    simp only [leBytes, leNat, ih, BitVec.toNat_ofNat]
    have h : 256 ^ (n + 1) = 256 * 256 ^ n := by rw [Nat.pow_succ, Nat.mul_comm]
    rw [h, Nat.mod_mul, show (2 : Nat) ^ 8 = 256 from rfl]

end Sys2Proof.Machine
end

