-- ==== Sys2Proof/Laws/Integer.lean ====
section
/-! SUPPORT. Laws/Integer: the integer operations of K in plain arithmetic (R208 to R212). -/

set_option Elab.async false

namespace Sys2Proof.Machine

theorem add_eq (b c : Word) : b + c = BitVec.ofNat 64 (b.toNat + c.toNat) := by
  apply BitVec.eq_of_toNat_eq; simp

theorem mul_eq (b c : Word) : b * c = BitVec.ofNat 64 (b.toNat * c.toNat) := by
  apply BitVec.eq_of_toNat_eq; simp

theorem mulhn_eq (b c : Word) : mulHigh (b.setWidth 128) (c.setWidth 128) = BitVec.ofNat 64 (b.toNat * c.toNat / 2 ^ 64) := by
  unfold mulHigh
  apply BitVec.eq_of_toNat_eq
  have hb := b.isLt; have hc := c.isLt
  have h1 : b.toNat * c.toNat < 2 ^ 128 := by
    calc b.toNat * c.toNat < 2 ^ 64 * 2 ^ 64 := Nat.mul_lt_mul'' hb hc
      _ = 2 ^ 128 := by norm_num
  simp only [BitVec.extractLsb'_toNat, BitVec.toNat_mul, BitVec.toNat_setWidth, BitVec.toNat_ofNat]
  rw [Nat.mod_eq_of_lt (a := b.toNat) (by omega), Nat.mod_eq_of_lt (a := c.toNat) (by omega), Nat.mod_eq_of_lt h1,
    Nat.shiftRight_eq_div_pow]

theorem divS_eq (b c : Word) : divS b c = if c = 0 then BitVec.allOnes 64 else BitVec.ofInt 64 (Int.tdiv b.toInt c.toInt) := by
  unfold divS; split
  · rfl
  · apply BitVec.eq_of_toInt_eq; simp [BitVec.toInt_sdiv]

theorem divU_eq (b c : Word) : divU b c = if c = 0 then BitVec.allOnes 64 else BitVec.ofNat 64 (b.toNat / c.toNat) := by
  unfold divU; split
  · rfl
  · apply BitVec.eq_of_toNat_eq; simp
    rw [Nat.mod_eq_of_lt]; exact lt_of_le_of_lt (Nat.div_le_self _ _) b.isLt

theorem remU_eq (b c : Word) : remU b c = if c = 0 then b else BitVec.ofNat 64 (b.toNat % c.toNat) := by
  unfold remU; split
  · rfl
  · apply BitVec.eq_of_toNat_eq; simp
    rw [Nat.mod_eq_of_lt (a := b.toNat % c.toNat)]; exact lt_of_le_of_lt (Nat.mod_le _ _) b.isLt

theorem shAmt_eq (c : Word) : shAmt c = c.toNat % 64 := by unfold shAmt; simp

theorem shl_eq (b : Word) (n : Nat) : b <<< n = BitVec.ofNat 64 (b.toNat * 2 ^ n) := by
  apply BitVec.eq_of_toNat_eq; simp [Nat.shiftLeft_eq]

theorem shr_eq (b : Word) (n : Nat) : b >>> n = BitVec.ofNat 64 (b.toNat / 2 ^ n) := by
  apply BitVec.eq_of_toNat_eq; simp [Nat.shiftRight_eq_div_pow]
  rw [Nat.mod_eq_of_lt]; exact lt_of_le_of_lt (Nat.div_le_self _ _) b.isLt

theorem sext_eq (i : BitVec 18) : i.signExtend 64 = BitVec.ofInt 64 i.toInt := by
  rw [BitVec.signExtend]

theorem addi_eq (b : Word) (i : BitVec 18) : b + i.signExtend 64 = BitVec.ofInt 64 (b.toInt + i.toInt) := by
  rw [BitVec.ofInt_add, ← sext_eq]; simp

theorem rol_eq (b : Word) (n : Nat) (h : n < 64) : b.rotateLeft n = (b <<< n) ||| (b >>> (64 - n)) := by
  rw [BitVec.rotateLeft_def]; rw [Nat.mod_eq_of_lt h]

theorem sub_eq (b c : Word) : b - c = BitVec.ofInt 64 (b.toInt - c.toInt) := by
  apply BitVec.eq_of_toInt_eq
  rw [BitVec.toInt_sub, BitVec.toInt_ofInt]

theorem remS_eq (b c : Word) : remS b c = if c = 0 then b else BitVec.ofInt 64 (Int.tmod b.toInt c.toInt) := by
  unfold remS; split
  · rfl
  · rw [← BitVec.toInt_srem, BitVec.ofInt_toInt]

theorem sar_eq (b : Word) (n : Nat) : b.sshiftRight n = BitVec.ofInt 64 (b.toInt / 2 ^ n) := by
  have : (b.sshiftRight n).toInt = b.toInt / 2 ^ n := by
    rw [BitVec.toInt_sshiftRight, Int.shiftRight_eq_div_pow]; norm_cast
  rw [← this, BitVec.ofInt_toInt]

theorem mulh_eq (b c : Word) : mulHigh (b.signExtend 128) (c.signExtend 128) = BitVec.ofInt 64 (b.toInt * c.toInt / 2 ^ 64) := by
  unfold mulHigh
  have h1 : (b.signExtend 128 * c.signExtend 128).toInt = b.toInt * c.toInt := by
    rw [BitVec.toInt_mul, BitVec.toInt_signExtend_of_le (by omega), BitVec.toInt_signExtend_of_le (by omega)]
    have hb := BitVec.toInt_lt (x := b); have hb' := BitVec.le_toInt (x := b)
    have hc := BitVec.toInt_lt (x := c); have hc' := BitVec.le_toInt (x := c)
    norm_num at hb hb' hc hc'
    apply Int.bmod_eq_of_le
    · norm_num; nlinarith
    · norm_num; nlinarith
  rw [← h1]
  generalize b.signExtend 128 * c.signExtend 128 = p
  have : (p.sshiftRight 64).toInt = p.toInt / 2 ^ 64 := by
    rw [BitVec.toInt_sshiftRight, Int.shiftRight_eq_div_pow]; norm_cast
  rw [← this]
  show _ = (p.sshiftRight 64).signExtend 64
  apply BitVec.eq_of_getLsbD_eq
  intro i hi
  have h2 : i < 128 := by omega
  have h3 : ¬ 128 ≤ i := by omega
  have h4 : 64 + i < 128 := by omega
  simp [BitVec.getElem_signExtend, BitVec.getElem_sshiftRight, hi, h2, h3, h4]

theorem lih_eq (b : Word) (i : BitVec 18) : (b <<< 18) ||| i.setWidth 64 = BitVec.ofNat 64 (b.toNat * 2 ^ 18 + i.toNat) := by
  apply BitVec.eq_of_getLsbD_eq
  intro j hj
  have := i.isLt
  simp only [BitVec.getLsbD_or, BitVec.getLsbD_shiftLeft, BitVec.getLsbD_setWidth, BitVec.getLsbD_ofNat, hj]
  rw [Nat.mul_comm, Nat.testBit_two_pow_mul_add _ this]
  by_cases h : j < 18
  · simp [h, BitVec.testBit_toNat]
  · have : i.getLsbD j = false := BitVec.getLsbD_of_ge i j (by omega)
    simp [h, BitVec.testBit_toNat, this]

theorem lowMask_bit (n i : Nat) (hi : i < 64) : (lowMask n).getLsbD i = decide (i < n) := by
  unfold lowMask
  split
  · have : i < n := by omega
    rw [BitVec.getLsbD_allOnes]; simp [hi, this]
  · next h =>
    have : (BitVec.twoPow 64 n - 1 : Word) = BitVec.ofNat 64 (2 ^ n - 1) := by
      apply BitVec.eq_of_toNat_eq
      have : 2 ^ n < 2 ^ 64 := Nat.pow_lt_pow_right (by omega) (by omega)
      have h0 : 0 < 2 ^ n := Nat.two_pow_pos n
      rw [BitVec.toNat_sub, BitVec.toNat_twoPow, BitVec.toNat_ofNat, Nat.mod_eq_of_lt this]
      simp; omega
    rw [this, BitVec.getLsbD_ofNat]
    simp [hi, Nat.testBit_two_pow_sub_one]

theorem ext_eq (b : Word) (lo n : Nat) : extBits b lo n = BitVec.ofNat 64 (b.toNat / 2 ^ lo % 2 ^ n) := by
  apply BitVec.eq_of_getLsbD_eq
  intro i hi
  unfold extBits
  rw [BitVec.getLsbD_and, lowMask_bit _ _ hi, BitVec.getLsbD_ofNat, Nat.testBit_mod_two_pow, Nat.testBit_div_two_pow]
  simp [hi, BitVec.testBit_toNat]
  rw [Bool.and_comm, Nat.add_comm]

theorem ins_eq (o b : Word) (lo n : Nat) (h : lo + n ≤ 64) : insBits o b lo n = BitVec.ofNat 64 (o.toNat / 2 ^ (lo + n) * 2 ^ (lo + n) +
        b.toNat % 2 ^ n * 2 ^ lo + o.toNat % 2 ^ lo) := by
  apply BitVec.eq_of_getLsbD_eq
  intro i hi
  have h0 : o.toNat % 2 ^ lo < 2 ^ lo := Nat.mod_lt _ (Nat.two_pow_pos _)
  have h1 : b.toNat % 2 ^ n < 2 ^ n := Nat.mod_lt _ (Nat.two_pow_pos _)
  have e : o.toNat / 2 ^ (lo + n) * 2 ^ (lo + n) + b.toNat % 2 ^ n * 2 ^ lo + o.toNat % 2 ^ lo =
      2 ^ lo * (2 ^ n * (o.toNat / 2 ^ (lo + n)) + b.toNat % 2 ^ n) + o.toNat % 2 ^ lo := by ring
  rw [e, BitVec.getLsbD_ofNat, Nat.testBit_two_pow_mul_add _ h0]
  unfold insBits
  simp only [BitVec.getLsbD_or, BitVec.getLsbD_and, BitVec.getLsbD_not, BitVec.getLsbD_shiftLeft, hi, decide_true, Bool.true_and]
  by_cases a : i < lo
  · simp [a, Nat.testBit_mod_two_pow, BitVec.testBit_toNat]
  · rw [lowMask_bit _ _ (by omega), if_neg a, Nat.testBit_two_pow_mul_add _ h1]
    by_cases c : i - lo < n
    · simp [a, c, Nat.testBit_mod_two_pow, BitVec.testBit_toNat]
    · simp [a, c, Nat.testBit_div_two_pow, BitVec.testBit_toNat]
      congr 1; omega

theorem takeWhile_range' (p : Nat → Bool) (n i : Nat) :
    let m := ((List.range' i n).takeWhile p).length
    m ≤ n ∧ (∀ k < m, p (i + k) = true) ∧ (m < n → p (i + m) = false) := by
  induction n generalizing i with
  | zero => simp
  | succ n ih =>
    rw [List.range'_succ, List.takeWhile_cons]
    by_cases h : p i = true
    · obtain ⟨h1, h2, h3⟩ := ih (i + 1)
      simp only [h, if_true, List.length_cons]
      refine ⟨by omega, ?_, ?_⟩
      · intro k hk
        cases k with
        | zero => simpa using h
        | succ k => have := h2 k (by omega); rwa [show i + (k + 1) = i + 1 + k by omega]
      · intro hm
        have := h3 (by omega)
        rwa [show i + (((List.range' (i+1) n).takeWhile p).length + 1) = i + 1 + ((List.range' (i+1) n).takeWhile p).length by omega]
    · simp [h]

theorem clz_eq (v : Word) : clz64 v = BitVec.ofNat 64 ((List.range 64).takeWhile fun i => !v.getMsbD i).length := by
  unfold clz64
  congr 1
  rw [List.range_eq_range']
  obtain ⟨h1, h2, h3⟩ := takeWhile_range' (fun i => !v.getMsbD i) 64 0
  generalize ((List.range' 0 64).takeWhile fun i => !v.getMsbD i).length = m at h1 h2 h3
  simp only [Nat.zero_add, Bool.not_eq_true', Bool.not_eq_false'] at h2 h3
  have hlt : v.toNat < 2 ^ (64 - m) := by
    apply Nat.lt_pow_two_of_testBit
    intro i hi
    rw [BitVec.testBit_toNat]
    by_cases hi' : i < 64
    · have := h2 (63 - i) (by omega)
      rw [BitVec.getMsbD_eq_getLsbD] at this
      rw [show 64 - 1 - (63 - i) = i by omega] at this
      simpa [show 63 - i < 64 by omega] using this
    · exact BitVec.getLsbD_of_ge _ _ (by omega)
  unfold bitLen
  split
  · next h0 =>
    by_cases hm : m = 64
    · omega
    · have := h3 (by omega)
      have hv : v = 0 := BitVec.eq_of_toNat_eq (by simpa using h0)
      rw [hv] at this; simp at this
  · next h0 =>
    have hm : m < 64 := by
      by_contra hc
      have : m = 64 := by omega
      subst this; simp at hlt; simp [hlt] at h0
    have hb := h3 hm
    rw [BitVec.getMsbD_eq_getLsbD] at hb
    simp only [hm, decide_true, Bool.true_and] at hb
    have hge : 2 ^ (63 - m) ≤ v.toNat := by
      apply Nat.ge_two_pow_of_testBit
      rw [BitVec.testBit_toNat]; rw [show 63 - m = 64 - 1 - m by omega]; exact hb
    have : Nat.log2 v.toNat = 63 - m := by
      rw [Nat.log2_eq_iff h0]; exact ⟨hge, by rwa [show 63 - m + 1 = 64 - m by omega]⟩
    omega

theorem ctzFrom_eq (v : Word) (n i : Nat) : ctzFrom v n i = i + ((List.range' i n).takeWhile fun j => !v.getLsbD j).length := by
  induction n generalizing i with
  | zero => simp [ctzFrom]
  | succ n ih =>
    rw [ctzFrom, List.range'_succ, List.takeWhile_cons]
    split
    · next h => simp [h]
    · next h => simp [h, ih]; omega

theorem ctz_eq (v : Word) : ctz64 v = BitVec.ofNat 64 ((List.range 64).takeWhile fun i => !v.getLsbD i).length := by
  unfold ctz64; rw [ctzFrom_eq, List.range_eq_range']; simp

theorem upFrom_eq (a n : Nat) : upFrom a n = List.range' a n := by
  induction n generalizing a with
  | zero => rfl
  | succ n ih => rw [upFrom, List.range'_succ, ih]

theorem popc_eq (v : Word) : popc64 v = BitVec.ofNat 64 ((List.range 64).filter fun i => v.getLsbD i).length := by
  unfold popc64; rw [upFrom_eq, List.range_eq_range', List.countP_eq_length_filter]

theorem append_toNat {n m : Nat} (x : BitVec n) (y : BitVec m) : (x ++ y).toNat = x.toNat * 2 ^ m + y.toNat := by
  rw [BitVec.toNat_append, ← Nat.shiftLeft_add_eq_or_of_lt y.isLt, Nat.shiftLeft_eq]

theorem bswap_eq (b : Word) : bswap64 b = BitVec.ofNat 64 (leNat (leBytes 8 b.toNat).reverse) := by
  apply BitVec.eq_of_toNat_eq
  unfold bswap64
  have hb := b.isLt
  simp only [leBytes, leNat, List.reverse, List.reverseAux, append_toNat, BitVec.extractLsb'_toNat, BitVec.toNat_ofNat, Nat.shiftRight_eq_div_pow, Nat.div_div_eq_div_mul]
  norm_num only
  omega

end Sys2Proof.Machine
end

