-- ==== Sys2Proof/Laws/Issue.lean ====
section
/-! SUPPORT. Laws/Issue: what the moving core is after an update, what pops, pushes and the advance change, and
the one lemma of an instruction that runs to its end: runSeq_retires. -/

set_option Elab.async false

namespace Sys2Proof

open Machine

/-! ## The step monad -/

/-- What runs after an operation that ended well. -/
theorem run_bind {α β : Type} {m : M α} {f : α → M β} {s t : State} {a : α} (h : m.run s = .ok (a, t)) :
    (m >>= f).run s = (f a).run t := by
  show (m.run s).bind (fun p => (f p.1).run p.2) = _
  rw [h]; rfl

/-- An operation that stops stops what it is part of. -/
theorem run_bind_error {α β : Type} {m : M α} {f : α → M β} {s : State} {e : Stop} (h : m.run s = .error e) :
    (m >>= f).run s = .error e := by
  show (m.run s).bind (fun p => (f p.1).run p.2) = _
  rw [h]; rfl

@[simp] theorem run_pure {α : Type} (a : α) (s : State) : (pure a : M α).run s = .ok (a, s) := rfl
@[simp] theorem run_get (s : State) : (get : M State).run s = .ok (s, s) := rfl
@[simp] theorem run_set (t s : State) : (set t : M Unit).run s = .ok ((), t) := rfl
@[simp] theorem run_modify (f : State → State) (s : State) : (modify f : M Unit).run s = .ok ((), f s) := rfl
@[simp] theorem run_me (s : State) : me.run s = .ok (coreNo s, s) := rfl
@[simp] theorem run_mySeq (s : State) : mySeq.run s = .ok (s.cur.2, s) := rfl
@[simp] theorem run_myCore (s : State) : myCore.run s = .ok (here s, s) := rfl
@[simp] theorem run_modMe (f : CoreSt → CoreSt) (s : State) : (modMe f).run s = .ok ((), onHere s f) := rfl
@[simp] theorem run_trapWith {α : Type} (t : Trap) (s : State) : (trapWith t : M α).run s = .error (.trap t) := rfl
@[simp] theorem run_stall {α : Type} (s : State) : (stall : M α).run s = .error .stall := rfl
theorem run_waitFor {b : Bool} (h : b = true) (s : State) : (waitFor b).run s = .ok ((), s) := by subst h; rfl

/-! ## One core -/

@[simp] theorem core_setCore_same (s : State) (n : Nat) (c : CoreSt) : (s.setCore n c).core n = c := by
  simp [State.core, State.setCore]

theorem core_setCore_ne (s : State) {m n : Nat} (c : CoreSt) (h : m ≠ n) : (s.setCore n c).core m = s.core m := by
  simp [State.core, State.setCore, cget_cset_ne _ _ _ h]

@[simp] theorem core_modCore_same (s : State) (n : Nat) (f : CoreSt → CoreSt) :
    (s.modCore n f).core n = f (s.core n) := core_setCore_same _ _ _

theorem core_modCore_ne (s : State) {m n : Nat} (f : CoreSt → CoreSt) (h : m ≠ n) :
    (s.modCore n f).core m = s.core m := core_setCore_ne _ _ h

@[simp] theorem modCore_cur (s : State) (n : Nat) (f : CoreSt → CoreSt) : (s.modCore n f).cur = s.cur := rfl
@[simp] theorem modCore_jobs (s : State) (n : Nat) (f : CoreSt → CoreSt) : (s.modCore n f).jobs = s.jobs := rfl
@[simp] theorem modCore_memory (s : State) (n : Nat) (f : CoreSt → CoreSt) :
    (s.modCore n f).memory = s.memory := rfl
@[simp] theorem modCore_cycle (s : State) (n : Nat) (f : CoreSt → CoreSt) : (s.modCore n f).cycle = s.cycle := rfl

@[simp] theorem here_onHere (s : State) (f : CoreSt → CoreSt) : here (onHere s f) = f (here s) :=
  core_modCore_same s _ f

@[simp] theorem onHere_cur (s : State) (f : CoreSt → CoreSt) : (onHere s f).cur = s.cur := rfl
@[simp] theorem onHere_jobs (s : State) (f : CoreSt → CoreSt) : (onHere s f).jobs = s.jobs := rfl
@[simp] theorem onHere_memory (s : State) (f : CoreSt → CoreSt) : (onHere s f).memory = s.memory := rfl
@[simp] theorem coreNo_onHere (s : State) (f : CoreSt → CoreSt) : coreNo (onHere s f) = coreNo s := rfl

/-! ## Sequencers, registers, FIFOs -/

@[simp] theorem seq_setSeq_same (c : CoreSt) (q : Seq) (v : SeqSt) : (c.setSeq q v).seq q = v := by
  cases q <;> rfl

theorem seq_setSeq_ne (c : CoreSt) {p q : Seq} (v : SeqSt) (h : p ≠ q) : (c.setSeq q v).seq p = c.seq p := by
  cases p <;> cases q <;> first | exact absurd rfl h | rfl

@[simp] theorem couple_setSeq (c : CoreSt) (q : Seq) (v : SeqSt) : (c.setSeq q v).couple = c.couple := by
  cases q <;> rfl
@[simp] theorem task_setSeq (c : CoreSt) (q : Seq) (v : SeqSt) : (c.setSeq q v).task = c.task := by
  cases q <;> rfl
@[simp] theorem x_setSeq (c : CoreSt) (q : Seq) (v : SeqSt) (r : BitVec 6) : (c.setSeq q v).x r = c.x r := by
  cases q <;> rfl
@[simp] theorem a_setSeq (c : CoreSt) (q p : Seq) (v : SeqSt) (r : BitVec 5) :
    (c.setSeq q v).a p r = c.a p r := by
  cases q <;> cases p <;> rfl

/-! ## The bare core -/

@[simp] theorem bare_setFifo (c : CoreSt) (i : Nat) (v : List Tok) : bare (c.setFifo i v) = bare c := rfl
@[simp] theorem bare_countPush (c : CoreSt) (i : Nat) : bare (c.countPush i) = bare c := rfl
@[simp] theorem bare_countPop (c : CoreSt) (i : Nat) : bare (c.countPop i) = bare c := rfl
@[simp] theorem bare_takeCopy (c : CoreSt) (q : Seq) (v : LVec) : bare (c.takeCopy q v) = bare c := by
  cases q <;> rfl

/-- What the bare core determines. -/
theorem bare_x {c d : CoreSt} (h : bare d = bare c) (r : BitVec 6) : d.x r = c.x r := congrArg (·.x r) h
theorem bare_a {c d : CoreSt} (h : bare d = bare c) (q : Seq) (r : BitVec 5) : d.a q r = c.a q r := by
  have := congrArg (·.a q r) h
  cases q <;> exact this
theorem bare_src {c d : CoreSt} (h : bare d = bare c) (q : Seq) (r : BitVec 6) : d.src q r = c.src q r := by
  have := congrArg (·.src q r) h
  cases q <;> exact this
theorem bare_map {c d : CoreSt} (h : bare d = bare c) (q : Seq) (m : BitVec 4) : d.map q m = c.map q m := by
  have := congrArg (·.map q m) h
  cases q <;> exact this
theorem bare_seq {c d : CoreSt} (h : bare d = bare c) (q : Seq) :
    { d.seq q with lvec := {} } = { c.seq q with lvec := {} } := by
  cases q
  · exact congrArg (·.regs.k) h
  · exact congrArg (·.regs.l) h
  · exact congrArg (·.regs.c) h
  · exact congrArg (·.regs.s) h
theorem bare_pred {c d : CoreSt} (h : bare d = bare c) (q : Seq) (p : BitVec 5) : d.pred q p = c.pred q p := by
  have := congrArg SeqSt.preds (bare_seq h q)
  simp only [CoreSt.pred]
  rw [show (d.seq q).preds = (c.seq q).preds from this]
theorem bare_task {c d : CoreSt} (h : bare d = bare c) : d.task = c.task := congrArg (·.task) h
theorem bare_sp {c d : CoreSt} (h : bare d = bare c) : d.regs.sp = c.regs.sp := congrArg (·.regs.sp) h
theorem bare_stores {c d : CoreSt} (h : bare d = bare c) : d.stores = c.stores := congrArg (·.stores) h
theorem bare_units {c d : CoreSt} (h : bare d = bare c) : d.units = c.units := congrArg (·.units) h
theorem bare_sema {c d : CoreSt} (h : bare d = bare c) (i : Nat) : d.sema i = c.sema i := congrArg (·.sema i) h
theorem bare_queue {c d : CoreSt} (h : bare d = bare c) (i : Nat) : d.queue i = c.queue i := congrArg (·.queue i) h

/-! ## FIFOs -/

@[simp] theorem fifo_setFifo_same (c : CoreSt) (i : Nat) (v : List Tok) : (c.setFifo i v).fifo i = v := by
  simp [CoreSt.fifo, CoreSt.setFifo]

theorem fifo_setFifo_ne (c : CoreSt) {i j : Nat} (v : List Tok) (h : j ≠ i) : (c.setFifo i v).fifo j = c.fifo j := by
  simp [CoreSt.fifo, CoreSt.setFifo, cget_cset_ne _ _ _ h]

@[simp] theorem fifo_countPush (c : CoreSt) (i j : Nat) : (c.countPush i).fifo j = c.fifo j := rfl
@[simp] theorem fifo_countPop (c : CoreSt) (i j : Nat) : (c.countPop i).fifo j = c.fifo j := rfl
@[simp] theorem fifo_takeCopy (c : CoreSt) (q : Seq) (v : LVec) (j : Nat) : (c.takeCopy q v).fifo j = c.fifo j := by
  cases q <;> rfl
@[simp] theorem fifo_setSeq (c : CoreSt) (q : Seq) (v : SeqSt) (j : Nat) : (c.setSeq q v).fifo j = c.fifo j := by
  cases q <;> rfl

/-- The FIFOs between two pairs of sequencers are two FIFOs (R28). -/
theorem fifoIdx_inj {x y x' y' : Seq} (h : x ≠ y) (h' : x' ≠ y') (e : fifoIdx x y = fifoIdx x' y') :
    x = x' ∧ y = y' := by
  revert h h' e
  cases x <;> cases y <;> cases x' <;> cases y' <;> decide

theorem neighbours_ne (q : Seq) (b : BitVec 3) : ∀ y ∈ neighbours q b, y ≠ q := by
  revert b; cases q <;> decide

theorem neighbours_nodup (q : Seq) (b : BitVec 3) : (neighbours q b).Nodup := by
  revert b; cases q <;> decide

/-! ## Pops -/

@[simp] theorem popOne_cur (s : State) (y : Seq) : (popOne s y).cur = s.cur := by
  unfold popOne; split <;> rfl
@[simp] theorem popOne_jobs (s : State) (y : Seq) : (popOne s y).jobs = s.jobs := by
  unfold popOne; split <;> rfl
@[simp] theorem popOne_memory (s : State) (y : Seq) : (popOne s y).memory = s.memory := by
  unfold popOne; split <;> rfl

theorem popOne_fifo (s : State) {y z : Seq} (hy : y ≠ s.cur.2) (hz : z ≠ s.cur.2) (h : z ≠ y) :
    (here (popOne s y)).fifo (fifoIdx z s.cur.2) = (here s).fifo (fifoIdx z s.cur.2) := by
  unfold popOne
  split
  · rfl
  · have : fifoIdx z s.cur.2 ≠ fifoIdx y s.cur.2 := fun e => h (fifoIdx_inj hz hy e).1
    simp [fifo_setFifo_ne _ _ this]

/-- The pops of an instruction succeed where every FIFO holds an entry, and leave popped. -/
theorem popAll_eq (l : List Seq) (s : State) (hn : l.Nodup) (hq : ∀ y ∈ l, y ≠ s.cur.2)
    (h : ∀ y ∈ l, (here s).fifo (fifoIdx y s.cur.2) ≠ []) :
    s.popAll (coreNo s) s.cur.2 l = some (l.foldl popOne s) := by
  induction l generalizing s with
  | nil => rfl
  | cons y r ih =>
    have hy := h y (by simp)
    have hr : (popOne s y).popAll (coreNo (popOne s y)) (popOne s y).cur.2 r = some (r.foldl popOne (popOne s y)) := by
      apply ih (popOne s y) (List.nodup_cons.mp hn).2
      · intro z hz; rw [popOne_cur]; exact hq z (by simp [hz])
      · intro z hz
        rw [popOne_cur, popOne_fifo s (hq y (by simp)) (hq z (by simp [hz]))
          (fun e => (List.nodup_cons.mp hn).1 (e ▸ hz))]
        exact h z (by simp [hz])
    have hc : coreNo (popOne s y) = coreNo s := by simp [coreNo]
    rw [popOne_cur, hc] at hr
    simp only [State.popAll, State.popTok, List.foldl_cons]
    have e : (s.core (coreNo s)).fifo (fifoIdx y s.cur.2) = (here s).fifo (fifoIdx y s.cur.2) := rfl
    rw [e]
    cases hf : (here s).fifo (fifoIdx y s.cur.2) with
    | nil => exact absurd hf hy
    | cons t l =>
      have : popOne s y = s.modCore (coreNo s) fun c =>
          ((c.setFifo (fifoIdx y s.cur.2) l).countPop (fifoIdx y s.cur.2)).takeCopy s.cur.2 t.copy := by
        simp [popOne, hf, onHere]
      simp only
      rw [← this]; exact hr

theorem popAll_popped (s : State) (h : Hdr) (hp : CanPop s h) :
    s.popAll s.cur.1.val s.cur.2 (neighbours s.cur.2 h.pop) = some (popped s h) :=
  popAll_eq _ s (neighbours_nodup _ _) (neighbours_ne _ _) hp

theorem foldl_popOne (l : List Seq) (s : State) :
    (l.foldl popOne s).cur = s.cur ∧ (l.foldl popOne s).jobs = s.jobs ∧ (l.foldl popOne s).memory = s.memory ∧
    bare (here (l.foldl popOne s)) = bare (here s) ∧ Elsewhere s (l.foldl popOne s) := by
  induction l generalizing s with
  | nil => exact ⟨rfl, rfl, rfl, rfl, fun _ _ => rfl, fun _ => rfl, rfl⟩
  | cons y r ih =>
    obtain ⟨h1, h2, h3, h4, h5⟩ := ih (popOne s y)
    have hc : coreNo (popOne s y) = coreNo s := by simp [coreNo]
    refine ⟨h1.trans (by simp), h2.trans (by simp), h3.trans (by simp), h4.trans ?_, ?_, ?_, ?_⟩
    · unfold popOne; split <;> simp
    · intro n hn
      rw [List.foldl_cons, h5.others n (by rw [hc]; exact hn)]
      unfold popOne; split
      · rfl
      · exact core_modCore_ne s _ hn
    · intro j; rw [List.foldl_cons, h5.jobs j]; simp [State.job?]
    · rw [List.foldl_cons, h5.rest]; unfold popOne; split <;> rfl

@[simp] theorem popped_cur (s : State) (h : Hdr) : (popped s h).cur = s.cur := (foldl_popOne _ s).1
@[simp] theorem popped_jobs (s : State) (h : Hdr) : (popped s h).jobs = s.jobs := (foldl_popOne _ s).2.1
@[simp] theorem popped_memory (s : State) (h : Hdr) : (popped s h).memory = s.memory := (foldl_popOne _ s).2.2.1
theorem popped_bare (s : State) (h : Hdr) : bare (here (popped s h)) = bare (here s) := (foldl_popOne _ s).2.2.2.1
theorem popped_elsewhere (s : State) (h : Hdr) : Elsewhere s (popped s h) := (foldl_popOne _ s).2.2.2.2
@[simp] theorem popped_coreNo (s : State) (h : Hdr) : coreNo (popped s h) = coreNo s := by simp [coreNo]

/-- A FIFO that leaves the moving sequencer is not popped. -/
theorem foldl_popOne_out (l : List Seq) (s : State) (z : Seq) (hz : z ≠ s.cur.2) (hl : ∀ y ∈ l, y ≠ s.cur.2) :
    (here (l.foldl popOne s)).fifo (fifoIdx s.cur.2 z) = (here s).fifo (fifoIdx s.cur.2 z) := by
  induction l generalizing s with
  | nil => rfl
  | cons y r ih =>
    have hy : y ≠ s.cur.2 := hl y (by simp)
    have := ih (popOne s y) (by simpa using hz) (by simpa using fun a ha => hl a (by simp [ha]))
    rw [popOne_cur] at this
    rw [List.foldl_cons, this]
    unfold popOne; split
    · rfl
    · have e : fifoIdx s.cur.2 z ≠ fifoIdx y s.cur.2 := fun e => hy (fifoIdx_inj (Ne.symm hz) hy e).1.symm
      simp [fifo_setFifo_ne _ _ e]

theorem popped_fifo_out (s : State) (h : Hdr) (z : Seq) (hz : z ≠ s.cur.2) :
    (here (popped s h)).fifo (fifoIdx s.cur.2 z) = (here s).fifo (fifoIdx s.cur.2 z) :=
  foldl_popOne_out _ s z hz (neighbours_ne _ _)

theorem popped_canPush (s : State) (h : Hdr) (hp : CanPush s h) : CanPush (popped s h) h := by
  intro y hy
  rw [popped_cur] at hy ⊢
  rw [popped_fifo_out s h y (neighbours_ne _ _ y hy)]
  exact hp y hy

/-! ## Pushes -/

theorem pushOne_eq (s : State) (v : Option Word) (y : Seq) :
    pushOne v s y = s.pushTok (coreNo s) s.cur.2 y v := rfl

@[simp] theorem pushOne_cur (s : State) (v : Option Word) (y : Seq) : (pushOne v s y).cur = s.cur := rfl
@[simp] theorem pushOne_jobs (s : State) (v : Option Word) (y : Seq) : (pushOne v s y).jobs = s.jobs := rfl

theorem foldl_pushOne_eq (l : List Seq) (s : State) (n : Nat) (q : Seq) (hn : n = coreNo s) (hq : q = s.cur.2) :
    l.foldl (fun s y => s.pushTok n q y none) s = l.foldl (pushOne none) s := by
  subst hn hq
  induction l generalizing s with
  | nil => rfl
  | cons y r ih => exact ih (pushOne none s y)

/-- The pushes of an instruction succeed where every FIFO has room, and leave pushed. -/
theorem pushAll_pushed (s : State) (h : Hdr) (hp : CanPush s h) :
    s.pushAll s.cur.1.val s.cur.2 h.push none = some (pushed s h) := by
  have hf : (neighbours s.cur.2 h.push).all
      (fun y => pushFits ((s.core s.cur.1.val).fifo (fifoIdx s.cur.2 y)) false) = true := by
    rw [List.all_eq_true]
    intro y hy
    have := hp y hy
    simp only [pushFits, here, coreNo] at this ⊢
    simp [this]
  simp only [State.pushAll, hf, Bool.true_and, Bool.not_true, Bool.false_eq_true, if_false]
  rw [foldl_pushOne_eq _ s s.cur.1.val s.cur.2 rfl rfl]
  unfold pushed
  cases hn : neighbours s.cur.2 h.push with
  | nil => simp
  | cons y r => simp [coreNo]

@[simp] theorem modJob_cores (s : State) (j : Nat) (f : Job → Job) : (s.modJob j f).cores = s.cores := by
  unfold State.modJob; split <;> rfl
@[simp] theorem modJob_cur (s : State) (j : Nat) (f : Job → Job) : (s.modJob j f).cur = s.cur := by
  unfold State.modJob; split <;> rfl
@[simp] theorem modJob_memory (s : State) (j : Nat) (f : Job → Job) : (s.modJob j f).memory = s.memory := by
  unfold State.modJob; split <;> rfl
@[simp] theorem flagCore_cores (s : State) (n : Nat) : (s.flagCore n).cores = s.cores := modJob_cores _ _ _
@[simp] theorem flagCore_cur (s : State) (n : Nat) : (s.flagCore n).cur = s.cur := modJob_cur _ _ _
@[simp] theorem flagCore_memory (s : State) (n : Nat) : (s.flagCore n).memory = s.memory := modJob_memory _ _ _
@[simp] theorem core_flagCore (s : State) (m n : Nat) : (s.flagCore n).core m = s.core m := by simp [State.core]

theorem foldl_pushOne (l : List Seq) (v : Option Word) (s : State) :
    (l.foldl (pushOne v) s).cur = s.cur ∧ (l.foldl (pushOne v) s).memory = s.memory ∧
    bare (here (l.foldl (pushOne v) s)) = bare (here s) := by
  induction l generalizing s with
  | nil => exact ⟨rfl, rfl, rfl⟩
  | cons y r ih =>
    obtain ⟨h1, h2, h3⟩ := ih (pushOne v s y)
    refine ⟨h1.trans rfl, h2.trans rfl, h3.trans ?_⟩
    unfold pushOne; simp

@[simp] theorem pushed_cur (s : State) (h : Hdr) : (pushed s h).cur = s.cur := by
  unfold pushed
  cases hn : neighbours s.cur.2 h.push with
  | nil => rfl
  | cons y r => simpa using (foldl_pushOne (y :: r) none s).1

@[simp] theorem pushed_memory (s : State) (h : Hdr) : (pushed s h).memory = s.memory := by
  unfold pushed
  cases hn : neighbours s.cur.2 h.push with
  | nil => rfl
  | cons y r => simpa using (foldl_pushOne (y :: r) none s).2.1

theorem pushed_bare (s : State) (h : Hdr) : bare (here (pushed s h)) = bare (here s) := by
  unfold pushed
  cases hn : neighbours s.cur.2 h.push with
  | nil => rfl
  | cons y r =>
    have := (foldl_pushOne (y :: r) none s).2.2
    simpa [here, coreNo] using this

theorem bare_pc {c d : CoreSt} (h : bare d = bare c) (q : Seq) : (d.seq q).pc = (c.seq q).pc :=
  congrArg (·.pc) (bare_seq h q)

/-- The pushes of an instruction do not move it. -/
@[simp] theorem after_pushed (s : State) (h : Hdr) (n : Nat) : after (pushed s h) n = after s n := by
  unfold after mover
  rw [pushed_cur, bare_pc (pushed_bare s h)]

@[simp] theorem after_popped (s : State) (h : Hdr) (n : Nat) : after (popped s h) n = after s n := by
  unfold after mover
  rw [popped_cur, bare_pc (popped_bare s h)]

/-! ## An instruction that runs to its end -/

/-- A core that is known to have no speculative task. -/
theorem run_taskSpec (s : State) (hs : NotSpec s) : taskSpec.run s = .ok (false, s) := by
  unfold taskSpec
  rw [run_bind (run_myCore s)]
  cases ht : (here s).task with
  | none => rfl
  | some t => simp [hs t ht]; rfl

/-- The advance of the moving sequencer. -/
theorem run_advance (next : Option Word) (n : Nat) (s : State) :
    (Machine.advance next n).run s = .ok ((), goOn s (next.getD (after s n))) := rfl

theorem run_doPush (s : State) (h : Hdr) (hp : CanPush s h) : (doPush h none).run s = .ok ((), pushed s h) := by
  unfold doPush
  rw [run_bind (run_get s), run_bind (run_me s), run_bind (run_mySeq s)]
  rw [show s.pushAll (coreNo s) s.cur.2 h.push none = some (pushed s h) from pushAll_pushed s h hp]
  rfl

theorem popped_guard (s : State) (h : Hdr) : (here (popped s h)).guard s.cur.2 h = (here s).guard s.cur.2 h := by
  unfold CoreSt.guard; rw [bare_pred (popped_bare s h)]

theorem popped_notSpec (s : State) (h : Hdr) (hs : NotSpec s) : NotSpec (popped s h) := by
  intro t ht
  rw [bare_task (popped_bare s h)] at ht
  exact hs t ht

/-- The end of an instruction whose effect answered g: its pushes and its advance. -/
def lastPart (n : Nat) (h : Hdr) (g : Go) : M Unit := do
  if g.push then doPush h g.val
  if !g.keep then Machine.advance g.next n

/-! ## Releases of K (R133) -/

/-- An instruction that is no release does not wait. -/
theorem gated_free {legal : Seq → Bool} {h : Hdr} {s : State} {run : State → Result} (hq : CanRelease s h) :
    gated legal false h s run = run s := by
  unfold gated
  dsimp only
  split
  · next hc =>
    simp only [releases, Bool.and_eq_true, Bool.false_or, beq_iff_eq, bne_iff_ne, Bool.not_eq_true',
      List.isEmpty_eq_false_iff] at hc
    exact absurd (hq hc.1.2.1.1 hc.1.2.1.2) hc.2
  · rfl

/-- A release that nothing holds back does not wait. -/
theorem gated_quiet {legal : Seq → Bool} {isRel : Bool} {h : Hdr} {s : State} {run : State → Result}
    (hq : s.cur.2 = .k → (here s).unperformed = []) : gated legal isRel h s run = run s := by
  unfold gated
  dsimp only
  split
  · next hc =>
    simp only [releases, Bool.and_eq_true, beq_iff_eq, Bool.not_eq_true', List.isEmpty_eq_false_iff] at hc
    exact absurd (hq hc.1.2.1.1) hc.2
  · rfl

theorem runSeq_free {legal : Seq → Bool} {n : Nat} {parks : Bool} {h : Hdr} {body : M Go} {s : State}
    (hq : CanRelease s h) : runSeq legal n parks h body s = seqOutcome s ((issue legal n parks h body).run s) := by
  unfold runSeq runRel; rw [gated_free hq]

/-- An instruction that issues goes on with its effect and its last part. -/
theorem issue_body {legal : Seq → Bool} {n : Nat} {parks : Bool} {h : Hdr} {body : M Go} {s t : State} {g : Go}
    (hl : legal s.cur.2 = true) (hr : Ready s h) (hs : parks = true → NotSpec s)
    (hb : body.run (popped s h) = .ok (g, t)) :
    (issue legal n parks h body).run s = (lastPart n h g).run t := by
  have hpop : s.popAll (coreNo s) s.cur.2 (neighbours s.cur.2 h.pop) = some (popped s h) :=
    popAll_popped s h hr.pops
  have hg : ((popped s h).core (coreNo s)).guard s.cur.2 h = true := by
    have := popped_guard s h
    rw [hr.guard] at this
    simpa [here] using this
  unfold issue lastPart
  rw [run_bind (run_mySeq s), run_bind (run_me s)]
  simp only [hl, Bool.not_true, Bool.false_eq_true, if_false]
  rw [run_bind (run_get s)]
  simp only [hpop]
  rw [run_bind (run_set _ s)]
  simp only [hg, if_true]
  cases parks with
  | false =>
    simp only [Bool.false_and]
    cases hts : taskSpec.run (popped s h) with
    | error e =>
      exfalso
      unfold taskSpec at hts
      rw [run_bind (run_myCore _)] at hts
      cases ht : (here (popped s h)).task <;> simp [ht] at hts <;> cases hts
    | ok p =>
      have hp : p.2 = popped s h := by
        unfold taskSpec at hts
        rw [run_bind (run_myCore _)] at hts
        cases ht : (here (popped s h)).task <;> simp [ht] at hts <;> cases hts <;> rfl
      rcases p with ⟨b, u⟩
      simp only at hp; subst hp
      rw [run_bind hts]
      simp only [Bool.false_eq_true, if_false]
      rw [run_bind hb]
  | true =>
    rw [run_bind (run_taskSpec _ (popped_notSpec s h (hs rfl)))]
    simp only [Bool.and_false, Bool.false_eq_true, if_false]
    rw [run_bind hb]

/-- An instruction that issues, whose effect ends in t, retires there. -/
theorem runSeq_retires {legal : Seq → Bool} {n : Nat} {parks : Bool} {h : Hdr} {body : M Go} {s t : State}
    {next : Option Word} (hl : legal s.cur.2 = true) (hr : Ready s h) (hs : parks = true → NotSpec s)
    (hb : body.run (popped s h) = .ok ({ next := next }, t)) (hp : CanPush t h) :
    runSeq legal n parks h body s = .next (retire t h (next.getD (after (pushed t h) n))) := by
  rw [runSeq_free hr.quiet, issue_body hl hr hs hb]
  unfold seqOutcome
  have : (lastPart n h { next := next }).run t =
      .ok ((), goOn (pushed t h) (next.getD (after (pushed t h) n))) := by
    unfold lastPart
    simp only [if_true]
    rw [run_bind (run_doPush t h hp)]
    rfl
  rw [this]; rfl

/-- An instruction whose guard is false retires without effect (R164). -/
theorem runSeq_skips {legal : Seq → Bool} {n : Nat} {parks : Bool} {h : Hdr} {body : M Go} {s : State}
    (hl : legal s.cur.2 = true) (hpop : CanPop s h) (hpush : CanPush s h) (hq : CanRelease s h)
    (hg : (here s).guard s.cur.2 h = false) :
    runSeq legal n parks h body s = .next (retire (popped s h) h (after s n)) := by
  have hp : s.popAll (coreNo s) s.cur.2 (neighbours s.cur.2 h.pop) = some (popped s h) := popAll_popped s h hpop
  have hg' : ((popped s h).core (coreNo s)).guard s.cur.2 h = false := by
    have := popped_guard s h
    rw [hg] at this
    simpa [here] using this
  have : (issue legal n parks h body).run s = .ok ((), goOn (pushed (popped s h) h) (after s n)) := by
    unfold issue
    rw [run_bind (run_mySeq s), run_bind (run_me s)]
    simp only [hl, Bool.not_true, Bool.false_eq_true, if_false]
    rw [run_bind (run_get s)]
    simp only [hp]
    rw [run_bind (run_set _ s)]
    simp only [hg', Bool.false_eq_true, if_false]
    rw [run_bind (run_doPush _ h (popped_canPush s h hpush)), run_advance]
    simp
  rw [runSeq_free hq, this]; rfl

/-- What an update of the moving core may touch without disturbing its tokens or its place. -/
structure Calm (f : CoreSt → CoreSt) : Prop where
  fifo : ∀ c i, (f c).fifo i = c.fifo i
  pc : ∀ c q, ((f c).seq q).pc = (c.seq q).pc

theorem canPush_onHere {s : State} {h : Hdr} {f : CoreSt → CoreSt} (hf : Calm f) (hp : CanPush s h) :
    CanPush (onHere s f) h := by
  intro y hy
  rw [here_onHere, onHere_cur, hf.fifo]
  exact hp y hy

theorem after_onHere {f : CoreSt → CoreSt} (hf : Calm f) (s : State) (n : Nat) :
    after (onHere s f) n = after s n := by
  unfold after mover
  rw [here_onHere, onHere_cur, hf.pc]

/-- An instruction whose effect is a calm update of its core. -/
theorem runSeq_update {legal : Seq → Bool} {n : Nat} {parks : Bool} {h : Hdr} {body : M Go} {s : State}
    {f : CoreSt → CoreSt} (hl : legal s.cur.2 = true) (hr : Ready s h) (hs : parks = true → NotSpec s)
    (hb : body.run (popped s h) = .ok ({}, onHere (popped s h) f)) (hf : Calm f) :
    runSeq legal n parks h body s = .next (retire (onHere (popped s h) f) h (after s n)) := by
  have := runSeq_retires (n := n) hl hr hs (next := none) hb
    (canPush_onHere hf (popped_canPush s h hr.room))
  rw [this, Option.getD_none, after_pushed, after_onHere hf, after_popped]

/-- Only what an update makes of the moving core counts. -/
theorem onHere_congr (s : State) {f g : CoreSt → CoreSt} (h : f (here s) = g (here s)) : onHere s f = onHere s g := by
  unfold onHere State.modCore
  exact congrArg _ h

theorem calm_setX (r : BitVec 6) (v : Word) : Calm fun c => c.setX r v := by
  constructor
  · intro c i; simp only [CoreSt.setX]; split <;> rfl
  · intro c q; simp only [CoreSt.setX]; split <;> cases q <;> rfl

theorem calm_setPred (q : Seq) (p : BitVec 5) (b : Bool) : Calm fun c => c.setPred q p b := by
  constructor
  · intro c i; simp only [CoreSt.setPred]; split
    · rfl
    · simp
  · intro c q'; simp only [CoreSt.setPred]; split
    · rfl
    · cases q <;> cases q' <;> rfl

theorem calm_setA (q : Seq) (r : BitVec 5) (v : Word) : Calm fun c => c.setA q r v := by
  constructor
  · intro c i; cases q <;> rfl
  · intro c q'; cases q <;> cases q' <;> rfl

theorem calm_setMap (q : Seq) (m : BitVec 4) (v : MapReg) : Calm fun c => c.setMap q m v := by
  constructor
  · intro c i; cases q <;> rfl
  · intro c q'; cases q <;> cases q' <;> rfl

/-! ## What the popped core holds -/

theorem popped_x (s : State) (h : Hdr) (r : BitVec 6) : (here (popped s h)).x r = (here s).x r :=
  bare_x (popped_bare s h) r

theorem popped_core (s : State) (h : Hdr) : (popped s h).core s.cur.1.val = here (popped s h) := by
  unfold here coreNo; rw [popped_cur]

theorem popped_a (s : State) (h : Hdr) (q : Seq) (r : BitVec 5) : (here (popped s h)).a q r = (here s).a q r :=
  bare_a (popped_bare s h) q r

theorem popped_map (s : State) (h : Hdr) (q : Seq) (r : BitVec 4) : (here (popped s h)).map q r = (here s).map q r :=
  bare_map (popped_bare s h) q r

theorem popped_pred (s : State) (h : Hdr) (q : Seq) (p : BitVec 5) : (here (popped s h)).pred q p = (here s).pred q p :=
  bare_pred (popped_bare s h) q p

theorem popped_pc (s : State) (h : Hdr) (q : Seq) : ((here (popped s h)).seq q).pc = ((here s).seq q).pc :=
  bare_pc (popped_bare s h) q

/-! ## Instructions of one shape -/

/-- An instruction whose effect is an update that, on this core, equals a calm one. -/
theorem update_const {legal : Seq → Bool} {n : Nat} {h : Hdr} {body : M Go} {s : State}
    {f g : CoreSt → CoreSt} (hl : legal s.cur.2 = true) (hr : Ready s h)
    (hb : body.run (popped s h) = .ok ({}, onHere (popped s h) f)) (hf : Calm g)
    (hfg : f (here (popped s h)) = g (here (popped s h))) :
    runSeq legal n false h body s = .next (retire (onHere (popped s h) g) h (after s n)) := by
  rw [onHere_congr (popped s h) hfg] at hb
  exact runSeq_update hl hr (by simp) hb hf

theorem run_aligned {va : Word} {n : Nat} (h : va.toNat % n = 0) (s : State) : (aligned va n).run s = .ok ((), s) := by
  unfold aligned; rw [if_pos h]; rfl

/-- An instruction with a pop of an empty FIFO stalls (R30). -/
theorem popAll_none (l : List Seq) (s : State) (hn : l.Nodup) (hq : ∀ y ∈ l, y ≠ s.cur.2)
    (h : ¬ ∀ y ∈ l, (here s).fifo (fifoIdx y s.cur.2) ≠ []) : s.popAll (coreNo s) s.cur.2 l = none := by
  induction l generalizing s with
  | nil => exact absurd (by simp) h
  | cons y r ih =>
    simp only [State.popAll, State.popTok]
    rw [show (s.core (coreNo s)).fifo (fifoIdx y s.cur.2) = (here s).fifo (fifoIdx y s.cur.2) from rfl]
    cases hf : (here s).fifo (fifoIdx y s.cur.2) with
    | nil => rfl
    | cons t l =>
      have e : popOne s y = s.modCore (coreNo s) fun c =>
          ((c.setFifo (fifoIdx y s.cur.2) l).countPop (fifoIdx y s.cur.2)).takeCopy s.cur.2 t.copy := by
        simp [popOne, hf, onHere]
      have hc : coreNo (popOne s y) = coreNo s := by simp [coreNo]
      have := ih (popOne s y) (List.nodup_cons.mp hn).2 (by simpa using fun a ha => hq a (by simp [ha])) (by
        intro hall
        apply h
        intro z hz
        rcases List.mem_cons.mp hz with rfl | hz
        · simp [hf]
        · have := hall z hz
          rwa [popOne_cur, popOne_fifo s (hq y (by simp)) (hq z (by simp [hz]))
            (fun e => (List.nodup_cons.mp hn).1 (e ▸ hz))] at this)
      rw [popOne_cur, hc, e] at this
      exact this

theorem popAll_stall (s : State) (h : Hdr) (hp : ¬ CanPop s h) :
    s.popAll s.cur.1.val s.cur.2 (neighbours s.cur.2 h.pop) = none :=
  popAll_none _ s (neighbours_nodup _ _) (neighbours_ne _ _) hp

/-- An instruction that cannot pop is no release yet. -/
theorem gated_stalls {legal : Seq → Bool} {isRel : Bool} {h : Hdr} {s : State} {run : State → Result}
    (hp : ¬ CanPop s h) : gated legal isRel h s run = run s := by
  unfold gated
  dsimp only
  split
  · next hc =>
    simp only [releases, Bool.and_eq_true, beq_iff_eq] at hc
    have e := popAll_stall s h hp
    rw [hc.1.2.1.1] at e
    rw [e] at hc
    exact absurd hc.1.2.2 (by simp)
  · rfl

theorem runSeq_stalls {legal : Seq → Bool} {n : Nat} {parks : Bool} {h : Hdr} {body : M Go} {s : State}
    (hl : legal s.cur.2 = true) (hp : ¬ CanPop s h) : runSeq legal n parks h body s = .next s.stalled := by
  have hgate : ∀ r, gated legal false h s r = r s := fun r => gated_stalls hp
  have : (issue legal n parks h body).run s = .error .stall := by
    unfold issue
    rw [run_bind (run_mySeq s), run_bind (run_me s)]
    simp only [hl, Bool.not_true, Bool.false_eq_true, if_false]
    rw [run_bind (run_get s)]
    rw [show s.popAll (coreNo s) s.cur.2 (neighbours s.cur.2 h.pop) = none from popAll_stall s h hp]
    rfl
  unfold runSeq runRel
  rw [hgate, this]; rfl

/-- An instruction whose effect stops stops as a whole (R192). -/
theorem issue_stops {legal : Seq → Bool} {n : Nat} {parks : Bool} {h : Hdr} {body : M Go} {s : State} {e : Stop}
    (hl : legal s.cur.2 = true) (hr : Ready s h) (hs : parks = true → NotSpec s)
    (hb : body.run (popped s h) = .error e) : (issue legal n parks h body).run s = .error e := by
  have hpop : s.popAll (coreNo s) s.cur.2 (neighbours s.cur.2 h.pop) = some (popped s h) :=
    popAll_popped s h hr.pops
  have hg : ((popped s h).core (coreNo s)).guard s.cur.2 h = true := by
    have := popped_guard s h
    rw [hr.guard] at this
    simpa [here] using this
  unfold issue
  rw [run_bind (run_mySeq s), run_bind (run_me s)]
  simp only [hl, Bool.not_true, Bool.false_eq_true, if_false]
  rw [run_bind (run_get s)]
  simp only [hpop]
  rw [run_bind (run_set _ s)]
  simp only [hg, if_true]
  have hts : ∃ b, taskSpec.run (popped s h) = .ok (b, popped s h) ∧ (parks && b) = false := by
    cases parks with
    | true => exact ⟨false, run_taskSpec _ (popped_notSpec s h (hs rfl)), rfl⟩
    | false =>
      unfold taskSpec
      rw [run_bind (run_myCore _)]
      cases (here (popped s h)).task <;> exact ⟨_, rfl, rfl⟩
  obtain ⟨b, hb1, hb2⟩ := hts
  rw [run_bind hb1]
  simp only [hb2, Bool.false_eq_true, if_false]
  exact run_bind_error hb

/-- An instruction whose effect traps: the trap is taken from the state that the instruction began with. -/
theorem runSeq_traps {legal : Seq → Bool} {n : Nat} {parks : Bool} {h : Hdr} {body : M Go} {s : State} {t : Trap}
    (hl : legal s.cur.2 = true) (hr : Ready s h) (hs : NotSpec s) (hi : t.ipc = 0)
    (hb : body.run (popped s h) = .error (.trap t)) : runSeq legal n parks h body s = .next (trapped s t) := by
  rw [runSeq_free hr.quiet, issue_stops hl hr (fun _ => hs) hb]
  unfold seqOutcome
  cases ht : (s.core s.cur.1.val).task with
  | none => simp only [ht, hi, if_true, Bool.false_and, Bool.false_eq_true, if_false]; rfl
  | some k =>
    have hk : k.spec = false := hs k ht
    simp only [ht, hk, hi, if_true, Bool.false_and, Bool.false_eq_true, if_false]; rfl

theorem run_myPc_popped (s : State) (h : Hdr) : myPc.run (popped s h) = .ok ((mover s).pc, popped s h) := by
  show Except.ok (((popped s h).core _ |>.seq _).pc, _) = _
  rw [popped_cur, popped_core, popped_pc]; rfl

theorem issue_skips {legal : Seq → Bool} {n : Nat} {parks : Bool} {h : Hdr} {body : M Go} {s : State}
    (hl : legal s.cur.2 = true) (hpop : CanPop s h) (hpush : CanPush s h)
    (hg : (here s).guard s.cur.2 h = false) :
    (issue legal n parks h body).run s = .ok ((), goOn (pushed (popped s h) h) (after s n)) := by
  have hp : s.popAll (coreNo s) s.cur.2 (neighbours s.cur.2 h.pop) = some (popped s h) := popAll_popped s h hpop
  have hg' : ((popped s h).core (coreNo s)).guard s.cur.2 h = false := by
    have := popped_guard s h
    rw [hg] at this
    simpa [here] using this
  unfold issue
  rw [run_bind (run_mySeq s), run_bind (run_me s)]
  simp only [hl, Bool.not_true, Bool.false_eq_true, if_false]
  rw [run_bind (run_get s)]
  simp only [hp]
  rw [run_bind (run_set _ s)]
  simp only [hg', Bool.false_eq_true, if_false]
  rw [run_bind (run_doPush _ h (popped_canPush s h hpush)), run_advance]
  simp

/-! ## What an instruction that retires leaves alone -/

@[simp] theorem progressed_memory (s : State) : s.progressed.memory = s.memory := rfl

theorem goOn_elsewhere (s : State) (next : Word) : Elsewhere s (goOn s next) :=
  ⟨fun _ hn => core_modCore_ne s _ hn, fun _ => rfl, rfl⟩

theorem Elsewhere.trans {s t u : State} (h : Elsewhere s t) (k : Elsewhere t u) (hc : t.cur = s.cur) :
    Elsewhere s u := by
  refine ⟨fun n hn => ?_, fun j => (k.jobs j).trans (h.jobs j), k.rest.trans h.rest⟩
  rw [k.others n (by rw [coreNo, hc]; exact hn), h.others n hn]

theorem onHere_elsewhere (s : State) (f : CoreSt → CoreSt) : Elsewhere s (onHere s f) :=
  ⟨fun _ hn => core_modCore_ne s _ hn, fun _ => rfl, rfl⟩

theorem flagCore_elsewhere (s : State) (n : Nat) : Elsewhere s (s.flagCore n) := by
  refine ⟨fun m _ => core_flagCore s m n, fun j => ?_, ?_⟩
  · unfold State.flagCore State.setPending State.modJob
    split
    · next v hv =>
      simp only [State.job?, State.setJob] at hv ⊢
      by_cases e : j = (s.core n).job
      · subst e; rw [cfind_cput_same, hv]; rfl
      · rw [cfind_cput_ne _ _ e]
    · rfl
  · unfold State.flagCore State.setPending State.modJob
    split <;> rfl

theorem foldl_pushOne_elsewhere (l : List Seq) (v : Option Word) (s : State) : Elsewhere s (l.foldl (pushOne v) s) := by
  induction l generalizing s with
  | nil => exact ⟨fun _ _ => rfl, fun _ => rfl, rfl⟩
  | cons y r ih => exact (onHere_elsewhere s _).trans (ih _) rfl

theorem pushed_elsewhere (s : State) (h : Hdr) : Elsewhere s (pushed s h) := by
  unfold pushed
  cases neighbours s.cur.2 h.push with
  | nil => exact ⟨fun _ _ => rfl, fun _ => rfl, rfl⟩
  | cons y r => exact (foldl_pushOne_elsewhere (y :: r) none s).trans (flagCore_elsewhere _ _) (foldl_pushOne _ none s).1

/-- Retirement changes nothing outside the moving core but a pending-advance flag. -/
theorem retire_elsewhere (s : State) (h : Hdr) (next : Word) : Elsewhere s (retire s h next) :=
  ((pushed_elsewhere s h).trans (goOn_elsewhere _ next) (pushed_cur s h)).trans (onHere_elsewhere _ _) (pushed_cur s h)

end Sys2Proof
end

