-- ==== Sys2Proof/Laws/Memory.lean ====
section
/-! SUPPORT. Laws/Memory: every operation that writes device memory keeps its canonical form, and what a write leaves
to a read under its key. -/

set_option Elab.async false

namespace Sys2Proof.Machine

theorem upFrom_length (lo n : Nat) : (upFrom lo n).length = n := by
  induction n generalizing lo with
  | zero => rfl
  | succ n ih => simp [upFrom, ih]

theorem upFrom_getElem (lo n i : Nat) (h : i < (upFrom lo n).length) : (upFrom lo n)[i] = lo + i := by
  induction n generalizing lo i with
  | zero => simp [upFrom] at h
  | succ n ih =>
    cases i with
    | zero => rfl
    | succ i => simp only [upFrom, List.getElem_cons_succ]; rw [ih]; omega

theorem mem_upFrom (lo n k : Nat) : k ∈ upFrom lo n ↔ lo ≤ k ∧ k < lo + n := by
  induction n generalizing lo with
  | zero => simp [upFrom]
  | succ n ih => simp [upFrom, ih]; omega

/-- A unit that comes under a key keeps the form. -/
theorem rekey_wf (s : State) (key : BitVec 512) (unit : Nat) (h : Memory.wf s.memory.mem = true) :
    Memory.wf (s.rekey key unit).memory.mem = true := by
  simp only [State.rekey]
  split
  · exact h
  · split
    · exact h
    · exact setBytes_wf _ _ _ h

theorem foldl_rekey_wf (l : List Nat) (slot : Nat) (s : State) (h : Memory.wf s.memory.mem = true) :
    Memory.wf (l.foldl (fun s u => s.rekey ((s.keyOf slot).getD 0) u) s).memory.mem = true := by
  induction l generalizing s with
  | nil => exact h
  | cons u r ih => exact ih _ (rekey_wf s _ u h)

/-- A write of device memory keeps the form. -/
theorem devPut_wf (s : State) (slot pa : Nat) (bs : List Byte) (poison : Bool)
    (h : Memory.wf s.memory.mem = true) : Memory.wf (s.devPut slot pa bs poison).memory.mem = true :=
  setBytes_wf _ _ _ (foldl_rekey_wf _ _ s h)

/-- Due discards change no memory. -/
theorem discardAll_memory (s : State) (keys : List Nat) (reason : Nat) :
    (s.discardAll keys reason).memory = s.memory := by
  unfold State.discardAll
  split <;> rfl

/-- A new generation of a page keeps its bytes. -/
theorem pageWritten_mem (s : State) (p : Nat) : (s.pageWritten p).memory.mem = s.memory.mem := by
  unfold State.pageWritten
  rw [discardAll_memory]

theorem foldl_pageWritten_mem (l : List Nat) (s : State) :
    (l.foldl State.pageWritten s).memory.mem = s.memory.mem := by
  induction l generalizing s with
  | nil => rfl
  | cons p r ih => exact (ih _).trans (pageWritten_mem s p)

theorem devWrite_wf (s : State) (slot pa : Nat) (bs : List Byte) (poison : Bool)
    (h : Memory.wf s.memory.mem = true) : Memory.wf (s.devWrite slot pa bs poison).memory.mem = true := by
  unfold State.devWrite
  rw [foldl_pageWritten_mem]
  exact devPut_wf s slot pa bs poison h

/-- A write under identifier 0 keeps the form. -/
theorem writeZero_wf (s : State) (t : Xfer) (off : Nat) (data : List Byte) (h : Memory.wf s.memory.mem = true) :
    Memory.wf (s.writeZero t off data).memory.mem = true := by
  simp only [State.writeZero]
  split
  · split
    · exact setBytes_wf _ _ _ h
    · exact h
  · split
    · split
      · unfold State.go; split <;> exact h
      · exact h
    · exact h

/-- Memory after reset has the form. -/
theorem reset_wf : Memory.wf State.reset.memory.mem = true := rfl

/-- Equal bytes read as equal lists. -/
theorem bytesAt_congr {m m' : Cells Byte} {n a : Nat} (h : ∀ i, i < n → byteAt m (a + i) = byteAt m' (a + i)) :
    bytesAt m a n = bytesAt m' a n := by
  induction n generalizing a with
  | zero => rfl
  | succ n ih =>
    simp only [bytesAt]
    rw [ih fun i hi => by rw [Nat.add_assoc, Nat.add_comm 1 i]; exact h (i + 1) (by omega)]
    exact congrArg (· :: _) (h 0 (by omega))

/-- A unit that comes under a key reads under that key as before. -/
theorem devByte_rekey (s : State) (key : BitVec 512) (unit pa : Nat) :
    (s.rekey key unit).devByte key pa = s.devByte key pa := by
  by_cases e : pa / 128 = unit
  · subst e
    simp only [State.devByte, State.rekey, cfind_cput_same, if_true]
    split
    · rfl
    · rename_i k hk
      split
      · rfl
      · rename_i hne
        have hp : pa = pa / 128 * 128 + pa % 128 := by omega
        have hl : pa % 128 < 128 := Nat.mod_lt _ (by decide)
        have hb := byteAt_setBytes_inside ((upFrom (pa / 128 * 128) 128).map (s.devByte key)) s.memory.mem
          (pa / 128 * 128) (pa % 128) (by simp [upFrom_length, hl])
        rw [← hp] at hb
        rw [hb]
        simp only [List.getElem_map, upFrom_getElem, ← hp]
        simp [State.devByte, hk, hne]
  · have hm : ∀ i, i < 128 → byteAt (s.rekey key unit).memory.mem (pa / 128 * 128 + i) =
        byteAt s.memory.mem (pa / 128 * 128 + i) := by
      intro i hi
      simp only [State.rekey]
      split
      · rfl
      · split
        · rfl
        · refine byteAt_setBytes_outside _ _ _ _ ?_
          simp only [List.length_map, upFrom_length]
          omega
    have hk : cfind (s.rekey key unit).memory.memKey (pa / 128) = cfind s.memory.memKey (pa / 128) :=
      cfind_cput_ne _ _ e
    have hx : byteAt (s.rekey key unit).memory.mem pa = byteAt s.memory.mem pa := by
      have hp : pa = pa / 128 * 128 + pa % 128 := by omega
      rw [hp]; exact hm _ (Nat.mod_lt _ (by decide))
    simp only [State.devByte, hk, hx, bytesAt_congr hm]

/-- A list of units that come under the key of a slot reads under that key as before, and keeps the keys. -/
theorem foldl_rekey (l : List Nat) (slot : Nat) (s : State) (pa : Nat) :
    let t := l.foldl (fun s u => s.rekey ((s.keyOf slot).getD 0) u) s
    t.keys = s.keys ∧ t.devByte ((s.keyOf slot).getD 0) pa = s.devByte ((s.keyOf slot).getD 0) pa ∧
    ∀ u, cfind t.memory.memKey u = if u ∈ l then some ((s.keyOf slot).getD 0) else cfind s.memory.memKey u := by
  induction l generalizing s with
  | nil => simp
  | cons v r ih =>
    have hk : (s.rekey ((s.keyOf slot).getD 0) v).keyOf slot = s.keyOf slot := rfl
    have := ih (s.rekey ((s.keyOf slot).getD 0) v)
    simp only [hk, devByte_rekey] at this
    refine ⟨this.1.trans rfl, this.2.1, fun u => ?_⟩
    simp only [List.foldl_cons]
    rw [this.2.2 u]
    by_cases h : u = v
    · subst h
      rw [if_pos (List.mem_cons_self ..)]
      split
      · rfl
      · exact cfind_cput_same _ _ _
    · simp [State.rekey, cfind_cput_ne _ _ h, h]

theorem mem_blocksOf {b a n k : Nat} (hn : k < n) : (a + k) / b ∈ blocksOf b a n := by
  have h0 : n ≠ 0 := by omega
  simp only [blocksOf, h0, if_false, mem_upFrom]
  have h1 : a / b ≤ (a + k) / b := Nat.div_le_div_right (by omega)
  have h2 : (a + k) / b ≤ (a + n - 1) / b := Nat.div_le_div_right (by omega)
  omega

/-- A byte that a write puts reads back under the key of the write (R105). -/
theorem devByte_devPut_inside (s : State) (slot pa : Nat) (bs : List Byte) (poison : Bool) (i : Nat)
    (h : i < bs.length) : (s.devPut slot pa bs poison).devByte ((s.keyOf slot).getD 0) (pa + i) = bs[i] := by
  have hk := (foldl_rekey (blocksOf 128 pa bs.length) slot s 0).2.2 ((pa + i) / 128)
  rw [if_pos (mem_blocksOf h)] at hk
  simp only [State.devByte, State.devPut, hk, if_true]
  exact byteAt_setBytes_inside bs _ pa i h

/-- A byte outside a write reads under the key of the write as before. -/
theorem devByte_devPut_outside (s : State) (slot pa : Nat) (bs : List Byte) (poison : Bool) (a : Nat)
    (h : a < pa ∨ pa + bs.length ≤ a) : (s.devPut slot pa bs poison).devByte ((s.keyOf slot).getD 0) a =
      s.devByte ((s.keyOf slot).getD 0) a := by
  obtain ⟨-, hd, hk⟩ := foldl_rekey (blocksOf 128 pa bs.length) slot s a
  rw [← hd]
  have ho := byteAt_setBytes_outside bs
    ((blocksOf 128 pa bs.length).foldl (fun s u => s.rekey ((s.keyOf slot).getD 0) u) s).memory.mem pa a h
  simp only [State.devByte, State.devPut, ho]
  by_cases hm : a / 128 ∈ blocksOf 128 pa bs.length
  · have := hk (a / 128)
    rw [if_pos hm] at this
    simp only [this, if_true]
  · have hb : bytesAt (setBytes ((blocksOf 128 pa bs.length).foldl
        (fun s u => s.rekey ((s.keyOf slot).getD 0) u) s).memory.mem pa bs) (a / 128 * 128) 128 =
        bytesAt ((blocksOf 128 pa bs.length).foldl
          (fun s u => s.rekey ((s.keyOf slot).getD 0) u) s).memory.mem (a / 128 * 128) 128 := by
      refine bytesAt_congr fun i hi => byteAt_setBytes_outside _ _ _ _ ?_
      by_cases h1 : a / 128 * 128 + i < pa
      · exact .inl h1
      · by_cases h2 : pa + bs.length ≤ a / 128 * 128 + i
        · exact .inr h2
        · refine absurd ?_ hm
          have := mem_blocksOf (b := 128) (a := pa) (k := a / 128 * 128 + i - pa) (n := bs.length) (by omega)
          rw [show pa + (a / 128 * 128 + i - pa) = a / 128 * 128 + i by omega] at this
          rwa [show (a / 128 * 128 + i) / 128 = a / 128 by omega] at this
    rw [hb]

end Sys2Proof.Machine
end

