-- ==== Sys2Proof/Laws/PerInstr.lean ====
section
/-! SUPPORT. Laws/PerInstr: what is shown of the encoding of each instruction, constructor by constructor. -/

set_option Elab.async false

namespace Sys2Proof.Laws.EncodedLength

/-- R161: a well-formed instruction of a stream has the number of doublewords that its length code says. -/
def Statement (i : Instr) : Prop :=
  ∀ q, wf q i = true → encode i ≠ [] ∧ (encode i).length = lenWords ((encode i).headD 0)

theorem lenWords_pack (f : Fields) :
    lenWords f.pack = match f.len.toNat with | 1 => 2 | 2 => 4 | _ => 1 := by
  have h : f.pack.extractLsb' 0 2 = f.len := congrArg Fields.len (Fields.unpack_pack f)
  simp only [lenWords, h] <;> rfl

theorem of_one {i : Instr} {h : Hdr} {major : BitVec 6} {minor : BitVec 8} {a b c : BitVec 6} {imm : BitVec 18}
    (e : encode i = one h major minor a b c imm) : Statement i := fun _ _ => by
  rw [e]; simp [one, lenWords_pack]

theorem of_two {i : Instr} {h : Hdr} {f : Sem} {major : BitVec 6} {minor : BitVec 8} {a b c : BitVec 6}
    {imm : BitVec 18} {eng : BitVec 24} (e : encode i = two h f major minor a b c imm eng) : Statement i :=
  fun _ _ => by rw [e]; simp [two, lenWords_pack]

theorem of_four {i : Instr} {h : Hdr} {major : BitVec 6} {minor : BitVec 8} {a b c : BitVec 6} {imm : BitVec 18}
    {p : BitVec 192} (e : encode i = four h major minor a b c imm p) : Statement i := fun _ _ => by
  rw [e]; simp [four, lenWords_pack]

theorem powerGood : Statement (.powerGood) := fun _ h => (Bool.false_ne_true h).elim
theorem pushWindowWrite : ∀ v0 v1 v2, Statement (.pushWindowWrite v0 v1 v2) :=
  fun _ _ _ => fun _ h => (Bool.false_ne_true h).elim
theorem bootctlGo : ∀ v0 v1, Statement (.bootctlGo v0 v1) := fun _ _ => fun _ h => (Bool.false_ne_true h).elim
theorem firmwareCheckEnd : Statement (.firmwareCheckEnd) := fun _ h => (Bool.false_ne_true h).elim
theorem bringupRegisterWrite : ∀ v0 v1 v2, Statement (.bringupRegisterWrite v0 v1 v2) :=
  fun _ _ _ => fun _ h => (Bool.false_ne_true h).elim
theorem dieMemoryJoin : ∀ v0, Statement (.dieMemoryJoin v0) := fun _ => fun _ h => (Bool.false_ne_true h).elim
theorem portUp : Statement (.portUp) := fun _ h => (Bool.false_ne_true h).elim
theorem remoteWrite : ∀ v0 v1 v2, Statement (.remoteWrite v0 v1 v2) :=
  fun _ _ _ => fun _ h => (Bool.false_ne_true h).elim
theorem oiWrite : ∀ v0 v1 v2, Statement (.oiWrite v0 v1 v2) := fun _ _ _ => fun _ h => (Bool.false_ne_true h).elim
theorem oiWriteVisible : ∀ v0, Statement (.oiWriteVisible v0) := fun _ => fun _ h => (Bool.false_ne_true h).elim
theorem remoteRead : ∀ v0 v1 v2, Statement (.remoteRead v0 v1 v2) :=
  fun _ _ _ => fun _ h => (Bool.false_ne_true h).elim
theorem transportAtomic : ∀ v0 v1 v2 v3 v4 v5, Statement (.transportAtomic v0 v1 v2 v3 v4 v5) :=
  fun _ _ _ _ _ _ => fun _ h => (Bool.false_ne_true h).elim
theorem send : ∀ v0 v1, Statement (.send v0 v1) := fun _ _ => fun _ h => (Bool.false_ne_true h).elim
theorem attest : ∀ v0, Statement (.attest v0) := fun _ => fun _ h => (Bool.false_ne_true h).elim
theorem keyload : ∀ v0, Statement (.keyload v0) := fun _ => fun _ h => (Bool.false_ne_true h).elim
theorem keyclear : ∀ v0, Statement (.keyclear v0) := fun _ => fun _ h => (Bool.false_ne_true h).elim
theorem jobnew : ∀ v0, Statement (.jobnew v0) := fun _ => fun _ h => (Bool.false_ne_true h).elim
theorem jobend : ∀ v0, Statement (.jobend v0) := fun _ => fun _ h => (Bool.false_ne_true h).elim
theorem jobendDone : ∀ v0, Statement (.jobendDone v0) := fun _ => fun _ h => (Bool.false_ne_true h).elim
theorem ptset : ∀ v0, Statement (.ptset v0) := fun _ => fun _ h => (Bool.false_ne_true h).elim
theorem pageTableChangeComplete : Statement (.pageTableChangeComplete) := fun _ h => (Bool.false_ne_true h).elim
theorem qset : ∀ v0, Statement (.qset v0) := fun _ => fun _ h => (Bool.false_ne_true h).elim
theorem peerset : ∀ v0, Statement (.peerset v0) := fun _ => fun _ h => (Bool.false_ne_true h).elim
theorem kreg : ∀ v0, Statement (.kreg v0) := fun _ => fun _ h => (Bool.false_ne_true h).elim
theorem swclear : ∀ v0, Statement (.swclear v0) := fun _ => fun _ h => (Bool.false_ne_true h).elim
theorem mgrant : ∀ v0, Statement (.mgrant v0) := fun _ => fun _ h => (Bool.false_ne_true h).elim
theorem telem : ∀ v0, Statement (.telem v0) := fun _ => fun _ h => (Bool.false_ne_true h).elim
theorem powerLimitTick : ∀ v0 v1, Statement (.powerLimitTick v0 v1) :=
  fun _ _ => fun _ h => (Bool.false_ne_true h).elim
theorem thermalStop : ∀ v0, Statement (.thermalStop v0) := fun _ => fun _ h => (Bool.false_ne_true h).elim
theorem patrolScrub : ∀ v0 v1, Statement (.patrolScrub v0 v1) := fun _ _ => fun _ h => (Bool.false_ne_true h).elim
theorem memoryRetraining : ∀ v0 v1, Statement (.memoryRetraining v0 v1) :=
  fun _ _ => fun _ h => (Bool.false_ne_true h).elim
theorem freezeEnd : ∀ v0, Statement (.freezeEnd v0) := fun _ => fun _ h => (Bool.false_ne_true h).elim
theorem queuePollTick : Statement (.queuePollTick) := fun _ h => (Bool.false_ne_true h).elim
theorem packetReread : ∀ v0, Statement (.packetReread v0) := fun _ => fun _ h => (Bool.false_ne_true h).elim
theorem nopPacket : ∀ v0, Statement (.nopPacket v0) := fun _ => fun _ h => (Bool.false_ne_true h).elim
theorem launchPacket : ∀ v0, Statement (.launchPacket v0) := fun _ => fun _ h => (Bool.false_ne_true h).elim
theorem graphPacket : ∀ v0, Statement (.graphPacket v0) := fun _ => fun _ h => (Bool.false_ne_true h).elim
theorem transformPacket : ∀ v0, Statement (.transformPacket v0) := fun _ => fun _ h => (Bool.false_ne_true h).elim
theorem waitcnt : ∀ v0, Statement (.waitcnt v0) := fun _ => fun _ h => (Bool.false_ne_true h).elim
theorem signalPacket : ∀ v0, Statement (.signalPacket v0) := fun _ => fun _ h => (Bool.false_ne_true h).elim
theorem fencePacket : ∀ v0, Statement (.fencePacket v0) := fun _ => fun _ h => (Bool.false_ne_true h).elim
theorem packetComplete : ∀ v0 v1, Statement (.packetComplete v0 v1) :=
  fun _ _ => fun _ h => (Bool.false_ne_true h).elim
theorem launchStart : ∀ v0 v1, Statement (.launchStart v0 v1) := fun _ _ => fun _ h => (Bool.false_ne_true h).elim
theorem initialEntryFill : ∀ v0 v1, Statement (.initialEntryFill v0 v1) :=
  fun _ _ => fun _ h => (Bool.false_ne_true h).elim
theorem grantPass : ∀ v0, Statement (.grantPass v0) := fun _ => fun _ h => (Bool.false_ne_true h).elim
theorem redivisionStep : ∀ v0, Statement (.redivisionStep v0) := fun _ => fun _ h => (Bool.false_ne_true h).elim
theorem taskStart : ∀ v0, Statement (.taskStart v0) := fun _ => fun _ h => (Bool.false_ne_true h).elim
theorem continuationStart : ∀ v0, Statement (.continuationStart v0) := fun _ => fun _ h => (Bool.false_ne_true h).elim
theorem taskEnd : ∀ v0, Statement (.taskEnd v0) := fun _ => fun _ h => (Bool.false_ne_true h).elim
theorem launchComplete : ∀ v0 v1, Statement (.launchComplete v0 v1) :=
  fun _ _ => fun _ h => (Bool.false_ne_true h).elim
theorem nodeComplete : ∀ v0 v1 v2 v3, Statement (.nodeComplete v0 v1 v2 v3) :=
  fun _ _ _ _ => fun _ h => (Bool.false_ne_true h).elim
theorem transformEngineStart : ∀ v0, Statement (.transformEngineStart v0) :=
  fun _ => fun _ h => (Bool.false_ne_true h).elim
theorem transformComplete : ∀ v0 v1, Statement (.transformComplete v0 v1) :=
  fun _ _ => fun _ h => (Bool.false_ne_true h).elim
theorem phaseBoundary : ∀ v0, Statement (.phaseBoundary v0) := fun _ => fun _ h => (Bool.false_ne_true h).elim
theorem probeWalk : ∀ v0 v1 v2, Statement (.probeWalk v0 v1 v2) := fun _ _ _ => fun _ h => (Bool.false_ne_true h).elim
theorem preemptionRequest : ∀ v0, Statement (.preemptionRequest v0) := fun _ => fun _ h => (Bool.false_ne_true h).elim
theorem drainTimeout : ∀ v0, Statement (.drainTimeout v0) := fun _ => fun _ h => (Bool.false_ne_true h).elim
theorem contextSave : ∀ v0, Statement (.contextSave v0) := fun _ => fun _ h => (Bool.false_ne_true h).elim
theorem taskResume : ∀ v0, Statement (.taskResume v0) := fun _ => fun _ h => (Bool.false_ne_true h).elim
theorem watchdog : ∀ v0, Statement (.watchdog v0) := fun _ => fun _ h => (Bool.false_ne_true h).elim
theorem commandRetire : ∀ v0 v1, Statement (.commandRetire v0 v1) := fun _ _ => fun _ h => (Bool.false_ne_true h).elim
theorem latchTake : ∀ v0 v1, Statement (.latchTake v0 v1) := fun _ _ => fun _ h => (Bool.false_ne_true h).elim
theorem coilBlockRelease : ∀ v0, Statement (.coilBlockRelease v0) := fun _ => fun _ h => (Bool.false_ne_true h).elim
theorem claim : ∀ v0, Statement (.claim v0) := fun _ => fun _ h => (Bool.false_ne_true h).elim
theorem speculativeDiscard : ∀ v0 v1, Statement (.speculativeDiscard v0 v1) :=
  fun _ _ => fun _ h => (Bool.false_ne_true h).elim
theorem predictionTimeout : ∀ v0, Statement (.predictionTimeout v0) := fun _ => fun _ h => (Bool.false_ne_true h).elim
theorem nop : ∀ v0, Statement (.nop v0) := fun _ => of_one (encode_nop _)
theorem br : ∀ v0 v1, Statement (.br v0 v1) := fun _ _ => of_one (encode_br _ _)
theorem jmp : ∀ v0 v1, Statement (.jmp v0 v1) := fun _ _ => of_one (encode_jmp _ _)
theorem endStream : ∀ v0, Statement (.endStream v0) := fun _ => of_one (encode_endStream _)
theorem tok : ∀ v0, Statement (.tok v0) := fun _ => of_one (encode_tok _)
theorem pushv : ∀ v0 v1 v2, Statement (.pushv v0 v1 v2) := fun _ _ _ => of_one (encode_pushv _ _ _)
theorem popv : ∀ v0 v1 v2, Statement (.popv v0 v1 v2) := fun _ _ _ => of_one (encode_popv _ _ _)
theorem swait : ∀ v0 v1 v2, Statement (.swait v0 v1 v2) := fun _ _ _ => of_one (encode_swait _ _ _)
theorem swaitReg : ∀ v0 v1 v2, Statement (.swaitReg v0 v1 v2) := fun _ _ _ => of_one (encode_swaitReg _ _ _)
theorem ssig : ∀ v0 v1 v2, Statement (.ssig v0 v1 v2) := fun _ _ _ => of_one (encode_ssig _ _ _)
theorem sset : ∀ v0 v1 v2, Statement (.sset v0 v1 v2) := fun _ _ _ => of_one (encode_sset _ _ _)
theorem ssetReg : ∀ v0 v1 v2, Statement (.ssetReg v0 v1 v2) := fun _ _ _ => of_one (encode_ssetReg _ _ _)
theorem fence : ∀ v0 v1 v2, Statement (.fence v0 v1 v2) := fun _ _ _ => of_one (encode_fence _ _ _)
theorem mfs : ∀ v0 v1 v2, Statement (.mfs v0 v1 v2) := fun _ _ _ => of_one (encode_mfs _ _ _)
theorem mts : ∀ v0 v1 v2, Statement (.mts v0 v1 v2) := fun _ _ _ => of_one (encode_mts _ _ _)
theorem brk : ∀ v0 v1, Statement (.brk v0 v1) := fun _ _ => of_one (encode_brk _ _)
theorem wheel : ∀ v0 v1 v2 v3 v4 v5, Statement (.wheel v0 v1 v2 v3 v4 v5) :=
  fun _ _ _ _ _ _ => of_four (encode_wheel _ _ _ _ _ _)
theorem add : ∀ v0 v1 v2 v3, Statement (.add v0 v1 v2 v3) := fun _ _ _ _ => of_one (encode_add _ _ _ _)
theorem sub : ∀ v0 v1 v2 v3, Statement (.sub v0 v1 v2 v3) := fun _ _ _ _ => of_one (encode_sub _ _ _ _)
theorem mul : ∀ v0 v1 v2 v3, Statement (.mul v0 v1 v2 v3) := fun _ _ _ _ => of_one (encode_mul _ _ _ _)
theorem mulh : ∀ v0 v1 v2 v3, Statement (.mulh v0 v1 v2 v3) := fun _ _ _ _ => of_one (encode_mulh _ _ _ _)
theorem mulhn : ∀ v0 v1 v2 v3, Statement (.mulhn v0 v1 v2 v3) := fun _ _ _ _ => of_one (encode_mulhn _ _ _ _)
theorem div : ∀ v0 v1 v2 v3, Statement (.div v0 v1 v2 v3) := fun _ _ _ _ => of_one (encode_div _ _ _ _)
theorem divn : ∀ v0 v1 v2 v3, Statement (.divn v0 v1 v2 v3) := fun _ _ _ _ => of_one (encode_divn _ _ _ _)
theorem rem : ∀ v0 v1 v2 v3, Statement (.rem v0 v1 v2 v3) := fun _ _ _ _ => of_one (encode_rem _ _ _ _)
theorem remn : ∀ v0 v1 v2 v3, Statement (.remn v0 v1 v2 v3) := fun _ _ _ _ => of_one (encode_remn _ _ _ _)
theorem and : ∀ v0 v1 v2 v3, Statement (.and v0 v1 v2 v3) := fun _ _ _ _ => of_one (encode_and _ _ _ _)
theorem or : ∀ v0 v1 v2 v3, Statement (.or v0 v1 v2 v3) := fun _ _ _ _ => of_one (encode_or _ _ _ _)
theorem xor : ∀ v0 v1 v2 v3, Statement (.xor v0 v1 v2 v3) := fun _ _ _ _ => of_one (encode_xor _ _ _ _)
theorem andn : ∀ v0 v1 v2 v3, Statement (.andn v0 v1 v2 v3) := fun _ _ _ _ => of_one (encode_andn _ _ _ _)
theorem orn : ∀ v0 v1 v2 v3, Statement (.orn v0 v1 v2 v3) := fun _ _ _ _ => of_one (encode_orn _ _ _ _)
theorem shl : ∀ v0 v1 v2 v3, Statement (.shl v0 v1 v2 v3) := fun _ _ _ _ => of_one (encode_shl _ _ _ _)
theorem shr : ∀ v0 v1 v2 v3, Statement (.shr v0 v1 v2 v3) := fun _ _ _ _ => of_one (encode_shr _ _ _ _)
theorem sar : ∀ v0 v1 v2 v3, Statement (.sar v0 v1 v2 v3) := fun _ _ _ _ => of_one (encode_sar _ _ _ _)
theorem rol : ∀ v0 v1 v2 v3, Statement (.rol v0 v1 v2 v3) := fun _ _ _ _ => of_one (encode_rol _ _ _ _)
theorem min : ∀ v0 v1 v2 v3, Statement (.min v0 v1 v2 v3) := fun _ _ _ _ => of_one (encode_min _ _ _ _)
theorem max : ∀ v0 v1 v2 v3, Statement (.max v0 v1 v2 v3) := fun _ _ _ _ => of_one (encode_max _ _ _ _)
theorem minn : ∀ v0 v1 v2 v3, Statement (.minn v0 v1 v2 v3) := fun _ _ _ _ => of_one (encode_minn _ _ _ _)
theorem maxn : ∀ v0 v1 v2 v3, Statement (.maxn v0 v1 v2 v3) := fun _ _ _ _ => of_one (encode_maxn _ _ _ _)
theorem addi : ∀ v0 v1 v2 v3, Statement (.addi v0 v1 v2 v3) := fun _ _ _ _ => of_one (encode_addi _ _ _ _)
theorem andi : ∀ v0 v1 v2 v3, Statement (.andi v0 v1 v2 v3) := fun _ _ _ _ => of_one (encode_andi _ _ _ _)
theorem ori : ∀ v0 v1 v2 v3, Statement (.ori v0 v1 v2 v3) := fun _ _ _ _ => of_one (encode_ori _ _ _ _)
theorem xori : ∀ v0 v1 v2 v3, Statement (.xori v0 v1 v2 v3) := fun _ _ _ _ => of_one (encode_xori _ _ _ _)
theorem shli : ∀ v0 v1 v2 v3, Statement (.shli v0 v1 v2 v3) := fun _ _ _ _ => of_one (encode_shli _ _ _ _)
theorem shri : ∀ v0 v1 v2 v3, Statement (.shri v0 v1 v2 v3) := fun _ _ _ _ => of_one (encode_shri _ _ _ _)
theorem sari : ∀ v0 v1 v2 v3, Statement (.sari v0 v1 v2 v3) := fun _ _ _ _ => of_one (encode_sari _ _ _ _)
theorem li : ∀ v0 v1 v2, Statement (.li v0 v1 v2) := fun _ _ _ => of_one (encode_li _ _ _)
theorem lih : ∀ v0 v1 v2, Statement (.lih v0 v1 v2) := fun _ _ _ => of_one (encode_lih _ _ _)
theorem clz : ∀ v0 v1 v2, Statement (.clz v0 v1 v2) := fun _ _ _ => of_one (encode_clz _ _ _)
theorem ctz : ∀ v0 v1 v2, Statement (.ctz v0 v1 v2) := fun _ _ _ => of_one (encode_ctz _ _ _)
theorem popc : ∀ v0 v1 v2, Statement (.popc v0 v1 v2) := fun _ _ _ => of_one (encode_popc _ _ _)
theorem brev : ∀ v0 v1 v2, Statement (.brev v0 v1 v2) := fun _ _ _ => of_one (encode_brev _ _ _)
theorem bswap : ∀ v0 v1 v2, Statement (.bswap v0 v1 v2) := fun _ _ _ => of_one (encode_bswap _ _ _)
theorem ext : ∀ v0 v1 v2 v3 v4, Statement (.ext v0 v1 v2 v3 v4) := fun _ _ _ _ _ => of_one (encode_ext _ _ _ _ _)
theorem ins : ∀ v0 v1 v2 v3 v4, Statement (.ins v0 v1 v2 v3 v4) := fun _ _ _ _ _ => of_one (encode_ins _ _ _ _ _)
theorem cmp : ∀ v0 v1 v2 v3 v4, Statement (.cmp v0 v1 v2 v3 v4) := fun _ _ _ _ _ => of_one (encode_cmp _ _ _ _ _)
theorem cmpi : ∀ v0 v1 v2 v3 v4, Statement (.cmpi v0 v1 v2 v3 v4) := fun _ _ _ _ _ => of_one (encode_cmpi _ _ _ _ _)
theorem sel : ∀ v0 v1 v2 v3 v4, Statement (.sel v0 v1 v2 v3 v4) := fun _ _ _ _ _ => of_one (encode_sel _ _ _ _ _)
theorem pand : ∀ v0 v1 v2 v3, Statement (.pand v0 v1 v2 v3) := fun _ _ _ _ => of_one (encode_pand _ _ _ _)
theorem por : ∀ v0 v1 v2 v3, Statement (.por v0 v1 v2 v3) := fun _ _ _ _ => of_one (encode_por _ _ _ _)
theorem pxor : ∀ v0 v1 v2 v3, Statement (.pxor v0 v1 v2 v3) := fun _ _ _ _ => of_one (encode_pxor _ _ _ _)
theorem pandn : ∀ v0 v1 v2 v3, Statement (.pandn v0 v1 v2 v3) := fun _ _ _ _ => of_one (encode_pandn _ _ _ _)
theorem pnot : ∀ v0 v1 v2, Statement (.pnot v0 v1 v2) := fun _ _ _ => of_one (encode_pnot _ _ _)
theorem pmov : ∀ v0 v1 v2, Statement (.pmov v0 v1 v2) := fun _ _ _ => of_one (encode_pmov _ _ _)
theorem call : ∀ v0 v1 v2, Statement (.call v0 v1 v2) := fun _ _ _ => of_one (encode_call _ _ _)
theorem callr : ∀ v0 v1 v2, Statement (.callr v0 v1 v2) := fun _ _ _ => of_one (encode_callr _ _ _)
theorem ret : ∀ v0 v1, Statement (.ret v0 v1) := fun _ _ => of_one (encode_ret _ _)
theorem jmpr : ∀ v0 v1, Statement (.jmpr v0 v1) := fun _ _ => of_one (encode_jmpr _ _)
theorem ld : ∀ v0 v1 v2 v3 v4 v5, Statement (.ld v0 v1 v2 v3 v4 v5) :=
  fun _ _ _ _ _ _ => of_one (encode_ld _ _ _ _ _ _)
theorem st : ∀ v0 v1 v2 v3 v4 v5, Statement (.st v0 v1 v2 v3 v4 v5) :=
  fun _ _ _ _ _ _ => of_one (encode_st _ _ _ _ _ _)
theorem stCoil : ∀ v0 v1 v2 v3 v4 v5, Statement (.stCoil v0 v1 v2 v3 v4 v5) :=
  fun _ _ _ _ _ _ => of_one (encode_stCoil _ _ _ _ _ _)
theorem ldm : ∀ v0 v1 v2 v3 v4 v5 v6, Statement (.ldm v0 v1 v2 v3 v4 v5 v6) :=
  fun _ _ _ _ _ _ _ => of_one (encode_ldm _ _ _ _ _ _ _)
theorem stm : ∀ v0 v1 v2 v3 v4 v5 v6, Statement (.stm v0 v1 v2 v3 v4 v5 v6) :=
  fun _ _ _ _ _ _ _ => of_one (encode_stm _ _ _ _ _ _ _)
theorem trap : ∀ v0 v1, Statement (.trap v0 v1) := fun _ _ => of_one (encode_trap _ _)
theorem hset : ∀ v0 v1 v2, Statement (.hset v0 v1 v2) := fun _ _ _ => of_one (encode_hset _ _ _)
theorem resume : ∀ v0, Statement (.resume v0) := fun _ => of_one (encode_resume _)
theorem sysc : ∀ v0 v1 v2 v3, Statement (.sysc v0 v1 v2 v3) := fun _ _ _ _ => of_one (encode_sysc _ _ _ _)
theorem amo : ∀ v0 v1 v2 v3 v4 v5 v6, Statement (.amo v0 v1 v2 v3 v4 v5 v6) :=
  fun _ _ _ _ _ _ _ => of_one (encode_amo _ _ _ _ _ _ _)
theorem amoc : ∀ v0 v1 v2 v3 v4 v5, Statement (.amoc v0 v1 v2 v3 v4 v5) :=
  fun _ _ _ _ _ _ => of_one (encode_amoc _ _ _ _ _ _)
theorem amred : ∀ v0 v1 v2 v3 v4 v5, Statement (.amred v0 v1 v2 v3 v4 v5) :=
  fun _ _ _ _ _ _ => of_one (encode_amred _ _ _ _ _ _)
theorem avec : ∀ v0 v1 v2 v3 v4 v5 v6, Statement (.avec v0 v1 v2 v3 v4 v5 v6) :=
  fun _ _ _ _ _ _ _ => of_one (encode_avec _ _ _ _ _ _ _)
theorem waita : ∀ v0 v1 v2 v3 v4 v5, Statement (.waita v0 v1 v2 v3 v4 v5) :=
  fun _ _ _ _ _ _ => of_one (encode_waita _ _ _ _ _ _)
theorem siga : ∀ v0 v1, Statement (.siga v0 v1) := fun _ _ => of_one (encode_siga _ _)
theorem bari : ∀ v0 v1 v2, Statement (.bari v0 v1 v2) := fun _ _ _ => of_one (encode_bari _ _ _)
theorem bara : ∀ v0 v1, Statement (.bara v0 v1) := fun _ _ => of_one (encode_bara _ _)
theorem bard : ∀ v0 v1, Statement (.bard v0 v1) := fun _ _ => of_one (encode_bard _ _)
theorem barw : ∀ v0 v1 v2, Statement (.barw v0 v1 v2) := fun _ _ _ => of_one (encode_barw _ _ _)
theorem afence : ∀ v0 v1 v2, Statement (.afence v0 v1 v2) := fun _ _ _ => of_one (encode_afence _ _ _)
theorem cnew : ∀ v0 v1 v2, Statement (.cnew v0 v1 v2) := fun _ _ _ => of_one (encode_cnew _ _ _)
theorem cres : ∀ v0 v1 v2 v3, Statement (.cres v0 v1 v2 v3) := fun _ _ _ _ => of_one (encode_cres _ _ _ _)
theorem caddr : ∀ v0 v1 v2 v3, Statement (.caddr v0 v1 v2 v3) := fun _ _ _ _ => of_one (encode_caddr _ _ _ _)
theorem ccommit : ∀ v0 v1 v2 v3, Statement (.ccommit v0 v1 v2 v3) := fun _ _ _ _ => of_one (encode_ccommit _ _ _ _)
theorem clen : ∀ v0 v1 v2, Statement (.clen v0 v1 v2) := fun _ _ _ => of_one (encode_clen _ _ _)
theorem cfork : ∀ v0 v1 v2 v3, Statement (.cfork v0 v1 v2 v3) := fun _ _ _ _ => of_one (encode_cfork _ _ _ _)
theorem cdrop : ∀ v0 v1, Statement (.cdrop v0 v1) := fun _ _ => of_one (encode_cdrop _ _)
theorem cinfo : ∀ v0 v1 v2 v3, Statement (.cinfo v0 v1 v2 v3) := fun _ _ _ _ => of_one (encode_cinfo _ _ _ _)
theorem sqpush : ∀ v0 v1 v2 v3, Statement (.sqpush v0 v1 v2 v3) := fun _ _ _ _ => of_one (encode_sqpush _ _ _ _)
theorem yield : ∀ v0, Statement (.yield v0) := fun _ => of_one (encode_yield _)
theorem launch : ∀ v0 v1 v2, Statement (.launch v0 v1 v2) := fun _ _ _ => of_one (encode_launch _ _ _)
theorem cancel : ∀ v0 v1 v2, Statement (.cancel v0 v1 v2) := fun _ _ _ => of_one (encode_cancel _ _ _)
theorem ccnt : ∀ v0 v1 v2 v3, Statement (.ccnt v0 v1 v2 v3) := fun _ _ _ _ => of_one (encode_ccnt _ _ _ _)
theorem plan : ∀ v0 v1 v2 v3, Statement (.plan v0 v1 v2 v3) := fun _ _ _ _ => of_one (encode_plan _ _ _ _)
theorem phint : ∀ v0 v1 v2, Statement (.phint v0 v1 v2) := fun _ _ _ => of_one (encode_phint _ _ _)
theorem aadd : ∀ v0 v1 v2 v3, Statement (.aadd v0 v1 v2 v3) := fun _ _ _ _ => of_one (encode_aadd _ _ _ _)
theorem asub : ∀ v0 v1 v2 v3, Statement (.asub v0 v1 v2 v3) := fun _ _ _ _ => of_one (encode_asub _ _ _ _)
theorem amul : ∀ v0 v1 v2 v3, Statement (.amul v0 v1 v2 v3) := fun _ _ _ _ => of_one (encode_amul _ _ _ _)
theorem amadd : ∀ v0 v1 v2 v3, Statement (.amadd v0 v1 v2 v3) := fun _ _ _ _ => of_one (encode_amadd _ _ _ _)
theorem amov : ∀ v0 v1 v2, Statement (.amov v0 v1 v2) := fun _ _ _ => of_one (encode_amov _ _ _)
theorem aaddi : ∀ v0 v1 v2 v3, Statement (.aaddi v0 v1 v2 v3) := fun _ _ _ _ => of_one (encode_aaddi _ _ _ _)
theorem ashli : ∀ v0 v1 v2 v3, Statement (.ashli v0 v1 v2 v3) := fun _ _ _ _ => of_one (encode_ashli _ _ _ _)
theorem ali : ∀ v0 v1 v2, Statement (.ali v0 v1 v2) := fun _ _ _ => of_one (encode_ali _ _ _)
theorem alih : ∀ v0 v1 v2, Statement (.alih v0 v1 v2) := fun _ _ _ => of_one (encode_alih _ _ _)
theorem acmp : ∀ v0 v1 v2 v3 v4, Statement (.acmp v0 v1 v2 v3 v4) := fun _ _ _ _ _ => of_one (encode_acmp _ _ _ _ _)
theorem acmpi : ∀ v0 v1 v2 v3 v4, Statement (.acmpi v0 v1 v2 v3 v4) :=
  fun _ _ _ _ _ => of_one (encode_acmpi _ _ _ _ _)
theorem lda : ∀ v0 v1 v2 v3 v4, Statement (.lda v0 v1 v2 v3 v4) := fun _ _ _ _ _ => of_one (encode_lda _ _ _ _ _)
theorem sta : ∀ v0 v1 v2 v3 v4, Statement (.sta v0 v1 v2 v3 v4) := fun _ _ _ _ _ => of_one (encode_sta _ _ _ _ _)
theorem mapset : ∀ v0 v1 v2, Statement (.mapset v0 v1 v2) := fun _ _ _ => of_four (encode_mapset _ _ _)
theorem mapofs : ∀ v0 v1 v2, Statement (.mapofs v0 v1 v2) := fun _ _ _ => of_one (encode_mapofs _ _ _)
theorem tld : ∀ v0 v1 v2 v3 v4 v5 v6 v7, Statement (.tld v0 v1 v2 v3 v4 v5 v6 v7) :=
  fun _ _ _ _ _ _ _ _ => of_two (encode_tld _ _ _ _ _ _ _ _)
theorem tst : ∀ v0 v1 v2 v3 v4 v5 v6 v7, Statement (.tst v0 v1 v2 v3 v4 v5 v6 v7) :=
  fun _ _ _ _ _ _ _ _ => of_two (encode_tst _ _ _ _ _ _ _ _)
theorem tstCoil : ∀ v0 v1 v2 v3 v4 v5 v6 v7, Statement (.tstCoil v0 v1 v2 v3 v4 v5 v6 v7) :=
  fun _ _ _ _ _ _ _ _ => of_two (encode_tstCoil _ _ _ _ _ _ _ _)
theorem tcpy : ∀ v0 v1 v2 v3 v4 v5 v6 v7 v8, Statement (.tcpy v0 v1 v2 v3 v4 v5 v6 v7 v8) :=
  fun _ _ _ _ _ _ _ _ _ => of_two (encode_tcpy _ _ _ _ _ _ _ _ _)
theorem tgth : ∀ v0 v1 v2 v3 v4 v5 v6 v7 v8, Statement (.tgth v0 v1 v2 v3 v4 v5 v6 v7 v8) :=
  fun _ _ _ _ _ _ _ _ _ => of_two (encode_tgth _ _ _ _ _ _ _ _ _)
theorem tsct : ∀ v0 v1 v2 v3 v4 v5 v6 v7 v8, Statement (.tsct v0 v1 v2 v3 v4 v5 v6 v7 v8) :=
  fun _ _ _ _ _ _ _ _ _ => of_two (encode_tsct _ _ _ _ _ _ _ _ _)
theorem tzero : ∀ v0 v1 v2 v3 v4 v5, Statement (.tzero v0 v1 v2 v3 v4 v5) :=
  fun _ _ _ _ _ _ => of_two (encode_tzero _ _ _ _ _ _)
theorem tprf : ∀ v0 v1 v2 v3 v4, Statement (.tprf v0 v1 v2 v3 v4) := fun _ _ _ _ _ => of_one (encode_tprf _ _ _ _ _)
theorem rcpyWr : ∀ v0 v1 v2 v3 v4 v5, Statement (.rcpyWr v0 v1 v2 v3 v4 v5) :=
  fun _ _ _ _ _ _ => of_two (encode_rcpyWr _ _ _ _ _ _)
theorem rcpyRd : ∀ v0 v1 v2 v3 v4 v5, Statement (.rcpyRd v0 v1 v2 v3 v4 v5) :=
  fun _ _ _ _ _ _ => of_two (encode_rcpyRd _ _ _ _ _ _)
theorem rsig : ∀ v0 v1 v2, Statement (.rsig v0 v1 v2) := fun _ _ _ => of_one (encode_rsig _ _ _)
theorem caddrLs : ∀ v0 v1 v2 v3, Statement (.caddrLs v0 v1 v2 v3) := fun _ _ _ _ => of_one (encode_caddrLs _ _ _ _)
theorem mlw : ∀ v0 v1 v2 v3 v4, Statement (.mlw v0 v1 v2 v3 v4) := fun _ _ _ _ _ => of_two (encode_mlw _ _ _ _ _)
theorem mma : ∀ v0 v1 v2 v3 v4 v5 v6 v7, Statement (.mma v0 v1 v2 v3 v4 v5 v6 v7) :=
  fun _ _ _ _ _ _ _ _ => of_two (encode_mma _ _ _ _ _ _ _ _)
theorem mmac : ∀ v0 v1 v2 v3 v4 v5 v6 v7, Statement (.mmac v0 v1 v2 v3 v4 v5 v6 v7) :=
  fun _ _ _ _ _ _ _ _ => of_two (encode_mmac _ _ _ _ _ _ _ _)
theorem mzero : ∀ v0 v1 v2 v3, Statement (.mzero v0 v1 v2 v3) := fun _ _ _ _ => of_two (encode_mzero _ _ _ _)
theorem mdrain : ∀ v0 v1 v2 v3 v4 v5 v6, Statement (.mdrain v0 v1 v2 v3 v4 v5 v6) :=
  fun _ _ _ _ _ _ _ => of_two (encode_mdrain _ _ _ _ _ _ _)
theorem mdrainx : ∀ v0 v1 v2 v3 v4 v5 v6, Statement (.mdrainx v0 v1 v2 v3 v4 v5 v6) :=
  fun _ _ _ _ _ _ _ => of_two (encode_mdrainx _ _ _ _ _ _ _)
theorem mfact : ∀ v0 v1 v2 v3 v4, Statement (.mfact v0 v1 v2 v3 v4) :=
  fun _ _ _ _ _ => of_two (encode_mfact _ _ _ _ _)
theorem mstat : ∀ v0 v1, Statement (.mstat v0 v1) := fun _ _ => of_one (encode_mstat _ _)
theorem tred : ∀ v0 v1 v2 v3 v4 v5 v6 v7 v8, Statement (.tred v0 v1 v2 v3 v4 v5 v6 v7 v8) :=
  fun _ _ _ _ _ _ _ _ _ => of_two (encode_tred _ _ _ _ _ _ _ _ _)
theorem tpass : ∀ v0 v1 v2 v3 v4 v5 v6, Statement (.tpass v0 v1 v2 v3 v4 v5 v6) :=
  fun _ _ _ _ _ _ _ => of_two (encode_tpass _ _ _ _ _ _ _)
theorem attn : ∀ v0 v1 v2, Statement (.attn v0 v1 v2) := fun _ _ _ => of_two (encode_attn _ _ _)
theorem attnm : ∀ v0 v1 v2, Statement (.attnm v0 v1 v2) := fun _ _ _ => of_two (encode_attnm _ _ _)
theorem pbind : ∀ v0 v1 v2, Statement (.pbind v0 v1 v2) := fun _ _ _ => of_one (encode_pbind _ _ _)
theorem pbindTable : ∀ v0 v1 v2, Statement (.pbindTable v0 v1 v2) := fun _ _ _ => of_one (encode_pbindTable _ _ _)
theorem pstate : ∀ v0 v1 v2, Statement (.pstate v0 v1 v2) := fun _ _ _ => of_one (encode_pstate _ _ _)
theorem fadd : ∀ v0 v1 v2, Statement (.fadd v0 v1 v2) := fun _ _ _ => fun _ h => (Bool.false_ne_true h).elim
theorem fsub : ∀ v0 v1 v2, Statement (.fsub v0 v1 v2) := fun _ _ _ => fun _ h => (Bool.false_ne_true h).elim
theorem fmul : ∀ v0 v1 v2, Statement (.fmul v0 v1 v2) := fun _ _ _ => fun _ h => (Bool.false_ne_true h).elim
theorem ffma : ∀ v0 v1 v2 v3, Statement (.ffma v0 v1 v2 v3) := fun _ _ _ _ => fun _ h => (Bool.false_ne_true h).elim
theorem fmax : ∀ v0 v1 v2, Statement (.fmax v0 v1 v2) := fun _ _ _ => fun _ h => (Bool.false_ne_true h).elim
theorem fmin : ∀ v0 v1 v2, Statement (.fmin v0 v1 v2) := fun _ _ _ => fun _ h => (Bool.false_ne_true h).elim
theorem fabs : ∀ v0 v1, Statement (.fabs v0 v1) := fun _ _ => fun _ h => (Bool.false_ne_true h).elim
theorem fneg : ∀ v0 v1, Statement (.fneg v0 v1) := fun _ _ => fun _ h => (Bool.false_ne_true h).elim
theorem fcmp : ∀ v0 v1 v2 v3, Statement (.fcmp v0 v1 v2 v3) := fun _ _ _ _ => fun _ h => (Bool.false_ne_true h).elim
theorem fsel : ∀ v0 v1 v2 v3, Statement (.fsel v0 v1 v2 v3) := fun _ _ _ _ => fun _ h => (Bool.false_ne_true h).elim
theorem frcp : ∀ v0 v1, Statement (.frcp v0 v1) := fun _ _ => fun _ h => (Bool.false_ne_true h).elim
theorem frsq : ∀ v0 v1, Statement (.frsq v0 v1) := fun _ _ => fun _ h => (Bool.false_ne_true h).elim
theorem fexp2 : ∀ v0 v1, Statement (.fexp2 v0 v1) := fun _ _ => fun _ h => (Bool.false_ne_true h).elim
theorem flog2 : ∀ v0 v1, Statement (.flog2 v0 v1) := fun _ _ => fun _ h => (Bool.false_ne_true h).elim
theorem fcvt : ∀ v0 v1 v2 v3, Statement (.fcvt v0 v1 v2 v3) := fun _ _ _ _ => fun _ h => (Bool.false_ne_true h).elim
theorem tbl : ∀ v0 v1 v2, Statement (.tbl v0 v1 v2) := fun _ _ _ => fun _ h => (Bool.false_ne_true h).elim
theorem iadd : ∀ v0 v1 v2, Statement (.iadd v0 v1 v2) := fun _ _ _ => fun _ h => (Bool.false_ne_true h).elim
theorem isub : ∀ v0 v1 v2, Statement (.isub v0 v1 v2) := fun _ _ _ => fun _ h => (Bool.false_ne_true h).elim
theorem imul : ∀ v0 v1 v2, Statement (.imul v0 v1 v2) := fun _ _ _ => fun _ h => (Bool.false_ne_true h).elim
theorem iand : ∀ v0 v1 v2, Statement (.iand v0 v1 v2) := fun _ _ _ => fun _ h => (Bool.false_ne_true h).elim
theorem ior : ∀ v0 v1 v2, Statement (.ior v0 v1 v2) := fun _ _ _ => fun _ h => (Bool.false_ne_true h).elim
theorem ixor : ∀ v0 v1 v2, Statement (.ixor v0 v1 v2) := fun _ _ _ => fun _ h => (Bool.false_ne_true h).elim
theorem ishl : ∀ v0 v1 v2, Statement (.ishl v0 v1 v2) := fun _ _ _ => fun _ h => (Bool.false_ne_true h).elim
theorem ishr : ∀ v0 v1 v2, Statement (.ishr v0 v1 v2) := fun _ _ _ => fun _ h => (Bool.false_ne_true h).elim
theorem kld : ∀ v0 v1, Statement (.kld v0 v1) := fun _ _ => fun _ h => (Bool.false_ne_true h).elim
theorem kst : ∀ v0 v1, Statement (.kst v0 v1) := fun _ _ => fun _ h => (Bool.false_ne_true h).elim
theorem lag : ∀ v0 v1 v2, Statement (.lag v0 v1 v2) := fun _ _ _ => fun _ h => (Bool.false_ne_true h).elim
theorem emit : ∀ v0, Statement (.emit v0) := fun _ => fun _ h => (Bool.false_ne_true h).elim
theorem emitLast : ∀ v0, Statement (.emitLast v0) := fun _ => fun _ h => (Bool.false_ne_true h).elim
theorem tap : ∀ v0 v1, Statement (.tap v0 v1) := fun _ _ => fun _ h => (Bool.false_ne_true h).elim
theorem drop : ∀ v0, Statement (.drop v0) := fun _ => fun _ h => (Bool.false_ne_true h).elim
theorem eflt : ∀ v0 v1, Statement (.eflt v0 v1) := fun _ _ => fun _ h => (Bool.false_ne_true h).elim
theorem efltFp : ∀ v0, Statement (.efltFp v0) := fun _ => fun _ h => (Bool.false_ne_true h).elim

end Sys2Proof.Laws.EncodedLength
end

