-- ==== Sys2Proof/Laws/Scalar.lean ====
section
/-! SUPPORT. Laws/Scalar: the shapes of K's instructions: an x register, a predicate, a jump. -/

set_option Elab.async false

namespace Sys2Proof

open Machine

theorem runX_next {h : Hdr} {d : BitVec 6} {f : CoreSt → Word} {s : State} {v : Word} (hq : s.cur.2 = .k)
    (hr : Ready s h) (hv : f (here (popped s h)) = v) :
    runX h d f s = .next (retire (onHere (popped s h) fun c => c.setX d v) h (after s 8)) := by
  apply runSeq_update (by rw [hq]; rfl) hr (by simp) _ (calm_setX d v)
  have e : onHere (popped s h) (fun c => c.setX d (f c)) = onHere (popped s h) fun c => c.setX d v :=
    onHere_congr _ (by simp [hv])
  rw [← e]; rfl

theorem runP_next {h : Hdr} {p : BitVec 5} {f : CoreSt → Bool} {s : State} {v : Bool} (hq : s.cur.2 = .k)
    (hr : Ready s h) (hv : f (here (popped s h)) = v) :
    runP h p f s = .next (retire (onHere (popped s h) fun c => c.setPred s.cur.2 p v) h (after s 8)) := by
  apply runSeq_update (by rw [hq]; rfl) hr (by simp) _ (calm_setPred _ p v)
  have e : onHere (popped s h) (fun c => c.setPred .k p (f c)) = onHere (popped s h) fun c => c.setPred s.cur.2 p v :=
    onHere_congr _ (by simp [hv, hq])
  rw [← e]; rfl

theorem jump_run {b : BitVec 6} {s : State} (ha : ((here s).x b).toNat % 8 = 0) :
    (jumpTo b).run s = .ok ({ next := some ((here s).x b) }, s) := by
  unfold jumpTo
  have : (xOf b).run s = .ok ((here s).x b, s) := rfl
  rw [run_bind this, run_bind (run_aligned ha s)]; rfl

end Sys2Proof
end

