-- ==== Sys2Proof/Laws/State.lean ====
section
/-! SUPPORT. Laws/State: what each basic update of the state, and of a core, leaves in every field. -/

namespace Sys2Proof.Machine

/-! State.setCore -/

@[simp] theorem State.setCore_sched (s : State) (n : Nat) (c : CoreSt) : (s.setCore n c).sched = s.sched := rfl
@[simp] theorem State.setCore_cur (s : State) (n : Nat) (c : CoreSt) : (s.setCore n c).cur = s.cur := rfl
@[simp] theorem State.setCore_todo (s : State) (n : Nat) (c : CoreSt) : (s.setCore n c).todo = s.todo := rfl
@[simp] theorem State.setCore_fresh (s : State) (n : Nat) (c : CoreSt) : (s.setCore n c).fresh = s.fresh := rfl
@[simp] theorem State.setCore_ppass (s : State) (n : Nat) (c : CoreSt) : (s.setCore n c).ppass = s.ppass := rfl
@[simp] theorem State.setCore_cycle (s : State) (n : Nat) (c : CoreSt) : (s.setCore n c).cycle = s.cycle := rfl
@[simp] theorem State.setCore_semAdds (s : State) (n : Nat) (c : CoreSt) : (s.setCore n c).semAdds = s.semAdds := rfl
@[simp] theorem State.setCore_semBase (s : State) (n : Nat) (c : CoreSt) : (s.setCore n c).semBase = s.semBase := rfl
@[simp] theorem State.setCore_semSets (s : State) (n : Nat) (c : CoreSt) : (s.setCore n c).semSets = s.semSets := rfl
@[simp] theorem State.setCore_semOld (s : State) (n : Nat) (c : CoreSt) : (s.setCore n c).semOld = s.semOld := rfl
@[simp] theorem State.setCore_endLog (s : State) (n : Nat) (c : CoreSt) : (s.setCore n c).endLog = s.endLog := rfl
@[simp] theorem State.setCore_lastAct (s : State) (n : Nat) (c : CoreSt) : (s.setCore n c).lastAct = s.lastAct := rfl
@[simp] theorem State.setCore_mtsLog (s : State) (n : Nat) (c : CoreSt) : (s.setCore n c).mtsLog = s.mtsLog := rfl
@[simp] theorem State.setCore_memory (s : State) (n : Nat) (c : CoreSt) : (s.setCore n c).memory = s.memory := rfl
@[simp] theorem State.setCore_keys (s : State) (n : Nat) (c : CoreSt) : (s.setCore n c).keys = s.keys := rfl
@[simp] theorem State.setCore_jobs (s : State) (n : Nat) (c : CoreSt) : (s.setCore n c).jobs = s.jobs := rfl
@[simp] theorem State.setCore_queues (s : State) (n : Nat) (c : CoreSt) : (s.setCore n c).queues = s.queues := rfl
@[simp] theorem State.setCore_recent (s : State) (n : Nat) (c : CoreSt) : (s.setCore n c).recent = s.recent := rfl
@[simp] theorem State.setCore_disp (s : State) (n : Nat) (c : CoreSt) : (s.setCore n c).disp = s.disp := rfl
@[simp] theorem State.setCore_engines (s : State) (n : Nat) (c : CoreSt) : (s.setCore n c).engines = s.engines := rfl
@[simp] theorem State.setCore_xwait (s : State) (n : Nat) (c : CoreSt) : (s.setCore n c).xwait = s.xwait := rfl
@[simp] theorem State.setCore_boot (s : State) (n : Nat) (c : CoreSt) : (s.setCore n c).boot = s.boot := rfl
@[simp] theorem State.setCore_mon (s : State) (n : Nat) (c : CoreSt) : (s.setCore n c).mon = s.mon := rfl
@[simp] theorem State.setCore_flows (s : State) (n : Nat) (c : CoreSt) : (s.setCore n c).flows = s.flows := rfl
@[simp] theorem State.setCore_held (s : State) (n : Nat) (c : CoreSt) : (s.setCore n c).held = s.held := rfl
@[simp] theorem State.setCore_xlat (s : State) (n : Nat) (c : CoreSt) : (s.setCore n c).xlat = s.xlat := rfl
@[simp] theorem State.setCore_reqs (s : State) (n : Nat) (c : CoreSt) : (s.setCore n c).reqs = s.reqs := rfl
@[simp] theorem State.setCore_outputs (s : State) (n : Nat) (c : CoreSt) : (s.setCore n c).outputs = s.outputs := rfl
@[simp] theorem State.setCore_errors (s : State) (n : Nat) (c : CoreSt) : (s.setCore n c).errors = s.errors := rfl

/-! State.modCore -/

@[simp] theorem State.modCore_sched (s : State) (n : Nat) (f : CoreSt → CoreSt) : (s.modCore n f).sched = s.sched := rfl
@[simp] theorem State.modCore_cur (s : State) (n : Nat) (f : CoreSt → CoreSt) : (s.modCore n f).cur = s.cur := rfl
@[simp] theorem State.modCore_todo (s : State) (n : Nat) (f : CoreSt → CoreSt) : (s.modCore n f).todo = s.todo := rfl
@[simp] theorem State.modCore_fresh (s : State) (n : Nat) (f : CoreSt → CoreSt) : (s.modCore n f).fresh = s.fresh := rfl
@[simp] theorem State.modCore_ppass (s : State) (n : Nat) (f : CoreSt → CoreSt) : (s.modCore n f).ppass = s.ppass := rfl
@[simp] theorem State.modCore_cycle (s : State) (n : Nat) (f : CoreSt → CoreSt) : (s.modCore n f).cycle = s.cycle := rfl
@[simp] theorem State.modCore_semAdds (s : State) (n : Nat) (f : CoreSt → CoreSt) : (s.modCore n f).semAdds = s.semAdds := rfl
@[simp] theorem State.modCore_semBase (s : State) (n : Nat) (f : CoreSt → CoreSt) : (s.modCore n f).semBase = s.semBase := rfl
@[simp] theorem State.modCore_semSets (s : State) (n : Nat) (f : CoreSt → CoreSt) : (s.modCore n f).semSets = s.semSets := rfl
@[simp] theorem State.modCore_semOld (s : State) (n : Nat) (f : CoreSt → CoreSt) : (s.modCore n f).semOld = s.semOld := rfl
@[simp] theorem State.modCore_endLog (s : State) (n : Nat) (f : CoreSt → CoreSt) : (s.modCore n f).endLog = s.endLog := rfl
@[simp] theorem State.modCore_lastAct (s : State) (n : Nat) (f : CoreSt → CoreSt) : (s.modCore n f).lastAct = s.lastAct := rfl
@[simp] theorem State.modCore_mtsLog (s : State) (n : Nat) (f : CoreSt → CoreSt) : (s.modCore n f).mtsLog = s.mtsLog := rfl
@[simp] theorem State.modCore_memory (s : State) (n : Nat) (f : CoreSt → CoreSt) : (s.modCore n f).memory = s.memory := rfl
@[simp] theorem State.modCore_keys (s : State) (n : Nat) (f : CoreSt → CoreSt) : (s.modCore n f).keys = s.keys := rfl
@[simp] theorem State.modCore_jobs (s : State) (n : Nat) (f : CoreSt → CoreSt) : (s.modCore n f).jobs = s.jobs := rfl
@[simp] theorem State.modCore_queues (s : State) (n : Nat) (f : CoreSt → CoreSt) : (s.modCore n f).queues = s.queues := rfl
@[simp] theorem State.modCore_recent (s : State) (n : Nat) (f : CoreSt → CoreSt) : (s.modCore n f).recent = s.recent := rfl
@[simp] theorem State.modCore_disp (s : State) (n : Nat) (f : CoreSt → CoreSt) : (s.modCore n f).disp = s.disp := rfl
@[simp] theorem State.modCore_engines (s : State) (n : Nat) (f : CoreSt → CoreSt) : (s.modCore n f).engines = s.engines := rfl
@[simp] theorem State.modCore_xwait (s : State) (n : Nat) (f : CoreSt → CoreSt) : (s.modCore n f).xwait = s.xwait := rfl
@[simp] theorem State.modCore_boot (s : State) (n : Nat) (f : CoreSt → CoreSt) : (s.modCore n f).boot = s.boot := rfl
@[simp] theorem State.modCore_mon (s : State) (n : Nat) (f : CoreSt → CoreSt) : (s.modCore n f).mon = s.mon := rfl
@[simp] theorem State.modCore_flows (s : State) (n : Nat) (f : CoreSt → CoreSt) : (s.modCore n f).flows = s.flows := rfl
@[simp] theorem State.modCore_held (s : State) (n : Nat) (f : CoreSt → CoreSt) : (s.modCore n f).held = s.held := rfl
@[simp] theorem State.modCore_xlat (s : State) (n : Nat) (f : CoreSt → CoreSt) : (s.modCore n f).xlat = s.xlat := rfl
@[simp] theorem State.modCore_reqs (s : State) (n : Nat) (f : CoreSt → CoreSt) : (s.modCore n f).reqs = s.reqs := rfl
@[simp] theorem State.modCore_outputs (s : State) (n : Nat) (f : CoreSt → CoreSt) : (s.modCore n f).outputs = s.outputs := rfl
@[simp] theorem State.modCore_errors (s : State) (n : Nat) (f : CoreSt → CoreSt) : (s.modCore n f).errors = s.errors := rfl

/-! State.setJob -/

@[simp] theorem State.setJob_sched (s : State) (j : Nat) (v : Job) : (s.setJob j v).sched = s.sched := rfl
@[simp] theorem State.setJob_cur (s : State) (j : Nat) (v : Job) : (s.setJob j v).cur = s.cur := rfl
@[simp] theorem State.setJob_todo (s : State) (j : Nat) (v : Job) : (s.setJob j v).todo = s.todo := rfl
@[simp] theorem State.setJob_fresh (s : State) (j : Nat) (v : Job) : (s.setJob j v).fresh = s.fresh := rfl
@[simp] theorem State.setJob_ppass (s : State) (j : Nat) (v : Job) : (s.setJob j v).ppass = s.ppass := rfl
@[simp] theorem State.setJob_cycle (s : State) (j : Nat) (v : Job) : (s.setJob j v).cycle = s.cycle := rfl
@[simp] theorem State.setJob_semAdds (s : State) (j : Nat) (v : Job) : (s.setJob j v).semAdds = s.semAdds := rfl
@[simp] theorem State.setJob_semBase (s : State) (j : Nat) (v : Job) : (s.setJob j v).semBase = s.semBase := rfl
@[simp] theorem State.setJob_semSets (s : State) (j : Nat) (v : Job) : (s.setJob j v).semSets = s.semSets := rfl
@[simp] theorem State.setJob_semOld (s : State) (j : Nat) (v : Job) : (s.setJob j v).semOld = s.semOld := rfl
@[simp] theorem State.setJob_endLog (s : State) (j : Nat) (v : Job) : (s.setJob j v).endLog = s.endLog := rfl
@[simp] theorem State.setJob_lastAct (s : State) (j : Nat) (v : Job) : (s.setJob j v).lastAct = s.lastAct := rfl
@[simp] theorem State.setJob_mtsLog (s : State) (j : Nat) (v : Job) : (s.setJob j v).mtsLog = s.mtsLog := rfl
@[simp] theorem State.setJob_cores (s : State) (j : Nat) (v : Job) : (s.setJob j v).cores = s.cores := rfl
@[simp] theorem State.setJob_memory (s : State) (j : Nat) (v : Job) : (s.setJob j v).memory = s.memory := rfl
@[simp] theorem State.setJob_keys (s : State) (j : Nat) (v : Job) : (s.setJob j v).keys = s.keys := rfl
@[simp] theorem State.setJob_queues (s : State) (j : Nat) (v : Job) : (s.setJob j v).queues = s.queues := rfl
@[simp] theorem State.setJob_recent (s : State) (j : Nat) (v : Job) : (s.setJob j v).recent = s.recent := rfl
@[simp] theorem State.setJob_disp (s : State) (j : Nat) (v : Job) : (s.setJob j v).disp = s.disp := rfl
@[simp] theorem State.setJob_engines (s : State) (j : Nat) (v : Job) : (s.setJob j v).engines = s.engines := rfl
@[simp] theorem State.setJob_xwait (s : State) (j : Nat) (v : Job) : (s.setJob j v).xwait = s.xwait := rfl
@[simp] theorem State.setJob_boot (s : State) (j : Nat) (v : Job) : (s.setJob j v).boot = s.boot := rfl
@[simp] theorem State.setJob_mon (s : State) (j : Nat) (v : Job) : (s.setJob j v).mon = s.mon := rfl
@[simp] theorem State.setJob_flows (s : State) (j : Nat) (v : Job) : (s.setJob j v).flows = s.flows := rfl
@[simp] theorem State.setJob_held (s : State) (j : Nat) (v : Job) : (s.setJob j v).held = s.held := rfl
@[simp] theorem State.setJob_xlat (s : State) (j : Nat) (v : Job) : (s.setJob j v).xlat = s.xlat := rfl
@[simp] theorem State.setJob_reqs (s : State) (j : Nat) (v : Job) : (s.setJob j v).reqs = s.reqs := rfl
@[simp] theorem State.setJob_outputs (s : State) (j : Nat) (v : Job) : (s.setJob j v).outputs = s.outputs := rfl
@[simp] theorem State.setJob_errors (s : State) (j : Nat) (v : Job) : (s.setJob j v).errors = s.errors := rfl

/-! State.setWq -/

@[simp] theorem State.setWq_sched (s : State) (q : Nat) (v : WQ) : (s.setWq q v).sched = s.sched := rfl
@[simp] theorem State.setWq_cur (s : State) (q : Nat) (v : WQ) : (s.setWq q v).cur = s.cur := rfl
@[simp] theorem State.setWq_todo (s : State) (q : Nat) (v : WQ) : (s.setWq q v).todo = s.todo := rfl
@[simp] theorem State.setWq_fresh (s : State) (q : Nat) (v : WQ) : (s.setWq q v).fresh = s.fresh := rfl
@[simp] theorem State.setWq_ppass (s : State) (q : Nat) (v : WQ) : (s.setWq q v).ppass = s.ppass := rfl
@[simp] theorem State.setWq_cycle (s : State) (q : Nat) (v : WQ) : (s.setWq q v).cycle = s.cycle := rfl
@[simp] theorem State.setWq_semAdds (s : State) (q : Nat) (v : WQ) : (s.setWq q v).semAdds = s.semAdds := rfl
@[simp] theorem State.setWq_semBase (s : State) (q : Nat) (v : WQ) : (s.setWq q v).semBase = s.semBase := rfl
@[simp] theorem State.setWq_semSets (s : State) (q : Nat) (v : WQ) : (s.setWq q v).semSets = s.semSets := rfl
@[simp] theorem State.setWq_semOld (s : State) (q : Nat) (v : WQ) : (s.setWq q v).semOld = s.semOld := rfl
@[simp] theorem State.setWq_endLog (s : State) (q : Nat) (v : WQ) : (s.setWq q v).endLog = s.endLog := rfl
@[simp] theorem State.setWq_lastAct (s : State) (q : Nat) (v : WQ) : (s.setWq q v).lastAct = s.lastAct := rfl
@[simp] theorem State.setWq_mtsLog (s : State) (q : Nat) (v : WQ) : (s.setWq q v).mtsLog = s.mtsLog := rfl
@[simp] theorem State.setWq_cores (s : State) (q : Nat) (v : WQ) : (s.setWq q v).cores = s.cores := rfl
@[simp] theorem State.setWq_memory (s : State) (q : Nat) (v : WQ) : (s.setWq q v).memory = s.memory := rfl
@[simp] theorem State.setWq_keys (s : State) (q : Nat) (v : WQ) : (s.setWq q v).keys = s.keys := rfl
@[simp] theorem State.setWq_jobs (s : State) (q : Nat) (v : WQ) : (s.setWq q v).jobs = s.jobs := rfl
@[simp] theorem State.setWq_recent (s : State) (q : Nat) (v : WQ) : (s.setWq q v).recent = s.recent := rfl
@[simp] theorem State.setWq_disp (s : State) (q : Nat) (v : WQ) : (s.setWq q v).disp = s.disp := rfl
@[simp] theorem State.setWq_engines (s : State) (q : Nat) (v : WQ) : (s.setWq q v).engines = s.engines := rfl
@[simp] theorem State.setWq_xwait (s : State) (q : Nat) (v : WQ) : (s.setWq q v).xwait = s.xwait := rfl
@[simp] theorem State.setWq_boot (s : State) (q : Nat) (v : WQ) : (s.setWq q v).boot = s.boot := rfl
@[simp] theorem State.setWq_mon (s : State) (q : Nat) (v : WQ) : (s.setWq q v).mon = s.mon := rfl
@[simp] theorem State.setWq_flows (s : State) (q : Nat) (v : WQ) : (s.setWq q v).flows = s.flows := rfl
@[simp] theorem State.setWq_held (s : State) (q : Nat) (v : WQ) : (s.setWq q v).held = s.held := rfl
@[simp] theorem State.setWq_xlat (s : State) (q : Nat) (v : WQ) : (s.setWq q v).xlat = s.xlat := rfl
@[simp] theorem State.setWq_reqs (s : State) (q : Nat) (v : WQ) : (s.setWq q v).reqs = s.reqs := rfl
@[simp] theorem State.setWq_outputs (s : State) (q : Nat) (v : WQ) : (s.setWq q v).outputs = s.outputs := rfl
@[simp] theorem State.setWq_errors (s : State) (q : Nat) (v : WQ) : (s.setWq q v).errors = s.errors := rfl

/-! State.due -/

@[simp] theorem State.due_sched (s : State) (e : Instr) : (s.due e).sched = s.sched := rfl
@[simp] theorem State.due_cur (s : State) (e : Instr) : (s.due e).cur = s.cur := rfl
@[simp] theorem State.due_fresh (s : State) (e : Instr) : (s.due e).fresh = s.fresh := rfl
@[simp] theorem State.due_ppass (s : State) (e : Instr) : (s.due e).ppass = s.ppass := rfl
@[simp] theorem State.due_cycle (s : State) (e : Instr) : (s.due e).cycle = s.cycle := rfl
@[simp] theorem State.due_semAdds (s : State) (e : Instr) : (s.due e).semAdds = s.semAdds := rfl
@[simp] theorem State.due_semBase (s : State) (e : Instr) : (s.due e).semBase = s.semBase := rfl
@[simp] theorem State.due_semSets (s : State) (e : Instr) : (s.due e).semSets = s.semSets := rfl
@[simp] theorem State.due_semOld (s : State) (e : Instr) : (s.due e).semOld = s.semOld := rfl
@[simp] theorem State.due_endLog (s : State) (e : Instr) : (s.due e).endLog = s.endLog := rfl
@[simp] theorem State.due_lastAct (s : State) (e : Instr) : (s.due e).lastAct = s.lastAct := rfl
@[simp] theorem State.due_mtsLog (s : State) (e : Instr) : (s.due e).mtsLog = s.mtsLog := rfl
@[simp] theorem State.due_cores (s : State) (e : Instr) : (s.due e).cores = s.cores := rfl
@[simp] theorem State.due_memory (s : State) (e : Instr) : (s.due e).memory = s.memory := rfl
@[simp] theorem State.due_keys (s : State) (e : Instr) : (s.due e).keys = s.keys := rfl
@[simp] theorem State.due_jobs (s : State) (e : Instr) : (s.due e).jobs = s.jobs := rfl
@[simp] theorem State.due_queues (s : State) (e : Instr) : (s.due e).queues = s.queues := rfl
@[simp] theorem State.due_recent (s : State) (e : Instr) : (s.due e).recent = s.recent := rfl
@[simp] theorem State.due_disp (s : State) (e : Instr) : (s.due e).disp = s.disp := rfl
@[simp] theorem State.due_engines (s : State) (e : Instr) : (s.due e).engines = s.engines := rfl
@[simp] theorem State.due_xwait (s : State) (e : Instr) : (s.due e).xwait = s.xwait := rfl
@[simp] theorem State.due_boot (s : State) (e : Instr) : (s.due e).boot = s.boot := rfl
@[simp] theorem State.due_mon (s : State) (e : Instr) : (s.due e).mon = s.mon := rfl
@[simp] theorem State.due_flows (s : State) (e : Instr) : (s.due e).flows = s.flows := rfl
@[simp] theorem State.due_held (s : State) (e : Instr) : (s.due e).held = s.held := rfl
@[simp] theorem State.due_xlat (s : State) (e : Instr) : (s.due e).xlat = s.xlat := rfl
@[simp] theorem State.due_reqs (s : State) (e : Instr) : (s.due e).reqs = s.reqs := rfl
@[simp] theorem State.due_outputs (s : State) (e : Instr) : (s.due e).outputs = s.outputs := rfl
@[simp] theorem State.due_errors (s : State) (e : Instr) : (s.due e).errors = s.errors := rfl

/-! State.output -/

@[simp] theorem State.output_sched (s : State) (o : Output) : (s.output o).sched = s.sched := rfl
@[simp] theorem State.output_cur (s : State) (o : Output) : (s.output o).cur = s.cur := rfl
@[simp] theorem State.output_todo (s : State) (o : Output) : (s.output o).todo = s.todo := rfl
@[simp] theorem State.output_fresh (s : State) (o : Output) : (s.output o).fresh = s.fresh := rfl
@[simp] theorem State.output_ppass (s : State) (o : Output) : (s.output o).ppass = s.ppass := rfl
@[simp] theorem State.output_cycle (s : State) (o : Output) : (s.output o).cycle = s.cycle := rfl
@[simp] theorem State.output_semAdds (s : State) (o : Output) : (s.output o).semAdds = s.semAdds := rfl
@[simp] theorem State.output_semBase (s : State) (o : Output) : (s.output o).semBase = s.semBase := rfl
@[simp] theorem State.output_semSets (s : State) (o : Output) : (s.output o).semSets = s.semSets := rfl
@[simp] theorem State.output_semOld (s : State) (o : Output) : (s.output o).semOld = s.semOld := rfl
@[simp] theorem State.output_endLog (s : State) (o : Output) : (s.output o).endLog = s.endLog := rfl
@[simp] theorem State.output_lastAct (s : State) (o : Output) : (s.output o).lastAct = s.lastAct := rfl
@[simp] theorem State.output_mtsLog (s : State) (o : Output) : (s.output o).mtsLog = s.mtsLog := rfl
@[simp] theorem State.output_cores (s : State) (o : Output) : (s.output o).cores = s.cores := rfl
@[simp] theorem State.output_memory (s : State) (o : Output) : (s.output o).memory = s.memory := rfl
@[simp] theorem State.output_keys (s : State) (o : Output) : (s.output o).keys = s.keys := rfl
@[simp] theorem State.output_jobs (s : State) (o : Output) : (s.output o).jobs = s.jobs := rfl
@[simp] theorem State.output_queues (s : State) (o : Output) : (s.output o).queues = s.queues := rfl
@[simp] theorem State.output_recent (s : State) (o : Output) : (s.output o).recent = s.recent := rfl
@[simp] theorem State.output_disp (s : State) (o : Output) : (s.output o).disp = s.disp := rfl
@[simp] theorem State.output_engines (s : State) (o : Output) : (s.output o).engines = s.engines := rfl
@[simp] theorem State.output_xwait (s : State) (o : Output) : (s.output o).xwait = s.xwait := rfl
@[simp] theorem State.output_boot (s : State) (o : Output) : (s.output o).boot = s.boot := rfl
@[simp] theorem State.output_mon (s : State) (o : Output) : (s.output o).mon = s.mon := rfl
@[simp] theorem State.output_flows (s : State) (o : Output) : (s.output o).flows = s.flows := rfl
@[simp] theorem State.output_held (s : State) (o : Output) : (s.output o).held = s.held := rfl
@[simp] theorem State.output_xlat (s : State) (o : Output) : (s.output o).xlat = s.xlat := rfl
@[simp] theorem State.output_reqs (s : State) (o : Output) : (s.output o).reqs = s.reqs := rfl
@[simp] theorem State.output_errors (s : State) (o : Output) : (s.output o).errors = s.errors := rfl

/-! State.record -/

@[simp] theorem State.record_sched (s : State) (e : ErrRecord) : (s.record e).sched = s.sched := rfl
@[simp] theorem State.record_cur (s : State) (e : ErrRecord) : (s.record e).cur = s.cur := rfl
@[simp] theorem State.record_todo (s : State) (e : ErrRecord) : (s.record e).todo = s.todo := rfl
@[simp] theorem State.record_fresh (s : State) (e : ErrRecord) : (s.record e).fresh = s.fresh := rfl
@[simp] theorem State.record_ppass (s : State) (e : ErrRecord) : (s.record e).ppass = s.ppass := rfl
@[simp] theorem State.record_cycle (s : State) (e : ErrRecord) : (s.record e).cycle = s.cycle := rfl
@[simp] theorem State.record_semAdds (s : State) (e : ErrRecord) : (s.record e).semAdds = s.semAdds := rfl
@[simp] theorem State.record_semBase (s : State) (e : ErrRecord) : (s.record e).semBase = s.semBase := rfl
@[simp] theorem State.record_semSets (s : State) (e : ErrRecord) : (s.record e).semSets = s.semSets := rfl
@[simp] theorem State.record_semOld (s : State) (e : ErrRecord) : (s.record e).semOld = s.semOld := rfl
@[simp] theorem State.record_endLog (s : State) (e : ErrRecord) : (s.record e).endLog = s.endLog := rfl
@[simp] theorem State.record_lastAct (s : State) (e : ErrRecord) : (s.record e).lastAct = s.lastAct := rfl
@[simp] theorem State.record_mtsLog (s : State) (e : ErrRecord) : (s.record e).mtsLog = s.mtsLog := rfl
@[simp] theorem State.record_cores (s : State) (e : ErrRecord) : (s.record e).cores = s.cores := rfl
@[simp] theorem State.record_memory (s : State) (e : ErrRecord) : (s.record e).memory = s.memory := rfl
@[simp] theorem State.record_keys (s : State) (e : ErrRecord) : (s.record e).keys = s.keys := rfl
@[simp] theorem State.record_jobs (s : State) (e : ErrRecord) : (s.record e).jobs = s.jobs := rfl
@[simp] theorem State.record_queues (s : State) (e : ErrRecord) : (s.record e).queues = s.queues := rfl
@[simp] theorem State.record_recent (s : State) (e : ErrRecord) : (s.record e).recent = s.recent := rfl
@[simp] theorem State.record_disp (s : State) (e : ErrRecord) : (s.record e).disp = s.disp := rfl
@[simp] theorem State.record_engines (s : State) (e : ErrRecord) : (s.record e).engines = s.engines := rfl
@[simp] theorem State.record_xwait (s : State) (e : ErrRecord) : (s.record e).xwait = s.xwait := rfl
@[simp] theorem State.record_boot (s : State) (e : ErrRecord) : (s.record e).boot = s.boot := rfl
@[simp] theorem State.record_mon (s : State) (e : ErrRecord) : (s.record e).mon = s.mon := rfl
@[simp] theorem State.record_flows (s : State) (e : ErrRecord) : (s.record e).flows = s.flows := rfl
@[simp] theorem State.record_held (s : State) (e : ErrRecord) : (s.record e).held = s.held := rfl
@[simp] theorem State.record_xlat (s : State) (e : ErrRecord) : (s.record e).xlat = s.xlat := rfl
@[simp] theorem State.record_reqs (s : State) (e : ErrRecord) : (s.record e).reqs = s.reqs := rfl
@[simp] theorem State.record_outputs (s : State) (e : ErrRecord) : (s.record e).outputs = s.outputs := rfl

@[simp] theorem State.due_todo (s : State) (e : Instr) : (s.due e).todo = s.todo ++ [e] := rfl
@[simp] theorem State.output_outputs (s : State) (o : Output) : (s.output o).outputs = o :: s.outputs := rfl
@[simp] theorem State.record_errors (s : State) (e : ErrRecord) : (s.record e).errors = e :: s.errors := rfl

/-! CoreSt.setSeq -/

@[simp] theorem CoreSt.setSeq_task (c : CoreSt) (q : Seq) (v : SeqSt) : (c.setSeq q v).task = c.task := by
  cases q <;> rfl
@[simp] theorem CoreSt.setSeq_owner (c : CoreSt) (q : Seq) (v : SeqSt) : (c.setSeq q v).owner = c.owner := by
  cases q <;> rfl
@[simp] theorem CoreSt.setSeq_couple (c : CoreSt) (q : Seq) (v : SeqSt) : (c.setSeq q v).couple = c.couple := by
  cases q <;> rfl
@[simp] theorem CoreSt.setSeq_stores (c : CoreSt) (q : Seq) (v : SeqSt) : (c.setSeq q v).stores = c.stores := by
  cases q <;> rfl
@[simp] theorem CoreSt.setSeq_units (c : CoreSt) (q : Seq) (v : SeqSt) : (c.setSeq q v).units = c.units := by
  cases q <;> rfl
@[simp] theorem CoreSt.setSeq_frontier (c : CoreSt) (q : Seq) (v : SeqSt) : (c.setSeq q v).frontier = c.frontier := by
  cases q <;> rfl
@[simp] theorem CoreSt.setSeq_arrival (c : CoreSt) (q : Seq) (v : SeqSt) : (c.setSeq q v).arrival = c.arrival := by
  cases q <;> rfl
@[simp] theorem CoreSt.setSeq_handler (c : CoreSt) (q : Seq) (v : SeqSt) : (c.setSeq q v).handler = c.handler := by
  cases q <;> rfl
@[simp] theorem CoreSt.setSeq_cut (c : CoreSt) (q : Seq) (v : SeqSt) : (c.setSeq q v).cut = c.cut := by
  cases q <;> rfl
@[simp] theorem CoreSt.setSeq_preempt (c : CoreSt) (q : Seq) (v : SeqSt) : (c.setSeq q v).preempt = c.preempt := by
  cases q <;> rfl
@[simp] theorem CoreSt.setSeq_preemptAt (c : CoreSt) (q : Seq) (v : SeqSt) : (c.setSeq q v).preemptAt = c.preemptAt := by
  cases q <;> rfl
@[simp] theorem CoreSt.setSeq_preemptFor (c : CoreSt) (q : Seq) (v : SeqSt) : (c.setSeq q v).preemptFor = c.preemptFor := by
  cases q <;> rfl
@[simp] theorem CoreSt.setSeq_frozen (c : CoreSt) (q : Seq) (v : SeqSt) : (c.setSeq q v).frozen = c.frozen := by
  cases q <;> rfl
@[simp] theorem CoreSt.setSeq_freezeNext (c : CoreSt) (q : Seq) (v : SeqSt) : (c.setSeq q v).freezeNext = c.freezeNext := by
  cases q <;> rfl
@[simp] theorem CoreSt.setSeq_errAt (c : CoreSt) (q : Seq) (v : SeqSt) : (c.setSeq q v).errAt = c.errAt := by
  cases q <;> rfl
@[simp] theorem CoreSt.setSeq_progress (c : CoreSt) (q : Seq) (v : SeqSt) : (c.setSeq q v).progress = c.progress := by
  cases q <;> rfl
@[simp] theorem CoreSt.setSeq_yielded (c : CoreSt) (q : Seq) (v : SeqSt) : (c.setSeq q v).yielded = c.yielded := by
  cases q <;> rfl

/-! CoreSt.setX -/

@[simp] theorem CoreSt.setX_task (c : CoreSt) (r : BitVec 6) (v : Word) : (c.setX r v).task = c.task := by
  unfold CoreSt.setX; split <;> rfl
@[simp] theorem CoreSt.setX_owner (c : CoreSt) (r : BitVec 6) (v : Word) : (c.setX r v).owner = c.owner := by
  unfold CoreSt.setX; split <;> rfl
@[simp] theorem CoreSt.setX_couple (c : CoreSt) (r : BitVec 6) (v : Word) : (c.setX r v).couple = c.couple := by
  unfold CoreSt.setX; split <;> rfl
@[simp] theorem CoreSt.setX_stores (c : CoreSt) (r : BitVec 6) (v : Word) : (c.setX r v).stores = c.stores := by
  unfold CoreSt.setX; split <;> rfl
@[simp] theorem CoreSt.setX_units (c : CoreSt) (r : BitVec 6) (v : Word) : (c.setX r v).units = c.units := by
  unfold CoreSt.setX; split <;> rfl
@[simp] theorem CoreSt.setX_frontier (c : CoreSt) (r : BitVec 6) (v : Word) : (c.setX r v).frontier = c.frontier := by
  unfold CoreSt.setX; split <;> rfl
@[simp] theorem CoreSt.setX_arrival (c : CoreSt) (r : BitVec 6) (v : Word) : (c.setX r v).arrival = c.arrival := by
  unfold CoreSt.setX; split <;> rfl
@[simp] theorem CoreSt.setX_handler (c : CoreSt) (r : BitVec 6) (v : Word) : (c.setX r v).handler = c.handler := by
  unfold CoreSt.setX; split <;> rfl
@[simp] theorem CoreSt.setX_cut (c : CoreSt) (r : BitVec 6) (v : Word) : (c.setX r v).cut = c.cut := by
  unfold CoreSt.setX; split <;> rfl
@[simp] theorem CoreSt.setX_preempt (c : CoreSt) (r : BitVec 6) (v : Word) : (c.setX r v).preempt = c.preempt := by
  unfold CoreSt.setX; split <;> rfl
@[simp] theorem CoreSt.setX_preemptAt (c : CoreSt) (r : BitVec 6) (v : Word) : (c.setX r v).preemptAt = c.preemptAt := by
  unfold CoreSt.setX; split <;> rfl
@[simp] theorem CoreSt.setX_preemptFor (c : CoreSt) (r : BitVec 6) (v : Word) : (c.setX r v).preemptFor = c.preemptFor := by
  unfold CoreSt.setX; split <;> rfl
@[simp] theorem CoreSt.setX_frozen (c : CoreSt) (r : BitVec 6) (v : Word) : (c.setX r v).frozen = c.frozen := by
  unfold CoreSt.setX; split <;> rfl
@[simp] theorem CoreSt.setX_freezeNext (c : CoreSt) (r : BitVec 6) (v : Word) : (c.setX r v).freezeNext = c.freezeNext := by
  unfold CoreSt.setX; split <;> rfl
@[simp] theorem CoreSt.setX_errAt (c : CoreSt) (r : BitVec 6) (v : Word) : (c.setX r v).errAt = c.errAt := by
  unfold CoreSt.setX; split <;> rfl
@[simp] theorem CoreSt.setX_progress (c : CoreSt) (r : BitVec 6) (v : Word) : (c.setX r v).progress = c.progress := by
  unfold CoreSt.setX; split <;> rfl
@[simp] theorem CoreSt.setX_yielded (c : CoreSt) (r : BitVec 6) (v : Word) : (c.setX r v).yielded = c.yielded := by
  unfold CoreSt.setX; split <;> rfl

/-! CoreSt.setA -/

@[simp] theorem CoreSt.setA_task (c : CoreSt) (q : Seq) (r : BitVec 5) (v : Word) : (c.setA q r v).task = c.task := by
  cases q <;> rfl
@[simp] theorem CoreSt.setA_owner (c : CoreSt) (q : Seq) (r : BitVec 5) (v : Word) : (c.setA q r v).owner = c.owner := by
  cases q <;> rfl
@[simp] theorem CoreSt.setA_couple (c : CoreSt) (q : Seq) (r : BitVec 5) (v : Word) : (c.setA q r v).couple = c.couple := by
  cases q <;> rfl
@[simp] theorem CoreSt.setA_stores (c : CoreSt) (q : Seq) (r : BitVec 5) (v : Word) : (c.setA q r v).stores = c.stores := by
  cases q <;> rfl
@[simp] theorem CoreSt.setA_units (c : CoreSt) (q : Seq) (r : BitVec 5) (v : Word) : (c.setA q r v).units = c.units := by
  cases q <;> rfl
@[simp] theorem CoreSt.setA_frontier (c : CoreSt) (q : Seq) (r : BitVec 5) (v : Word) : (c.setA q r v).frontier = c.frontier := by
  cases q <;> rfl
@[simp] theorem CoreSt.setA_arrival (c : CoreSt) (q : Seq) (r : BitVec 5) (v : Word) : (c.setA q r v).arrival = c.arrival := by
  cases q <;> rfl
@[simp] theorem CoreSt.setA_handler (c : CoreSt) (q : Seq) (r : BitVec 5) (v : Word) : (c.setA q r v).handler = c.handler := by
  cases q <;> rfl
@[simp] theorem CoreSt.setA_cut (c : CoreSt) (q : Seq) (r : BitVec 5) (v : Word) : (c.setA q r v).cut = c.cut := by
  cases q <;> rfl
@[simp] theorem CoreSt.setA_preempt (c : CoreSt) (q : Seq) (r : BitVec 5) (v : Word) : (c.setA q r v).preempt = c.preempt := by
  cases q <;> rfl
@[simp] theorem CoreSt.setA_preemptAt (c : CoreSt) (q : Seq) (r : BitVec 5) (v : Word) : (c.setA q r v).preemptAt = c.preemptAt := by
  cases q <;> rfl
@[simp] theorem CoreSt.setA_preemptFor (c : CoreSt) (q : Seq) (r : BitVec 5) (v : Word) : (c.setA q r v).preemptFor = c.preemptFor := by
  cases q <;> rfl
@[simp] theorem CoreSt.setA_frozen (c : CoreSt) (q : Seq) (r : BitVec 5) (v : Word) : (c.setA q r v).frozen = c.frozen := by
  cases q <;> rfl
@[simp] theorem CoreSt.setA_freezeNext (c : CoreSt) (q : Seq) (r : BitVec 5) (v : Word) : (c.setA q r v).freezeNext = c.freezeNext := by
  cases q <;> rfl
@[simp] theorem CoreSt.setA_errAt (c : CoreSt) (q : Seq) (r : BitVec 5) (v : Word) : (c.setA q r v).errAt = c.errAt := by
  cases q <;> rfl
@[simp] theorem CoreSt.setA_progress (c : CoreSt) (q : Seq) (r : BitVec 5) (v : Word) : (c.setA q r v).progress = c.progress := by
  cases q <;> rfl
@[simp] theorem CoreSt.setA_yielded (c : CoreSt) (q : Seq) (r : BitVec 5) (v : Word) : (c.setA q r v).yielded = c.yielded := by
  cases q <;> rfl

/-! CoreSt.setMap -/

@[simp] theorem CoreSt.setMap_task (c : CoreSt) (q : Seq) (m : BitVec 4) (v : MapReg) : (c.setMap q m v).task = c.task := by
  cases q <;> rfl
@[simp] theorem CoreSt.setMap_owner (c : CoreSt) (q : Seq) (m : BitVec 4) (v : MapReg) : (c.setMap q m v).owner = c.owner := by
  cases q <;> rfl
@[simp] theorem CoreSt.setMap_couple (c : CoreSt) (q : Seq) (m : BitVec 4) (v : MapReg) : (c.setMap q m v).couple = c.couple := by
  cases q <;> rfl
@[simp] theorem CoreSt.setMap_stores (c : CoreSt) (q : Seq) (m : BitVec 4) (v : MapReg) : (c.setMap q m v).stores = c.stores := by
  cases q <;> rfl
@[simp] theorem CoreSt.setMap_units (c : CoreSt) (q : Seq) (m : BitVec 4) (v : MapReg) : (c.setMap q m v).units = c.units := by
  cases q <;> rfl
@[simp] theorem CoreSt.setMap_frontier (c : CoreSt) (q : Seq) (m : BitVec 4) (v : MapReg) : (c.setMap q m v).frontier = c.frontier := by
  cases q <;> rfl
@[simp] theorem CoreSt.setMap_arrival (c : CoreSt) (q : Seq) (m : BitVec 4) (v : MapReg) : (c.setMap q m v).arrival = c.arrival := by
  cases q <;> rfl
@[simp] theorem CoreSt.setMap_handler (c : CoreSt) (q : Seq) (m : BitVec 4) (v : MapReg) : (c.setMap q m v).handler = c.handler := by
  cases q <;> rfl
@[simp] theorem CoreSt.setMap_cut (c : CoreSt) (q : Seq) (m : BitVec 4) (v : MapReg) : (c.setMap q m v).cut = c.cut := by
  cases q <;> rfl
@[simp] theorem CoreSt.setMap_preempt (c : CoreSt) (q : Seq) (m : BitVec 4) (v : MapReg) : (c.setMap q m v).preempt = c.preempt := by
  cases q <;> rfl
@[simp] theorem CoreSt.setMap_preemptAt (c : CoreSt) (q : Seq) (m : BitVec 4) (v : MapReg) : (c.setMap q m v).preemptAt = c.preemptAt := by
  cases q <;> rfl
@[simp] theorem CoreSt.setMap_preemptFor (c : CoreSt) (q : Seq) (m : BitVec 4) (v : MapReg) : (c.setMap q m v).preemptFor = c.preemptFor := by
  cases q <;> rfl
@[simp] theorem CoreSt.setMap_frozen (c : CoreSt) (q : Seq) (m : BitVec 4) (v : MapReg) : (c.setMap q m v).frozen = c.frozen := by
  cases q <;> rfl
@[simp] theorem CoreSt.setMap_freezeNext (c : CoreSt) (q : Seq) (m : BitVec 4) (v : MapReg) : (c.setMap q m v).freezeNext = c.freezeNext := by
  cases q <;> rfl
@[simp] theorem CoreSt.setMap_errAt (c : CoreSt) (q : Seq) (m : BitVec 4) (v : MapReg) : (c.setMap q m v).errAt = c.errAt := by
  cases q <;> rfl
@[simp] theorem CoreSt.setMap_progress (c : CoreSt) (q : Seq) (m : BitVec 4) (v : MapReg) : (c.setMap q m v).progress = c.progress := by
  cases q <;> rfl
@[simp] theorem CoreSt.setMap_yielded (c : CoreSt) (q : Seq) (m : BitVec 4) (v : MapReg) : (c.setMap q m v).yielded = c.yielded := by
  cases q <;> rfl

/-! CoreSt.setPred -/

@[simp] theorem CoreSt.setPred_task (c : CoreSt) (q : Seq) (p : BitVec 5) (b : Bool) : (c.setPred q p b).task = c.task := by
  unfold CoreSt.setPred; split <;> cases q <;> rfl
@[simp] theorem CoreSt.setPred_owner (c : CoreSt) (q : Seq) (p : BitVec 5) (b : Bool) : (c.setPred q p b).owner = c.owner := by
  unfold CoreSt.setPred; split <;> cases q <;> rfl
@[simp] theorem CoreSt.setPred_couple (c : CoreSt) (q : Seq) (p : BitVec 5) (b : Bool) : (c.setPred q p b).couple = c.couple := by
  unfold CoreSt.setPred; split <;> cases q <;> rfl
@[simp] theorem CoreSt.setPred_stores (c : CoreSt) (q : Seq) (p : BitVec 5) (b : Bool) : (c.setPred q p b).stores = c.stores := by
  unfold CoreSt.setPred; split <;> cases q <;> rfl
@[simp] theorem CoreSt.setPred_units (c : CoreSt) (q : Seq) (p : BitVec 5) (b : Bool) : (c.setPred q p b).units = c.units := by
  unfold CoreSt.setPred; split <;> cases q <;> rfl
@[simp] theorem CoreSt.setPred_frontier (c : CoreSt) (q : Seq) (p : BitVec 5) (b : Bool) : (c.setPred q p b).frontier = c.frontier := by
  unfold CoreSt.setPred; split <;> cases q <;> rfl
@[simp] theorem CoreSt.setPred_arrival (c : CoreSt) (q : Seq) (p : BitVec 5) (b : Bool) : (c.setPred q p b).arrival = c.arrival := by
  unfold CoreSt.setPred; split <;> cases q <;> rfl
@[simp] theorem CoreSt.setPred_handler (c : CoreSt) (q : Seq) (p : BitVec 5) (b : Bool) : (c.setPred q p b).handler = c.handler := by
  unfold CoreSt.setPred; split <;> cases q <;> rfl
@[simp] theorem CoreSt.setPred_cut (c : CoreSt) (q : Seq) (p : BitVec 5) (b : Bool) : (c.setPred q p b).cut = c.cut := by
  unfold CoreSt.setPred; split <;> cases q <;> rfl
@[simp] theorem CoreSt.setPred_preempt (c : CoreSt) (q : Seq) (p : BitVec 5) (b : Bool) : (c.setPred q p b).preempt = c.preempt := by
  unfold CoreSt.setPred; split <;> cases q <;> rfl
@[simp] theorem CoreSt.setPred_preemptAt (c : CoreSt) (q : Seq) (p : BitVec 5) (b : Bool) : (c.setPred q p b).preemptAt = c.preemptAt := by
  unfold CoreSt.setPred; split <;> cases q <;> rfl
@[simp] theorem CoreSt.setPred_preemptFor (c : CoreSt) (q : Seq) (p : BitVec 5) (b : Bool) : (c.setPred q p b).preemptFor = c.preemptFor := by
  unfold CoreSt.setPred; split <;> cases q <;> rfl
@[simp] theorem CoreSt.setPred_frozen (c : CoreSt) (q : Seq) (p : BitVec 5) (b : Bool) : (c.setPred q p b).frozen = c.frozen := by
  unfold CoreSt.setPred; split <;> cases q <;> rfl
@[simp] theorem CoreSt.setPred_freezeNext (c : CoreSt) (q : Seq) (p : BitVec 5) (b : Bool) : (c.setPred q p b).freezeNext = c.freezeNext := by
  unfold CoreSt.setPred; split <;> cases q <;> rfl
@[simp] theorem CoreSt.setPred_errAt (c : CoreSt) (q : Seq) (p : BitVec 5) (b : Bool) : (c.setPred q p b).errAt = c.errAt := by
  unfold CoreSt.setPred; split <;> cases q <;> rfl
@[simp] theorem CoreSt.setPred_progress (c : CoreSt) (q : Seq) (p : BitVec 5) (b : Bool) : (c.setPred q p b).progress = c.progress := by
  unfold CoreSt.setPred; split <;> cases q <;> rfl
@[simp] theorem CoreSt.setPred_yielded (c : CoreSt) (q : Seq) (p : BitVec 5) (b : Bool) : (c.setPred q p b).yielded = c.yielded := by
  unfold CoreSt.setPred; split <;> cases q <;> rfl

/-! CoreSt.setUnit -/

@[simp] theorem CoreSt.setUnit_task (c : CoreSt) (u : CUnit) (v : List Cmd) : (c.setUnit u v).task = c.task := by
  cases u <;> rfl
@[simp] theorem CoreSt.setUnit_owner (c : CoreSt) (u : CUnit) (v : List Cmd) : (c.setUnit u v).owner = c.owner := by
  cases u <;> rfl
@[simp] theorem CoreSt.setUnit_regs (c : CoreSt) (u : CUnit) (v : List Cmd) : (c.setUnit u v).regs = c.regs := by
  cases u <;> rfl
@[simp] theorem CoreSt.setUnit_couple (c : CoreSt) (u : CUnit) (v : List Cmd) : (c.setUnit u v).couple = c.couple := by
  cases u <;> rfl
@[simp] theorem CoreSt.setUnit_stores (c : CoreSt) (u : CUnit) (v : List Cmd) : (c.setUnit u v).stores = c.stores := by
  cases u <;> rfl
@[simp] theorem CoreSt.setUnit_frontier (c : CoreSt) (u : CUnit) (v : List Cmd) : (c.setUnit u v).frontier = c.frontier := by
  cases u <;> rfl
@[simp] theorem CoreSt.setUnit_arrival (c : CoreSt) (u : CUnit) (v : List Cmd) : (c.setUnit u v).arrival = c.arrival := by
  cases u <;> rfl
@[simp] theorem CoreSt.setUnit_handler (c : CoreSt) (u : CUnit) (v : List Cmd) : (c.setUnit u v).handler = c.handler := by
  cases u <;> rfl
@[simp] theorem CoreSt.setUnit_cut (c : CoreSt) (u : CUnit) (v : List Cmd) : (c.setUnit u v).cut = c.cut := by
  cases u <;> rfl
@[simp] theorem CoreSt.setUnit_preempt (c : CoreSt) (u : CUnit) (v : List Cmd) : (c.setUnit u v).preempt = c.preempt := by
  cases u <;> rfl
@[simp] theorem CoreSt.setUnit_preemptAt (c : CoreSt) (u : CUnit) (v : List Cmd) : (c.setUnit u v).preemptAt = c.preemptAt := by
  cases u <;> rfl
@[simp] theorem CoreSt.setUnit_preemptFor (c : CoreSt) (u : CUnit) (v : List Cmd) : (c.setUnit u v).preemptFor = c.preemptFor := by
  cases u <;> rfl
@[simp] theorem CoreSt.setUnit_frozen (c : CoreSt) (u : CUnit) (v : List Cmd) : (c.setUnit u v).frozen = c.frozen := by
  cases u <;> rfl
@[simp] theorem CoreSt.setUnit_freezeNext (c : CoreSt) (u : CUnit) (v : List Cmd) : (c.setUnit u v).freezeNext = c.freezeNext := by
  cases u <;> rfl
@[simp] theorem CoreSt.setUnit_errAt (c : CoreSt) (u : CUnit) (v : List Cmd) : (c.setUnit u v).errAt = c.errAt := by
  cases u <;> rfl
@[simp] theorem CoreSt.setUnit_progress (c : CoreSt) (u : CUnit) (v : List Cmd) : (c.setUnit u v).progress = c.progress := by
  cases u <;> rfl
@[simp] theorem CoreSt.setUnit_yielded (c : CoreSt) (u : CUnit) (v : List Cmd) : (c.setUnit u v).yielded = c.yielded := by
  cases u <;> rfl

/-! CoreSt.setQueue -/

@[simp] theorem CoreSt.setQueue_task (c : CoreSt) (i : Nat) (q : Queue) : (c.setQueue i q).task = c.task := rfl
@[simp] theorem CoreSt.setQueue_owner (c : CoreSt) (i : Nat) (q : Queue) : (c.setQueue i q).owner = c.owner := rfl
@[simp] theorem CoreSt.setQueue_regs (c : CoreSt) (i : Nat) (q : Queue) : (c.setQueue i q).regs = c.regs := rfl
@[simp] theorem CoreSt.setQueue_stores (c : CoreSt) (i : Nat) (q : Queue) : (c.setQueue i q).stores = c.stores := rfl
@[simp] theorem CoreSt.setQueue_units (c : CoreSt) (i : Nat) (q : Queue) : (c.setQueue i q).units = c.units := rfl
@[simp] theorem CoreSt.setQueue_frontier (c : CoreSt) (i : Nat) (q : Queue) : (c.setQueue i q).frontier = c.frontier := rfl
@[simp] theorem CoreSt.setQueue_arrival (c : CoreSt) (i : Nat) (q : Queue) : (c.setQueue i q).arrival = c.arrival := rfl
@[simp] theorem CoreSt.setQueue_handler (c : CoreSt) (i : Nat) (q : Queue) : (c.setQueue i q).handler = c.handler := rfl
@[simp] theorem CoreSt.setQueue_cut (c : CoreSt) (i : Nat) (q : Queue) : (c.setQueue i q).cut = c.cut := rfl
@[simp] theorem CoreSt.setQueue_preempt (c : CoreSt) (i : Nat) (q : Queue) : (c.setQueue i q).preempt = c.preempt := rfl
@[simp] theorem CoreSt.setQueue_preemptAt (c : CoreSt) (i : Nat) (q : Queue) : (c.setQueue i q).preemptAt = c.preemptAt := rfl
@[simp] theorem CoreSt.setQueue_preemptFor (c : CoreSt) (i : Nat) (q : Queue) : (c.setQueue i q).preemptFor = c.preemptFor := rfl
@[simp] theorem CoreSt.setQueue_frozen (c : CoreSt) (i : Nat) (q : Queue) : (c.setQueue i q).frozen = c.frozen := rfl
@[simp] theorem CoreSt.setQueue_freezeNext (c : CoreSt) (i : Nat) (q : Queue) : (c.setQueue i q).freezeNext = c.freezeNext := rfl
@[simp] theorem CoreSt.setQueue_errAt (c : CoreSt) (i : Nat) (q : Queue) : (c.setQueue i q).errAt = c.errAt := rfl
@[simp] theorem CoreSt.setQueue_progress (c : CoreSt) (i : Nat) (q : Queue) : (c.setQueue i q).progress = c.progress := rfl
@[simp] theorem CoreSt.setQueue_yielded (c : CoreSt) (i : Nat) (q : Queue) : (c.setQueue i q).yielded = c.yielded := rfl

/-! CoreSt.setFifo -/

@[simp] theorem CoreSt.setFifo_task (c : CoreSt) (i : Nat) (v : List Tok) : (c.setFifo i v).task = c.task := rfl
@[simp] theorem CoreSt.setFifo_owner (c : CoreSt) (i : Nat) (v : List Tok) : (c.setFifo i v).owner = c.owner := rfl
@[simp] theorem CoreSt.setFifo_regs (c : CoreSt) (i : Nat) (v : List Tok) : (c.setFifo i v).regs = c.regs := rfl
@[simp] theorem CoreSt.setFifo_stores (c : CoreSt) (i : Nat) (v : List Tok) : (c.setFifo i v).stores = c.stores := rfl
@[simp] theorem CoreSt.setFifo_units (c : CoreSt) (i : Nat) (v : List Tok) : (c.setFifo i v).units = c.units := rfl
@[simp] theorem CoreSt.setFifo_frontier (c : CoreSt) (i : Nat) (v : List Tok) : (c.setFifo i v).frontier = c.frontier := rfl
@[simp] theorem CoreSt.setFifo_arrival (c : CoreSt) (i : Nat) (v : List Tok) : (c.setFifo i v).arrival = c.arrival := rfl
@[simp] theorem CoreSt.setFifo_handler (c : CoreSt) (i : Nat) (v : List Tok) : (c.setFifo i v).handler = c.handler := rfl
@[simp] theorem CoreSt.setFifo_cut (c : CoreSt) (i : Nat) (v : List Tok) : (c.setFifo i v).cut = c.cut := rfl
@[simp] theorem CoreSt.setFifo_preempt (c : CoreSt) (i : Nat) (v : List Tok) : (c.setFifo i v).preempt = c.preempt := rfl
@[simp] theorem CoreSt.setFifo_preemptAt (c : CoreSt) (i : Nat) (v : List Tok) : (c.setFifo i v).preemptAt = c.preemptAt := rfl
@[simp] theorem CoreSt.setFifo_preemptFor (c : CoreSt) (i : Nat) (v : List Tok) : (c.setFifo i v).preemptFor = c.preemptFor := rfl
@[simp] theorem CoreSt.setFifo_frozen (c : CoreSt) (i : Nat) (v : List Tok) : (c.setFifo i v).frozen = c.frozen := rfl
@[simp] theorem CoreSt.setFifo_freezeNext (c : CoreSt) (i : Nat) (v : List Tok) : (c.setFifo i v).freezeNext = c.freezeNext := rfl
@[simp] theorem CoreSt.setFifo_errAt (c : CoreSt) (i : Nat) (v : List Tok) : (c.setFifo i v).errAt = c.errAt := rfl
@[simp] theorem CoreSt.setFifo_progress (c : CoreSt) (i : Nat) (v : List Tok) : (c.setFifo i v).progress = c.progress := rfl
@[simp] theorem CoreSt.setFifo_yielded (c : CoreSt) (i : Nat) (v : List Tok) : (c.setFifo i v).yielded = c.yielded := rfl

/-! CoreSt.setSema -/

@[simp] theorem CoreSt.setSema_task (c : CoreSt) (i : Nat) (v : Sema) : (c.setSema i v).task = c.task := rfl
@[simp] theorem CoreSt.setSema_owner (c : CoreSt) (i : Nat) (v : Sema) : (c.setSema i v).owner = c.owner := rfl
@[simp] theorem CoreSt.setSema_regs (c : CoreSt) (i : Nat) (v : Sema) : (c.setSema i v).regs = c.regs := rfl
@[simp] theorem CoreSt.setSema_stores (c : CoreSt) (i : Nat) (v : Sema) : (c.setSema i v).stores = c.stores := rfl
@[simp] theorem CoreSt.setSema_units (c : CoreSt) (i : Nat) (v : Sema) : (c.setSema i v).units = c.units := rfl
@[simp] theorem CoreSt.setSema_frontier (c : CoreSt) (i : Nat) (v : Sema) : (c.setSema i v).frontier = c.frontier := rfl
@[simp] theorem CoreSt.setSema_arrival (c : CoreSt) (i : Nat) (v : Sema) : (c.setSema i v).arrival = c.arrival := rfl
@[simp] theorem CoreSt.setSema_handler (c : CoreSt) (i : Nat) (v : Sema) : (c.setSema i v).handler = c.handler := rfl
@[simp] theorem CoreSt.setSema_cut (c : CoreSt) (i : Nat) (v : Sema) : (c.setSema i v).cut = c.cut := rfl
@[simp] theorem CoreSt.setSema_preempt (c : CoreSt) (i : Nat) (v : Sema) : (c.setSema i v).preempt = c.preempt := rfl
@[simp] theorem CoreSt.setSema_preemptAt (c : CoreSt) (i : Nat) (v : Sema) : (c.setSema i v).preemptAt = c.preemptAt := rfl
@[simp] theorem CoreSt.setSema_preemptFor (c : CoreSt) (i : Nat) (v : Sema) : (c.setSema i v).preemptFor = c.preemptFor := rfl
@[simp] theorem CoreSt.setSema_frozen (c : CoreSt) (i : Nat) (v : Sema) : (c.setSema i v).frozen = c.frozen := rfl
@[simp] theorem CoreSt.setSema_freezeNext (c : CoreSt) (i : Nat) (v : Sema) : (c.setSema i v).freezeNext = c.freezeNext := rfl
@[simp] theorem CoreSt.setSema_errAt (c : CoreSt) (i : Nat) (v : Sema) : (c.setSema i v).errAt = c.errAt := rfl
@[simp] theorem CoreSt.setSema_progress (c : CoreSt) (i : Nat) (v : Sema) : (c.setSema i v).progress = c.progress := rfl
@[simp] theorem CoreSt.setSema_yielded (c : CoreSt) (i : Nat) (v : Sema) : (c.setSema i v).yielded = c.yielded := rfl

/-! CoreSt.countPush -/

@[simp] theorem CoreSt.countPush_task (c : CoreSt) (i : Nat) : (c.countPush i).task = c.task := rfl
@[simp] theorem CoreSt.countPush_owner (c : CoreSt) (i : Nat) : (c.countPush i).owner = c.owner := rfl
@[simp] theorem CoreSt.countPush_regs (c : CoreSt) (i : Nat) : (c.countPush i).regs = c.regs := rfl
@[simp] theorem CoreSt.countPush_stores (c : CoreSt) (i : Nat) : (c.countPush i).stores = c.stores := rfl
@[simp] theorem CoreSt.countPush_units (c : CoreSt) (i : Nat) : (c.countPush i).units = c.units := rfl
@[simp] theorem CoreSt.countPush_frontier (c : CoreSt) (i : Nat) : (c.countPush i).frontier = c.frontier := rfl
@[simp] theorem CoreSt.countPush_arrival (c : CoreSt) (i : Nat) : (c.countPush i).arrival = c.arrival := rfl
@[simp] theorem CoreSt.countPush_handler (c : CoreSt) (i : Nat) : (c.countPush i).handler = c.handler := rfl
@[simp] theorem CoreSt.countPush_cut (c : CoreSt) (i : Nat) : (c.countPush i).cut = c.cut := rfl
@[simp] theorem CoreSt.countPush_preempt (c : CoreSt) (i : Nat) : (c.countPush i).preempt = c.preempt := rfl
@[simp] theorem CoreSt.countPush_preemptAt (c : CoreSt) (i : Nat) : (c.countPush i).preemptAt = c.preemptAt := rfl
@[simp] theorem CoreSt.countPush_preemptFor (c : CoreSt) (i : Nat) : (c.countPush i).preemptFor = c.preemptFor := rfl
@[simp] theorem CoreSt.countPush_frozen (c : CoreSt) (i : Nat) : (c.countPush i).frozen = c.frozen := rfl
@[simp] theorem CoreSt.countPush_freezeNext (c : CoreSt) (i : Nat) : (c.countPush i).freezeNext = c.freezeNext := rfl
@[simp] theorem CoreSt.countPush_errAt (c : CoreSt) (i : Nat) : (c.countPush i).errAt = c.errAt := rfl
@[simp] theorem CoreSt.countPush_progress (c : CoreSt) (i : Nat) : (c.countPush i).progress = c.progress := rfl
@[simp] theorem CoreSt.countPush_yielded (c : CoreSt) (i : Nat) : (c.countPush i).yielded = c.yielded := rfl

/-! CoreSt.countPop -/

@[simp] theorem CoreSt.countPop_task (c : CoreSt) (i : Nat) : (c.countPop i).task = c.task := rfl
@[simp] theorem CoreSt.countPop_owner (c : CoreSt) (i : Nat) : (c.countPop i).owner = c.owner := rfl
@[simp] theorem CoreSt.countPop_regs (c : CoreSt) (i : Nat) : (c.countPop i).regs = c.regs := rfl
@[simp] theorem CoreSt.countPop_stores (c : CoreSt) (i : Nat) : (c.countPop i).stores = c.stores := rfl
@[simp] theorem CoreSt.countPop_units (c : CoreSt) (i : Nat) : (c.countPop i).units = c.units := rfl
@[simp] theorem CoreSt.countPop_frontier (c : CoreSt) (i : Nat) : (c.countPop i).frontier = c.frontier := rfl
@[simp] theorem CoreSt.countPop_arrival (c : CoreSt) (i : Nat) : (c.countPop i).arrival = c.arrival := rfl
@[simp] theorem CoreSt.countPop_handler (c : CoreSt) (i : Nat) : (c.countPop i).handler = c.handler := rfl
@[simp] theorem CoreSt.countPop_cut (c : CoreSt) (i : Nat) : (c.countPop i).cut = c.cut := rfl
@[simp] theorem CoreSt.countPop_preempt (c : CoreSt) (i : Nat) : (c.countPop i).preempt = c.preempt := rfl
@[simp] theorem CoreSt.countPop_preemptAt (c : CoreSt) (i : Nat) : (c.countPop i).preemptAt = c.preemptAt := rfl
@[simp] theorem CoreSt.countPop_preemptFor (c : CoreSt) (i : Nat) : (c.countPop i).preemptFor = c.preemptFor := rfl
@[simp] theorem CoreSt.countPop_frozen (c : CoreSt) (i : Nat) : (c.countPop i).frozen = c.frozen := rfl
@[simp] theorem CoreSt.countPop_freezeNext (c : CoreSt) (i : Nat) : (c.countPop i).freezeNext = c.freezeNext := rfl
@[simp] theorem CoreSt.countPop_errAt (c : CoreSt) (i : Nat) : (c.countPop i).errAt = c.errAt := rfl
@[simp] theorem CoreSt.countPop_progress (c : CoreSt) (i : Nat) : (c.countPop i).progress = c.progress := rfl
@[simp] theorem CoreSt.countPop_yielded (c : CoreSt) (i : Nat) : (c.countPop i).yielded = c.yielded := rfl

/-! CoreSt.addStat -/

@[simp] theorem CoreSt.addStat_task (c : CoreSt) (i n : Nat) : (c.addStat i n).task = c.task := rfl
@[simp] theorem CoreSt.addStat_owner (c : CoreSt) (i n : Nat) : (c.addStat i n).owner = c.owner := rfl
@[simp] theorem CoreSt.addStat_regs (c : CoreSt) (i n : Nat) : (c.addStat i n).regs = c.regs := rfl
@[simp] theorem CoreSt.addStat_couple (c : CoreSt) (i n : Nat) : (c.addStat i n).couple = c.couple := rfl
@[simp] theorem CoreSt.addStat_units (c : CoreSt) (i n : Nat) : (c.addStat i n).units = c.units := rfl
@[simp] theorem CoreSt.addStat_frontier (c : CoreSt) (i n : Nat) : (c.addStat i n).frontier = c.frontier := rfl
@[simp] theorem CoreSt.addStat_arrival (c : CoreSt) (i n : Nat) : (c.addStat i n).arrival = c.arrival := rfl
@[simp] theorem CoreSt.addStat_handler (c : CoreSt) (i n : Nat) : (c.addStat i n).handler = c.handler := rfl
@[simp] theorem CoreSt.addStat_cut (c : CoreSt) (i n : Nat) : (c.addStat i n).cut = c.cut := rfl
@[simp] theorem CoreSt.addStat_preempt (c : CoreSt) (i n : Nat) : (c.addStat i n).preempt = c.preempt := rfl
@[simp] theorem CoreSt.addStat_preemptAt (c : CoreSt) (i n : Nat) : (c.addStat i n).preemptAt = c.preemptAt := rfl
@[simp] theorem CoreSt.addStat_preemptFor (c : CoreSt) (i n : Nat) : (c.addStat i n).preemptFor = c.preemptFor := rfl
@[simp] theorem CoreSt.addStat_frozen (c : CoreSt) (i n : Nat) : (c.addStat i n).frozen = c.frozen := rfl
@[simp] theorem CoreSt.addStat_freezeNext (c : CoreSt) (i n : Nat) : (c.addStat i n).freezeNext = c.freezeNext := rfl
@[simp] theorem CoreSt.addStat_errAt (c : CoreSt) (i n : Nat) : (c.addStat i n).errAt = c.errAt := rfl
@[simp] theorem CoreSt.addStat_progress (c : CoreSt) (i n : Nat) : (c.addStat i n).progress = c.progress := rfl
@[simp] theorem CoreSt.addStat_yielded (c : CoreSt) (i n : Nat) : (c.addStat i n).yielded = c.yielded := rfl

/-! CoreSt.orStat -/

@[simp] theorem CoreSt.orStat_task (c : CoreSt) (i : Nat) (fl : BitVec 5) : (c.orStat i fl).task = c.task := rfl
@[simp] theorem CoreSt.orStat_owner (c : CoreSt) (i : Nat) (fl : BitVec 5) : (c.orStat i fl).owner = c.owner := rfl
@[simp] theorem CoreSt.orStat_regs (c : CoreSt) (i : Nat) (fl : BitVec 5) : (c.orStat i fl).regs = c.regs := rfl
@[simp] theorem CoreSt.orStat_couple (c : CoreSt) (i : Nat) (fl : BitVec 5) : (c.orStat i fl).couple = c.couple := rfl
@[simp] theorem CoreSt.orStat_units (c : CoreSt) (i : Nat) (fl : BitVec 5) : (c.orStat i fl).units = c.units := rfl
@[simp] theorem CoreSt.orStat_frontier (c : CoreSt) (i : Nat) (fl : BitVec 5) : (c.orStat i fl).frontier = c.frontier := rfl
@[simp] theorem CoreSt.orStat_arrival (c : CoreSt) (i : Nat) (fl : BitVec 5) : (c.orStat i fl).arrival = c.arrival := rfl
@[simp] theorem CoreSt.orStat_handler (c : CoreSt) (i : Nat) (fl : BitVec 5) : (c.orStat i fl).handler = c.handler := rfl
@[simp] theorem CoreSt.orStat_cut (c : CoreSt) (i : Nat) (fl : BitVec 5) : (c.orStat i fl).cut = c.cut := rfl
@[simp] theorem CoreSt.orStat_preempt (c : CoreSt) (i : Nat) (fl : BitVec 5) : (c.orStat i fl).preempt = c.preempt := rfl
@[simp] theorem CoreSt.orStat_preemptAt (c : CoreSt) (i : Nat) (fl : BitVec 5) : (c.orStat i fl).preemptAt = c.preemptAt := rfl
@[simp] theorem CoreSt.orStat_preemptFor (c : CoreSt) (i : Nat) (fl : BitVec 5) : (c.orStat i fl).preemptFor = c.preemptFor := rfl
@[simp] theorem CoreSt.orStat_frozen (c : CoreSt) (i : Nat) (fl : BitVec 5) : (c.orStat i fl).frozen = c.frozen := rfl
@[simp] theorem CoreSt.orStat_freezeNext (c : CoreSt) (i : Nat) (fl : BitVec 5) : (c.orStat i fl).freezeNext = c.freezeNext := rfl
@[simp] theorem CoreSt.orStat_errAt (c : CoreSt) (i : Nat) (fl : BitVec 5) : (c.orStat i fl).errAt = c.errAt := rfl
@[simp] theorem CoreSt.orStat_progress (c : CoreSt) (i : Nat) (fl : BitVec 5) : (c.orStat i fl).progress = c.progress := rfl
@[simp] theorem CoreSt.orStat_yielded (c : CoreSt) (i : Nat) (fl : BitVec 5) : (c.orStat i fl).yielded = c.yielded := rfl

/-! CoreSt.setStat -/

@[simp] theorem CoreSt.setStat_task (c : CoreSt) (i : Nat) (v : Word) : (c.setStat i v).task = c.task := rfl
@[simp] theorem CoreSt.setStat_owner (c : CoreSt) (i : Nat) (v : Word) : (c.setStat i v).owner = c.owner := rfl
@[simp] theorem CoreSt.setStat_regs (c : CoreSt) (i : Nat) (v : Word) : (c.setStat i v).regs = c.regs := rfl
@[simp] theorem CoreSt.setStat_couple (c : CoreSt) (i : Nat) (v : Word) : (c.setStat i v).couple = c.couple := rfl
@[simp] theorem CoreSt.setStat_units (c : CoreSt) (i : Nat) (v : Word) : (c.setStat i v).units = c.units := rfl
@[simp] theorem CoreSt.setStat_frontier (c : CoreSt) (i : Nat) (v : Word) : (c.setStat i v).frontier = c.frontier := rfl
@[simp] theorem CoreSt.setStat_arrival (c : CoreSt) (i : Nat) (v : Word) : (c.setStat i v).arrival = c.arrival := rfl
@[simp] theorem CoreSt.setStat_handler (c : CoreSt) (i : Nat) (v : Word) : (c.setStat i v).handler = c.handler := rfl
@[simp] theorem CoreSt.setStat_cut (c : CoreSt) (i : Nat) (v : Word) : (c.setStat i v).cut = c.cut := rfl
@[simp] theorem CoreSt.setStat_preempt (c : CoreSt) (i : Nat) (v : Word) : (c.setStat i v).preempt = c.preempt := rfl
@[simp] theorem CoreSt.setStat_preemptAt (c : CoreSt) (i : Nat) (v : Word) : (c.setStat i v).preemptAt = c.preemptAt := rfl
@[simp] theorem CoreSt.setStat_preemptFor (c : CoreSt) (i : Nat) (v : Word) : (c.setStat i v).preemptFor = c.preemptFor := rfl
@[simp] theorem CoreSt.setStat_frozen (c : CoreSt) (i : Nat) (v : Word) : (c.setStat i v).frozen = c.frozen := rfl
@[simp] theorem CoreSt.setStat_freezeNext (c : CoreSt) (i : Nat) (v : Word) : (c.setStat i v).freezeNext = c.freezeNext := rfl
@[simp] theorem CoreSt.setStat_errAt (c : CoreSt) (i : Nat) (v : Word) : (c.setStat i v).errAt = c.errAt := rfl
@[simp] theorem CoreSt.setStat_progress (c : CoreSt) (i : Nat) (v : Word) : (c.setStat i v).progress = c.progress := rfl
@[simp] theorem CoreSt.setStat_yielded (c : CoreSt) (i : Nat) (v : Word) : (c.setStat i v).yielded = c.yielded := rfl

end Sys2Proof.Machine
end

