-- ==== Sys2Proof/Laws/Shared.lean ====
section
/-! SUPPORT. Laws/Shared: what the operations that several meanings share can do: the writers of a word (R160), the slots
of a coil store (R219, R246), what waits for a sequencer's commands (R197, R202), the outputs at a cut (R310), the work that
a core picks (R51), and pre-emption requests (R55, R410). -/

set_option Elab.async false

namespace Sys2Proof.Machine

/-! ## Writers of a word -/

/-- A command that has lost nothing of a word is told so, and so is one that comes to it. -/
theorem joinWriters_lost (id : Nat) (m : BitVec 8) (l : List Part) (h : ∀ e ∈ l, e.cmd = id → e.lost = 0) :
    (joinWriters id m l).2 = 0 := by
  induction l with
  | nil => rfl
  | cons p r ih =>
    rw [joinWriters]
    split
    · exact h p List.mem_cons_self ‹_›
    · exact ih fun e he => h e (List.mem_cons_of_mem _ he)

/-- The writers of a word keep their order, and a new one comes behind them. -/
theorem joinWriters_cmds (id : Nat) (m : BitVec 8) (l : List Part) :
    (joinWriters id m l).1.map Part.cmd =
      if id ∈ l.map Part.cmd then l.map Part.cmd else l.map Part.cmd ++ [id] := by
  induction l with
  | nil => rfl
  | cons p r ih =>
    rw [joinWriters]
    by_cases hp : p.cmd = id
    · simp [hp]
    · have hq : ¬ id = p.cmd := fun e => hp e.symm
      simp only [hp, if_false, List.map_cons, ih, List.mem_cons, hq, false_or]
      split <;> rfl

/-- A command that comes to a word changes nothing of memory but the word's writers. -/
theorem joinWord_memory (s : State) (w : Nat) (m : BitVec 8) (x : Cmd) :
    { (s.joinWord w m x).1.memory with parts := s.memory.parts, nextCmd := s.memory.nextCmd } = s.memory := rfl

/-- Nor does one that leaves its words. -/
theorem leaveWords_memory (s : State) (x : Cmd) :
    { (s.leaveWords x).memory with parts := s.memory.parts } = s.memory := rfl

/-- A write that is made at once takes bytes from a word's writers, and changes no other part of memory. -/
theorem overwrite_memory (s : State) (w : Nat) (m : BitVec 8) :
    { (s.overwrite w m).memory with parts := s.memory.parts } = s.memory := by
  unfold State.overwrite
  split <;> rfl

/-! ## Slots of a coil store -/

/-- Operations that end well one after the other have each ended well. -/
theorem run_bind_ok {α β : Type} {m : M α} {f : α → M β} {s : State} {r : β × State} (h : (m >>= f).run s = .ok r) :
    ∃ a t, m.run s = .ok (a, t) ∧ (f a).run t = .ok r := by
  change (m.run s).bind (fun p => (f p.1).run p.2) = _ at h
  cases hm : m.run s with
  | error e => rw [hm] at h; cases h
  | ok p => rw [hm] at h; exact ⟨p.1, p.2, rfl, h⟩

/-- A check of a limit that ends well has found it kept, and changes nothing. -/
theorem limitIf_ok {b : Bool} {s t : State} {u : Unit} (h : (limitIf b).run s = .ok (u, t)) : b = false ∧ t = s := by
  cases b
  · cases h; exact ⟨rfl, rfl⟩
  · cases h

/-- Bytes for which a slot is entered lie within it (R219, R246). -/
theorem enterSlot_fits {handle slot : Word} {b : Int} {n : Nat} {s t : State} {k : CoilSlot}
    (h : (enterSlot handle slot b n).run s = .ok (k, t)) : b.toNat % k.size + n ≤ k.size := by
  unfold enterSlot at h
  obtain ⟨_, _, -, h⟩ := run_bind_ok h
  obtain ⟨c, _, -, h⟩ := run_bind_ok h
  obtain ⟨d, _, -, h⟩ := run_bind_ok h
  obtain ⟨_, _, hl, h⟩ := run_bind_ok h
  obtain ⟨_, _, -, h⟩ := run_bind_ok h
  cases h
  exact Nat.le_of_not_lt (of_decide_eq_false (limitIf_ok hl).1)

/-- So do bytes that find their slot entered. -/
theorem slotOf_fits {handle slot : Word} {b : Int} {n : Nat} {now : Option CoilSlot} {s t : State} {k : CoilSlot}
    (h : (slotOf handle slot b n now).run s = .ok (k, t)) : b.toNat % k.size + n ≤ k.size := by
  unfold slotOf at h
  split at h
  · split at h
    · obtain ⟨_, _, hl, h⟩ := run_bind_ok h
      cases h
      exact Nat.le_of_not_lt (of_decide_eq_false (limitIf_ok hl).1)
    · exact enterSlot_fits h
  · exact enterSlot_fits h

/-! ## What waits for a sequencer's commands -/

/-- Where no SSIG and no END waits, the retirement of a command lets nothing go. -/
theorem flushSeq_idle (q : Seq) (n : Nat) (s : State) (hs : ((s.core s.cur.1.val).seq q).sigs = [])
    (he : ((s.core s.cur.1.val).seq q).cond ≠ .ending) : (flushSeq q n).run s = .ok (none, s) := by
  cases n with
  | zero => rfl
  | succ n =>
    have hb : (((s.core s.cur.1.val).seq q).cond == .ending) = false := beq_eq_false_iff_ne.mpr he
    have hm : myCore.run s = .ok (s.core s.cur.1.val, s) := rfl
    unfold flushSeq
    rw [StateT.run_bind, hm]
    simp only [bind, Except.bind, hs, hb, Bool.false_and]
    rfl

/-! ## Outputs at a cut -/

/-- A unit whose command holds back no output stays as it is. -/
theorem letOut_of_none (c : CoreSt) (u : CUnit) (h : ∀ x ∈ (c.unit u).head?, x.out = none) : c.letOut u = c := by
  unfold CoreSt.letOut
  split
  · rfl
  · rename_i x r hx
    rw [h x (by rw [hx]; rfl)]

/-- An output that goes out changes no register and no store. -/
theorem letOut_regs (c : CoreSt) (u : CUnit) : (c.letOut u).regs = c.regs := by
  unfold CoreSt.letOut
  split
  · rfl
  · split
    · split
      · cases u <;> rfl
      · rfl
    · rfl

theorem letOut_stores (c : CoreSt) (u : CUnit) : (c.letOut u).stores = c.stores := by
  unfold CoreSt.letOut
  split
  · rfl
  · split
    · split
      · cases u <;> rfl
      · rfl
    · rfl

/-! ## Work -/

/-- Work of its own stage is what a core picks. -/
theorem pick_own {α : Type} (l : Launch) (core own : Nat) (stage : α → Nat) (xs : List α) (x : α)
    (h : xs.find? (fun x => stage x == own) = some x) : l.pick core own stage xs = some x := by
  rw [Launch.pick, h]

/-- What a core picks is of its own stage, or its stage has no work for it. -/
theorem pick_some {α : Type} (l : Launch) (core own : Nat) (stage : α → Nat) (xs : List α) (x : α)
    (h : l.pick core own stage xs = some x) : x ∈ xs ∧ (stage x = own ∨ l.workFor core own = false) := by
  unfold Launch.pick at h
  split at h
  · cases h
    exact ⟨List.mem_of_find?_eq_some ‹_›, .inl (beq_iff_eq.mp (List.find?_some (p := fun x => stage x == own) ‹_›))⟩
  · split at h
    · cases h
    · exact ⟨List.mem_of_head? h, .inr (Bool.eq_false_iff.mpr ‹_›)⟩

/-! ## Pre-emption requests -/

/-- Requests for pre-emption change no memory. -/
theorem stopCores_memory (s : State) (cs : List Nat) (why : Option (Nat × Nat × Nat)) :
    (s.stopCores cs why).memory = s.memory := by
  unfold State.stopCores
  induction cs generalizing s with
  | nil => rfl
  | cons c r ih =>
    rw [List.foldl_cons, ih]
    split <;> split <;> (try split) <;> rfl

theorem requestPreempt_memory (s : State) (core : Nat) (why : Option (Nat × Nat × Nat)) :
    (s.requestPreempt core why).memory = s.memory := by
  unfold State.requestPreempt
  split
  · rfl
  · dsimp only
    split
    · rfl
    · exact stopCores_memory ..

end Sys2Proof.Machine
end

