-- ==== Sys2Proof/Tests/Slice0.lean ====
section
/-! SUPPORT. Tests/Slice0: tests of the decoder and of well-formedness, and for each statement of
Certificates/Slice0/Obligations a state and operands that meet its hypotheses together. -/

set_option Elab.async false

namespace Sys2Proof.Tests

open Machine Slice0

/-! ## Small states -/

/-- Core 0 and the rest at reset; a sequencer of core 0 moves. -/
def on (q : Seq) (c : CoreSt) : State := { State.reset with cur := (0, q), cores := [(0, c)] }

/-- A core whose x registers hold some values. -/
def xs (l : Cells Word) : CoreSt := { regs := { x := l } }

def task1 : Machine.Task := { job := 1, phase := 0, graph := 0, launch := 1, stage := 0, entry := 0 }

def launch1 : Launch where
  num := 1
  phase := 0
  graph := 0
  node := 0
  queue := 5
  pkt := 3
  kernel := 1
  stages := [{ ord := 0, input := 0, min := 1, max := 57 }]
  queues := [(0, { cap := 2, consumer := 0, producers := 1 })]
  argptr := 0
  tokens := 0
  hints := 0
  cls := 0
  cores := false
  args := []
  count := 1
  left := 0
  started := true

def node1 : Node := { kind := .launch 1, succs := [], deps := 0, dispatched := true }

def graph1 : Graph := { nodes := [node1], queue := 5, pkt := 3, lone := true, started := true }

def job1 (l : Launch) : Job where
  ident := 7
  keySlot := 0
  root := 0x10000
  poolLog2 := 16
  poolBase := 0
  framePa := 0x40000
  frameVa := 0
  imagePa := 0x80000
  imageSlots := 1
  nextLaunch := 2
  phases := [(0, { graphs := [(0, graph1)] })]
  launches := [(1, l)]

/-- A task of launch 1 of job 1 runs on core 0; a sequencer of core 0 moves. -/
def busy (q : Seq) (c : CoreSt) : State :=
  { on q { c with task := some task1 } with jobs := [(1, job1 launch1)] }

/-- An instruction without a sync field can always run. -/
theorem ready_noSync (s : State) : Ready s noSync where
  pops y h := by rcases s with ⟨_, ⟨_, q⟩⟩; cases q <;> simp [neighbours, noSync] at h
  room y h := by rcases s with ⟨_, ⟨_, q⟩⟩; cases q <;> simp [neighbours, noSync] at h
  guard := by simp [noSync, CoreSt.guard, CoreSt.pred]
  quiet _ h := absurd rfl h

theorem notSpec_on (q : Seq) (c : CoreSt) (h : c.task = none ∨ c.task = some task1) : NotSpec (on q c) := by
  intro t ht
  by_cases hc : c = {}
  · subst hc; cases q <;> cases ht
  · have : here (on q c) = c := by cases q <;> rfl
    rw [this] at ht
    rcases h with h | h <;> rw [h] at ht <;> cases ht
    rfl

/-! ## Registers -/

theorem witness_KRegisterResults : ∃ s i h d v, wf s.cur.2 i = true ∧ kResult (here s) i = some (h, d, v) ∧ Ready s h :=
  ⟨on .k (xs [(1, 5)]), .div noSync 0 1 2, _, _, _, by decide, rfl, ready_noSync _⟩

theorem witness_PredicateResults : ∃ s i h p v, wf s.cur.2 i = true ∧ pResult (here s) s.cur.2 i = some (h, p, v) ∧
    Ready s h :=
  ⟨on .l {}, .acmpi noSync .gen 31 1 (-1), _, _, _, by decide, rfl, ready_noSync _⟩

theorem witness_KRegisterResults_words : ∃ i w, wf .k i = true ∧ kWord i = some w :=
  ⟨.sel ⟨31, true, 7, 7⟩ 63 0 63 31, _, by decide, rfl⟩

theorem witness_KRegisterResults_reserved : ∃ (h : Hdr) (imm : BitVec 18), h.wf = true ∧ 32 ≤ imm.toNat :=
  ⟨noSync, 32, by decide, by decide⟩

theorem witness_PredicateResults_words : ∃ i w, wf .k i = true ∧ pWord i = some w :=
  ⟨.pnot noSync 31 0, _, by decide, rfl⟩

theorem witness_PredicateResults_p0 : ∃ (h : Hdr) (minor : BitVec 8) (pb : BitVec 5), h.wf = true ∧ minor.toNat < 6 ∧
    (4 ≤ minor.toNat → pb = 0) :=
  ⟨noSync, 5, 0, by decide, by decide, fun _ => rfl⟩

theorem witness_AddressResults : ∃ s i h d v, wf s.cur.2 i = true ∧ aResult (here s) s.cur.2 i = some (h, d, v) ∧
    Ready s h :=
  ⟨on .s {}, .amadd noSync 31 1 0, _, _, _, by decide, rfl, ready_noSync _⟩

theorem witness_AddressResults_map : ∃ s i h m v, wf s.cur.2 i = true ∧
    mapResult (here s) s.cur.2 i = some (h, m, v) ∧ Ready s h :=
  ⟨on .l {}, .mapofs noSync 15 1, _, _, _, by decide, rfl, ready_noSync _⟩

theorem witness_ControlFlow : ∃ s i h link next, wf s.cur.2 i = true ∧
    flow (here s) (mover s).pc i = some (h, link, next) ∧ Ready s h ∧ (jumpReg i ≠ none → next.toNat % 8 = 0) :=
  ⟨on .k (xs [(1, 0xFFFFFFFFFFFFFFF8)]), .callr noSync 1 1, _, _, _, by decide, rfl, ready_noSync _, fun _ => by decide⟩

theorem witness_RegisterFrame : ∃ s i h d, wf s.cur.2 i = true ∧
    destOf (here s) s.cur.2 (mover s).pc i = some (h, d) ∧ Ready s h ∧
    ∀ b, jumpReg i = some b → ((here s).x b).toNat % 8 = 0 :=
  ⟨on .k (xs [(1, 8)]), .callr noSync 1 1, _, _, by decide, rfl, ready_noSync _, fun b h => by
    cases h; decide⟩

theorem witness_FalseGuardSkips : ∃ s i, wf s.cur.2 i = true ∧ (mover s).cond = .run ∧ CanPop s (headerOf i) ∧
    CanPush s (headerOf i) ∧ CanRelease s (headerOf i) ∧ (here s).guard s.cur.2 (headerOf i) = false :=
  ⟨on .k { regs := { k := { cond := .run } } }, .add { noSync with guard := 1 } 1 2 3, by decide, rfl,
    fun y h => (ready_noSync _).pops y h, fun y h => (ready_noSync _).room y h, (fun _ h => absurd rfl h), by decide⟩


/-! ## Tokens, semaphores and the end of a stream -/

theorem witness_TokensMove : ∃ s h, Ready s h ∧ h.pop ≠ 0 ∧ h.push ≠ 0 :=
  ⟨on .k { couple := { fifos := [(fifoIdx .k .s, List.replicate 14 ⟨none, {}⟩), (fifoIdx .l .k, [⟨none, {}⟩])] } },
    ⟨0, false, 1, 7⟩, ⟨by unfold CanPop; decide, by unfold CanPush; decide, by decide, fun _ _ => rfl⟩, by decide, by decide⟩

theorem witness_ValueTokens_push : ∃ s h y r, wf s.cur.2 (.pushv h y r) = true ∧ Ready s h ∧ NothingHeld s ∧
    ((here s).fifo (fifoIdx s.cur.2 y)).length < 15 ∧
    (((here s).fifo (fifoIdx s.cur.2 y)).filter fun t => t.val.isSome).length < 4 :=
  ⟨on .k { couple := { fifos := [(fifoIdx .k .l, List.replicate 11 ⟨none, {}⟩ ++ List.replicate 3 ⟨some 0, {}⟩)] } },
    ⟨0, false, 0, 6⟩, .l, 0, by decide,
    ⟨by unfold CanPop; decide, by unfold CanPush; decide, by decide, fun _ _ => rfl⟩, fun _ => rfl, by decide,
    by decide⟩

theorem witness_ValueTokens_pop : ∃ s h d y v copy rest, wf s.cur.2 (.popv h d y) = true ∧ Ready s h ∧
    (here s).fifo (fifoIdx y s.cur.2) = ⟨some v, copy⟩ :: rest :=
  ⟨on .s { couple := { fifos := [(fifoIdx .k .s, [⟨some 7, {}⟩])] } }, noSync, 31, .k, _, _, _, by decide,
    ready_noSync _, rfl⟩

theorem witness_SemaphoreWaits : ∃ s i h sem n, wf s.cur.2 i = true ∧ awaited (here s) s.cur.2 i = some (h, sem, n) ∧
    n ≤ 65535 ∧ Ready s h :=
  ⟨on .k (xs [(1, 65535)]), .swaitReg noSync 255 1, _, _, _, by decide, rfl, by decide, ready_noSync _⟩

theorem witness_SemaphoreUpdates_add : ∃ s h sem inc, wf s.cur.2 (.ssig h sem inc) = true ∧ Ready s h ∧ NothingHeld s ∧
    (mover s).live = [] ∧ (mover s).sigs = [] ∧
    65535 < (s.semBaseOf (coreNo s) sem).toNat + (sumInc (s.addsOf (coreNo s) sem) + BitVec.toNat inc) :=
  ⟨on .k { couple := { sems := [(0, { val := 65281 })] } }, noSync, 0, 255, by decide, ready_noSync _, fun _ => rfl, rfl,
    rfl, by decide⟩

theorem witness_SemaphoreUpdates_set : ∃ s i h sem n, wf s.cur.2 i = true ∧
    assigned (here s) s.cur.2 i = some (h, sem, n) ∧ n ≤ 65535 ∧ Ready s h :=
  ⟨on .l {}, .sset noSync 1 65535, _, _, _, by decide, rfl, by decide, ready_noSync _⟩

theorem witness_EndOfStream : ∃ s h, wf s.cur.2 (.endStream h) = true ∧ Ready s h ∧ (mover s).live = [] ∧
    (mover s).sigs = [] ∧ (here s).task ≠ none ∧ (mover s).wheel.active = false :=
  ⟨busy .c {}, noSync, by decide, ready_noSync _, rfl, rfl, by decide, rfl⟩

theorem witness_EndOfStream_waits : ∃ s h, wf s.cur.2 (.endStream h) = true ∧ Ready s h ∧
    ((mover s).live ≠ [] ∨ (mover s).sigs ≠ []) :=
  ⟨on .l { regs := { l := { live := [0] } } }, noSync, by decide, ready_noSync _, .inl (by decide)⟩

/-! ## Special registers, traps and handlers -/

theorem witness_SpecialRead : ∃ s h d r v, wf s.cur.2 (.mfs h d r) = true ∧ Ready s h ∧ NotSpec s ∧
    special s (here s) r = some v :=
  ⟨on .k { handler := true }, noSync, 63, .epoch, _, by decide, ready_noSync _, notSpec_on _ _ (.inl rfl), rfl⟩

theorem witness_SpecialWrite : ∃ s h r src, wf s.cur.2 (.mts h r src) = true ∧ Ready s h ∧
    (r = .xvtab → ((here s).src s.cur.2 src).toNat / 2 ^ 14 % 2 ^ 14 ≤ 12288) ∧
    (r = .xvpool → ((here s).src s.cur.2 src).toNat / 2 ^ 28 % 2 ^ 14 ≤
      ((here s).src s.cur.2 src).toNat / 2 ^ 14 % 2 ^ 14) :=
  ⟨on .k (xs [(1, 12288 * 2 ^ 14)]), noSync, .xvtab, 1, by decide, ready_noSync _, fun _ => by decide,
    fun h => nomatch h⟩

theorem witness_HandlerEntry : ∃ (s : State) (n : Nat) (t : Trap) (k : Machine.Task) (j : Job),
    (s.core n).task = some k ∧ k.spec = false ∧ s.job? (s.core n).job = some j ∧ (s.core n).handler = false ∧
    FirstTrap s n t ∧
    ∃ b, (t.cause = 0x0D ∧ b = 0 ∨ t.cause = 0x0F ∧ b = 1 ∨ t.cause = 0x11 ∧ b = 2) ∧
      (s.core n).regs.sp.hvec.getLsbD b = true :=
  ⟨busy .k { regs := { sp := { hvec := 0x1004 } } }, 0, { cause := 0x11 }, _, _, rfl, rfl, rfl, rfl,
    fun _ h => (nomatch h), 2, .inr (.inr ⟨rfl, rfl⟩), by decide⟩

theorem witness_TrapFailsLaunch : ∃ (s : State) (n : Nat) (t : Trap) (k : Machine.Task) (l : Launch) (g : Graph),
    (s.core n).task = some k ∧ k.spec = false ∧ s.launch? k.job k.launch = some l ∧ l.complete = false ∧
    s.graph? k.job l.phase l.graph = some g ∧ g.complete = false ∧ FirstTrap s n t ∧ (s.core n).handles t.cause = false :=
  ⟨busy .k { frontier := [(1, 1)] }, 0, { cause := 0x0D }, _, _, _, rfl, rfl, rfl, rfl, rfl, rfl,
    fun _ h => (nomatch h), by decide⟩

/-- A trap of a class that hvec holds, while a handler runs. -/
theorem witness_TrapFailsLaunch_nested : ∃ (s : State) (n : Nat) (t : Trap) (k : Machine.Task) (l : Launch) (g : Graph),
    (s.core n).task = some k ∧ k.spec = false ∧ s.launch? k.job k.launch = some l ∧ l.complete = false ∧
    s.graph? k.job l.phase l.graph = some g ∧ g.complete = false ∧ FirstTrap s n t ∧ (s.core n).handler = true ∧
    (s.core n).handles t.cause = true :=
  ⟨busy .k { handler := true, regs := { sp := { hvec := 1 } } }, 0, { cause := 0x0D }, _, _, _, rfl, rfl, rfl, rfl, rfl,
    rfl, fun _ h => (nomatch h), rfl, by decide⟩

theorem witness_HandlerInstructions_set : ∃ s h b classes, wf s.cur.2 (.hset h b classes) = true ∧ Ready s h ∧
    ((here s).x b).toNat % 8 = 0 :=
  ⟨on .k (xs [(63, 0xFFFFFFFFFFFFFFF8)]), noSync, 63, 7, by decide, ready_noSync _, by decide⟩

theorem witness_HandlerInstructions_resume : ∃ s h k, wf s.cur.2 (.resume h) = true ∧ Ready s h ∧
    (here s).handler = true ∧ (here s).cut = some k :=
  ⟨on .k { handler := true, cut := some { trap := { cause := 0x0D }, kpc := 8 } }, noSync, _, by decide,
    ready_noSync _, rfl, rfl⟩

theorem witness_HandlerInstructions_outside : ∃ s h, wf s.cur.2 (.resume h) = true ∧ Ready s h ∧ NotSpec s ∧
    (here s).handler = false :=
  ⟨on .k (xs [(1, 1)]), noSync, by decide, ready_noSync _, notSpec_on _ _ (.inl rfl), rfl⟩

theorem witness_MachineCalls : ∃ s i h cause code, wf s.cur.2 i = true ∧ trapOf i = some (h, cause, code) ∧
    Ready s h ∧ NotSpec s :=
  ⟨on .k (xs [(1, 1)]), .trap noSync 0xFFFF, _, _, _, by decide, rfl, ready_noSync _, notSpec_on _ _ (.inl rfl)⟩

theorem witness_MachineCalls_service : ∃ s h d b n, wf s.cur.2 (.sysc h d b n) = true ∧ Ready s h ∧ NotSpec s :=
  ⟨on .k (xs [(1, 1)]), noSync, 63, 0, 0xFFF, by decide, ready_noSync _, notSpec_on _ _ (.inl rfl)⟩

/-! ## Loads, stores and atomics -/

/-- A core whose x1 and a1 hold an address and whose x2 and a2 hold a value. -/
def addr (va v : Word) : CoreSt := { regs := { x := [(1, va), (2, v)], al := [(1, va), (2, v)], as_ := [(1, va), (2, v)] } }

theorem notSpec_addr (q : Seq) (va v : Word) : NotSpec (on q (addr va v)) := notSpec_on _ _ (.inl rfl)

/-- The last doubleword of the scratchpad. -/
def lastSp : Word := 0x400000000017FFF8

theorem loaded_last (q : Seq) (f : Bool) : Loaded (on q (addr lastSp 0)) f (lastSp + BitVec.ofInt 64 (0#18).toInt) 8
    ((here (on q (addr lastSp 0))).spBytes 0x17FFF8 8) :=
  .scratch (by decide) (by decide) (by cases q <;> (unfold Covered; decide)) (by cases q <;> decide)

theorem stored_last (q : Seq) (k : AKind) : StoresTo (on q (addr lastSp 0)) k
    (lastSp + BitVec.ofInt 64 (0#18).toInt) (.sp 0 0x17FFF8) :=
  .scratch (by decide) (by decide) (by cases q <;> (unfold Covered; decide)) (by cases q <;> (unfold CanStamp; decide))

theorem witness_LoadResult : ∃ s h acq w d b disp bs, wf s.cur.2 (.ld h acq w d b disp) = true ∧ Ready s h ∧
    NotSpec s ∧ ((here s).x b + BitVec.ofInt 64 disp.toInt).toNat % widthOf w = 0 ∧
    (pathOf ((here s).x b + BitVec.ofInt 64 disp.toInt) = 7 → 4 ≤ widthOf w) ∧
    Loaded s (discards acq) ((here s).x b + BitVec.ofInt 64 disp.toInt) (widthOf w) bs :=
  ⟨on .k (addr lastSp 0), noSync, none, ⟨true, 3⟩, 0, 1, 0, _, by decide, ready_noSync _, notSpec_addr _ _ _,
    by decide, fun h => absurd h (by decide), loaded_last _ _⟩

theorem noneFirst_last (q : Seq) (w : Bool) (n : Nat) : NoneFirst (popped (on q (addr lastSp 0)) noSync) w
    (lastSp + BitVec.ofInt 64 (0#18).toInt) n := by cases q <;> rfl

theorem witness_LoadResult_tile : ∃ s h w d b disp bs, wf s.cur.2 (.lda h w d b disp) = true ∧ Ready s h ∧
    NotSpec s ∧ ((here s).a s.cur.2 b + BitVec.ofInt 64 disp.toInt).toNat % widthOf w = 0 ∧
    pathOf ((here s).a s.cur.2 b + BitVec.ofInt 64 disp.toInt) = 4 ∧
    NoneFirst (popped s h) false ((here s).a s.cur.2 b + BitVec.ofInt 64 disp.toInt) (widthOf w) ∧
    Loaded s true ((here s).a s.cur.2 b + BitVec.ofInt 64 disp.toInt) (widthOf w) bs :=
  ⟨on .l (addr lastSp 0), noSync, ⟨true, 3⟩, 31, 1, 0, _, by decide, ready_noSync _, notSpec_addr _ _ _,
    by decide, by decide, noneFirst_last _ _ _, loaded_last _ _⟩

theorem witness_LoadMultiple : ∃ s h acq zext f b cnt disp, ∃ ws : Nat → List Byte,
    wf s.cur.2 (.ldm h acq zext f b cnt disp) = true ∧
    Ready s h ∧ NotSpec s ∧ ((here s).x b + BitVec.ofInt 64 disp.toInt).toNat % 8 = 0 ∧
    (∀ i, i ≤ cnt.toNat → Loaded s true ((here s).x b + BitVec.ofInt 64 disp.toInt + BitVec.ofNat 64 (8 * i)) 8 (ws i)) ∧
    ∀ pa slot l, pa % 8 = 0 → cachedAt s pa slot 8 = some l → l = s.devRead slot pa 8 :=
  ⟨on .k (addr lastSp 0), noSync, none, false, 63, 1, 0, 0, fun _ => (here (on .k (addr lastSp 0))).spBytes 0x17FFF8 8, by decide,
    ready_noSync _, notSpec_addr _ _ _, by decide, fun i h => by
      obtain rfl : i = 0 := Nat.le_zero.mp h
      exact loaded_last _ _, fun _ _ _ _ h => nomatch h⟩

theorem witness_StoreResult : ∃ s h rel w r b disp p, wf s.cur.2 (.st h rel w r b disp) = true ∧ Ready s h ∧
    NotSpec s ∧ (rel ≠ none → NoWriters s) ∧
    ((here s).x b + BitVec.ofInt 64 disp.toInt).toNat % widthOf w = 0 ∧
    (pathOf ((here s).x b + BitVec.ofInt 64 disp.toInt) = 7 → 4 ≤ widthOf w) ∧
    StoresTo s .write ((here s).x b + BitVec.ofInt 64 disp.toInt) p :=
  ⟨on .k (addr lastSp 0), noSync, some .sys, ⟨false, 3⟩, 2, 1, 0, _, by decide, ready_noSync _, notSpec_addr _ _ _,
    fun _ => rfl, by decide, fun h => absurd h (by decide), stored_last _ _⟩

theorem witness_StoreResult_tile : ∃ s h w r b disp p, wf s.cur.2 (.sta h w r b disp) = true ∧ Ready s h ∧
    NotSpec s ∧ ((here s).a s.cur.2 b + BitVec.ofInt 64 disp.toInt).toNat % widthOf w = 0 ∧
    pathOf ((here s).a s.cur.2 b + BitVec.ofInt 64 disp.toInt) ≠ 7 ∧
    StoresTo s .write ((here s).a s.cur.2 b + BitVec.ofInt 64 disp.toInt) p ∧
    NoneFirst (popped s h) true ((here s).a s.cur.2 b + BitVec.ofInt 64 disp.toInt) (widthOf w) :=
  ⟨on .s (addr lastSp 0), noSync, ⟨false, 3⟩, 2, 1, 0, _, by decide, ready_noSync _, notSpec_addr _ _ _,
    by decide, by decide, stored_last _ _, noneFirst_last _ _ _⟩

/-- S stores where an earlier TST of S, which has not been performed, writes. -/
def behindTst : State :=
  on .s { addr lastSp 0 with
    regs := { (addr lastSp 0).regs with s := { issued := 1 } }
    units := { store := [{
    inst := .tst noSync noSem .f64 0 1 1 0 default, seq := .s, num := 0, map := { payload := 0x800000001 }, src := lastSp
    ipc := 0 }] } }

theorem witness_StoreResult_tile_held : ∃ s h w r b disp p, wf s.cur.2 (.sta h w r b disp) = true ∧ Ready s h ∧
    NotSpec s ∧ ((here s).a s.cur.2 b + BitVec.ofInt 64 disp.toInt).toNat % widthOf w = 0 ∧
    pathOf ((here s).a s.cur.2 b + BitVec.ofInt 64 disp.toInt) ≠ 7 ∧
    StoresTo s .write ((here s).a s.cur.2 b + BitVec.ofInt 64 disp.toInt) p ∧
    ¬ NoneFirst (popped s h) true ((here s).a s.cur.2 b + BitVec.ofInt 64 disp.toInt) (widthOf w) :=
  ⟨behindTst, noSync, ⟨false, 3⟩, 2, 1, 0, .sp 0 0x17FFF8, by decide, ready_noSync _, notSpec_on _ _ (.inl rfl), by decide,
    by decide, .scratch (by decide) (by decide) (by unfold Covered; decide) (by unfold CanStamp; decide),
    by unfold NoneFirst; decide⟩

theorem witness_StoreMultiple : ∃ s h rel zext f b cnt disp c o, wf s.cur.2 (.stm h rel zext f b cnt disp) = true ∧
    Ready s h ∧ NotSpec s ∧ (rel ≠ none → NoWriters s) ∧
    ((here s).x b + BitVec.ofInt 64 disp.toInt).toNat % 8 = 0 ∧
    StoresTo s .write ((here s).x b + BitVec.ofInt 64 disp.toInt) (.sp c o) ∧ c = coreNo s ∧
    pathOf ((here s).x b + BitVec.ofInt 64 disp.toInt) = 4 ∧ o + 8 * (cnt.toNat + 1) ≤ 0x180000 ∧
    ∀ i, i ≤ cnt.toNat → Covered s (.sp c ((o + 8 * i) / 128)) :=
  ⟨on .k (addr lastSp 0), noSync, none, false, 63, 1, 0, 0, _, _, by decide, ready_noSync _, notSpec_addr _ _ _,
    fun _ => rfl, by decide, stored_last _ _, rfl, by decide, by decide, fun i h => by
      obtain rfl : i = 0 := Nat.le_zero.mp h
      unfold Covered; decide⟩

/-- The last word of the sync window of die 0 below its checked variables. -/
def swWord : Word := 0x7000000000FFFFF8

theorem window_last (c : CoreSt) (k : AKind) : SyncWord (on .k c) k swWord (.sw 0xFFFFF8) := .window _ (by decide) rfl

theorem sound_window (s : State) (b n : Nat) : Sound s (.sw b) n := fun _ _ h => nomatch h

theorem witness_AtomicResults_amo : ∃ s h op ord w4 d b c a, wf s.cur.2 (.amo h op ord w4 d b c) = true ∧ Ready s h ∧
    NotSpec s ∧ orderFree s ord ∧ NoWaiters s ∧ ((here s).x b).toNat % widthW w4 = 0 ∧
    SyncWord s .write ((here s).x b) a ∧ Sound s a (widthW w4) :=
  ⟨on .k (addr swWord 1), noSync, .plain .fadd, .rel .sys, true, 0, 1, 2, _, by decide, ready_noSync _,
    notSpec_addr _ _ _, rfl, rfl, by decide, window_last _ _, sound_window _ _ _⟩

theorem witness_AtomicResults_amoc : ∃ s h ord w4 d b c a, wf s.cur.2 (.amoc h ord w4 d b c) = true ∧ Ready s h ∧
    NotSpec s ∧ orderFree s ord ∧ NoWaiters s ∧ ((here s).x b).toNat % widthW w4 = 0 ∧
    SyncWord s .write ((here s).x b) a ∧ Sound s a (widthW w4) :=
  ⟨on .k (addr swWord 1), noSync, .acq .dev, false, 3, 1, 2, _, by decide, ready_noSync _,
    notSpec_addr _ _ _, trivial, rfl, by decide, window_last _ _, sound_window _ _ _⟩

theorem witness_AtomicResults_amred : ∃ s h op rel w4 b c a, wf s.cur.2 (.amred h op rel w4 b c) = true ∧ Ready s h ∧
    NotSpec s ∧ (rel ≠ none → NoWriters s) ∧ NoWaiters s ∧ ((here s).x b).toNat % widthW w4 = 0 ∧
    SyncWord s .write ((here s).x b) a :=
  ⟨on .k (addr swWord 1), noSync, .min, none, false, 1, 2, _, by decide, ready_noSync _,
    notSpec_addr _ _ _, fun h => absurd rfl h, rfl, by decide, window_last _ _⟩

/-- A task of launch 1 waits at that word for it to be 0, as continuation 4. -/
def signalled : State :=
  { on .k (addr swWord 1) with
    jobs := [(1, job1 { launch1 with conts := [{ (default : Cont) with id := 4, kpc := 8, state := .waiting }] })]
    memory := { waiters := [{ sw := true, place := 0xFFFFF8, slot := 0, va := swWord, job := 1, launch := 1, cont := 4
                              waits := .cond .eq false 0 }] } }

theorem witness_SignalWord : ∃ s h b a, ∃ w ∈ s.memory.waiters, wf s.cur.2 (.siga h b) = true ∧ Ready s h ∧ NotSpec s ∧
    NoWriters s ∧ ((here s).x b).toNat % 4 = 0 ∧ SyncWord s .write ((here s).x b) a ∧ w.place = a.byte ∧ w.sw = a.isSw ∧
    Met s w ∧ (s.launch? w.job w.launch).isSome = true :=
  ⟨signalled, noSync, 1, .sw 0xFFFFF8, _, List.mem_singleton_self _, by decide, ready_noSync _, fun _ h => (nomatch h), rfl,
    by decide, .window _ (by decide) rfl, rfl, rfl, ⟨sound_window _ _ _, by decide⟩, rfl⟩

theorem witness_BarrierArrival_set : ∃ s h b c o, wf s.cur.2 (.bari h b c) = true ∧ Ready s h ∧ NotSpec s ∧
    NoWaiters s ∧ ((here s).x b).toNat % 8 = 0 ∧ pathOf ((here s).x b) = 7 ∧
    swByte (offOf ((here s).x b)) = some o ∧ 1 ≤ ((here s).x c).toNat ∧ ((here s).x c).toNat ≤ 65535 :=
  ⟨on .k (addr swWord 65535), noSync, 1, 2, _, by decide, ready_noSync _, notSpec_addr _ _ _, rfl, by decide,
    by decide, rfl, by decide, by decide⟩

/-- A barrier of one member at that word. -/
def barrier : State := { on .k (addr swWord 0) with memory := { sw := [(0xFFFFF8, 1)] } }

theorem notSpec_barrier : NotSpec barrier := fun _ h => nomatch h

theorem witness_BarrierArrival : ∃ s i h b drop o, wf s.cur.2 i = true ∧ arrival i = some (h, b, drop) ∧ Ready s h ∧
    NotSpec s ∧ NoWriters s ∧ NoWaiters s ∧ ((here s).x b).toNat % 8 = 0 ∧ pathOf ((here s).x b) = 7 ∧
    swByte (offOf ((here s).x b)) = some o ∧ 1 ≤ barrierField s o 0 ∧ barrierField s o 1 < barrierField s o 0 ∧
    barrierField s o 2 + drop ≤ barrierField s o 0 :=
  ⟨barrier, .bard noSync 1, _, _, _, _, by decide, rfl, ready_noSync _, notSpec_barrier, rfl, rfl, by decide,
    by decide, rfl, by decide, by decide, by decide⟩

theorem vec_target : SyncWord (on .k (addr lastSp swWord)) .write
    (BitVec.ofNat 64 (((here (on .k (addr lastSp swWord))).x 2).toNat + 0 / 64 * 8)) (.sw 0xFFFFF8) := by
  rw [show BitVec.ofNat 64 (((here (on .k (addr lastSp swWord))).x 2).toNat + 0 / 64 * 8) = swWord by decide]
  exact window_last _ _

theorem witness_VectorAtomic : ∃ s h isAdd rel cnt b c, ∃ ws : Nat → Nat, ∃ a : Nat → SyncAt,
    wf s.cur.2 (.avec h isAdd true rel cnt b c) = true ∧
    Ready s h ∧ NotSpec s ∧ (rel ≠ none → NoWriters s) ∧ NoWaiters s ∧ ((here s).x b).toNat % 8 = 0 ∧
    ((here s).x c).toNat % 8 = 0 ∧ ListAt s ((here s).x b) (cnt.toNat + 1) ws ∧
    (∀ i, i ≤ cnt.toNat → (((here s).x c).toNat + ws i / 64 * 8) % 8 = 0 ∧
      SyncWord s .write (BitVec.ofNat 64 (((here s).x c).toNat + ws i / 64 * 8)) (a i)) ∧
    ∀ i j, i ≤ cnt.toNat → j ≤ cnt.toNat → apart (a i) (a j) :=
  ⟨on .k (addr lastSp swWord), noSync, false, none, 0, 1, 2, fun _ => 0, fun _ => .sw 0xFFFFF8, by decide,
    ready_noSync _, notSpec_addr _ _ _, fun h => absurd rfl h, rfl, by decide, by decide,
    ⟨fun i h => by
      obtain rfl : i = 0 := by have : i < 1 := h; omega
      exact ⟨.inr (by decide), _, .scratch (by decide) (by decide) (by unfold Covered; decide) (by decide), by decide⟩,
     fun _ _ _ _ h => nomatch h⟩,
    fun _ _ => ⟨by show (_ + 0 / 64 * 8) % 8 = 0; decide, vec_target⟩, fun _ _ _ _ => .inl rfl⟩

def predicted1 : State :=
  { on .k { addr lastSp 0 with task := some { task1 with spec := true } } with
    jobs := [(1, job1 { launch1 with spec := some { queue := 5, body := [], started := 0 } })] }

theorem witness_SpeculativeStoresStayLocal : ∃ s t i, s.cur.2 = .k ∧ isStore i = true ∧
    (s.specOn (coreNo s)).isSome = true ∧ exec i s = .next t :=
  ⟨predicted1, _, .st noSync none ⟨false, 3⟩ 2 1 0, rfl, rfl, by decide, rfl⟩

/-- An instruction's own address is off by one from its width. -/
theorem witness_MisalignedTraps_jump : ∃ s i b, wf s.cur.2 i = true ∧ jumpReg i = some b ∧ Ready s (headerOf i) ∧
    NotSpec s ∧ ((here s).x b).toNat % 8 ≠ 0 :=
  ⟨on .k (addr 4 0), .jmpr noSync 1, _, by decide, rfl, by
    rw [show headerOf (.jmpr noSync 1) = noSync by decide]; exact ready_noSync _, notSpec_addr _ _ _, by decide⟩

theorem witness_MisalignedTraps_access : ∃ s h, ∃ w : MWidth, ∃ b : BitVec 6, ∃ e : BitVec 5, ∃ disp : BitVec 18,
    Ready s h ∧ NotSpec s ∧ s.cur.2 = .k ∧ ((here s).x b + BitVec.ofInt 64 disp.toInt).toNat % widthOf w ≠ 0 ∧
    ((here s).x b + BitVec.ofInt 64 disp.toInt).toNat % 8 ≠ 0 ∧
    ∃ s', Ready s' h ∧ NotSpec s' ∧ s'.cur.2 = .l ∧
      ((here s').a s'.cur.2 e + BitVec.ofInt 64 disp.toInt).toNat % widthOf w ≠ 0 :=
  ⟨on .k (addr 0 0), noSync, ⟨false, 1⟩, 1, 1, 0x3FFFF, ready_noSync _, notSpec_addr _ _ _, rfl, by decide, by decide,
    on .l (addr 0 0), ready_noSync _, notSpec_addr _ _ _, rfl, by decide⟩

/-! ## Waiting -/

theorem mayWait (c : CoreSt) (h : c.handler = false) (hp : ∀ q, q ≠ .k → (c.seq q).cond = .ended)
    (hu : c.units = {}) : MayWait (busy .k c) 0 task1 (job1 launch1) launch1 where
  task := rfl
  job := rfl
  launch := rfl
  noHandler := h
  noX0 := by decide
  few := by decide
  parked := hp
  idle u := by
    show (CoreSt.unit { c with task := some task1 } u) = []
    cases u <;> simp [CoreSt.unit, hu]
  room := show 0 < contCap by decide

/-- K may wait: L, C and S have ended. -/
def parked (c : CoreSt) : CoreSt :=
  { c with regs := { c.regs with l := { cond := .ended }, c := { cond := .ended }, s := { cond := .ended } } }

theorem parked_ended (c : CoreSt) (q : Seq) (h : q ≠ .k) : ((parked c).seq q).cond = .ended := by
  cases q <;> first | rfl | exact absurd rfl h

theorem notSpec_busy (q : Seq) (c : CoreSt) : NotSpec (busy q c) := by
  intro t h
  have : (here (busy q c)).task = some task1 := by cases q <;> rfl
  rw [this] at h
  cases h
  rfl

theorem witness_WaitOnWord : ∃ s h cond w4 x b c a k j l, wf s.cur.2 (.waita h cond w4 x b c) = true ∧ Ready s h ∧
    NotSpec s ∧ MayWait s ((here s).x c) k j l ∧ ((here s).x b).toNat % widthW w4 = 0 ∧
    SyncWord s .read ((here s).x b) a ∧ Sound s a (widthW w4) :=
  ⟨busy .k (parked (addr swWord 0)), noSync, .eq, true, 3, 1, 2, .sw 0xFFFFF8, _, _, _, by decide, ready_noSync _,
    notSpec_busy _ _, mayWait _ rfl (parked_ended _) rfl, by decide, .window _ (by decide) rfl, sound_window _ _ _⟩

theorem witness_BarrierWait : ∃ s h b c o k j l phase, wf s.cur.2 (.barw h b c) = true ∧ Ready s h ∧ NotSpec s ∧
    MayWait s ((here s).x c) k j l ∧ ((here s).x b).toNat % 8 = 0 ∧ pathOf ((here s).x b) = 7 ∧
    swByte (offOf ((here s).x b)) = some o ∧ (here s).arrival = some ((here s).x b, phase) :=
  ⟨busy .k (parked { addr swWord 0 with arrival := some (swWord, 0) }), noSync, 1, 2, _, _, _, _, _, by decide,
    ready_noSync _, notSpec_busy _ _, mayWait _ rfl (parked_ended _) rfl, by decide, by decide, rfl, rfl⟩

theorem witness_Fences : ∃ s h, Ready s h :=
  ⟨on .s { regs := { s := { live := [0] } } }, noSync, ready_noSync _⟩

theorem witness_Fences_ranges : ∃ s h b c, wf s.cur.2 (.afence h b c) = true ∧ Ready s h ∧ NoWriters s ∧
    (mover s).live = [] ∧ pathOf ((here s).x b) = 4 ∧ offOf ((here s).x b) ≤ 0x17FFFF ∧ pathOf ((here s).x c) = 4 ∧
    offOf ((here s).x c) ≤ 0x17FFFF :=
  ⟨on .k (addr 0x4000000000000000 0x400000000017FFFF), noSync, 1, 2, by decide, ready_noSync _, rfl, rfl,
    by decide, by decide, by decide, by decide⟩

/-! ## Coils -/

/-- One coil of job 1 on die 0, with an extent of four slots of 64 bytes in core 0's scratchpad, two of them reserved
and n committed; its handle stands in x1. -/
def coiledTo (n : Nat) (v : Word) : State :=
  { busy .k (addr 0x100001 v) with
    memory := { coils := [(1, { job := 1, log2 := 6, r := 2, c := n, extents := [⟨0x4000000000000000, 4, 64, 0, false⟩] })]
                coilGen := [(1, 1)] } }

/-- With none committed. -/
abbrev coiled (v : Word) : State := coiledTo 0 v

theorem notSpec_coiled (n : Nat) (v : Word) : NotSpec (coiledTo n v) := by
  intro t h
  have : (here (coiledTo n v)).task = some task1 := rfl
  rw [this] at h
  cases h
  rfl

theorem witness_StoreResult_coil : ∃ s h w r b c off co a p, wf s.cur.2 (.stCoil h w r b c off) = true ∧ Ready s h ∧
    NotSpec s ∧ s.coil? ((here s).x b) = some co ∧ co.c ≤ ((here s).x c).toNat ∧ ((here s).x c).toNat < co.r ∧
    slotAddress co.extents ((here s).x c).toNat = some a ∧ off.toNat % widthOf w = 0 ∧
    off.toNat + widthOf w ≤ 2 ^ co.log2 ∧ StoresTo s .coil (a + BitVec.ofNat 64 off.toNat) p :=
  ⟨coiled 1, noSync, ⟨false, 3⟩, 3, 1, 2, 56, _, _, .sp 0 120, by decide, ready_noSync _, notSpec_coiled _ _, rfl,
    by decide, by decide, rfl, by decide, by decide,
    .scratch (by decide) (by decide) (by unfold Covered; decide) (by unfold CanStamp; decide)⟩

theorem witness_CoilLifetime : ∃ s h d size key, wf s.cur.2 (.cnew h d size) = true ∧ Ready s h ∧ NotSpec s ∧
    s.freeDescriptor (coreNo s / 56) = some key ∧ key < 2 ^ 20 ∧ d ≠ 0 :=
  ⟨coiled 0, noSync, 63, 10, _, by decide, ready_noSync _, notSpec_coiled _ _, rfl, by decide, by decide⟩

theorem witness_CoilLifetime_drop : ∃ s h b co, wf s.cur.2 (.cdrop h b) = true ∧ Ready s h ∧ NotSpec s ∧
    s.coil? ((here s).x b) = some co :=
  ⟨coiled 0, noSync, 1, _, by decide, ready_noSync _, notSpec_coiled _ _, rfl⟩

theorem witness_CoilReserved : ∃ s h d b c co j, wf s.cur.2 (.cres h d b c) = true ∧ Ready s h ∧ NotSpec s ∧
    s.coil? ((here s).x b) = some co ∧ s.job? co.job = some j ∧ 1 ≤ ((here s).x c).toNat ∧
    ((here s).x c).toNat ≤ 2 ^ 30 ∧ co.r + ((here s).x c).toNat ≤ (co.extents.map (·.slots)).sum :=
  ⟨coiled 2, noSync, 0, 1, 2, _, _, by decide, ready_noSync _, notSpec_coiled _ _, rfl, rfl, by decide, by decide,
    by decide⟩

theorem witness_CoilReads : ∃ s i h handle f co j v, wf s.cur.2 i = true ∧
    coilRead s (here s) s.cur.2 i = some (h, handle, f) ∧ Ready s h ∧ NotSpec s ∧ s.coil? handle = some co ∧
    s.job? co.job = some j ∧ f co j = some v :=
  ⟨coiled 1, .caddr noSync 3 1 2, _, _, _, _, _, _, by decide, rfl, ready_noSync _, notSpec_coiled _ _, rfl, rfl, rfl⟩

/-- The slots from the committed length up to the reserved one. -/
theorem witness_CoilCommittedAndForked_commit : ∃ s h a b c co n x, wf s.cur.2 (.ccommit h a b c) = true ∧ Ready s h ∧
    NotSpec s ∧ NoWriters s ∧ s.coil? ((here s).x b) = some co ∧ n = ((here s).x a).toNat ∧ x = ((here s).x c).toNat ∧
    1 ≤ n ∧ co.c ≤ x ∧ x + n ≤ co.r ∧ x + n ≤ co.c + 1024 ∧
    (∀ i, x ≤ co.c + i → co.c + i < x + n → co.bitmap.getLsbD i = false) :=
  ⟨coiled 2, noSync, 2, 1, 0, _, _, _, by decide, ready_noSync _, notSpec_coiled _ _, rfl, rfl, rfl, rfl, by decide,
    by decide, by decide, by decide, fun i _ _ => BitVec.getLsbD_zero⟩

/-- A slot beyond the committed length. -/
theorem witness_CoilCommittedAndForked_beyond : ∃ s h a b c co n x, wf s.cur.2 (.ccommit h a b c) = true ∧ Ready s h ∧
    NotSpec s ∧ NoWriters s ∧ s.coil? ((here s).x b) = some co ∧ n = ((here s).x a).toNat ∧ x = ((here s).x c).toNat ∧
    1 ≤ n ∧ co.c < x ∧ x + n = co.r ∧ x + n ≤ co.c + 1024 ∧
    (∀ i, x ≤ co.c + i → co.c + i < x + n → co.bitmap.getLsbD i = false) :=
  ⟨coiled 1, noSync, 2, 1, 2, _, _, _, by decide, ready_noSync _, notSpec_coiled _ _, rfl, rfl, rfl, rfl, by decide,
    by decide, by decide, by decide, fun i _ _ => BitVec.getLsbD_zero⟩

/-- A fork at the committed length, with a destination and with x0. -/
theorem witness_CoilCommittedAndForked_fork (d : BitVec 6) (hd : d = 3 ∨ d = 0) : ∃ s h b c co key f,
    wf s.cur.2 (.cfork h d b c) = true ∧ Ready s h ∧ NotSpec s ∧ s.coil? ((here s).x b) = some co ∧
    f = ((here s).x c).toNat ∧ 0 < f ∧ f ≤ co.c ∧
    s.freeDescriptor (coreNo s / 56) = some key ∧ key < 2 ^ 20 ∧ key ≠ ((here s).x b).toNat % 2 ^ 20 :=
  ⟨coiledTo 2 2, noSync, 1, 2, _, _, _, by rcases hd with rfl | rfl <;> decide, ready_noSync _, notSpec_coiled _ _, rfl,
    rfl, by decide, by decide, rfl, by decide, by decide⟩

/-! ## Wheels, work and queues -/

/-- A job whose text is all zeros, which are NOPs, and whose G memory from 0 on may be read and written; a sequencer of
core 0 moves. -/
def texted (q : Seq) (c : CoreSt) : State :=
  { State.reset.placeText .l [] with cur := (0, q), cores := [(0, { c with task := some (textTask 1) })], sched := [] }

def tx : State := texted .l {}

theorem notSpec_texted (q : Seq) (c : CoreSt) : NotSpec (texted q c) := by
  intro t h
  have : (here (texted q c)).task = some (textTask 1) := by cases q <;> rfl
  rw [this] at h
  cases h
  rfl

theorem notSpec_tx : NotSpec tx := notSpec_texted _ _

theorem tx_pathOf : pathOf ((mover tx).pc + 32) = 0 := by decide +kernel

theorem tx_place : tx.translate (here tx).job (offOf ((mover tx).pc + 32)) .fetch = .ok (0x40000020, 0, false) := by
  decide +kernel

theorem tx_clean : tx.devPoison 0x40000020 8 = false := by decide +kernel

theorem tx_zero : (0 : Word) = BitVec.ofNat 64 (leNat (tx.devRead 0 0x40000020 8)) := by decide +kernel

theorem tx_text : TextAt tx (here tx).job ((mover tx).pc + 32) [0] where
  whole := by decide
  words i w h := by
    match i, h with
    | 0, h =>
      obtain rfl : (0 : Word) = w := Option.some.inj h
      rw [show (mover tx).pc + 32 + BitVec.ofNat 64 (8 * 0) = (mover tx).pc + 32 from BitVec.add_zero _]
      exact ⟨tx_pathOf, _, _, _, tx_place, tx_clean, tx_zero⟩

theorem tx_body : BodyAt tx ((mover tx).pc + 32) [((mover tx).pc + 32, .nop noSync)]
    ((mover tx).pc + 32 + BitVec.ofNat 64 (lengthOf (.nop noSync))) :=
  .step _ _ [0] _ _ tx_text (by decide) (.done _)

theorem witness_WheelStarts : ∃ s h bodyM1 iiM1 stagesM1 trip rots body last n u,
    wf s.cur.2 (.wheel h bodyM1 iiM1 stagesM1 trip rots) = true ∧ Ready s h ∧ NotSpec s ∧
    trips (popped s h) trip = some (n, u) ∧ n < 2 ^ 32 ∧ body.length = bodyM1.toNat + 1 ∧
    BodyAt s ((mover s).pc + 32) body last ∧ stagesM1.toNat + 1 ≤ body.length ∧
    (∀ b ∈ body, wheelRefuses b.2 = false) ∧
    ∀ r ∈ rots, ∃ b, body[r.posM1.toNat]? = some b ∧ rotTooFar s.cur.2 r b.2 = false :=
  ⟨tx, noSync, 0, 0, 0, .imm 1, [], _, _, 1, _, by decide, ready_noSync _, notSpec_tx, rfl, by decide, rfl, tx_body,
    by decide, fun b h => by
      obtain rfl := List.mem_singleton.mp h
      decide, fun _ h => nomatch h⟩


/-- A list in the core's own scratchpad. -/
theorem listAt_sp {s : State} {va : Word} {n : Nat} {ws : Nat → Nat}
    (hp : ∀ i, i < n → pathOf (va + BitVec.ofNat 64 (8 * i)) = 4 ∧ offOf (va + BitVec.ofNat 64 (8 * i)) ≤ 0x17FFFF ∧
      Covered s (.sp (coreNo s) (offOf (va + BitVec.ofNat 64 (8 * i)) / 128)) ∧
      (here s).spPoisoned (offOf (va + BitVec.ofNat 64 (8 * i))) 8 = false ∧
      leNat ((here s).spBytes (offOf (va + BitVec.ofNat 64 (8 * i))) 8) = ws i)
    (hc : ∀ pa slot l, cachedAt s pa slot 8 = some l → False) : ListAt s va n ws where
  words i h :=
    let ⟨p, o, c, q, w⟩ := hp i h
    ⟨.inr p, _, .scratch p o c q, w⟩
  cached pa slot l _ h := (hc pa slot l h).elim

/-- The first byte of the own scratchpad. -/
def sp0 : Word := 0x4000000000000000

theorem witness_StageWork_push : ∃ s h, ∃ b c : BitVec 6, ∃ queue : BitVec 4, ∃ k j l q, ∃ ws : Nat → Nat,
    wf s.cur.2 (.sqpush h b c queue) = true ∧
    Ready s h ∧ NotSpec s ∧ NoWriters s ∧ ((here s).x b).toNat % 8 = 0 ∧ goodMask s ((here s).x c) ∧
    (here s).task = some k ∧ s.job? k.job = some j ∧ cfind j.launches k.launch = some l ∧
    cfind l.queues queue.toNat = some q ∧ q.producers.getLsbD k.stage = true ∧
    (q.entries.length < q.cap ∨ k.reserve = some queue.toNat) ∧
    ((mover s).pushPark = false ∨ ∀ p, p ≠ .k → ((here s).seq p).cond = .ended) ∧ ListAt s ((here s).x b) 8 ws :=
  ⟨busy .k (addr sp0 0xFFFFFE), noSync, 1, 2, 0, task1, job1 launch1, launch1, { cap := 2, consumer := 0, producers := 1 },
    fun _ => 0, by decide, ready_noSync _, notSpec_busy _ _, rfl, by decide,
    ⟨rfl, by decide, by decide⟩, rfl, rfl, rfl, rfl, by decide, .inl (by decide), .inl rfl,
    listAt_sp (by unfold Covered; decide) (fun _ _ _ h => nomatch h)⟩

theorem witness_StageWork_yield : ∃ s h k, wf s.cur.2 (.yield h) = true ∧ Ready s h ∧ (here s).handler = false ∧
    (here s).task = some k ∧ ∀ l, s.launch? k.job k.launch = some l → s.workOn (coreNo s / 56) l.cls = false :=
  ⟨busy .k {}, noSync, task1, by decide, ready_noSync _, rfl, rfl, fun l h => by
    obtain rfl : launch1 = l := Option.some.inj h
    decide⟩

/-- A queue that the device feeds, of 32 slots. -/
def wq : WQ where
  host := []
  job := 1
  ring := 0
  order := 5
  flags := 3
  event := 0
  self := 0x1000
  next := 0xFFFFFFFF
  prod := 0
  ringCap := { len := 4096, wr := true, tag := true, spans := [(0x40000000, 0, false, 4096)] }

def fed (c : CoreSt) : State := { texted .k c with queues := [(131071, wq)] }

theorem notSpec_fed (c : CoreSt) : NotSpec (fed c) := by
  intro t h
  have : (here (fed c)).task = some (textTask 1) := rfl
  rw [this] at h
  cases h
  rfl

theorem witness_QueueInstructions_launch : ∃ s h, ∃ b c : BitVec 6, ∃ q, ∃ ws : Nat → Nat, ∃ pa slot : Nat,
    wf s.cur.2 (.launch h b c) = true ∧ Ready s h ∧ NotSpec s ∧ NoWriters s ∧ ((here s).x b).toNat % 8 = 0 ∧
    ((here s).x c).toNat ≤ 131071 ∧ s.queue? ((here s).x c).toNat = some q ∧ q.job = (here s).job ∧
    q.flags.getLsbD 1 = true ∧ (q.prod - q.next).toNat ≠ 2 ^ q.order ∧ ListAt s ((here s).x b) 16 ws ∧
    q.ringCap.tag = true ∧ q.ringCap.wr = true ∧ q.slotAt q.prod + 128 ≤ q.ringCap.len ∧
    cutSpans q.ringCap.spans (q.slotAt q.prod) 128 = [(pa, slot, false, 128)] :=
  ⟨fed (addr sp0 131071), noSync, 1, 2, wq, fun _ => 0, 0x40000000, 0, by decide, ready_noSync _, notSpec_fed _,
    rfl, by decide, by decide, by decide, rfl, by decide, by decide,
    listAt_sp (by unfold Covered; decide) (fun _ _ _ h => nomatch h), rfl, rfl, by decide, by decide⟩

theorem witness_QueueInstructions_hint : ∃ s h, ∃ b : BitVec 6, ∃ policy : BitVec 2, ∃ q,
    wf s.cur.2 (.phint h b policy) = true ∧
    Ready s h ∧ NotSpec s ∧ ((here s).x b).toNat ≤ 131071 ∧ s.queue? ((here s).x b).toNat = some q ∧
    q.job = (here s).job :=
  ⟨fed (addr 131071 0), noSync, 1, 2, wq, by decide, ready_noSync _, notSpec_fed _, by decide, by decide, rfl⟩

theorem witness_CancelAndCount_cancel : ∃ s h, ∃ b : BitVec 6, ∃ level : BitVec 2, ∃ l n cancelled,
    wf s.cur.2 (.cancel h b level) = true ∧ Ready s h ∧ NotSpec s ∧ levelNamed s b level = some l ∧
    s.levelWord (here s).job l = some (n, false, cancelled) ∧
    ∀ j, s.job? (here s).job = some j → crising 0 j.launches = true :=
  ⟨busy .k (addr 1 0), noSync, 1, 0, .launch 1, 0, false, by decide, ready_noSync _, notSpec_busy _ _, by decide,
    by decide, fun j h => by
      obtain rfl : job1 launch1 = j := Option.some.inj h
      decide⟩

theorem witness_CancelAndCount_count : ∃ s h, ∃ b d : BitVec 6, ∃ level : BitVec 2, ∃ l,
    wf s.cur.2 (.ccnt h d b level) = true ∧
    Ready s h ∧ NotSpec s ∧ levelNamed s b level = some l :=
  ⟨busy .k (addr 0xFFFFFFFFFFFF 0), noSync, 1, 63, 1, .graph 0xFFFF 0xFFFFFFFF, by decide, ready_noSync _,
    notSpec_busy _ _, by decide⟩

/-- The coil of `coiled` with one slot committed, and in the scratchpad a batch of one sequence of it. -/
def batched : State :=
  { busy .k { addr sp0 0x4000000000000080 with
      regs := { x := [(1, sp0), (2, 0x4000000000000080), (3, 1)] }
      stores := { sp := [(0, 1), (8, 1), (10, 0x10), (16, 1), (18, 0x10)] } } with
    memory := { coils := [(1, { job := 1, log2 := 6, r := 2, c := 1, extents := [⟨0x4000000000000000, 4, 64, 0, false⟩] })]
                coilGen := [(1, 1)] } }

def batchWords (i : Nat) : Nat := [1, 0x100001, 0x100001, 0, 0].getD i 0

theorem witness_SpanPlan : ∃ s h, ∃ a b c : BitVec 6, ∃ n, ∃ ws : Nat → Nat, ∃ ck cv : Nat → Coil, ∃ x : Batch,
    wf s.cur.2 (.plan h a b c) = true ∧ Ready s h ∧ NotSpec s ∧ CanStamp s ∧
    1 ≤ ((here s).x a).toNat ∧ ((here s).x a).toNat ≤ 4096 ∧ ((here s).x b).toNat % 8 = 0 ∧
    ((here s).x c).toNat % 8 = 0 ∧ 1 ≤ n ∧ n ≤ 4096 ∧ ListAt s ((here s).x b) (4 * n + 1) ws ∧ ws 0 = n ∧
    (∀ i, i < n → ws (4 * i + 4) = 0 ∧ s.coil? (BitVec.ofNat 64 (ws (4 * i + 1))) = some (ck i) ∧
      s.coil? (BitVec.ofNat 64 (ws (4 * i + 2))) = some (cv i)) ∧
    x.firsts = (List.range n).map (fun i => ws (4 * i + 3)) ∧
    x.keys = (List.range n).map (fun i => planKeys (ck i) (cv i) (ws (4 * i + 3))) ∧
    pathOf ((here s).x c) = 4 ∧ offOf ((here s).x c) + (spanTable x ((here s).x a).toNat).length ≤ 0x180000 ∧
    ∀ o, o < (spanTable x ((here s).x a).toNat).length →
      Covered s (.sp (coreNo s) ((offOf ((here s).x c) + o) / 128)) :=
  ⟨batched, noSync, 3, 1, 2, 1, batchWords, fun _ => (batched.coil? 0x100001).getD default,
    fun _ => (batched.coil? 0x100001).getD default, ⟨[0], [1]⟩, by decide, ready_noSync _,
    fun t h => by
      have e : (here batched).task = some task1 := rfl
      rw [e] at h
      cases h
      rfl, by unfold CanStamp; decide, by decide, by decide,
    by decide, by decide, by decide, by decide,
    listAt_sp (by unfold Covered; decide +kernel) (fun _ _ _ h => nomatch h), rfl, by decide +kernel, by decide, by decide +kernel,
    by decide, by decide +kernel, by unfold Covered; decide +kernel⟩

/-! ## Commands and element operations -/

theorem witness_CommandsIssue : ∃ s i h, ∃ f : Option Sem, ∃ u pa pb, wf s.cur.2 i = true ∧
    commandUnit i = some (h, f, u) ∧
    CanPop s h ∧ (here s).guard s.cur.2 h = true ∧
    ((u = .load ∨ u = .store ∨ u = .copy ∨ (u = .mac ∧ ∀ h f ty z piv, i ≠ .mfact h f ty z piv)) → NotSpec s) ∧ waitMet s f ∧
    unitRoom (here s) u ∧
    accepted s (here s) s.cur.2 i ∧ Bound (here s) (portSlots i).1 pa ∧ Bound (here s) (portSlots i).2 pb :=
  ⟨on .l {}, .tld noSync noSem .f32 (.q 0) 0 1 (-1) { conj := false, tr := none, sc := 0, dq := .none }, noSync, noSem,
    .load, none, none, by decide, rfl, (ready_noSync _).pops, (ready_noSync _).guard, (fun _ => notSpec_on _ _ (.inl rfl)), .inl rfl, trivial,
    ⟨⟨by decide, fun h => absurd h (by decide)⟩, by decide, fun _ h => nomatch h⟩, .off, .off⟩

theorem witness_CommandsIssue_signal : ∃ s h, ∃ b c : BitVec 5, ∃ j ident fabric, wf s.cur.2 (.rsig h b c) = true ∧
    Ready s h ∧ NotSpec s ∧
    (mover s).live = [] ∧ (mover s).sigs = [] ∧ pathOf ((here s).a s.cur.2 b) = 8 ∧
    ((here s).a s.cur.2 b).toNat % 8 = 0 ∧ s.job? (here s).job = some j ∧
    cfind j.peers (offOf ((here s).a s.cur.2 b) / 2 ^ 48) = some (ident, fabric) ∧
    cfind s.memory.peerFault ((here s).a s.cur.2 b).toNat = none :=
  ⟨{ busy .s (addr 0x8FFFFFFFFFFFFFF8 1) with jobs := [(1, { job1 launch1 with peers := [(4095, 9, 7)] })] }, noSync,
    1, 2, _, 9, 7, by decide, ready_noSync _, notSpec_busy .s _, rfl, rfl, by decide, by decide, rfl, by decide, by decide⟩

/-- A command of a unit of core 0, whose core holds a task. -/
def unitBusy (u : CUnit) (x : Cmd) (c : CoreSt) : State := busy .k (c.setUnit u [x])

theorem runs_busy (u : CUnit) (x : Cmd) (c : CoreSt) (h : x.done = false)
    (hc : c.handler = false ∧ c.frozen = 0 ∧ (c.preempt = .none ∨ c.preempt = .requested)) :
    Runs (unitBusy u x c) 0 u x [] :=
  ⟨by cases u <;> rfl, h, (fun h => nomatch h), by cases u <;> exact hc⟩

/-- The last row of the lines. -/
def lastRow : ZRange := ⟨2044, 3⟩

def cmdOf (i : Instr) (q : Seq) : Cmd := { inst := i, seq := q, ipc := 0, num := 0, begun := true }

theorem witness_MatrixSteps_mzero : ∃ (s : State) (n : Fin 448) (x : Cmd) (rest : List Cmd) (h : Hdr) (f : Sem) (ty : Ty)
    (z : ZRange), Runs s n .mat x rest ∧ NoMacro s n x ∧ x.inst = .mzero h f ty z ∧ wf .c x.inst = true ∧
    rowLines ty * x.cursor < z.count :=
  ⟨unitBusy .mat (cmdOf (.mzero noSync noSem .f32 lastRow) .c) {}, 0, _, _, _, _, _, _,
    runs_busy _ _ _ rfl ⟨rfl, rfl, .inl rfl⟩, (fun _ h => nomatch h), rfl, by decide, by decide⟩

/-- A weight tile of format FP64, and a core whose queue q7 holds the activations of one row and no more. -/
def tile64 : Tile := ⟨.f64, List.replicate 1024 ⟨0, 127, false⟩⟩
def acts64 : List QElem := List.replicate 32 { ty := .f64, bits := 0 }
def fedRow : CoreSt := { stores := { w1 := { cur := some tile64 } }, couple := { queues := [(7, { elems := acts64 })] } }

theorem witness_MatrixSteps_mma : ∃ (s : State) (n : Fin 448) (x : Cmd) (rest : List Cmd) (h : Hdr) (f : Sem) (ty : Ty)
    (ow : Bool) (w : BitVec 1) (q : BitVec 3) (slot : BitVec 6) (z : ZRange) (t : Tile) (acts more : List QElem),
    Runs s n .mat x rest ∧ NoMacro s n x ∧ x.inst = .mma h f ty ow w q slot z ∧ wf .c x.inst = true ∧ x.begun = true ∧
    x.pa = none ∧ ((s.core n.val).latch w.toNat).cur = some t ∧ permitted t.fmt ty ∧
    t.vals.length = depth t.fmt * width t.fmt ∧ (∀ v ∈ t.vals, v.poison = false) ∧
    ((s.core n.val).queue q.toNat).elems = acts ++ more ∧ acts.length = depth t.fmt ∧
    (∀ e ∈ acts, e.ty = ty ∧ e.poison = false) ∧ rowLines t.fmt * x.cursor < z.count ∧ z.count % rowLines t.fmt = 0 :=
  ⟨unitBusy .mat (cmdOf (.mma noSync noSem .f64 true 1 7 63 lastRow) .c) fedRow, 0, _, _, _, _, _, _, 1, 7, _, _, tile64,
    acts64, [], runs_busy _ _ _ rfl ⟨rfl, rfl, .inl rfl⟩, (fun _ h => nomatch h), rfl, by decide, rfl, rfl, rfl, rfl,
    List.length_replicate .., (fun v h => by rw [List.eq_of_mem_replicate h]), (List.append_nil _).symm,
    List.length_replicate .., (fun e h => by rw [List.eq_of_mem_replicate h]; exact ⟨rfl, rfl⟩), by decide, by decide⟩

theorem witness_MatrixSteps_mdrain : ∃ (s : State) (n : Fin 448) (x : Cmd) (rest : List Cmd) (h : Hdr) (f : Sem) (ty : Ty)
    (o : BitVec 3) (slot : BitVec 6) (z : ZRange) (lines : Lines), Runs s n .mat x rest ∧ NoMacro s n x ∧
    x.inst = .mdrain h f ty o slot z lines ∧ wf .c x.inst = true ∧ (lines = .f32 ∧ ty = .f32 ∨ lines = .f64 ∧ ty = .f64) ∧
    rowLines ty * x.cursor < z.count ∧ x.pa = none ∧
    (((s.core n.val).queue (8 + o.toNat)).elems.map fun i => i.ty.bits).sum + (if ty = .f64 then 32 else 256) * ty.bits ≤
      131072 :=
  ⟨unitBusy .mat (cmdOf (.mdrain noSync noSem .f64 7 63 lastRow .f64) .c) {}, 0, _, _, _, _, _, _, _, _, _,
    runs_busy _ _ _ rfl ⟨rfl, rfl, .inl rfl⟩, (fun _ h => nomatch h), rfl, by decide, .inr ⟨rfl, rfl⟩, by decide, rfl,
    by decide⟩

/-- A tile command on the last doubleword of the scratchpad. -/
def tileOf (i : Instr) (q : Seq) : Cmd := { cmdOf i q with src := lastSp }

theorem element_last (i : Instr) (q : Seq) : ElementAt (tileOf i q) .n64 lastSp :=
  ⟨rfl, by decide, show lastSp = lastSp + BitVec.ofInt 64 ((MapReg.view {}).off 0 * (64 / 8)) by decide,
    show 0 < (MapReg.view {}).count by decide,
    show pathOf lastSp = pathOf lastSp ∧ (pathOf lastSp = 0 ∨ pathOf lastSp = 1 ∨ pathOf lastSp = 4 ∨ pathOf lastSp = 5)
      by decide, by decide⟩

theorem notSpec_unit (u : CUnit) (x : Cmd) (c : CoreSt) : NotSpec (acting (unitBusy u x c) 0 x) := by
  intro t h
  have e : (here (acting (unitBusy u x c) 0 x)).task = some task1 := rfl
  rw [e] at h
  cases h
  rfl

theorem witness_TileSteps_tld : ∃ (s : State) (n : Fin 448) (x : Cmd) (rest : List Cmd) (h : Hdr) (f : Sem) (ty : Ty)
    (q : BitVec 3) (m : BitVec 4) (b : BitVec 5) (disp : BitVec 18) (o : LoadHalf) (va : Word) (bs : List Byte),
    Runs s n .load x rest ∧ x.inst = .tld h f ty (.q q) m b disp o ∧ o.tr = none ∧ o.dq = .none ∧ o.conj = false ∧
    HeadFree s n .load ∧ KeptWell (acting s n x) x .read va ∧
    ElementAt x ty va ∧ NotSpec (acting s n x) ∧ Loaded (acting s n x) true va (ty.bits / 8) bs ∧
    (((s.core n.val).queue q.toNat).elems.map fun i => i.ty.bits).sum + ty.bits ≤ 131072 :=
  ⟨unitBusy .load (tileOf (.tld noSync noSem .n64 (.q 7) 0 1 0 { conj := false, tr := none, sc := 0, dq := .none }) .l) {}, 0,
    _, _, _, _, .n64, 7, _, _, _, _, lastSp, _, runs_busy _ _ _ rfl ⟨rfl, rfl, .inl rfl⟩, rfl, rfl, rfl, rfl, rfl,
    (fun _ h => nomatch h), element_last _ _, notSpec_unit _ _ _, .scratch (by decide) (by decide) (by unfold Covered; decide) (by decide), by decide⟩

theorem witness_TileSteps_tst : ∃ (s : State) (n : Fin 448) (x : Cmd) (rest : List Cmd) (h : Hdr) (f : Sem) (ty : Ty)
    (o : BitVec 3) (m : BitVec 4) (b : BitVec 5) (disp : BitVec 18) (sh : StoreHalf) (va : Word) (e : QElem)
    (more : List QElem) (p : Target), Runs s n .store x rest ∧ x.inst = .tst h f ty o m b disp sh ∧ sh.inTy = ty ∧
    sh.red = .none ∧ x.begun = true ∧ x.xv = [] ∧ ((s.core n.val).queue (8 + o.toNat)).elems = e :: more ∧ e.ty = ty ∧
    e.poison = false ∧ HeadFree s n .store ∧ KeptWell (acting s n x) x .write va ∧ WordEnds x ty va ∧
    NothingLost s x ∧ ElementAt x ty va ∧ NotSpec (acting s n x) ∧ StoresTo (acting s n x) .write va p :=
  ⟨unitBusy .store (tileOf (.tst noSync noSem .n64 7 0 1 0 (plainHalf .n64)) .s)
      { couple := { queues := [(15, { elems := [{ ty := .n64, bits := 1 }] })] } }, 0,
    _, _, _, _, .n64, 7, _, _, _, plainHalf .n64, lastSp, _, _, _, runs_busy _ _ _ rfl ⟨rfl, rfl, .inl rfl⟩, rfl, rfl, rfl,
    rfl, rfl, rfl, rfl, rfl, rfl, (fun _ h => nomatch h), .inr (.inl rfl), (fun _ h => nomatch h), element_last _ _, notSpec_unit _ _ _,
    .scratch (by decide) (by decide) (by unfold Covered; decide) (by unfold CanStamp; decide)⟩

theorem witness_TileSteps_tzero : ∃ (s : State) (n : Fin 448) (x : Cmd) (rest : List Cmd) (h : Hdr) (f : Sem) (ty : Ty)
    (m : BitVec 4) (b : BitVec 5) (disp : BitVec 18) (va : Word) (p : Target), Runs s n .copy x rest ∧
    x.inst = .tzero h f ty m b disp ∧ x.begun = true ∧ x.xv = [] ∧ HeadFree s n .copy ∧
    KeptWell (acting s n x) x .write va ∧ WordEnds x ty va ∧ NothingLost s x ∧ ElementAt x ty va ∧ NotSpec (acting s n x) ∧
    StoresTo (acting s n x) .write va p :=
  ⟨unitBusy .copy (tileOf (.tzero noSync noSem .n64 0 1 0) .s) {}, 0, _, _, _, _, .n64, _, _, _, lastSp, _,
    runs_busy _ _ _ rfl ⟨rfl, rfl, .inl rfl⟩, rfl, rfl, rfl, rfl, (fun _ h => nomatch h), .inr (.inl rfl), (fun _ h => nomatch h), element_last _ _, notSpec_unit _ _ _,
    .scratch (by decide) (by decide) (by unfold Covered; decide) (by unfold CanStamp; decide)⟩

theorem witness_StatisticsAndBindings : ∃ s h, Ready s h ∧ (mover s).live = [] ∧
    (∃ code : BitVec 3, wf s.cur.2 (.mstat h code) = true) ∧
    ((here s).fifo (fifoIdx s.cur.2 .k)).length < 15 ∧
    (.k ∈ neighbours s.cur.2 h.push → ((here s).fifo (fifoIdx s.cur.2 .k)).length < 14) ∧
    (((here s).fifo (fifoIdx s.cur.2 .k)).filter fun t => t.val.isSome).length < 4 ∧
    (∃ port k : BitVec 3, ∃ v, wf s.cur.2 (.pstate h port k) = true ∧
      (cget [] (here s).stores.lastK port.toNat)[k.toNat]? = some v ∧ v.poison = false) :=
  ⟨on .c { stores := { lastK := [(5, [⟨5, false⟩])] } }, noSync, ready_noSync _, rfl, ⟨6, by decide⟩, by decide,
    (fun h => by decide), by decide, 5, 0, ⟨5, false⟩, by decide, by decide, rfl⟩

/-- A kernel with one program record of one word, and one table. -/
def kernel1 : Kernel where
  base := 0
  size := 0
  flags := 0
  tasks := []
  pp := [0, 128]
  ppBytes := [1, 1] ++ List.replicate 126 0 ++ [2] ++ List.replicate 1031 0
  sync := []
  link := none

def bindable : State :=
  { busy .c {} with jobs := [(1, { job1 launch1 with kernels := [(1, kernel1)] })] }

theorem witness_StatisticsAndBindings_bind : ∃ s h, Ready s h ∧ (mover s).live = [] ∧
    (∃ slot : BitVec 6, ∃ rec : BitVec 18, ∃ bs, wf s.cur.2 (.pbind h slot rec) = true ∧
      s.ppRecord (coreNo s) rec.toNat = some bs ∧ bs.getD 0 0 = 1 ∧ programCause bs = none) ∧
    ∃ table : BitVec 2, ∃ rec : BitVec 18, ∃ bs, wf s.cur.2 (.pbindTable h table rec) = true ∧
      s.ppRecord (coreNo s) rec.toNat = some bs ∧ bs.getD 0 0 = 2 ∧ ((bs.drop 1).take 7).all (· == 0) = true :=
  ⟨bindable, noSync, ready_noSync _, rfl,
    ⟨0, 0, [1, 1] ++ List.replicate 126 0 ++ [2] ++ List.replicate 1031 0, by decide, by decide +kernel, by decide +kernel,
      by decide +kernel⟩,
    3, 1, [2] ++ List.replicate 1031 0, by decide, by decide +kernel, by decide +kernel, by decide +kernel⟩

/-- A pass over one word. -/
def passing (w : BitVec 32) : State := { State.reset with ppass := some (onePass w) }

theorem witness_ElementOperations : ∃ (s : State) (i : Instr) (p p' : Pass), wfElem i = true ∧ s.ppass = some p ∧ elemPass p i = some p' :=
  ⟨passing 0, .fadd 7 0 15, _, _, by decide, rfl, rfl⟩

theorem witness_ElementOperations_fault : ∃ (s : State) (i : Instr) (p : Pass) (reason code : Nat), s.ppass = some p ∧
    elemFault p i = some (reason, code) :=
  ⟨passing 0, .tbl 0 0 3, onePass 0, 3, 3, rfl, by decide⟩

theorem witness_ElementOperations_none : ∃ (s : State) (i : Instr), wfElem i = true ∧ s.ppass = none :=
  ⟨State.reset, .fadd 7 0 15, by decide, rfl⟩

theorem witness_ElementOperations_words : ∃ i f, wfElem i = true ∧ elemFields i = some f :=
  ⟨.tbl 7 15 3, _, by decide, rfl⟩

theorem witness_DecodeEncode : (∃ q i, wf q i = true) ∧ ∃ i, wfElem i = true :=
  ⟨⟨.k, .addi noSync 63 63 (-1), by decide⟩, .efltFp 31, by decide⟩

/-- L of core 0 stands at a NOP and runs. -/
def stepping : State := { texted .l { regs := { l := { cond := .run, pc := 32 } } } with cur := (0, .l), sched := [⟨true, .seq 0 .l⟩] }

def stepped : State := { moving stepping ⟨true, .seq 0 .l⟩ [] with cur := (0, .l) }

theorem stepped_pc : (mover stepped).pc + BitVec.ofNat 64 (8 * 0) = 32 := by decide +kernel

theorem stepped_place : stepped.translate (here stepped).job (offOf 32) .fetch = .ok (0x40000020, 0, false) := by
  decide +kernel

theorem stepped_zero : (0 : Word) = BitVec.ofNat 64 (leNat (stepped.devRead 0 0x40000020 8)) := by decide +kernel

theorem stepped_text : TextAt stepped (here stepped).job (mover stepped).pc [0] where
  whole := by decide
  words i w h := by
    match i, h with
    | 0, h =>
      obtain rfl : (0 : Word) = w := Option.some.inj h
      rw [stepped_pc]
      exact ⟨by decide, _, _, _, stepped_place, by decide +kernel, stepped_zero⟩

theorem notSpec_stepped : NotSpec stepped := by
  intro t h
  rw [show (here stepped).task = some (textTask 1) by decide +kernel] at h
  cases h
  rfl

theorem witness_StepRunsInstruction_sequencer : ∃ (s : State) (r : List Slot) (same : Bool) (core : Fin 448) (q : Seq)
    (ws : List Word) (i : Instr), s.sched = ⟨same, .seq core q⟩ :: r ∧
    let t := { moving s ⟨same, .seq core q⟩ r with cur := (core, q) }
    (t.core core.val).mayIssue q = true ∧ NotSpec t ∧ (mover t).wheel.active = false ∧
    (mover t).wheel.drained = false ∧ TextAt t (here t).job (mover t).pc ws ∧ decodeList q ws = .ok i :=
  ⟨stepping, [], true, 0, .l, [0], .nop noSync, rfl, by decide +kernel, notSpec_stepped, by decide +kernel, by decide +kernel, stepped_text, by decide⟩

theorem witness_StepRunsInstruction_port : ∃ (s : State) (r : List Slot) (same : Bool) (p : Pass) (w : BitVec 32) (i : Instr), s.sched = ⟨same, .port⟩ :: r ∧ s.ppass = some p ∧
    p.inst.prog.words[p.pos - 1]? = some w ∧ decodeElem w = .ok i ∧ p.acts i = true ∧ (p.inst.count, p.pos) ∉ p.inst.skip :=
  ⟨{ passing 0x00410028 with sched := [⟨true, .port⟩] }, [], true, onePass 0x00410028, 0x00410028, .fcmp 1 0 8 .lt,
    rfl, rfl, rfl, by decide, by decide, List.not_mem_nil⟩

theorem witness_StepRunsInstruction_event : ∃ (s : State) (r : List Slot) (same : Bool) (e : Instr),
    s.sched = ⟨same, .event e⟩ :: r ∧ isEvent e = true :=
  ⟨{ State.reset with sched := [⟨false, .event .powerGood⟩] }, [], false, .powerGood, rfl, rfl⟩

theorem witness_StepRunsInstruction_todo : ∃ (s : State) (r : List Slot) (same : Bool) (e : Instr) (l : List Instr),
    s.sched = ⟨same, .todo⟩ :: r ∧ (moving s ⟨same, .todo⟩ r).todo = e :: l ∧ isEvent e = true :=
  ⟨{ State.reset with sched := [⟨false, .todo⟩], todo := [.powerGood] }, [], false, .powerGood, [], rfl,
    by decide +kernel, rfl⟩

theorem witness_MemoryStaysCanonical : ∃ s t, Memory.wf s.memory.mem = true ∧ step s = .next t :=
  ⟨{ passing 0x00410028 with sched := [⟨true, .port⟩] }, _, by decide, rfl⟩

/-! ## The module from outside -/

/-- The first operation of a flow of port 0. -/
def xf (ident : BitVec 24) : Xfer := ⟨0, 9, ident, .rud, 0⟩

theorem arrives {s : State} {o : Bool} (ident : BitVec 24) (hp : s.boot.powered = true) (hs : s.boot.stage ≠ 0xF)
    (hu : s.boot.ports.getLsbD 0 = true) (hf : s.flows = []) (hh : s.held = []) : Arrives s (xf ident) o where
  powered := hp
  running := hs
  up := hu
  new := by rw [State.flow, hf]; exact Nat.le_refl 0
  once := by rw [State.flow, hf]; exact List.not_mem_nil
  free h hm := by rw [hh] at hm; cases hm
  accepted := .inr rfl
  turn _ := by rw [State.flow, hf]; rfl

/-- A module in stage 0. -/
def stage0 : State := { State.reset with boot := { powered := true, ports := 1 } }

def stage1 (ports : BitVec 12) (dies : BitVec 8) : State :=
  { State.reset with boot := { powered := true, stage := 1, ports := ports, dies := dies } }

theorem witness_BootEvents_go : ∃ s t, ∃ v : Word, Arrives s t false ∧ t.ident = 0 ∧ s.boot.stage = 0 ∧
    s.boot.checking = none ∧ v.getLsbD 0 = true :=
  ⟨stage0, xf 0, 1, arrives 0 rfl (by decide) (by decide) rfl rfl, rfl, rfl, rfl, by decide⟩

theorem witness_BootEvents_check : ∃ (s : State) (who : Word), s.boot.checking = some who :=
  ⟨{ stage0 with boot := { stage0.boot with checking := some 9 } }, 9, rfl⟩

theorem witness_BootEvents_die : ∃ (s : State) (d : Fin 8), s.boot.stage = 1 ∧ s.boot.dies.toNat < 2 ^ d.val :=
  ⟨stage1 0xFFF 0x7E, 7, rfl, by decide⟩

theorem witness_BootEvents_port : ∃ (s : State) (p : Nat), s.boot.stage = 1 ∧ p < 12 ∧ s.boot.ports.toNat = 2 ^ p - 1 :=
  ⟨stage1 0x7FF 0xFF, 11, rfl, by decide, by decide⟩

theorem witness_BootEvents_window : ∃ s t, ∃ off : Nat, ∃ data : List Byte, Arrives s t false ∧ t.ident = 0 ∧
    s.boot.stage = 0 ∧ s.boot.checking = none ∧ off + data.length ≤ 0x4000000 :=
  ⟨stage0, xf 0, 0x3FFFFFF, [1], arrives 0 rfl (by decide) (by decide) rfl rfl, rfl, rfl, rfl, by decide⟩

theorem witness_BootEvents_register : ∃ s t, ∃ off : Nat, ∃ data : List Byte, Arrives s t false ∧ t.ident = 0 ∧
    data ≠ [] ∧ off + data.length ≤ 4096 ∧ (8 < off ∨ off + data.length ≤ 8) :=
  ⟨stage0, xf 0, 7, [1], arrives 0 rfl (by decide) (by decide) rfl rfl, rfl, by decide, by decide, .inr (by decide)⟩

/-- A module in stage 2 with job 1, whose G memory from 0 on begins with some bytes and may be read and written. -/
def stage2 (bytes : List Byte) : State :=
  { State.reset.placeText .l bytes with
    cores := [], sched := [], jobs := [(1, { textJob with ident := 7 })]
    boot := { powered := true, stage := 2, ports := 0xFFF, dies := 0xFF, mgmt := [(9, 0)] } }

theorem arrives2 {o : Bool} (ident : BitVec 24) : Arrives (stage2 []) (xf ident) o :=
  arrives ident rfl (by decide) (by decide) rfl rfl

theorem region2 : ∀ i, i < 2 → (stage2 []).translate 1 (offOf 0 + i) .write = .ok (0x40000000 + i, 0, false) ∧
    (stage2 []).translate 1 (offOf 0 + i) .read = .ok (0x40000000 + i, 0, false) := by decide +kernel

theorem witness_TransportAccesses_write : ∃ s t, ∃ va : Word, ∃ data : List Byte, ∃ job slot, ∃ pa : Nat → Nat,
    Arrives s t false ∧ t.ident ≠ 0 ∧ s.boundJob t.ident = some job ∧ pathOf va = 0 ∧ data.length ≤ 0x4000000 ∧
    Region s job .write (offOf va) data.length slot pa ∧
    ¬ (s.pending job (448 + t.port.val) = true ∧ s.epoch job (448 + t.port.val) = 0x7FFFFF) :=
  ⟨stage2 [], xf 7, 0, [1, 2], 1, 0, (0x40000000 + ·), arrives2 7, by decide, by decide, by decide, by decide,
    ⟨fun i h => ⟨_, (region2 i h).1⟩, fun i j _ _ h => Nat.add_left_cancel h⟩, by decide⟩

theorem witness_TransportAccesses_read : ∃ s t, ∃ va : Word, ∃ n job slot, ∃ pa : Nat → Nat,
    Arrives s t false ∧ t.ident ≠ 0 ∧ s.boundJob t.ident = some job ∧ pathOf va = 0 ∧ n ≤ 0x4000000 ∧
    Region s job .read (offOf va) n slot pa ∧ (∀ i, i < n → cget false s.memory.poison (pa i / 64) = false) ∧
    ∀ i c k, i < n → (s.core c).task = some k → k.job = job →
      (s.core c).regs.sp.argbase ≠ BitVec.ofNat 64 (2 * 2 ^ 60 + (offOf va + i) / 65536 * 65536) :=
  ⟨stage2 [], xf 7, 0, 2, 1, 0, (0x40000000 + ·), arrives2 7, by decide, by decide, by decide, by decide,
    ⟨fun i h => ⟨_, (region2 i h).2⟩, fun i j _ _ h => Nat.add_left_cancel h⟩, by decide +kernel,
    fun _ _ _ _ h => nomatch h⟩

theorem place2 : (stage2 []).translate 1 63 .write = .ok (0x4000003F, 0, false) := by decide +kernel

theorem witness_TransportAccesses_interface : ∃ s t, ∃ va : Word, ∃ data : List Byte, ∃ job pa slot chk,
    Arrives s t false ∧ t.ident ≠ 0 ∧ s.boundJob t.ident = some job ∧ pathOf va = 9 ∧ 1 ≤ data.length ∧
    va.toNat % 64 + data.length ≤ 64 ∧ s.translate job (offOf va) .write = .ok (pa, slot, chk) ∧
    (s.held.filter fun h => h.xfer.port = t.port).length < 256 :=
  ⟨stage2 [], xf 7, 0x900000000000003F, [1], 1, _, _, _, arrives2 7, by decide, by decide, by decide, by decide,
    by decide, place2, by decide⟩

theorem witness_TransportAccesses_visible : ∃ s : State, ∃ h j, s.held.find? (fun x => x.id = h.id) = some h ∧
    (s.flow h.xfer).next = h.xfer.tseq ∧ s.job? h.job = some j ∧
    ¬ (s.pending h.job (448 + h.xfer.port.val) = true ∧ s.epoch h.job (448 + h.xfer.port.val) = 0x7FFFFF) :=
  ⟨{ stage2 [] with held := [⟨3, xf 7, 1, 0, 0x40000000, 0, true, [1]⟩] }, ⟨3, xf 7, 1, 0, 0x40000000, 0, true, [1]⟩,
    { textJob with ident := 7 }, rfl, by decide, rfl, by decide⟩

theorem witness_TransportAccesses_atomic : ∃ s t, ∃ va : Word, ∃ op : TAtom, ∃ n job b, Arrives s t true ∧
    s.boundJob t.ident = some job ∧ NoWaiters s ∧ pathOf va = 7 ∧ tatomTaken op n ∧ va.toNat % n = 0 ∧
    swByte (offOf va) = some b :=
  ⟨stage2 [], xf 7, swWord, .cas 0, 8, 1, _, arrives2 7, by decide, rfl, by decide, .inr rfl, by decide, rfl⟩

theorem witness_TransportAccesses_refused : ∃ s t, ∃ op : TAtom, ∃ n job, Arrives s t true ∧
    s.boundJob t.ident = some job ∧ ¬ tatomTaken op n :=
  ⟨stage2 [], xf 7, .amo (.plain .fadd), 8, 1, arrives2 7, by decide, by unfold tatomTaken; decide⟩

theorem witness_TransportAccesses_send : ∃ s t, ∃ msg : List Byte, ∃ e, Arrives s t true ∧ t.ident = 0 ∧
    64 ≤ msg.length ∧ msg.length ≤ 4160 ∧ commandOf (parseReq t msg) = some e ∧
    ({ s with reqs := s.reqs ++ [parseReq t msg] }).turnOf (parseReq t msg) = true :=
  ⟨stage2 [], xf 0, 10 :: List.replicate 63 0, .swclear (parseReq (xf 0) (10 :: List.replicate 63 0)), arrives2 0,
    rfl, by decide, by decide, by decide, by decide +kernel⟩

/-! ## Requests to Kiln -/

/-- A request for job 1. -/
def req (op : Byte) (body : List Byte) : Req := ⟨xf 0, op, 5, 1, true, BitVec.ofNat 32 body.length, body⟩

/-- Job 1's module with this one request before Kiln. -/
def asked (bytes : List Byte) (r : Req) : State := { stage2 bytes with reqs := [r] }

theorem request2 {bytes : List Byte} (op : Byte) (body : List Byte) (stages : List Nat) (o : Bool) {n : Nat}
    (turn : (asked bytes (req op body)).turnOf (req op body) = true)
    (h : 2 ∈ stages ∧ (∀ x ∈ stages, x ≤ 2) ∧ body.length = n ∧ n ≤ 4096) :
    Request (asked bytes (req op body)) (req op body) stages o n where
  powered := rfl
  turn := turn
  zero := rfl
  len := (BitVec.toNat_ofNat _ _).trans (Nat.mod_eq_of_lt (by
    obtain ⟨_, _, h1, h2⟩ := h
    omega))
  size := h.2.2.1
  fits := h.2.2.2
  stage := h.1
  known := h.2.1
  from_ := .inr (.head _)

theorem witness_ManagementRequests_attest : ∃ s r, Request s r [0, 1, 2] true 48 :=
  ⟨asked [] (req 1 (List.replicate 48 0)), _, request2 1 (List.replicate 48 0) _ _ (by decide +kernel) (by decide +kernel)⟩

def keyBody : List Byte := 63 :: List.replicate 183 0

theorem witness_ManagementRequests_keyload : ∃ s r, Request s r [1, 2] false 184 ∧ bodyField r 0 0 ≤ 63 ∧
    bodyField r 1 7 = 0 ∧ bodyField r 105 111 = 0 ∧ cfind s.keys (bodyField r 0 0) = none :=
  ⟨asked [] (req 2 keyBody), req 2 keyBody, request2 2 keyBody _ _ (by decide +kernel) (by decide +kernel),
    by decide +kernel, by decide +kernel, by decide +kernel, by decide +kernel⟩

theorem witness_ManagementRequests_keyclear : ∃ s r, Request s r [1, 2] false 1 ∧ bodyField r 0 0 ≤ 63 ∧
    ∀ p ∈ s.jobs, p.2.keySlot ≠ bodyField r 0 0 :=
  ⟨asked [] (req 3 [63]), req 3 [63], request2 3 [63] _ _ (by decide +kernel) (by decide +kernel), by decide +kernel,
    by decide +kernel⟩

/-- The body of a JOBNEW of job 2. -/
def jobBody : List Byte :=
  leBytes 2 2 ++ leBytes 4 0xFFFFFF ++ [0, 16] ++ leBytes 8 0x30000 ++ leBytes 8 0x50000 ++ leBytes 8 0x100000 ++
    leBytes 8 0x40000 ++ leBytes 8 0x1000000 ++ leBytes 2 1

theorem witness_ManagementRequests_jobnew : ∃ s r, Request s r [2] false 50 ∧ s.jobnewFaults r.body = [] :=
  ⟨asked [] (req 4 jobBody), _, request2 4 jobBody _ _ (by decide +kernel) (by decide +kernel), by decide +kernel⟩

theorem witness_ManagementRequests_jobend : ∃ s r j, Request s r [2] false 0 ∧ s.job? r.job.toNat = some j :=
  ⟨asked [] (req 5 []), _, _, request2 5 [] _ _ (by decide +kernel) (by decide +kernel), rfl⟩

theorem witness_ManagementRequests_jobend_done : ∃ (s : State) (job : Nat) (j : Job) (r : Req), s.job? job = some j ∧
    j.ending = some r ∧ ∀ p ∈ s.cores, ∀ t, p.2.task = some t → t.job ≠ job :=
  ⟨{ stage2 [] with jobs := [(1, { textJob with ending := some (req 5 []) })] }, 1, _, _, rfl, rfl,
    fun _ h => nomatch h⟩

def peerBody : List Byte := [0xFF, 0x0F, 0, 0, 0xFF, 0xFF, 0xFF, 0] ++ List.replicate 8 0

theorem witness_ManagementRequests_peerset : ∃ s r j, Request s r [2] false 16 ∧ s.job? r.job.toNat = some j ∧
    bodyField r 0 1 ≤ 4095 ∧ bodyField r 2 3 = 0 ∧ bodyField r 4 7 < 2 ^ 24 :=
  ⟨asked [] (req 8 peerBody), req 8 peerBody, _, request2 8 peerBody _ _ (by decide +kernel) (by decide +kernel), rfl,
    by decide, by decide, by decide⟩

theorem witness_ManagementRequests_swclear : ∃ s r, Request s r [2] false 0 ∧ s.jobs = [] :=
  ⟨{ asked [] (req 10 []) with jobs := [] }, req 10 [],
    ⟨rfl, by decide +kernel, rfl, rfl, rfl, by decide, .head _, by decide, .inr (.head _)⟩, rfl⟩

def grantBody : List Byte := List.replicate 8 0 ++ [11]

theorem witness_ManagementRequests_mgrant : ∃ s r, Request s r [1, 2] false 9 ∧ bodyField r 8 8 ≤ 11 ∧
    s.boot.mgmt.length < 16 :=
  ⟨asked [] (req 11 grantBody), req 11 grantBody, request2 11 grantBody _ _ (by decide +kernel) (by decide +kernel),
    by decide, by decide⟩

theorem witness_ManagementRequests_telem : ∃ s r, Request s r [1, 2] false 0 :=
  ⟨asked [] (req 12 []), _, request2 12 [] _ _ (by decide +kernel) (by decide +kernel)⟩

def entryBody : List Byte := leBytes 4 1 ++ leBytes 8 0x30000 ++ leBytes 8 3

theorem witness_ManagementTables_entries : ∃ s r j n, 1 ≤ n ∧ n ≤ 255 ∧ Request s r [2] false (4 + 16 * n) ∧
    s.job? r.job.toNat = some j ∧ bodyField r 0 3 = n ∧
    (∀ i, i < n → bodyField r (4 + 16 * i) (11 + 16 * i) % 8 = 0 ∧ bodyField r (4 + 16 * i) (11 + 16 * i) < 2 ^ 39 ∧
      s.carved (bodyField r (4 + 16 * i) (11 + 16 * i)) 8 = false) :=
  ⟨asked [] (req 6 entryBody), req 6 entryBody, _, 1, by decide, by decide,
    request2 6 entryBody _ _ (by decide +kernel) (by decide +kernel), rfl, by decide, by decide +kernel⟩

theorem witness_ManagementTables_complete : ∃ (s : State) (r : Req) (pa : Nat) (old : Word)
    (rest : List (Nat × Word × Req)), s.memory.ptPending = (pa, old, r) :: rest ∧
    ∀ p ∈ s.memory.ptPending, p.2.2 = r → s.entryInUse p.1 = false :=
  ⟨{ State.reset with memory := { ptPending := [(0x30000, 3, req 6 [])] } }, req 6 [], 0x30000, 3, [], rfl,
    fun p h _ => by
      obtain rfl := List.mem_singleton.mp h
      rfl⟩

/-- The record of queue 131071 for job 1, which the device feeds. -/
def queueBody : List Byte :=
  leBytes 4 131071 ++ leBytes 4 0 ++ leBytes 8 0x1000 ++ [1, 3] ++ leBytes 2 1 ++ leBytes 4 0xFFFFFFFF ++
    leBytes 8 0x7000000000000000 ++ leBytes 8 0x2000 ++ leBytes 24 0

theorem witness_ManagementTables_queue : ∃ s r j, Request s r [2] false 64 ∧
    s.job? r.job.toNat = some j ∧ s.qsetFaults r = [] ∧ (∀ x, s.queue? (bodyField r 0 3) = some x → x.state ≠ 1) ∧
    ∃ pa slot, s.translate r.job.toNat (bodyField r 32 39) .write = .ok (pa, slot, false) :=
  ⟨asked [] (req 7 queueBody), req 7 queueBody, _, request2 7 queueBody _ _ (by decide +kernel) (by decide +kernel), rfl,
    by decide +kernel, (fun x h => by
      rw [show (asked [] (req 7 queueBody)).queue? (bodyField (req 7 queueBody) 0 3) = none by decide +kernel] at h
      cases h), 0x40002000, 0, by decide +kernel⟩

/-- An object of one text section of K, a NOP, with some flags. -/
def object (flags : Nat) : List Byte :=
  leBytes 4 0x004F4245 ++ leBytes 2 1 ++ leBytes 2 flags ++ leBytes 4 1 ++ leBytes 4 0 ++ leBytes 8 64 ++ leBytes 40 0 ++
    leBytes 4 1 ++ leBytes 4 0 ++ leBytes 8 96 ++ leBytes 8 8 ++ leBytes 8 3 ++ leBytes 8 0

/-- The request that registers n bytes at G 0. -/
def kernelReq (n : Nat) : Req := req 9 (leBytes 8 0 ++ leBytes 8 n)

theorem request_kernel (bytes : List Byte) (n : Nat) (h : (asked bytes (kernelReq n)).turnOf (kernelReq n) = true) :
    Request (asked bytes (kernelReq n)) (kernelReq n) [2] false 16 :=
  request2 9 _ _ _ h ⟨.head _, by decide, by simp [leBytes], by decide⟩

theorem linked_read : (asked (object 2) (kernelReq 104)).jobRead 1 0 104 = some (object 2) := by decide +kernel

theorem linked_parses : ((parseObj (object 2)).map fun o =>
    (o.linked, o.sects.all fun x => x.kind ≠ 12 ∧ x.kind ≠ 9)) = some (true, true) := by decide +kernel

theorem witness_ManagementTables_linked : ∃ s r j b o, Request s r [2] false 16 ∧ s.job? r.job.toNat = some j ∧
    pathOf (BitVec.ofNat 64 (bodyField r 0 7)) = 0 ∧
    s.jobRead r.job.toNat (BitVec.ofNat 64 (bodyField r 0 7)) (bodyField r 8 15) = some b ∧ parseObj b = some o ∧
    o.linked = true ∧ ∀ x ∈ o.sects, x.kind ≠ 12 ∧ x.kind ≠ 9 := by
  have h := linked_parses
  match e : parseObj (object 2) with
  | none => rw [e] at h; cases h
  | some o =>
    rw [e] at h
    obtain ⟨h1, h2⟩ := Prod.mk.inj (Option.some.inj h)
    refine ⟨asked (object 2) (kernelReq 104), kernelReq 104, _, object 2, o,
      request_kernel _ _ (by decide +kernel), rfl, by decide +kernel, ?_, e, h1, fun x hx => by
        simpa using List.all_eq_true.mp h2 x hx⟩
    rw [show BitVec.ofNat 64 (bodyField (kernelReq 104) 0 7) = 0 by decide +kernel,
      show bodyField (kernelReq 104) 8 15 = 104 by decide +kernel]
    exact linked_read

theorem registers1 : ((asked (object 0) (kernelReq 104)).registerObj 1 { textJob with ident := 7 }
    (BitVec.ofNat 64 (bodyField (kernelReq 104) 0 7)) (bodyField (kernelReq 104) 8 15)).isSome = true := by
  decide +kernel

theorem witness_ManagementTables_kernel : ∃ s r j v handle, Request s r [2] false 16 ∧
    s.job? r.job.toNat = some j ∧
    s.registerObj r.job.toNat j (BitVec.ofNat 64 (bodyField r 0 7)) (bodyField r 8 15) = some (v, handle) := by
  obtain ⟨⟨v, handle⟩, h⟩ := Option.isSome_iff_exists.mp registers1
  exact ⟨asked (object 0) (kernelReq 104), kernelReq 104, { textJob with ident := 7 }, v, handle,
    request_kernel _ _ (by decide +kernel), rfl, h⟩

theorem witness_ManagementTables_refused : ∃ s r j, Request s r [2] false 16 ∧ s.job? r.job.toNat = some j ∧
    s.registerObj r.job.toNat j (BitVec.ofNat 64 (bodyField r 0 7)) (bodyField r 8 15) = none :=
  ⟨asked [] (kernelReq 8), kernelReq 8, { textJob with ident := 7 }, request_kernel _ _ (by decide +kernel), rfl, by
    rw [← Option.isNone_iff_eq_none]
    decide +kernel⟩

/-! ## Beside the work -/

theorem witness_BackgroundEvents_tick : ∃ s : State, ∃ d : Fin 8, s.boot.powered = true ∧ s.boot.stage ≠ 0xF ∧
    1920 ≤ (cget 0 s.mon.dietemp d.val).toInt :=
  ⟨{ stage0 with mon := { dietemp := [(7, 1920)] } }, 7, rfl, by decide, by decide⟩

theorem witness_BackgroundEvents_scrub : ∃ s : State, ∃ pa, (s.boot.stage = 1 ∨ s.boot.stage = 2) ∧ pa < 2 ^ 39 ∧
    s.boot.dies.getLsbD (pa / 2 ^ 36) = true :=
  ⟨stage1 1 0xFF, 2 ^ 39 - 1, .inl rfl, by decide, by decide⟩

theorem witness_BackgroundEvents_core : ∃ s : State, ∃ n : Fin 448, ∃ (w : Nat) (loc : ScrubLoc), (s.boot.stage = 1 ∨ s.boot.stage = 2) ∧
    (loc = .scratch n w ∧ w < 196608 ∨ loc = .acc n w ∧ w < 65536) ∧ (s.core n.val).frozen = 0 ∧
    (s.core n.val).errAt ≠ some s.cycle :=
  ⟨stage1 1 0xFF, 447, 65535, .acc 447 65535, .inl rfl, .inr ⟨rfl, by decide⟩, rfl, fun h => nomatch h⟩

theorem witness_BackgroundEvents_freeze : ∃ s : State, ∃ n : Fin 448, (s.core n.val).frozen ≠ 0 ∧
    (s.core n.val).frozen ≤ s.cycle :=
  ⟨{ on .k { frozen := 25, freezeNext := true } with cycle := 25 }, 0, by decide, by decide⟩

theorem witness_BackgroundEvents_watchdog : ∃ s : State, ∃ n : Fin 448, (s.core n.val).task ≠ none ∧
    (s.core n.val).frozen = 0 ∧ (s.core n.val).progress + 2 ^ 31 ≤ s.cycle :=
  ⟨{ busy .k {} with cycle := 2 ^ 31 }, 0, (fun h => nomatch h), rfl, by decide⟩

/-! ## Packets -/

/-- A queue of job 1 whose ring begins at 0. -/
def wq2 : WQ where
  host := []
  job := 1
  ring := 0
  order := 5
  flags := 3
  event := 0
  self := 0x1000
  next := 0
  prod := 0
  ringCap := { len := 4096, rd := true, tag := true, spans := [(0x40000000, 0, false, 4096)] }

/-- A NOP packet with its check. -/
def nop0 : List Byte := [0, 0, 209, 126] ++ List.replicate 124 0

def zeros21 : List Byte := List.replicate 21 0

theorem crc_21 : zeros21.foldl crcByte 0xFFFF = 14297 := by decide +kernel
theorem crc_42 : zeros21.foldl crcByte 14297 = 48697 := by decide +kernel
theorem crc_63 : zeros21.foldl crcByte 48697 = 37733 := by decide +kernel
theorem crc_84 : zeros21.foldl crcByte 37733 = 24238 := by decide +kernel
theorem crc_105 : zeros21.foldl crcByte 24238 = 15093 := by decide +kernel
theorem crc_126 : zeros21.foldl crcByte 15093 = 32465 := by decide +kernel

/-- The check of a packet of zeros. -/
theorem zeros_check (p : List Byte)
    (h : p.take 2 ++ p.drop 4 = zeros21 ++ zeros21 ++ zeros21 ++ zeros21 ++ zeros21 ++ zeros21) :
    packetCheck p = 32465 := by
  rw [packetCheck, crc16, h]
  simp only [List.foldl_append, crc_21, crc_42, crc_63, crc_84, crc_105, crc_126]

/-- Slot 0 of the ring of queue 0 holds the first bytes of G memory. -/
def posted (bytes : List Byte) (q : WQ) : State := { stage2 bytes with queues := [(0, q)] }

theorem nop0_read : (posted nop0 wq2).capRead wq2.ringCap 0 128 = some nop0 := by decide +kernel

theorem accepts_posted (bytes : List Byte) (q : WQ) (h : q.state = 1 ∧ q.hold = none ∧ q.job = 1) :
    Accepts (posted bytes q) 0 q where
  powered := rfl
  kiln := show (2 : Nat) ≠ 0xF by decide
  queue := rfl
  runs := h.1
  unheld := h.2.1
  job := ⟨{ textJob with ident := 7 }, by rw [h.2.2]; rfl, rfl⟩

theorem nop0_present : Present (posted nop0 wq2) 0 wq2 nop0 where
  toAccepts := accepts_posted _ _ ⟨rfl, rfl, rfl⟩
  enabled := by decide
  untaken := rfl
  slot := nop0_read
  mark := by decide +kernel

theorem nop0_checked : checked nop0 := by
  rw [checked, zeros_check nop0 (by decide +kernel)]
  decide +kernel

/-- The queue with the packet of its head as a read has returned it. -/
def taken0 : WQ := { wq2 with taken := some nop0 }

theorem witness_PacketEvents_accept : ∃ s n op q p e, AtHead s n op q p ∧ headEvent op n = some e ∧
    (op = 5 → s.readySignal n = none) :=
  ⟨posted nop0 taken0, 0, 0, taken0, nop0, _,
    { toAccepts := accepts_posted _ _ ⟨rfl, rfl, rfl⟩, taken := rfl, opcode := by decide +kernel
      good := by decide +kernel }, rfl, fun h => nomatch h⟩

theorem posted_alone (bytes : List Byte) (q : WQ) : ∀ m x, (posted bytes q).queue? m = some x → m ≠ 0 →
    (posted bytes q).headSlot x = none := fun m x h hm => by
  have : (posted bytes q).queue? m = none := by
    show cfind [(0, _)] m = none
    rw [cfind]
    split
    · exact absurd ‹0 = m›.symm hm
    · rfl
  rw [this] at h
  cases h

theorem witness_PacketEvents_poll : ∃ s n op q p e, Present s n q p ∧ leNat (p.take 1) = op ∧ checked p ∧
    headEvent op n = some e ∧ ∀ m x, s.queue? m = some x → m ≠ n → s.headSlot x = none :=
  ⟨posted nop0 wq2, 0, 0, wq2, nop0, _, nop0_present, by decide +kernel, nop0_checked, rfl, posted_alone _ _⟩

/-- The queue in its last re-read, and in the one before. -/
def again8 : WQ := { wq2 with rereads := 8 }
def again7 : WQ := { wq2 with rereads := 7 }

theorem nop0_again : (posted nop0 again8).capRead again8.ringCap 0 128 = some nop0 := by decide +kernel

theorem witness_PacketEvents_reread : ∃ s n q p, Present s n q p ∧ q.rereads ≠ 0 ∧ checked p ∧
    headEvent (leNat (p.take 1)) n = some (.nopPacket n) :=
  ⟨posted nop0 again8, 0, again8, nop0,
    { toAccepts := accepts_posted _ _ ⟨rfl, rfl, rfl⟩, enabled := by decide, untaken := rfl, slot := nop0_again
      mark := by decide +kernel }, by decide, nop0_checked, by
        rw [show leNat (nop0.take 1) = 0 by decide +kernel]
        rfl⟩

/-- A packet whose sequence number is right and whose check is not. -/
def torn : List Byte := List.replicate 128 0

theorem torn_check : ¬ checked torn := by
  rw [checked, zeros_check torn (by decide +kernel)]
  decide +kernel

theorem torn_again8 : (posted torn again8).capRead again8.ringCap 0 128 = some torn := by decide +kernel
theorem torn_again7 : (posted torn again7).capRead again7.ringCap 0 128 = some torn := by decide +kernel

theorem witness_PacketEvents_torn : ∃ s n q p, Present s n q p ∧ q.rereads ≠ 0 ∧ ¬ checked p ∧ q.rereads < 8 :=
  ⟨posted torn again7, 0, again7, torn,
    { toAccepts := accepts_posted _ _ ⟨rfl, rfl, rfl⟩, enabled := by decide, untaken := rfl, slot := torn_again7
      mark := by decide +kernel }, by decide, torn_check, by decide⟩

theorem witness_PacketEvents_stop : ∃ s n q p, Present s n q p ∧ q.rereads ≠ 0 ∧ ¬ checked p ∧ 8 ≤ q.rereads :=
  ⟨posted torn again8, 0, again8, torn,
    { toAccepts := accepts_posted _ _ ⟨rfl, rfl, rfl⟩, enabled := by decide, untaken := rfl, slot := torn_again8
      mark := by decide +kernel }, by decide, torn_check, by decide⟩

theorem witness_PacketEvents_complete : ∃ (s : State) (n : Nat) (q : WQ) (j : Job) (seq : BitVec 32) (place : Nat × Nat),
    s.queue? n = some q ∧ seq ∈ q.live ∧ s.job? q.job = some j ∧ j.finished n seq = some place ∧ seq ∈ q.events ∧
    NoWaiters s ∧ pathOf q.event = 7 :=
  ⟨{ busy .k {} with
      jobs := [(1, { job1 launch1 with phases := [(0, { graphs := [(0, { graph1 with complete := true })] })] })]
      queues := [(5, { wq with live := [3], events := [3], event := swWord })] },
    5, _, _, 3, (0, 0), rfl, by decide, rfl, by decide, by decide, rfl, by decide⟩

/-! ## Nodes and tasks -/

/-- A module whose job 1 has one launch, in the graph of its packet. -/
def launched (l : Launch) : State := { State.reset with jobs := [(1, job1 l)] }

theorem dispatched1 (s : State) (h : s.job? 1 = some (job1 launch1)) (l : Launch) (hp : l.phase = 0)
    (hg : l.graph = 0) (hn : l.node = 0) : Dispatched s 1 l :=
  ⟨graph1, node1, by rw [State.graph?, h, hp, hg]; rfl, by rw [hn]; rfl, rfl⟩

theorem witness_NodeEvents_start : ∃ s job n l, s.launch? job n = some l ∧ l.started = false ∧ l.complete = false ∧
    l.spec = none ∧ Dispatched s job l ∧ s.specFor l.queue l.pkt = [] :=
  ⟨launched { launch1 with started := false }, 1, 1, { launch1 with started := false }, rfl, rfl, rfl, rfl,
    ⟨graph1, node1, rfl, rfl, rfl⟩, by decide⟩

theorem witness_NodeEvents_complete : ∃ s job n l, s.launch? job n = some l ∧ l.started = true ∧ l.complete = false ∧
    l.left = 0 ∧ (∀ q ∈ l.queues, q.2.entries = []) ∧ l.images = [] ∧ l.conts = [] ∧ l.spec = none ∧
    Unplaced s job n :=
  ⟨launched launch1, 1, 1, launch1, rfl, rfl, rfl, rfl, by decide, rfl, rfl, rfl, fun _ h => nomatch h⟩

theorem witness_NodeEvents_node : ∃ s job ph g n x y, s.graph? job ph g = some x ∧ x.complete = false ∧
    x.nodes[n]? = some y ∧ NodeOver s job ph g n y ∧
    ∀ j, s.job? job = some j → crising 0 j.phases = true ∧ ∀ p ∈ j.phases, crising 0 p.2.graphs = true :=
  ⟨launched { launch1 with complete := true }, 1, 0, 0, 0, graph1, node1, rfl, rfl, rfl,
    ⟨rfl, rfl, { launch1 with complete := true }, rfl, rfl⟩, fun j h => by
      obtain rfl : job1 { launch1 with complete := true } = j := Option.some.inj h
      decide⟩

theorem witness_NodeEvents_boundary : ∃ (s : State) (job p : Nat) (j : Job), s.job? job = some j ∧ 1 ≤ p ∧
    p ≤ j.openPhase ∧ (j.phase p).ready = false ∧ (∀ i, 1 ≤ i → i < p → (j.phase i).ready = true) ∧
    (j.phase (p - 1)).complete = true ∧
    ∀ c ∈ s.cores, ∀ t, c.2.task = some t → t.spec = false → t.job ≠ job :=
  ⟨{ State.reset with jobs := [(1, { job1 launch1 with openPhase := 1, phases := [(0, { complete := true })] })] },
    1, 1, _, rfl, by decide, by decide, rfl, fun i h1 h2 => by omega, rfl, fun _ h => nomatch h⟩

/-- A transform on G memory from 0 on: type F32, a map of one element. -/
def xform1 : Xform where
  job := 1
  phase := 0
  graph := 0
  node := 0
  body := List.replicate 128 0
  cmd := { inst := .nop noSync, seq := .k, ipc := 0, num := 0 }

theorem witness_NodeEvents_engine : ∃ (s : State) (die : Fin 8) (x : Xform) (e : Nat),
    s.xwait.find? (fun y => y.1 = die.val) = some (die.val, x) ∧ 4 * die.val ≤ e ∧ e < 4 * die.val + 4 ∧
    cfind s.engines e = none ∧ (∀ i, 4 * die.val ≤ i → i < e → cfind s.engines i ≠ none) ∧
    (match s.xformCmd x.job x.body with | .ok _ => true | .error _ => false) = true :=
  ⟨{ stage2 [] with xwait := [(7, xform1)], engines := [(28, xform1)] }, 7, xform1, 29, rfl, by decide, by decide, rfl,
    (fun i h1 h2 => by
      obtain rfl : i = 28 := by
        have : 28 ≤ i := h1
        omega
      exact fun h => nomatch h), by decide +kernel⟩

theorem witness_NodeEvents_transform : ∃ (s : State) (die : Fin 8) (e : Fin 4) (x : Xform),
    cfind s.engines (4 * die.val + e.val) = some x ∧ x.cmd.done = true :=
  ⟨{ State.reset with engines := [(31, { xform1 with cmd := { xform1.cmd with done := true } })] }, 7, 3, _, rfl, rfl⟩

/-- Core 0 is idle and assigned to a launch of job 1. -/
def idle (l : Launch) : State :=
  { launched l with disp := [(0, { assigned := [(0, ⟨1, 1, 0, false⟩)] })] }

theorem idle_idle (l : Launch) (h : l.started = true) (hc : l.complete = false) (hw : l.cores = true → l.home = [0]) :
    Idle (idle l) 0 ⟨1, 1, 0, false⟩ (job1 l) l :=
  ⟨rfl, rfl, rfl, rfl, rfl, h, hc, fun e => ⟨by
    rw [hw e]
    intro c hm
    obtain rfl := List.mem_singleton.mp hm
    exact ⟨_, rfl, rfl, rfl⟩, fun _ hm => nomatch hm⟩⟩

/-- A co-resident launch that holds its one core. -/
theorem idle_whole : let l : Launch := { launch1 with cores := true, home := [0] }
    Idle (idle l) 0 ⟨1, 1, 0, false⟩ (job1 l) l := idle_idle _ rfl rfl fun _ => rfl

def queued1 : Launch :=
  { launch1 with queues := [(0, { cap := 2, consumer := 0, producers := 1, entries := [⟨7, [], true⟩] })] }

theorem witness_TaskEvents_start : ∃ s n a j l x q e es, Idle s n a j l ∧ l.stages[a.stage]? = some x ∧
    cfind l.queues x.input = some q ∧ q.entries = e :: es ∧
    (∀ c ∈ l.conts, c.stage = a.stage → c.state ≠ .ready) ∧ ∀ i ∈ l.images, savedStage i ≠ a.stage :=
  ⟨idle queued1, 0, _, _, queued1, _, _, _, _, idle_idle _ rfl rfl nofun, rfl, rfl, rfl, (fun _ h => nomatch h),
    fun _ h => nomatch h⟩

/-- A launch whose only entry waits for its stage 1, of which no core is. -/
def queued2 : Launch :=
  { launch1 with
    stages := [{ ord := 0, input := 0, min := 1, max := 57 }, { ord := 1, input := 1, min := 1, max := 1 }]
    queues := [(0, { cap := 2, consumer := 0, producers := 1 }),
      (1, { cap := 2, consumer := 1, producers := 1, entries := [⟨7, [], true⟩] })] }

theorem witness_TaskEvents_other : ∃ s n a j l st x q e es, Idle s n a j l ∧ l.takes a.stage = false ∧
    (∀ c ∈ l.conts, c.stage = a.stage → c.state = .ready → l.cores = true ∧ c.origin ≠ n) ∧
    (∀ i ∈ l.images, savedStage i = a.stage → l.cores = true ∧ i.core ≠ n) ∧ st ≠ a.stage ∧
    l.stages[st]? = some x ∧ cfind l.queues x.input = some q ∧ q.entries = e :: es ∧ l.takes st = true ∧
    s.hasIdle a.job a.launch l st = false ∧ ∀ i, i < st → l.takes i = true → s.hasIdle a.job a.launch l i = true :=
  ⟨idle queued2, 0, _, _, queued2, 1, _, _, _, _, idle_idle _ rfl rfl nofun, by decide, (fun _ h => nomatch h),
    (fun _ h => nomatch h), by decide, rfl, rfl, rfl, by decide,
    by decide +kernel, fun i h t => by
      obtain rfl : i = 0 := by omega
      exact absurd t (by decide)⟩

def cont1 : Cont where
  id := 4
  kpc := 64
  lpc := 0
  cpc := 0
  spc := 0
  live := 0x80000002
  stage := 0
  kind := 1
  origin := 0
  entry := 7
  seq := 0
  xs := [5, 6]
  args := []
  state := .ready

theorem witness_TaskEvents_continuation : ∃ s n a j l k, Idle s n a j l ∧
    l.conts.find? (fun c => c.state = .ready && c.stage = a.stage && (!l.cores || c.origin = n)) = some k :=
  ⟨idle { launch1 with conts := [cont1] }, 0, _, _, { launch1 with conts := [cont1] }, cont1, idle_idle _ rfl rfl nofun, rfl⟩

theorem witness_TaskEvents_end : ∃ (s : State) (n : Nat) (t : Machine.Task) (l : Launch), (s.core n).task = some t ∧
    (∀ q, ((s.core n).seq q).cond = .ended) ∧ (∀ u, (s.core n).unit u = []) ∧ s.launch? t.job t.launch = some l :=
  ⟨busy .k { regs := { k := { cond := .ended }, l := { cond := .ended }, c := { cond := .ended }, s := { cond := .ended } } },
    0, task1, launch1, rfl, fun q => by cases q <;> rfl, fun u => by cases u <;> rfl, rfl⟩

theorem witness_TaskEvents_fill : ∃ (s : State) (job launch : Nat) (l : Launch) (q : SQueue), s.launch? job launch = some l ∧ l.started = true ∧
    l.complete = false ∧ cfind l.queues 0 = some q ∧ 1 ≤ l.left ∧ q.entries.length < q.cap :=
  ⟨launched { launch1 with count := 5, left := 5 }, 1, 1, { launch1 with count := 5, left := 5 }, _, rfl, rfl, rfl, rfl,
    by decide, by decide⟩

/-- A launch with work for one more core has arrived on die 0, which grants cores. -/
def granting : State :=
  { launched { queued1 with dieSet := [0] } with disp := [(0, { ring := [(1, 1)], passDue := true })] }

theorem granting_rows : ((granting.rowsOn 0).map fun x => (x.held, x.job, x.key, x.cores, decide (x.held < x.target))) =
    [(0, 1, 1, false, true)] := by decide +kernel

theorem witness_TaskEvents_grant : ∃ (s : State) (d c : Nat), (cget {} s.disp d).passDue = true ∧
    ∃ x, s.rowsOn d = [x] ∧ x.held < x.target ∧ x.cores = false ∧ s.chooseCore d x.job x.key = some c := by
  have h := granting_rows
  match e : granting.rowsOn 0 with
  | [] => rw [e] at h; cases h
  | [x] =>
    rw [e] at h
    obtain ⟨h1, h2, h3, h4, h5⟩ : x.held = 0 ∧ x.job = 1 ∧ x.key = 1 ∧ x.cores = false ∧
        decide (x.held < x.target) = true := by simpa using h
    refine ⟨granting, 0, 0, rfl, x, e, of_decide_eq_true h5, h4, ?_⟩
    rw [h2, h3]
    decide +kernel
  | _ :: _ :: _ => rw [e] at h; simp at h

/-- Core 0, which has a task, and core 1, which has none, are assigned to a launch with work for one core on die 0. -/
def beyond1 : State :=
  { launched launch1 with
    cores := [(0, { task := some task1 })], cycle := 4096
    disp := [(0, { ring := [(1, 1)], assigned := [(0, ⟨1, 1, 0, false⟩), (1, ⟨1, 1, 0, false⟩)] })] }

theorem witness_TaskEvents_redivide : ∃ (s : State) (d : Fin 8), (cget {} s.disp d.val).lastStep + 4096 ≤ s.cycle ∧
    (cget {} s.disp d.val).ring.Nodup ∧ crising 0 (cget {} s.disp d.val).assigned = true ∧
    ∃ r ∈ s.rowsOn d.val, ∃ c ∈ beyond s d.val r, (s.core c).task = none ∧ r.cores = false := by
  refine ⟨beyond1, 0, by decide, by decide, by decide, ?_⟩
  have h : ((beyond1.rowsOn 0).any fun r => (beyond beyond1 0 r).any fun c =>
    (beyond1.core c).task.isNone && !r.cores) = true := by decide +kernel
  obtain ⟨r, hr, h⟩ := List.any_eq_true.mp h
  obtain ⟨c, hc, h⟩ := List.any_eq_true.mp h
  simp only [Bool.and_eq_true, Option.isNone_iff_eq_none, Bool.not_eq_true'] at h
  exact ⟨r, hr, c, hc, h⟩

/-- A queue that is full, on which its only consumer has ended. -/
def stuck1 : Launch :=
  { queued1 with
    queues := [(0, { cap := 1, consumer := 0, producers := 1, entries := [⟨7, [], true⟩] })]
    conts := [{ cont1 with state := .blocked 0 }], dieSet := [0] }

def probe1 : Probe := ⟨1, 1, 0, 0⟩

theorem next_alone (p : Probe) : NextProbe { probes := [p] } p :=
  ⟨.head _, fun o h _ _ => .inr (by
    obtain rfl := List.mem_singleton.mp h
    exact ⟨rfl, Nat.le_refl _⟩)⟩

theorem witness_TaskEvents_probe : ∃ (s : State) (l : Launch) (p : Probe) (cyc : List Nat) (m : Nat),
    s.launch? p.job p.launch = some l ∧ crising 0 s.disp = true ∧
    NextProbe (cget {} s.disp (l.dieSet.headD 0)) p ∧ p.at_ < s.cycle ∧
    s.probePath p.job p.launch l p.queue 17 p.queue [p.queue] = some cyc ∧ (∀ i ∈ cyc, l.stuck i = true) ∧
    ¬ Reported (cget {} s.disp (l.dieSet.headD 0)) p cyc ∧ cyc.find? (spare l) = some m :=
  ⟨{ launched stuck1 with disp := [(0, { probes := [probe1] })], cycle := 1 }, stuck1, probe1, [0], 0, rfl, by decide,
    next_alone _, by decide, by decide, by decide, List.not_mem_nil, rfl⟩

/-- The same with the reserve entry in use. -/
def stuck2 : Launch :=
  { stuck1 with queues := [(0, { cap := 1, consumer := 0, producers := 1, entries := [⟨7, [], true⟩], reserveUsed := true })] }

theorem witness_TaskEvents_probe_none : ∃ (s : State) (l : Launch) (p : Probe) (cyc : List Nat),
    s.launch? p.job p.launch = some l ∧ crising 0 s.disp = true ∧
    NextProbe (cget {} s.disp (l.dieSet.headD 0)) p ∧ p.at_ < s.cycle ∧
    s.probePath p.job p.launch l p.queue 17 p.queue [p.queue] = some cyc ∧ (∀ i ∈ cyc, l.stuck i = true) ∧
    ¬ Reported (cget {} s.disp (l.dieSet.headD 0)) p cyc ∧ cyc.find? (spare l) = none ∧ l.complete = false ∧ l.spec = none :=
  ⟨{ launched stuck2 with disp := [(0, { probes := [probe1] })], cycle := 1 }, stuck2, probe1, [0], rfl, by decide,
    next_alone _, by decide, by decide, by decide, List.not_mem_nil, rfl, rfl, rfl⟩

/-- The same for a launch on prediction. -/
def stuck3 : Launch := { stuck2 with spec := some { queue := 5, body := [], started := 0 } }

theorem witness_TaskEvents_probe_spec : ∃ (s : State) (l : Launch) (p : Probe) (cyc : List Nat) (y : Spec),
    s.launch? p.job p.launch = some l ∧ crising 0 s.disp = true ∧
    NextProbe (cget {} s.disp (l.dieSet.headD 0)) p ∧ p.at_ < s.cycle ∧
    s.probePath p.job p.launch l p.queue 17 p.queue [p.queue] = some cyc ∧ (∀ i ∈ cyc, l.stuck i = true) ∧
    ¬ Reported (cget {} s.disp (l.dieSet.headD 0)) p cyc ∧ cyc.find? (spare l) = none ∧ l.spec = some y ∧ y.dead = none :=
  ⟨{ launched stuck3 with disp := [(0, { probes := [probe1] })], cycle := 1 }, stuck3, probe1, [0], _, rfl, by decide,
    next_alone _, by decide, by decide, by decide, List.not_mem_nil, rfl, rfl, rfl⟩

theorem witness_TaskEvents_probe_drop : ∃ (s : State) (l : Launch) (p : Probe),
    s.launch? p.job p.launch = some l ∧ crising 0 s.disp = true ∧
    NextProbe (cget {} s.disp (l.dieSet.headD 0)) p ∧ p.at_ < s.cycle ∧
    s.probePath p.job p.launch l p.queue 17 p.queue [p.queue] = none :=
  ⟨{ launched { stuck1 with conts := [] } with disp := [(0, { probes := [probe1] })], cycle := 1 }, _, probe1, rfl,
    by decide, next_alone _, by decide, by decide⟩

/-- FIPS 197, 4.2 and 5.1.3 (R105): a product, and a substitution. -/
theorem test_aes_bytes : gmul 0x57 0x83 = 0xC1 ∧ sbox 0x53 = 0xED ∧ sboxInv 0xED = 0x53 := by decide

/-- FIPS 197, appendix B: the first column of round 1 (R105). -/
theorem test_aes_column : (mixColumns [2, 3, 1, 1] ([0xD4, 0xBF, 0x5D, 0x30] ++ List.replicate 12 0)).take 4 =
    [0x04, 0x66, 0x81, 0xE5] := by decide

/-- R288: a drain from step 2 completes iteration 1 in step 3, and begins nothing of iteration 2 in stage 1. -/
theorem test_drain_squashes :
    let w : Wheel := { stages := 3, trip := 5, drain := some 2, step := 3, body := List.replicate 3 (0, .endStream noSync) }
    ({ w with pos := 1 } : Wheel).iter = none ∧ ({ w with pos := 2 } : Wheel).iter = some 1 := by decide

/-! ## Pre-emption -/

theorem witness_PreemptionEvents_request : ∃ (s : State) (n : Nat), (s.core n).preempt = .requested ∧
    (s.core n).task ≠ none ∧ (s.core n).handler = false ∧ (s.core n).cut = none ∧ s.overflowTraps n = [] :=
  ⟨busy .k { preempt := .requested }, 0, rfl, (fun h => nomatch h), rfl, rfl, rfl⟩

theorem witness_PreemptionEvents_overflow : ∃ (s : State) (n : Nat), (s.core n).preempt = .requested ∧
    (s.core n).task ≠ none ∧ (s.core n).handler = false ∧ (s.core n).cut = none ∧ s.overflowTraps n ≠ [] :=
  ⟨{ busy .k { preempt := .requested } with
      semBase := [(0, 5, 65535)], semAdds := [(0, ⟨5, 1, .l, none, 0, {}, 0, {}⟩)] }, 0, rfl, (fun h => nomatch h), rfl,
    rfl, by decide⟩

theorem witness_PreemptionEvents_timeout : ∃ (s : State) (n : Nat) (q : Seq), (s.core n).preempt = .stopped ∧ q ≠ .k ∧
    ((s.core n).seq q).wheel.active = true ∧ ((s.core n).seq q).wheel.drain.isSome = true ∧
    (s.core n).handler = false ∧ (s.core n).preemptAt + 65536 ≤ s.cycle :=
  ⟨{ busy .k { preempt := .stopped, regs := { l := { wheel := { active := true, drain := some 3 } } } } with
      cycle := 65536 }, 0, .l, rfl, by decide, rfl, rfl, rfl, by decide⟩

/-- Job 1 with the capability of its image area. -/
def imaged : Job :=
  { job1 launch1 with
    imageCap := { len := 2 ^ 24, rd := true, wr := true, kind := .images, tag := true, spans := [(0x80000, 0, false, 2 ^ 24)] } }

theorem witness_PreemptionEvents_save : ∃ (s : State) (n : Nat) (t : Machine.Task) (j : Job) (l : Launch) (slot : Nat),
    (s.core n).task = some t ∧ s.job? t.job = some j ∧ s.launch? t.job t.launch = some l ∧ slot < j.imageSlots ∧
    slot ∉ j.slotsUsed ∧ (∀ i, i < slot → i ∈ j.slotsUsed) ∧
    ((s.core n).preempt = .timedOut ∨ (s.core n).preempt = .stopped ∧
      ∀ q, q ≠ .k → ((s.core n).seq q).wheel.active = false ∨ ((s.core n).seq q).wheel.drain = none) ∧
    (s.core n).handler = false ∧ (s.core n).frozen = 0 ∧ (∀ u x r, (s.core n).unit u = x :: r → x.done = false) ∧
    (∀ u x r, (s.core n).unit u = x :: r → x.wins = [] ∧ x.xv = [] ∧ x.out = none) ∧ ImageArea j :=
  ⟨{ busy .k { preempt := .stopped } with jobs := [(1, imaged)] }, 0, task1, imaged, launch1, 0, rfl, rfl, rfl, by decide,
    by decide, fun _ h => absurd h (Nat.not_lt_zero _), .inr ⟨rfl, fun q _ => .inl (by cases q <;> rfl)⟩, rfl, rfl,
    (fun u x r h => by cases u <;> cases h), (fun u x r h => by cases u <;> cases h), by decide, rfl, rfl, rfl, rfl⟩

/-- The image of a task of launch 1. -/
def image1 : Image := ⟨0, 0, 1, false, { task := some task1 }⟩

theorem witness_PreemptionEvents_resume : ∃ s n a j l i t, Idle s n a j l ∧
    l.images.find? (fun x => savedStage x = a.stage && (!l.cores || x.core = n)) = some i ∧ i.saved.task = some t :=
  ⟨idle { launch1 with images := [image1] }, 0, _, _, { launch1 with images := [image1] }, image1, task1,
    idle_idle _ rfl rfl nofun, rfl, rfl⟩

/-! ## Units and predictions -/

/-- A command that is done at the head of the tensor engine's queue; it pushes to K and signals semaphore 255. -/
def retiring : State :=
  busy .k { units := { pass := [{ inst := .tpass ⟨0, false, 0, 1⟩ ⟨0, 0, 255, 1⟩ .f32 0 1 63 63, seq := .c, ipc := 0, num := 0
                                  done := true }] }
            regs := { c := { live := [0] } } }

theorem witness_UnitEvents_retire : ∃ (s : State) (n : Nat) (un : CUnit) (x : Cmd) (rest : List Cmd) (h : Hdr) (f : Sem),
    (s.core n).unit un = x :: rest ∧ x.done = true ∧ (s.core n).task ≠ none ∧ (s.core n).handler = false ∧
    (s.core n).frozen = 0 ∧ commandUnit x.inst = some (h, some f, un) ∧ ((s.core n).seq x.seq).sigs = [] ∧
    ((s.core n).seq x.seq).cond ≠ .ending ∧
    (∀ y ∈ neighbours x.seq h.push, ((s.core n).fifo (fifoIdx x.seq y)).length < 15) ∧
    (s.semBaseOf n f.sigsem).toNat + sumInc (s.addsOf n f.sigsem) + f.inc.toNat ≤ 65535 :=
  ⟨retiring, 0, .pass, _, [], _, _, rfl, rfl, (fun h => nomatch h), rfl, rfl, rfl, rfl, by decide, by decide, by decide⟩

theorem witness_UnitEvents_latch : ∃ (s : State) (n : Nat) (w : Fin 2) (t : Tile),
    ((s.core n).latch w.val).pending = some t ∧ (s.core n).usesLatch w.val = false :=
  ⟨busy .k { stores := { w1 := { pending := some default } } }, 0, 1, default, rfl, rfl⟩

theorem witness_UnitEvents_release : ∃ (s : State) (id : Nat) (d : Dropped) (j : Job),
    s.memory.dropped.find? (fun x => x.id = id) = some d ∧ s.storesLeft d.job d.handle = false ∧
    s.job? d.job = some j :=
  ⟨{ launched launch1 with memory := { dropped := [⟨3, 0x100001, 1, [0]⟩] } }, 3, _, _, rfl, by decide, rfl⟩

/-- A prediction of queue 5 beside the real launch of packet 3. -/
def claimed : State :=
  { State.reset with
    jobs := [(1, { job1 { launch1 with started := false } with
      launches := [(1, { launch1 with started := false }),
        (2, { launch1 with num := 2, spec := some { queue := 5, body := [], started := 0, real := some 3 } })] })]
    queues := [(5, wq)] }

def spec1 : Spec := { queue := 5, body := [], started := 0, real := some 3 }

theorem witness_SpeculationEvents_claim : ∃ s queue job key l x real, ClaimDue s queue job key l x real ∧
    bodiesMatch real.body x.body = true ∧ s.stillValid x = true ∧ l.num ≠ key :=
  ⟨claimed, 5, 1, 1, { launch1 with num := 2, spec := some spec1 }, spec1, { launch1 with started := false },
    { first := by decide +kernel, named := rfl, spec := rfl, alive := rfl
      actual := ⟨_, rfl, by decide⟩, lone := ⟨graph1, rfl, rfl⟩, dispatched := ⟨graph1, node1, rfl, rfl, rfl⟩ },
    by decide, by decide, by decide⟩

theorem witness_SpeculationEvents_publish : ∃ sh : Shadow, crising 0 sh.bytes = true ∧ ∀ b ∈ sh.bytes, b.1 < 128 :=
  ⟨{ bytes := [(0, 1), (64, 2), (127, 3)] }, by decide, by decide⟩

theorem witness_SpeculationEvents_discard : ∃ (s : State) (key reason job : Nat) (l : Launch) (x : Spec) (q : WQ),
    s.findSpec key = some (job, l) ∧ l.spec = some x ∧ x.dead = some reason ∧ s.queue? x.queue = some q :=
  ⟨{ launched { launch1 with spec := some { spec1 with dead := some 8 } } with queues := [(5, wq)] }, 1, 8, 1, _, _, _,
    rfl, rfl, rfl, rfl⟩

theorem witness_SpeculationEvents_timeout : ∃ (s : State) (key job : Nat) (l : Launch) (x : Spec),
    s.findSpec key = some (job, l) ∧ s.launch? job key = some l ∧ l.spec = some x ∧ x.real = none ∧ x.dead = none ∧
    x.started + 11000000 ≤ s.cycle :=
  ⟨{ launched { launch1 with spec := some { spec1 with real := none } } with cycle := 11000000 }, 1, 1, _, _, rfl, rfl,
    rfl, rfl, rfl, by decide⟩

/-! ## Decoding: every instruction's word, by the fields that the specification gives it -/

/-- A single without a sync field: major, minor, A, B, C, imm18 (R162). -/
def single (major : BitVec 6) (minor : BitVec 8) (a b c : BitVec 6) (imm : BitVec 18) : List Word :=
  [word1 imm minor c b a 0 major 0]

/-- A double: as a single, with eng, and with an increment of 3 on semaphore 2 and a wait for 5 on semaphore 4 (R165). -/
def double (major : BitVec 6) (minor : BitVec 8) (a b c : BitVec 6) (imm : BitVec 18) (eng : BitVec 24) : List Word :=
  [word1 imm minor c b a 0 major 1, eng ++ 3#8 ++ 2#8 ++ 5#16 ++ 4#8]

def sem1 : Sem := ⟨4, 5, 2, 3⟩

/-- An element word: op, d, a, b, c, mod (R180). -/
def element (op : BitVec 5) (d a b c : BitVec 4) (mod : BitVec 8) : BitVec 32 := 0#3 ++ mod ++ c ++ b ++ a ++ d ++ op

/-- The decoder of a sequencer reads each of these words as its instruction. -/
def reads (q : Seq) (l : List (List Word × Instr)) : Bool := l.all fun p => decide (decodeList q p.1 = .ok p.2)

def elements (l : List (BitVec 32 × Instr)) : Bool := l.all fun p => decide (decodeElem p.1 = .ok p.2)

/-- R174: major 0x10, in the table's order. -/
theorem decode_integer : reads .k [
    (single 0x10 0 61 62 63 0, .add noSync 61 62 63),
    (single 0x10 1 61 62 63 0, .sub noSync 61 62 63),
    (single 0x10 2 61 62 63 0, .mul noSync 61 62 63),
    (single 0x10 3 61 62 63 0, .mulh noSync 61 62 63),
    (single 0x10 4 61 62 63 0, .mulhn noSync 61 62 63),
    (single 0x10 5 61 62 63 0, .div noSync 61 62 63),
    (single 0x10 6 61 62 63 0, .divn noSync 61 62 63),
    (single 0x10 7 61 62 63 0, .rem noSync 61 62 63),
    (single 0x10 8 61 62 63 0, .remn noSync 61 62 63),
    (single 0x10 9 61 62 63 0, .and noSync 61 62 63),
    (single 0x10 10 61 62 63 0, .or noSync 61 62 63),
    (single 0x10 11 61 62 63 0, .xor noSync 61 62 63),
    (single 0x10 12 61 62 63 0, .andn noSync 61 62 63),
    (single 0x10 13 61 62 63 0, .orn noSync 61 62 63),
    (single 0x10 14 61 62 63 0, .shl noSync 61 62 63),
    (single 0x10 15 61 62 63 0, .shr noSync 61 62 63),
    (single 0x10 16 61 62 63 0, .sar noSync 61 62 63),
    (single 0x10 17 61 62 63 0, .rol noSync 61 62 63),
    (single 0x10 18 61 62 63 0, .min noSync 61 62 63),
    (single 0x10 19 61 62 63 0, .max noSync 61 62 63),
    (single 0x10 20 61 62 63 0, .minn noSync 61 62 63),
    (single 0x10 21 61 62 63 0, .maxn noSync 61 62 63)] = true := by decide

/-- R174: majors 0x11 to 0x17. -/
theorem decode_immediate : reads .k [
    (single 0x11 0 61 62 0 0x20001, .addi noSync 61 62 0x20001),
    (single 0x11 1 61 62 0 0x20001, .andi noSync 61 62 0x20001),
    (single 0x11 2 61 62 0 0x20001, .ori noSync 61 62 0x20001),
    (single 0x11 3 61 62 0 0x20001, .xori noSync 61 62 0x20001),
    (single 0x11 4 61 62 0 0x3F, .shli noSync 61 62 63),
    (single 0x11 5 61 62 0 0x3F, .shri noSync 61 62 63),
    (single 0x11 6 61 62 0 0x3F, .sari noSync 61 62 63),
    (single 0x11 7 61 0 0 0x20001, .li noSync 61 0x20001),
    (single 0x11 8 61 0 0 0x20001, .lih noSync 61 0x20001),
    (single 0x12 0 61 62 0 0, .clz noSync 61 62),
    (single 0x12 1 61 62 0 0, .ctz noSync 61 62),
    (single 0x12 2 61 62 0 0, .popc noSync 61 62),
    (single 0x12 3 61 62 0 0, .brev noSync 61 62),
    (single 0x12 4 61 62 0 0, .bswap noSync 61 62),
    (single 0x13 0 61 62 0 0x7C1, .ext noSync 61 62 1 31),
    (single 0x13 1 61 62 0 0xFC0, .ins noSync 61 62 0 63),
    (single 0x14 7 31 62 63 0, .cmp noSync .len 31 62 63),
    (single 0x15 2 1 62 0 0x3FFFF, .cmpi noSync .lt 1 62 0x3FFFF),
    (single 0x16 0 61 62 63 31, .sel noSync 61 62 63 31),
    (single 0x17 0 29 30 31 0, .pand noSync 29 30 31),
    (single 0x17 1 29 30 31 0, .por noSync 29 30 31),
    (single 0x17 2 29 30 31 0, .pxor noSync 29 30 31),
    (single 0x17 3 29 30 31 0, .pandn noSync 29 30 31),
    (single 0x17 4 29 30 0 0, .pnot noSync 29 30),
    (single 0x17 5 29 30 0 0, .pmov noSync 29 30)] = true := by decide

/-- R174, R176: majors 0x18 to 0x1D. -/
theorem decode_access : reads .k [
    (single 0x18 0 61 0 0 0x3FFFE, .call noSync 61 0x3FFFE),
    (single 0x18 1 61 62 0 0, .callr noSync 61 62),
    (single 0x18 2 0 62 0 0, .ret noSync 62),
    (single 0x18 3 0 62 0 0, .jmpr noSync 62),
    (single 0x19 0b01100110 61 62 0 8, .ld noSync (some .dev) ⟨true, 2⟩ 61 62 8),
    (single 0x1A 0b10101011 61 62 0 8, .st noSync (some .sys) ⟨false, 3⟩ 61 62 8),
    (single 0x1A 0b11000001 61 62 63 8, .stCoil noSync ⟨false, 1⟩ 61 62 63 8),
    (single 0x1B 0b00000111 60 62 3 8, .ldm noSync none true 60 62 3 8),
    (single 0x1C 0b10010011 60 62 3 8, .stm noSync (some .clu) false 60 62 3 8),
    (single 0x1D 0 0 0 0 0xFF, .trap noSync 0xFF),
    (single 0x1D 1 0 62 0 5, .hset noSync 62 5),
    (single 0x1D 2 0 0 0 0, .resume noSync),
    (single 0x1D 3 61 62 0 0xABC, .sysc noSync 61 62 0xABC)] = true := by decide

/-- R174, R177, R319: majors 0x20 to 0x29. -/
theorem decode_synchronisation : reads .k [
    (single 0x20 0b00101000 61 62 63 0b0011, .amo noSync .swap (.rel .die) false 61 62 63),
    (single 0x20 0b00000110 61 62 63 0b1000, .amo noSync (.plain .minn) .none true 61 62 63),
    (single 0x21 0b00010000 61 62 63 0b1100, .amoc noSync (.acq .dev) true 61 62 63),
    (single 0x22 0b10 0 62 63 0b1011111110, .avec noSync false true (some .sys) 62 62 63),
    (single 0x23 0b00001001 0 62 63 0b1000, .amred noSync .fadd none true 62 63),
    (single 0x24 9 61 62 63 1, .waita noSync .gen true 61 62 63),
    (single 0x25 0 0 62 0 0, .siga noSync 62),
    (single 0x26 0 0 62 63 0, .bari noSync 62 63),
    (single 0x26 1 0 62 0 0, .bara noSync 62),
    (single 0x26 2 0 62 0 0, .bard noSync 62),
    (single 0x26 3 0 62 63 0, .barw noSync 62 63),
    (single 0x27 0 0 62 63 0, .afence noSync 62 63),
    (single 0x28 0 61 0 0 10, .cnew noSync 61 10),
    (single 0x28 1 61 62 63 0, .cres noSync 61 62 63),
    (single 0x28 2 61 62 63 0, .caddr noSync 61 62 63),
    (single 0x28 3 61 62 63 0, .ccommit noSync 61 62 63),
    (single 0x28 4 61 62 0 0, .clen noSync 61 62),
    (single 0x28 5 61 62 63 0, .cfork noSync 61 62 63),
    (single 0x28 6 0 62 0 0, .cdrop noSync 62),
    (single 0x28 7 61 62 0 15, .cinfo noSync 61 62 15),
    (single 0x29 0 0 62 63 15, .sqpush noSync 62 63 15),
    (single 0x29 1 0 0 0 0, .yield noSync),
    (single 0x29 2 0 62 63 0, .launch noSync 62 63),
    (single 0x29 3 0 62 0 2, .cancel noSync 62 2),
    (single 0x29 4 61 62 0 1, .ccnt noSync 61 62 1),
    (single 0x29 5 61 62 63 0, .plan noSync 61 62 63),
    (single 0x29 6 0 62 0 2, .phint noSync 62 2)] = true := by decide

/-- R162 to R164, R173: the majors that every sequencer has. -/
theorem decode_common : reads .k [
    ([word1 0 0 0 0 0 0 0 0], .nop noSync),
    ([word1 0x3FFFF 0 0 0 0 0b110101010011 0x01 0], .br ⟨0b10101, true, 0b011, 0b010⟩ (-1)),
    (single 0x02 0 1 2 3 4, .jmp noSync (3 * 2 ^ 30 + 2 * 2 ^ 24 + 2 ^ 18 + 4)),
    (single 0x03 0 0 0 0 0, .endStream noSync),
    (single 0x04 0 0 0 0 0, .tok noSync),
    (single 0x05 0 3 63 0 0, .pushv noSync .s 63),
    (single 0x06 0 63 1 0 0, .popv noSync 63 .l),
    (single 0x07 255 0 0 0 0xFFFF, .swait noSync 255 0xFFFF),
    (single 0x07 255 0 63 1 0, .swaitReg noSync 255 63),
    (single 0x08 255 0 0 0 0xFF, .ssig noSync 255 255),
    (single 0x09 255 0 0 0 0xFFFF, .sset noSync 255 0xFFFF),
    (single 0x09 255 0 63 1 0, .ssetReg noSync 255 63),
    (single 0x0A 0 0 0 0 0b101011, .fence noSync .sl .sys),
    (single 0x0B 0 63 0 0 0x012, .mfs noSync 63 .epoch),
    (single 0x0C 0 0 63 0 0x018, .mts noSync .xvtab 63),
    (single 0x0D 0 0 0 0 0xFFFF, .brk noSync 0xFFFF)] = true := by decide

/-- R166 to R168: the quads. -/
theorem decode_quads : reads .l [
    ([word1 0 0 0 0 15 0 0x14 2, 0x0123456789ABCDEF, 0x0FEDCBA987654321, 0x8002000000000001],
      .mapset noSync 15 0x80020000000000010FEDCBA9876543210123456789ABCDEF),
    ([word1 5 0b00000101 1 7 3 0 0x0E 2, 0xF42, 0, 0], .wheel noSync 3 7 1 (.reg 5) [⟨15, .b, 2⟩])] = true := by decide

/-- R178, R241, R248 to R254: L, and what S has with it. -/
theorem decode_load : reads .l [
    (single 0x10 0 29 30 31 0, .aadd noSync 29 30 31),
    (single 0x10 1 29 30 31 0, .asub noSync 29 30 31),
    (single 0x10 2 29 30 31 0, .amul noSync 29 30 31),
    (single 0x10 3 29 30 31 0, .amadd noSync 29 30 31),
    (single 0x10 4 29 30 0 0, .amov noSync 29 30),
    (single 0x11 0 29 30 0 0x20001, .aaddi noSync 29 30 0x20001),
    (single 0x11 1 29 30 0 63, .ashli noSync 29 30 63),
    (single 0x11 2 29 0 0 0x20001, .ali noSync 29 0x20001),
    (single 0x11 3 29 0 0 0x20001, .alih noSync 29 0x20001),
    (single 0x12 1 29 30 31 0, .acmp noSync .ne 29 30 31),
    (single 0x13 8 29 30 0 0x20001, .acmpi noSync .gtn 29 30 0x20001),
    (single 0x15 0 15 30 0 0, .mapofs noSync 15 30),
    (single 0x1B 0x0B 0 15 31 0x20001, .tprf noSync .f64 15 31 0x20001),
    (single 0x1D 0b101 29 30 0 0x20001, .lda noSync ⟨true, 1⟩ 29 30 0x20001),
    (single 0x1E 0b010 29 30 0 0x20001, .sta noSync ⟨false, 2⟩ 29 30 0x20001),
    (single 0x20 0 0 30 31 0, .rsig noSync 30 31),
    (single 0x21 0 29 30 31 0, .caddrLs noSync 29 30 31),
    (double 0x16 0x0C 9 15 31 0x3FFFF 50432, .tld noSync sem1 .c64 (.w 1) 15 31 (-1) ⟨true, some (2, 4), 0, .none⟩),
    (double 0x16 0x11 7 15 31 0 0b000000000000000011111010, .tld noSync sem1 .e2m1 (.q 7) 15 31 0 ⟨false, none, 31, .bf16⟩),
    (double 0x18 0x12 29 15 31 0b100001000001 8716328, .tcpy noSync sem1 .mxi8 29 15 31 1 33 (.store ⟨5, 0, false, .rne, .f32, .none⟩)),
    (double 0x18 0x0A 29 15 31 0xFFF 0, .tcpy noSync sem1 .f32 29 15 31 63 63 (.load ⟨false, none, 0, .none⟩)),
    (double 0x19 0x0A 7 15 31 0x20001 0b10011110, .tgth noSync sem1 .f32 7 15 31 0x20001 4 30),
    (double 0x1C 0x00 0 15 31 0x20001 0, .tzero noSync sem1 .i8 15 31 0x20001),
    (double 0x1F 0 29 15 31 0 3, .rcpyWr noSync sem1 29 15 31 3),
    (double 0x1F 1 29 15 31 0 2, .rcpyRd noSync sem1 29 15 31 2)] = true := by decide

/-- R178, R244, R249: S. -/
theorem decode_store : reads .s [
    (double 0x17 0x09 7 15 31 0x20001 3625, .tst noSync sem1 .bf16 7 15 31 0x20001 ⟨0, 1, true, .sr, .f32, .add⟩),
    (double 0x17 0b00101101 7 15 31 0x1E 2031776, .tstCoil noSync sem1 .e4m3 7 15 31 30 ⟨31, 0, false, .rtz, .f16, .none⟩),
    (double 0x1A 0x0B 7 15 31 0x20001 0b00011110, .tsct noSync sem1 .f64 7 15 31 0x20001 0 30)] = true := by decide

/-- R170, R179, R260 to R285: C. -/
theorem decode_compute : reads .c [
    (double 0x10 0x0D 1 7 0 0 0, .mlw noSync sem1 .e4m3 1 7),
    (double 0x11 0x29 1 7 62 0 124930, .mma noSync sem1 .bf16 true 1 7 62 ⟨2, 61⟩),
    (double 0x12 0x08 1 0 63 0x400 124930, .mmac noSync sem1 .f16 false 1 63 ⟨2, 61⟩ 0x400),
    (double 0x13 0x0B 0 0 0 0 30736, .mzero noSync sem1 .f64 ⟨16, 15⟩),
    (double 0x14 0x0C 7 0 63 0 8402960, .mdrain noSync sem1 .c64 7 63 ⟨16, 7⟩ .c64),
    (double 0x15 0x0A 7 0 61 0x400 30736, .mdrainx noSync sem1 .f32 7 61 ⟨16, 15⟩ 0x400),
    (double 0x16 0x0B 0 0 0 0x400 63504, .mfact noSync sem1 .f64 ⟨16, 31⟩ 0x400),
    (single 0x17 0 0 0 0 7, .mstat noSync 7),
    (double 0x18 0x0A 7 6 5 4 0b11101, .tred noSync sem1 .f32 7 6 5 4 .chain 5),
    (double 0x19 0x09 7 6 5 4 0, .tpass noSync sem1 .bf16 7 6 5 4),
    (double 0x1A 0 0 0 0 6143 0, .attn noSync sem1 6143),
    (double 0x1B 0 0 0 0 1 0, .attnm noSync sem1 1),
    (single 0x1C 0 62 0 0 0x20001, .pbind noSync 62 0x20001),
    (single 0x1C 1 3 0 0 0x20001, .pbindTable noSync 3 0x20001),
    (single 0x1D 0 0 0 0 0b111101, .pstate noSync 5 7)] = true := by decide

/-- R180, R181: the element operations. -/
theorem decode_element : elements [
    (element 0 7 14 15 0 0, .fadd 7 14 15),
    (element 1 7 14 15 0 0, .fsub 7 14 15),
    (element 2 7 14 15 0 0, .fmul 7 14 15),
    (element 4 7 14 15 0 0, .fmax 7 14 15),
    (element 5 7 14 15 0 0, .fmin 7 14 15),
    (element 16 7 14 15 0 0, .iadd 7 14 15),
    (element 17 7 14 15 0 0, .isub 7 14 15),
    (element 18 7 14 15 0 0, .imul 7 14 15),
    (element 19 7 14 15 0 0, .iand 7 14 15),
    (element 20 7 14 15 0 0, .ior 7 14 15),
    (element 21 7 14 15 0 0, .ixor 7 14 15),
    (element 22 7 14 15 0 0, .ishl 7 14 15),
    (element 23 7 14 15 0 0, .ishr 7 14 15),
    (element 3 7 14 15 13 0, .ffma 7 14 15 13),
    (element 9 7 14 15 13 0, .fsel 7 14 15 13),
    (element 6 7 14 0 0 0, .fabs 7 14),
    (element 7 7 14 0 0 0, .fneg 7 14),
    (element 10 7 14 0 0 0, .frcp 7 14),
    (element 11 7 14 0 0 0, .frsq 7 14),
    (element 12 7 14 0 0 0, .fexp2 7 14),
    (element 13 7 14 0 0 0, .flog2 7 14),
    (element 8 7 14 15 0 6, .fcmp 7 14 15 .uo),
    (element 14 7 14 0 0 0b01100010, .fcvt 7 14 .i32 .rdn),
    (element 15 7 14 0 0 3, .tbl 7 14 3),
    (element 24 7 15 0 0 0, .kld 7 15),
    (element 25 15 7 0 0 0, .kst 15 7),
    (element 26 7 14 0 0 3, .lag 7 14 3),
    (element 27 0 14 0 0 0, .emit 14),
    (element 27 0 14 0 0 1, .emitLast 14),
    (element 28 0 14 0 0 7, .tap 14 7),
    (element 29 0 14 0 0 0, .drop 14),
    (element 30 0 14 0 0 127, .eflt 14 127),
    (element 30 0 0 0 0 0b10011111, .efltFp 31)] = true := by decide
/-! ## Encodings that are refused (R161 to R182, R419) -/

/-- Each of these words is refused with this error. -/
def refuses (q : Seq) (l : List (List Word × DecErr)) : Bool := l.all fun p => decide (decodeList q p.1 = .error p.2)

/-- R171: length code 3, an unassigned major or minor, and a wrong length are illegal; a field that is not used is
reserved; a field beyond its limit is a limit. -/
theorem decode_refuses : refuses .k [([word1 0 0 0 0 0 0 0 3], .illegal), (single 0x0E 0 0 0 0 0, .illegal),
    (single 0x30 0 0 0 0 0, .illegal), (single 0x10 0x16 1 2 3 0, .illegal), (double 0x10 0 1 2 3 0 0, .illegal),
    (single 0x10 0 1 2 3 1, .reserved), ([word1 0 0 0 0 0 0b100000000000 0 0], .reserved), (single 0x07 0 0 0 2 0, .reserved),
    (single 0x08 0 0 0 0 0, .limit), (single 0x14 0 0 1 2 0, .limit), (single 0x13 0 1 2 0 0xFC1, .limit),
    (single 0x0A 0 0 0 0 5, .limit), (single 0x0B 0 1 0 0 0x013, .limit)] = true := by decide

/-! ## Terms that no stream holds: one for each check of well-formedness -/

def illFormed (q : Seq) (l : List Instr) : Bool := l.all fun i => !wf q i

/-- An inverted guard p0; a sync field on NOP; a register, a target and a push of PUSHV and POPV; an increment of 0;
a destination p0; bit fields and register counts that run out; FADD of eight bytes; a size, a policy and a special
case that no code stands for. -/
theorem smoke_k : illFormed .k [.br ⟨0, true, 0, 0⟩ 0, .nop ⟨0, false, 1, 0⟩, .nop ⟨0, false, 0, 1⟩, .pushv noSync .k 0,
    .pushv ⟨0, false, 0, 1⟩ .l 0, .popv noSync 0 .k, .popv ⟨0, false, 4, 0⟩ 0 .s, .ssig noSync 0 0,
    .ext noSync 0 0 1 63, .ins noSync 0 0 63 1, .cmp noSync .eq 0 1 2, .cmpi noSync .eq 0 1 2, .pand noSync 0 1 2,
    .pnot noSync 0 1, .ldm noSync none true 62 0 2 0, .stm noSync none true 63 0 1 0,
    .amo noSync (.plain .fadd) .none false 0 1 2, .amred noSync .fadd none false 1 2, .cnew noSync 0 11,
    .phint noSync 0 3, .wheel noSync 0 0 0 (.imm 1) [], .aadd noSync 0 1 2, .powerGood, .fadd 0 1 2] = true := by decide

/-- A register beyond a31, K's instructions, a ring level, levels and scale registers of the halves, MX types, and the
limits of WHEEL. -/
theorem smoke_l : illFormed .l [.pushv noSync .k 32, .swaitReg noSync 0 32, .mfs noSync 32 .coreid, .add noSync 0 1 2,
    .call noSync 0 1, .mapset noSync 0 (5 <<< 175), .mapset noSync 0 ((1 <<< 178) ||| (7 <<< 175)),
    .acmp noSync .eq 0 1 2, .acmpi noSync .eq 0 1 2,
    .tld noSync noSem .f32 (.q 0) 0 0 0 ⟨false, some (5, 0), 0, .none⟩,
    .tld noSync noSem .f32 (.q 0) 0 0 0 ⟨false, none, 1, .none⟩, .tld noSync ⟨0, 0, 1, 0⟩ .f32 (.q 0) 0 0 0 ⟨false, none, 0, .none⟩,
    .tst noSync noSem .f32 0 0 0 0 ⟨0, 0, false, .rne, .f32, .none⟩, .tgth noSync noSem .f32 0 0 0 0 5 0,
    .tcpy noSync noSem .f32 0 0 0 63 63 (.store ⟨0, 1, false, .rne, .f32, .none⟩), .tzero noSync noSem .e4m3 0 0 0,
    .wheel ⟨1, false, 0, 0⟩ 0 0 0 (.imm 1) [], .wheel noSync 0 0 0 (.imm 1) [⟨0, .a, 1⟩],
    .wheel noSync 0 0 0 (.imm 1) [⟨0, .a, 0⟩, ⟨1, .a, 0⟩], .mlw noSync noSem .bf16 0 0] = true := by decide

/-- Registers on C, types and ranges of the matrix commands, lines, the peer's lines, the pivot line, levels and ports of
TRED and TPASS, request blocks, and port codes. -/
theorem smoke_c : illFormed .c [.pushv noSync .k 0, .swaitReg noSync 0 0, .wheel noSync 0 0 0 (.reg 0) [],
    .mlw noSync noSem .i8 0 0, .mma noSync noSem .i8 false 0 0 63 ⟨0, 0⟩, .mma noSync noSem .bf16 false 0 0 63 ⟨2047, 1⟩,
    .mma noSync noSem .e4m3 false 0 0 0 ⟨0, 3⟩, .mmac noSync noSem .bf16 false 0 63 ⟨0, 3⟩ 2,
    .mmac noSync noSem .bf16 false 0 63 ⟨0, 3⟩ 2045, .mzero noSync noSem .bf16 ⟨0, 3⟩, .mzero noSync noSem .f32 ⟨1, 3⟩,
    .mdrain noSync noSem .f32 0 63 ⟨1, 3⟩ .f32, .mdrain noSync noSem .f64 0 0 ⟨0, 3⟩ .f64,
    .mdrain noSync noSem .i8 0 63 ⟨0, 3⟩ .f32, .mdrainx noSync noSem .f32 0 63 ⟨0, 3⟩ 1,
    .mdrainx noSync noSem .f64 0 0 ⟨0, 3⟩ 0, .mfact noSync noSem .f64 ⟨0, 32⟩ 100, .mfact noSync noSem .f64 ⟨0, 3⟩ 3,
    .tred noSync noSem .bf16 0 0 63 63 .add 1, .tred noSync noSem .f32 0 0 63 63 .add 0,
    .tred noSync noSem .f32 0 0 63 63 .add 6, .tred noSync noSem .f64 0 0 0 63 .add 1,
    .tred noSync noSem .f32 0 0 63 63 .chain 1, .tpass noSync noSem .f64 0 0 0 63, .attn noSync noSem 6144,
    .pbind noSync 63 0, .pstate noSync 6 0] = true := by decide

/-- R181: destinations that are not e registers, wrong files of KLD and KST, LAG by 0, an empty condition mask. -/
theorem smoke_element : ([.fadd 8 0 0, .fabs 8 0, .kld 8 8, .kld 0 7, .kst 7 0, .kst 8 8, .lag 0 0 0, .lag 8 0 1,
    .efltFp 0, .nop noSync].all fun i => !wfElem i) = true := by decide

end Sys2Proof.Tests
end

section
/-! PROOFS. K's integer instructions (R208 to R214), and the compares and predicate instructions of K, L and S (R213,
R215, R230). -/

namespace Sys2Proof

open Machine Slice0

/-! ## Words by their fields (R162) -/

/-- A first doubleword by its fields is the one that the encoder packs (R162). -/
theorem word1_eq_pack (h : Hdr) (imm : BitVec 18) (minor : BitVec 8) (c b a major : BitVec 6) (len : BitVec 2) :
    word1 imm minor c b a (syncBits h) major len = (h.fields len major minor a b c imm).pack := by
  apply BitVec.eq_of_toNat_eq
  simp only [word1, syncBits, Fields.pack, Hdr.fields, append_toNat]
  ring

/-- A single of majors 16 up is decoded on K by K's groups. -/
theorem decodeList_word1_k {h : Hdr} {imm : BitVec 18} {minor : BitVec 8} {c b a major : BitVec 6}
    (hm : 16 ≤ major.toNat) : decodeList .k [word1 imm minor c b a (syncBits h) major 0] =
      decodeK (h.fields 0 major minor a b c imm) := by
  have hm' : ¬ major.toNat < 16 := by omega
  rw [word1_eq_pack]
  exact (decode_pack _ _ _ _ _).trans (by simp [hm'])

/-- The last steps of R171 for a form of the right length whose sync field is well-formed. -/
theorem finish_fields {h : Hdr} {major : BitVec 6} {minor : BitVec 8} {a b c : BitVec 6} {imm : BitVec 18}
    {len : BitVec 2} (hw : h.wf = true) (reserved : Bool) (i : Option Instr) :
    (h.fields len major minor a b c imm).finish len reserved i =
      if reserved then .error .reserved else i.elim (.error .limit) .ok := by
  cases i <;> simp [Fields.finish, hw]

/-- R208: a word of the integer group. -/
theorem decodeList_intOp {h : Hdr} {minor : BitVec 8} {d b c : BitVec 6} {i : Instr} (hw : h.wf = true)
    (hi : intOp h d b c minor.toNat = some i) : decodeList .k [word1 0 minor c b d (syncBits h) 0x10 0] = .ok i := by
  rw [decodeList_word1_k (by decide)]
  simp [decodeK, k10, hi, finish_fields hw]

/-- The instructions of the bit-count group, by minor (R211). -/
def bitOp (h : Hdr) (d b : BitVec 6) : Nat → Option Instr
  | 0 => some (.clz h d b) | 1 => some (.ctz h d b) | 2 => some (.popc h d b) | 3 => some (.brev h d b)
  | 4 => some (.bswap h d b)
  | _ => none

/-- R211: a word of the bit-count group. -/
theorem decodeList_bitOp {h : Hdr} {minor : BitVec 8} {d b : BitVec 6} {i : Instr} (hw : h.wf = true)
    (hi : bitOp h d b minor.toNat = some i) : decodeList .k [word1 0 minor 0 b d (syncBits h) 0x12 0] = .ok i := by
  rw [decodeList_word1_k (by decide)]
  unfold bitOp at hi
  split at hi <;> cases hi <;> simp [decodeK, k12, Fields.zeroABC, finish_fields hw, *]

/-- R214: SEL names its predicate in the low five bits of imm18; a bit above them is reserved. -/
theorem decodeList_sel {h : Hdr} (hw : h.wf = true) (imm : BitVec 18) (d b c : BitVec 6) :
    decodeList .k [word1 imm 0 c b d (syncBits h) 0x16 0] =
      if imm.toNat < 32 then .ok (.sel h d b c (imm.setWidth 5)) else .error .reserved := by
  rw [decodeList_word1_k (by decide)]
  by_cases hi : imm.toNat < 32 <;> simp [decodeK, k16, Fields.immAbove, finish_fields hw, Nat.div_eq_zero_iff, hi]

theorem fld6_eq_zero (p : BitVec 5) : fld6 p = 0 ↔ p = 0 := by
  unfold fld6
  bv_omega

/-- R169: a field holds a destination predicate unless it is p0. -/
theorem pdest_fld6 (p : BitVec 5) : pdest (fld6 p) = if p = 0 then none else some p := by
  simp only [pdest, beq_iff_eq, fld6_eq_zero, small_fld6_5]

/-- The predicate instructions of K, by minor; PNOT and PMOV have no second source (R215). -/
def predOp (h : Hdr) (pd pa pb : BitVec 5) : Nat → Option Instr
  | 0 => some (.pand h pd pa pb) | 1 => some (.por h pd pa pb) | 2 => some (.pxor h pd pa pb)
  | 3 => some (.pandn h pd pa pb) | 4 => some (.pnot h pd pa) | 5 => some (.pmov h pd pa)
  | _ => none

theorem predOp_of_lt {n : Nat} (hn : n < 6) (h : Hdr) (pd pa pb : BitVec 5) : ∃ i, predOp h pd pa pb n = some i := by
  interval_cases n <;> exact ⟨_, rfl⟩

/-- R215: a word of the predicate group; a destination p0 is a limit. -/
theorem decodeList_predOp {h : Hdr} {minor : BitVec 8} {pd pa pb : BitVec 5} {i : Instr} (hw : h.wf = true)
    (hb : 4 ≤ minor.toNat → pb = 0) (hi : predOp h pd pa pb minor.toNat = some i) :
    decodeList .k [word1 0 minor (fld6 pb) (fld6 pa) (fld6 pd) (syncBits h) 0x17 0] =
      if pd = 0 then .error .limit else .ok i := by
  rw [decodeList_word1_k (by decide)]
  have hc : 4 ≤ minor.toNat → fld6 pb = 0 := fun hm => (fld6_eq_zero pb).mpr (hb hm)
  unfold predOp at hi
  split at hi <;> cases hi <;> rename_i hm <;>
    simp [decodeK, k17, Fields.zeroABC, pdest_fld6, finish_fields hw, hm, hc] <;> split <;> rfl

/-! ## What the instructions write -/

theorem condOn_eq_holds {w : Nat} (cond : Cond) (a b : BitVec w) : condOn cond a b = holds cond a b := by
  have e : (a == b) = decide (a.toNat = b.toNat) := by
    simp only [beq_eq_decide, BitVec.toNat_inj]
  cases cond <;> simp [condOn, holds, BitVec.slt_eq_decide, BitVec.sle_eq_decide, BitVec.ult, BitVec.ule, bne, e]

theorem cmpImm_eq_compared (cond : Cond) (imm : BitVec 18) : cmpImm cond imm = compared cond imm := by
  have hz : imm.setWidth 64 = BitVec.ofNat 64 imm.toNat := BitVec.eq_of_toNat_eq (by simp)
  have hc : compared cond imm =
      if unsignedCond cond then BitVec.ofNat 64 imm.toNat else BitVec.ofInt 64 imm.toInt := by cases cond <;> rfl
  rw [cmpImm, hz, sext_eq, hc]

theorem pred_eq_predOf (c : CoreSt) (q : Seq) (p : BitVec 5) : c.pred q p = predOf c q p := by
  simp [CoreSt.pred, predOf, beq_eq_decide]

theorem bare_preds {c d : CoreSt} (h : bare d = bare c) (q : Seq) : (d.seq q).preds = (c.seq q).preds := by
  have hs := congrArg SeqSt.preds (bare_seq h q)
  exact hs

/-- The results are computed from what pops leave alone. -/
theorem kResult_bare {c d : CoreSt} (h : bare d = bare c) (i : Instr) : kResult d i = kResult c i := by
  have hp : d.regs.k.preds = c.regs.k.preds := bare_preds h .k
  unfold kResult
  simp only [bare_x h, hp]

theorem pResult_bare {c d : CoreSt} (h : bare d = bare c) (q : Seq) (i : Instr) : pResult d q i = pResult c q i := by
  unfold pResult predOf
  simp only [bare_x h, bare_a h, bare_preds h]

/-! ## K: integer instructions (R208 to R212, R214) -/

theorem ite_sle_eq {α : Type} (b c : Word) (x y : α) :
    (if b.sle c then x else y) = if b.toInt ≤ c.toInt then x else y := by
  simp only [BitVec.sle_iff_toInt_le]

theorem ite_ule_eq {α : Type} (b c : Word) (x y : α) :
    (if b.ule c then x else y) = if b.toNat ≤ c.toNat then x else y := by
  simp only [BitVec.ule_iff_toNat_le]

theorem ite_pred_k {α : Type} (k : CoreSt) (p : BitVec 5) (x y : α) :
    (if k.pred .k p then x else y) = if p = 0 ∨ k.regs.k.preds.getLsbD p.toNat then x else y := by
  simp only [pred_eq_predOf, predOf, decide_eq_true_eq]
  rfl

theorem seq_eq_k {q : Seq} {b : Bool} (h : (q == .k && b) = true) : q = .k := eq_of_beq (Bool.and_elim_left h)

/-- Only K's stream holds an instruction with an entry in kResult. -/
theorem seq_of_kResult {q : Seq} {c : CoreSt} {i : Instr} {r : Hdr × BitVec 6 × Word} (hw : wf q i = true)
    (hk : kResult c i = some r) : q = .k := by
  cases i with
  | add | sub | mul | mulh | mulhn | div | divn | rem | remn | and | or | xor | andn | orn | shl | shr | sar | rol
  | min | max | minn | maxn | addi | andi | ori | xori | shli | shri | sari | li | lih | clz | ctz | popc | brev
  | bswap | sel => exact seq_eq_k hw
  | ext | ins => exact seq_eq_k (Bool.and_elim_left hw)
  | _ => cases hk

/-- The table of K's integer instructions against their meanings: each runs as runX, with a function
whose value on the core k is the table's. -/
theorem exec_of_kResult {k : CoreSt} {i : Instr} {h : Hdr} {d : BitVec 6} {v : Word} (hw : wf .k i = true)
    (hk : kResult k i = some (h, d, v)) : ∃ f : CoreSt → Word, (∀ s, exec i s = runX h d f s) ∧ f k = v := by
  cases i with
  | add => cases hk; exact ⟨_, fun _ => rfl, add_eq ..⟩
  | sub => cases hk; exact ⟨_, fun _ => rfl, sub_eq ..⟩
  | mul => cases hk; exact ⟨_, fun _ => rfl, mul_eq ..⟩
  | mulh => cases hk; exact ⟨_, fun _ => rfl, mulh_eq ..⟩
  | mulhn => cases hk; exact ⟨_, fun _ => rfl, mulhn_eq ..⟩
  | div => cases hk; exact ⟨_, fun _ => rfl, divS_eq ..⟩
  | divn => cases hk; exact ⟨_, fun _ => rfl, divU_eq ..⟩
  | rem => cases hk; exact ⟨_, fun _ => rfl, remS_eq ..⟩
  | remn => cases hk; exact ⟨_, fun _ => rfl, remU_eq ..⟩
  | and | or | xor | andn | orn | brev => cases hk; exact ⟨_, fun _ => rfl, rfl⟩
  | shl => cases hk; exact ⟨_, fun _ => rfl, by rw [shl_eq, shAmt_eq]⟩
  | shr => cases hk; exact ⟨_, fun _ => rfl, by rw [shr_eq, shAmt_eq]⟩
  | sar => cases hk; exact ⟨_, fun _ => rfl, by rw [sar_eq, shAmt_eq]⟩
  | rol => cases hk; exact ⟨_, fun _ => rfl, by rw [shAmt_eq, rol_eq _ _ (Nat.mod_lt _ (by decide))]⟩
  | min => cases hk; exact ⟨_, fun _ => rfl, ite_sle_eq ..⟩
  | max => cases hk; exact ⟨_, fun _ => rfl, ite_sle_eq ..⟩
  | minn => cases hk; exact ⟨_, fun _ => rfl, ite_ule_eq ..⟩
  | maxn => cases hk; exact ⟨_, fun _ => rfl, ite_ule_eq ..⟩
  | addi => cases hk; exact ⟨_, fun _ => rfl, addi_eq ..⟩
  | andi => cases hk; exact ⟨_, fun _ => rfl, by rw [sext_eq]⟩
  | ori => cases hk; exact ⟨_, fun _ => rfl, by rw [sext_eq]⟩
  | xori => cases hk; exact ⟨_, fun _ => rfl, by rw [sext_eq]⟩
  | shli => cases hk; exact ⟨_, fun _ => rfl, shl_eq ..⟩
  | shri => cases hk; exact ⟨_, fun _ => rfl, shr_eq ..⟩
  | sari => cases hk; exact ⟨_, fun _ => rfl, sar_eq ..⟩
  | li => cases hk; exact ⟨_, fun _ => rfl, sext_eq _⟩
  | lih => cases hk; exact ⟨_, fun _ => rfl, lih_eq ..⟩
  | clz => cases hk; exact ⟨_, fun _ => rfl, clz_eq _⟩
  | ctz => cases hk; exact ⟨_, fun _ => rfl, ctz_eq _⟩
  | popc => cases hk; exact ⟨_, fun _ => rfl, popc_eq _⟩
  | bswap => cases hk; exact ⟨_, fun _ => rfl, bswap_eq _⟩
  | ext => cases hk; exact ⟨_, fun _ => rfl, ext_eq ..⟩
  | ins =>
    have hfit := of_decide_eq_true (Bool.and_elim_right hw)
    cases hk
    exact ⟨_, fun _ => rfl, ins_eq _ _ _ _ (by omega)⟩
  | sel => cases hk; exact ⟨_, fun _ => rfl, ite_pred_k ..⟩
  | _ => cases hk

/-- An instruction of the table that runs to its end writes its result to its destination, and retires. -/
theorem exec_kResult {s : State} {i : Instr} {h : Hdr} {d : BitVec 6} {v : Word} (hw : wf s.cur.2 i = true)
    (hk : kResult (here s) i = some (h, d, v)) (hr : Ready s h) :
    exec i s = .next (retire (onHere (popped s h) fun c => c.setX d v) h (after s 8)) := by
  have hq : s.cur.2 = .k := seq_of_kResult hw hk
  rw [← kResult_bare (popped_bare s h)] at hk
  obtain ⟨f, hf, hv⟩ := exec_of_kResult (hq ▸ hw) hk
  rw [hf]
  exact runX_next hq hr hv

/-- R208, R211, R214: the words of kWord decode on K. -/
theorem decodeList_kWord {i : Instr} {w : Word} (hw : wf .k i = true) (hk : kWord i = some w) :
    decodeList .k [w] = .ok i := by
  cases i with
  | add | sub | mul | mulh | mulhn | div | divn | rem | remn | and | or | xor | andn | orn | shl | shr | sar | rol
  | min | max | minn | maxn => cases hk; exact decodeList_intOp hw rfl
  | clz | ctz | popc | brev | bswap => cases hk; exact decodeList_bitOp hw rfl
  | sel _ _ _ _ pn =>
    cases hk
    have hp : (pn.setWidth 18).toNat < 32 := by
      have := pn.isLt
      simp only [BitVec.toNat_setWidth]
      omega
    rw [decodeList_sel hw, if_pos hp]
    simp
  | _ => cases hk

/-- Settles O1: the table of results against the meanings, instruction by instruction; the words by their groups. -/
theorem kRegisterResults : Obligations.KRegisterResults := by
  unfold Obligations.KRegisterResults
  refine ⟨fun s i h d v hw hk hr => exec_kResult hw hk hr, fun i w hw hk => decodeList_kWord hw hk, ?_⟩
  intro h imm a b c hw hi
  rw [decodeList_sel hw, if_neg (by omega)]

/-! ## Compares and predicate instructions (R213, R215, R230) -/

/-- The table of K's compares and predicate instructions against their meanings. -/
theorem exec_of_pResult {c : CoreSt} {i : Instr} {h : Hdr} {p : BitVec 5} {v : Bool} (hw : wf .k i = true)
    (hp : pResult c .k i = some (h, p, v)) : ∃ f : CoreSt → Bool, (∀ s, exec i s = runP h p f s) ∧ f c = v := by
  cases i with
  | cmp => cases hp; exact ⟨_, fun _ => rfl, condOn_eq_holds ..⟩
  | cmpi => cases hp; exact ⟨_, fun _ => rfl, by rw [condOn_eq_holds, cmpImm_eq_compared]⟩
  | pand | por | pxor | pandn | pnot | pmov =>
    cases hp; exact ⟨_, fun _ => rfl, by simp only [pred_eq_predOf]⟩
  | acmp | acmpi => cases hw
  | _ => cases hp

/-- An instruction of L or S whose effect writes one predicate of its own sequencer. -/
theorem runSeq_setPred_ls {h : Hdr} {p : BitVec 5} {v : Bool} {body : M Go} {s : State} (hq : onLS s.cur.2 = true)
    (hr : Ready s h)
    (hb : ∀ t, here t = here (popped s h) → t.cur = s.cur →
      body.run t = .ok ({}, onHere t fun c => c.setPred s.cur.2 p v)) :
    runSeq onLS 8 false h body s =
      .next (retire (onHere (popped s h) fun c => c.setPred s.cur.2 p v) h (after s 8)) :=
  runSeq_update hq hr (by simp) (hb _ rfl (popped_cur s h)) (calm_setPred _ p v)

/-- The compares of address registers (R230). -/
theorem exec_pResult_ls {s : State} {i : Instr} {h : Hdr} {p : BitVec 5} {v : Bool} (hw : wf s.cur.2 i = true)
    (hq : s.cur.2 ≠ .k) (hp : pResult (here (popped s h)) s.cur.2 i = some (h, p, v)) (hr : Ready s h) :
    exec i s = .next (retire (onHere (popped s h) fun c => c.setPred s.cur.2 p v) h (after s 8)) := by
  cases i with
  | acmp | acmpi =>
    have hls : onLS s.cur.2 = true := Bool.and_elim_left (Bool.and_elim_left hw)
    cases hp
    apply runSeq_setPred_ls hls hr
    intro t ht hc
    simp only [← ht, ← hc, ← cmpImm_eq_compared, ← condOn_eq_holds]
    rfl
  | cmp | cmpi | pand | por | pxor | pandn | pnot | pmov =>
    exact absurd (seq_eq_k (Bool.and_elim_left hw)) hq
  | _ => cases hp

/-- An instruction of the table that runs to its end writes its result to its predicate, and retires. -/
theorem exec_pResult {s : State} {i : Instr} {h : Hdr} {p : BitVec 5} {v : Bool} (hw : wf s.cur.2 i = true)
    (hp : pResult (here s) s.cur.2 i = some (h, p, v)) (hr : Ready s h) :
    exec i s = .next (retire (onHere (popped s h) fun c => c.setPred s.cur.2 p v) h (after s 8)) := by
  rw [← pResult_bare (popped_bare s h)] at hp
  by_cases hq : s.cur.2 = .k
  · obtain ⟨f, hf, hv⟩ := exec_of_pResult (hq ▸ hw) (hq ▸ hp)
    rw [hf]
    exact runP_next hq hr hv
  · exact exec_pResult_ls hw hq hp hr

/-- R215: the words of pWord decode on K. -/
theorem decodeList_pWord {i : Instr} {w : Word} (hw : wf .k i = true) (hk : pWord i = some w) :
    decodeList .k [w] = .ok i := by
  cases i with
  | pand | por | pxor | pandn =>
    have hh := Bool.and_elim_left hw
    have hpd := bne_iff_ne.mp (Bool.and_elim_right hw)
    cases hk
    exact (decodeList_predOp hh (fun h4 => absurd h4 (by decide)) rfl).trans (if_neg hpd)
  | pnot | pmov =>
    have hh := Bool.and_elim_left hw
    have hpd := bne_iff_ne.mp (Bool.and_elim_right hw)
    cases hk
    exact (decodeList_predOp hh (fun _ => rfl) rfl).trans (if_neg hpd)
  | _ => cases hk

/-- Settles O2: the table of results against the meanings, on K and on L and S; the words by their group. -/
theorem predicateResults : Obligations.PredicateResults := by
  unfold Obligations.PredicateResults
  refine ⟨fun s i h p v hw hp hr => exec_pResult hw hp hr, fun i w hw hk => decodeList_pWord hw hk, ?_⟩
  intro h minor pa pb hw hm hb
  obtain ⟨i, hi⟩ := predOp_of_lt hm h 0 pa pb
  exact (decodeList_predOp hw hb hi).trans (if_pos rfl)

end Sys2Proof
end
